-- ==== Sys2Proof/Word.lean ====
section
/-! DEFINITION. The word types of the block (00_scope R8, R9, R11): every value is an unsigned integer of a stated
width, so every register and operand is a bit vector of that width. -/

namespace Sys2Proof

/-- A byte of a stream or of a byte array (10_state R45: "The byte is 8 bits everywhere"). -/
abbrev Byte := BitVec 8

/-- A Symbol: "a byte value, domain 0–255" (R8). -/
abbrev Sym := BitVec 8

/-- A count, a weight, an operand or a result: 64 bits unsigned (R9, `W_BITS`). -/
abbrev Word64 := BitVec 64

/-- A node id: the 9-bit index of a node slot (R9, `NODE_BITS`). -/
abbrev NodeId := BitVec 9

/-- The absent node, `NIL = 0x1FF` (R9). -/
def nil : NodeId := 0x1FF#9

end Sys2Proof
end

