-- ==== Sys2Proof/Machine/Bits.lean ====
section
/-! DEFINITION. Bit and byte helpers: rounding bits up to bytes (00_scope R11), the bit order of the body (20_memory R67) and
the little-endian byte order of the header (20_memory R68). -/

namespace Sys2Proof.Machine

open Sys2Proof

/-- `ceil8(n) = (n + 7) div 8` (R11), on unbounded numbers, so that it never overflows (42 R149 (c)). -/
def ceil8 (n : Nat) : Nat := (n + 7) / 8

/-- A byte with bit `k` set or cleared, the other bits unchanged (45 R180). -/
def setBit (b : Byte) (k : Nat) (v : Bool) : Byte :=
  if v then b ||| BitVec.twoPow 8 k else b &&& ~~~(BitVec.twoPow 8 k)

/-- A byte with only its `r` low bits kept: `b and (2^r - 1)` (45 R182). -/
def lowBits (b : Byte) (r : Nat) : Byte := b &&& BitVec.ofNat 8 (2 ^ r - 1)

/-- The `n` low bytes of a number, least significant first (R68). -/
def leBytes : Nat → Nat → List Byte
  | 0, _ => []
  | n + 1, v => BitVec.ofNat 8 v :: leBytes n (v / 256)

/-- The number that bytes spell, least significant first (R68). -/
def leNat : List Byte → Nat
  | [] => 0
  | b :: rest => b.toNat + 256 * leNat rest

end Sys2Proof.Machine
end

