-- ==== Sys2Proof/Config.lean ====
section
/-! DEFINITION. The parameters of an instance (00_scope R10), the sizes fixed by the specification (R8, R9), and the one free
value. What the environment chooses is data of the state (Machine/State.lean, `Env`). -/

namespace Sys2Proof

/-- The named parameters of R10. They are constants of the instance (70 R246), kept as one record in the state so that a
statement about all states speaks for every value of them (log entry 6, DESIGN CHOICE). -/
structure Params where
  /-- `BLOCK_BYTES`, the size of one BitChannel block in bytes. -/
  blockBytes : Nat
  /-- `MAX_CODE_BITS`, the longest code the generator accepts. -/
  maxCodeBits : Nat
  /-- `TAG_LEAF`, the leaf tag byte of the serialized tree. -/
  tagLeaf : Byte
  /-- `TAG_INTERNAL`, the internal tag byte. -/
  tagInternal : Byte
  /-- `MAGIC`, the 32-bit format marker. -/
  magic : BitVec 32
deriving DecidableEq, Repr

/-- The defaults of R10's table. -/
def Params.default : Params :=
  { blockBytes := 4096, maxCodeBits := 255, tagLeaf := 0x4C#8, tagInternal := 0x49#8, magic := 0xBEEFD00D#32 }

/-- The constraints of R10's table. -/
abbrev Params.Valid (p : Params) : Prop :=
  1 ≤ p.blockBytes ∧ 1 ≤ p.maxCodeBits ∧ p.maxCodeBits ≤ 255 ∧ p.tagLeaf ≠ p.tagInternal

/-- The word that stands for a count of 2^64 or more, for which no rule states the 64 bits of `rdata` (log entry 13, DESIGN
CHOICE). It has no body, so nothing can rest on its value. -/
opaque Config.freeCount : Nat → Word64

/-- `BLOCK_BITS = 8 * BLOCK_BYTES` (R10). -/
def Params.blockBits (p : Params) : Nat := 8 * p.blockBytes

/-- `NODE_MAX = 2*ALPHABET - 1`, the number of node slots (R9). -/
def nodeMax : Nat := 511

/-- `STACK_CAP = ALPHABET`, the depth of the codec's stack (R9). -/
def stackCap : Nat := 256

/-- `QUEUE_SLOTS = ALPHABET`, the capacity of the queue at reset and in a build (R9). -/
def queueSlots : BitVec 9 := 256#9

/-- `TBUF_BYTES = 3*ALPHABET - 1`, the size of the tree buffer (R9). -/
def tbufBytes : Nat := 767

/-- Every symbol, in rising order. -/
def allSyms : List Sym := (List.range 256).map (BitVec.ofNat 8)

end Sys2Proof
end

