-- ==== Sys2Proof/Machine/State.lean ====
section
/-! DEFINITION. The state of the machine as plain data (10_state R22 to R44), its environment (20_memory R62, 70 R262), the
reasons a step can stop, and the state after reset. -/

namespace Sys2Proof.Machine

open Sys2Proof

/-- The content of a byte array: (index, byte) pairs with indices strictly rising and no zero byte; an unlisted index reads
as 0, its reset content (10_state R44). Reading, writing and the canonical form are in Machine/Ops.lean. -/
abbrev Memory := List Host.Cell

/-- A CodeTreeNode: "a tagged variant — `Leaf{symbol, weight}` or `Internal{weight, left, right}`" (10_state R24). -/
inductive Node where
  | leaf (sym : Sym) (weight : Word64)
  | internal (weight : Word64) (left right : NodeId)
deriving DecidableEq, Repr

/-- An entry of the code table (10_state R29): bit `i` of `bits` is the i-th branch of the path, the root's first. -/
structure CodeEntry where
  valid : Bool
  len : BitVec 8
  bits : BitVec 256
deriving DecidableEq, Repr

/-- The eight statuses a command can end with (30_encoding R95). -/
inductive Status where
  | ok | fail | eos | illegal | faulted | errFormat | errCapacity | errIo
deriving DecidableEq, Repr

/-- A response of the block: a status and 64 bits of result (30_encoding R90). -/
structure Response where
  status : Status
  rdata : Word64
deriving DecidableEq, Repr

/-- The three kinds of error (60_exceptions R215). -/
inductive ErrorKind where
  | format | capacity | io
deriving DecidableEq, Repr

/-- The causes of error, one for each row of 60_exceptions R216. -/
inductive Cause where
  | badMagic | shortHeader | shortTree | stackUnderflow | badDepth | badTag | cutLeaf | truncatedBody | leafRoot
  | queueFull | stackFull | codeTooLong | poolExhausted | treeTooLarge | countOverflow
  | readFailed | writeFailed | rewindFailed | noCode
deriving DecidableEq, Repr

/-- What the environment answers to one `SrcRead` (20_memory R63): up to `k` bytes, or a failure that leaves the source at
position `pos`. -/
inductive ReadAnswer where
  | deliver (k : Nat)
  | fail (pos : Nat)
deriving DecidableEq, Repr

/-- What the environment answers to one `SrcRewind` (20_memory R65): done, or a failure that leaves the source at `pos`. -/
inductive RewindAnswer where
  | done
  | fail (pos : Nat)
deriving DecidableEq, Repr

/-- What the environment answers to one `SinkWrite` (20_memory R66). -/
inductive WriteAnswer where
  | accept
  | fail
deriving DecidableEq, Repr

/-- The streams and what the environment will answer on them (20_memory R62). `sink` is the sequence of writes, oldest first
(R72), and `SINK` is their concatenation (R77 (3)). The three lists hold the coming answers, next first; a request that
finds its list empty is answered by the ideal source or sink (log entry 2, DESIGN CHOICE). -/
structure Env where
  src : List Byte
  spos : Nat
  sink : List (List Byte)
  reads : List ReadAnswer
  rewinds : List RewindAnswer
  writes : List WriteAnswer
deriving DecidableEq, Repr

/-- An event of the environment between two commands (70 R262): the host sends a command, asserts the hardware reset
(R245), or the source changes (R257). -/
inductive HostEvent where
  | command (cw : BitVec 16) (wdata : Word64)
  | hardReset
  | sourceChange (content : List Byte) (pos : Nat)
deriving DecidableEq, Repr

/-- The command port (30_encoding R90): the coming events, next first, and the responses given, oldest first (log entry 4,
DESIGN CHOICE). -/
structure HostPort where
  events : List HostEvent
  responses : List Response
deriving DecidableEq, Repr

/-- The state: the block's own state (10_state R22, every field from `ft` to `errOp`), the parameters of the instance
(00_scope R10), and the environment. -/
@[ext]
structure State where
  /-- The parameters; no step changes them (70 R246). -/
  params : Params
  /-- `FT[0..255]` (R23). -/
  ft : Vector Word64 256
  /-- `NODE[0 .. NODE_NEXT-1]`, the allocated slots in id order; its length is `NODE_NEXT` (R24, log entry 8). -/
  nodes : List Node
  /-- `ROOT` (R25). -/
  root : NodeId
  /-- `Q[0 .. QSIZE-1]`, the slots in use, `Q[0]` first; its length is `QSIZE` (R27, log entry 8). -/
  q : List NodeId
  /-- `QCAP` (R27). -/
  qcap : BitVec 9
  /-- `STK[0 .. SSIZE-1]`, the slots in use, the top `STK[SSIZE-1]` first; its length is `SSIZE` (R28, log entry 8). -/
  stk : List NodeId
  /-- `CT[0..255]` (R29). -/
  ct : Vector CodeEntry 256
  /-- `CT_DONE` (R30). -/
  ctDone : Bool
  /-- `TBUF[0..766]` (R31). -/
  tbuf : Memory
  /-- `TLEN` (R31). -/
  tlen : BitVec 10
  /-- `FILE_SIZE` (R32). -/
  fileSize : Word64
  /-- `H_PERM` (R32). -/
  hPerm : BitVec 16
  /-- `H_TREE_SIZE` (R32). -/
  hTreeSize : BitVec 16
  /-- `WBUF[0 .. BLOCK_BYTES-1]` (R33). -/
  wbuf : Memory
  /-- `W_CURSOR` (R33), 0 to `BLOCK_BITS`. -/
  wCursor : Nat
  /-- `W_TOTAL` (R33). -/
  wTotal : Word64
  /-- `W_DONE` (R33). -/
  wDone : Bool
  /-- `RBUF[0 .. BLOCK_BYTES-1]` (R34). -/
  rbuf : Memory
  /-- `R_LEN` (R34), 0 to `BLOCK_BYTES`. -/
  rLen : Nat
  /-- `R_CURSOR` (R34), 0 to `8*R_LEN`. -/
  rCursor : Nat
  /-- `R_TOTAL` (R34). -/
  rTotal : Word64
  /-- `R_EOS` (R34). -/
  rEos : Bool
  /-- `DCUR` (R35). -/
  dcur : NodeId
  /-- `EMITTED` (R35). -/
  emitted : Word64
  /-- `FAULT` (R36). -/
  fault : Bool
  /-- `ERR_KIND` (R36). -/
  errKind : BitVec 2
  /-- `ERR_CAUSE` (R36). -/
  errCause : BitVec 8
  /-- `ERR_INFO` (R36). -/
  errInfo : Word64
  /-- `ERR_OP` (R36). -/
  errOp : BitVec 8
  /-- The streams (20_memory R62). -/
  env : Env
  /-- The command port (30_encoding R90). -/
  host : HostPort
deriving DecidableEq, Repr

/-- Why a step stops. The specification's own errors are next states (60_exceptions R222); each reason here is raised only in
a state that breaks an invariant of 10_state, which no run from reset reaches (log entry 10). All are safe. -/
inductive Fault where
  /-- A node id that names no allocated slot was followed (breaks R24, R26, R27). Raised by `weightOf`, `insertPos`, the walks
  of `CT_GEN` and `TC_DUMP` and the decode walk. Safe. -/
  | absentNode
  /-- An index outside `TBUF`, `WBUF` or `RBUF` was used (breaks R31, R33 or R34). Raised by `tbufPut`, `tbufTake`,
  `writeBit`, `takeBit` and `WR_FINAL`. Safe. -/
  | noSuchByte
  /-- An extraction from an empty queue inside `TB_BUILD` (R130: "caller guarantees QSIZE >= 1"). Raised by `qExtract`. Safe. -/
  | queueUnderflow
  /-- A loop ran longer than the pool or the source allows (breaks R26 or R34). Raised by the loops of `TB_BUILD`, `TC_DUMP`,
  `FT_SCAN`, `ENC_BODY`, `DEC_SYM` and `DEC_BODY`. Safe. -/
  | loopUnbounded
deriving DecidableEq, Repr

/-- Why a command has no meaning. -/
inductive Refusal where
  /-- Raised only by an arm of `exec` whose command has not been modelled. Safe. -/
  | notModelled (mnemonic : String)
deriving DecidableEq, Repr

/-- The entry of a symbol never seen: `valid = 0, len = 0, bits = 0` (R29, R44). -/
def CodeEntry.none : CodeEntry := { valid := false, len := 0#8, bits := 0#256 }

/-- The block's reset values (10_state R44) over given parameters and a given environment, which a reset does not touch
(70 R246). -/
def State.resetWith (p : Params) (env : Env) (host : HostPort) : State :=
  { params := p
    ft := Vector.replicate 256 0#64
    nodes := []
    root := nil
    q := []
    qcap := queueSlots
    stk := []
    ct := Vector.replicate 256 CodeEntry.none
    ctDone := false
    tbuf := []
    tlen := 0#10
    fileSize := 0#64
    hPerm := 0#16
    hTreeSize := 0#16
    wbuf := []
    wCursor := 0
    wTotal := 0#64
    wDone := false
    rbuf := []
    rLen := 0
    rCursor := 0
    rTotal := 0#64
    rEos := false
    dcur := nil
    emitted := 0#64
    fault := false
    errKind := 0#2
    errCause := 0#8
    errInfo := 0#64
    errOp := 0#8
    env := env
    host := host }

/-- The machine right after a hardware reset (70 R245), with the default parameters (R10) and an environment that holds
nothing yet: an empty source and sink, no answers prepared, no event pending (log entry 9, DESIGN CHOICE). -/
def State.reset : State :=
  State.resetWith Params.default
    { src := [], spos := 0, sink := [], reads := [], rewinds := [], writes := [] }
    { events := [], responses := [] }

end Sys2Proof.Machine
end

