-- ==== Sys2Proof/Machine/Ops.lean ====
section
/-! DEFINITION. The named operations every meaning is built from: byte arrays, tables by symbol, the outcome of a piece of a
command, raising an error (60_exceptions R222) and leaving FAULT (R224), responses, the frame of a command (30_encoding R99),
the node pool, the stack and the stream primitives. -/

namespace Sys2Proof.Machine

open Sys2Proof

/-! ### Byte arrays -/

/-- The byte at an index; an unlisted index reads 0 (10_state R44). -/
def Memory.read : Memory → Nat → Byte
  | [], _ => 0#8
  | (k, b) :: m, a => if k = a then b else Memory.read m a

/-- Writes one byte, keeping the canonical form: writing 0 removes the entry. -/
def Memory.write : Memory → Nat → Byte → Memory
  | [], a, v => if v = 0#8 then [] else [(a, v)]
  | (k, b) :: m, a, v =>
    if a < k then (if v = 0#8 then (k, b) :: m else (a, v) :: (k, b) :: m)
    else if a = k then (if v = 0#8 then m else (a, v) :: m)
    else (k, b) :: Memory.write m a v

/-- The canonical form: indices strictly rising, no entry equal to what an unlisted index reads as. -/
abbrev Memory.wf (m : Memory) : Prop :=
  m.Pairwise (fun x y => x.1 < y.1) ∧ ∀ c ∈ m, c.2 ≠ 0#8

/-- Writes bytes at rising indices from `a` on. -/
def Memory.writeBytes : Memory → Nat → List Byte → Memory
  | m, _, [] => m
  | m, a, b :: bs => Memory.writeBytes (m.write a b) (a + 1) bs

/-- The slice `A[a .. a+n)` (00_scope R12). -/
def Memory.slice (m : Memory) : Nat → Nat → List Byte
  | _, 0 => []
  | a, n + 1 => m.read a :: Memory.slice m (a + 1) n

/-! ### Tables indexed by a symbol (`FT`, `CT`) -/

/-- The element of a table at a symbol. -/
def symGet {α : Type} (t : Vector α 256) (a : Sym) : α := t[a.toNat]'(a.isLt)

/-- A table with the element at a symbol replaced. -/
def symSet {α : Type} (t : Vector α 256) (a : Sym) (v : α) : Vector α 256 := t.set a.toNat v a.isLt

/-! ### The outcome of a piece of a command (00_scope R14) -/

/-- How a piece of a command ends: with a value; by `raise`, the state written before it kept (60 R221); or with a reason of
the model's own to stop (log entry 10). -/
inductive Res (α : Type) where
  | ok (v : α) (s : State)
  | raised (c : Cause) (info : Word64) (s : State)
  | stuck (f : Fault)

/-- Goes on with the value and the state of a piece that ended well. -/
def Res.bind {α β : Type} (r : Res α) (k : α → State → Res β) : Res β :=
  match r with
  | .ok v s => k v s
  | .raised c info s => .raised c info s
  | .stuck f => .stuck f

/-- `return OK(v)` (R14). -/
def answerOk (v : Word64) (s : State) : Res Response := .ok ⟨.ok, v⟩ s

/-- `return FAIL` (R14): `rdata = 0` (30 R94). -/
def answerFail (s : State) : Res Response := .ok ⟨.fail, 0#64⟩ s

/-! ### Errors (60_exceptions R215, R216, R222) -/

/-- The cause codes of R216's table. -/
def Cause.code : Cause → BitVec 8
  | .badMagic => 0x11#8
  | .shortHeader => 0x12#8
  | .shortTree => 0x13#8
  | .stackUnderflow => 0x14#8
  | .badDepth => 0x15#8
  | .badTag => 0x16#8
  | .cutLeaf => 0x17#8
  | .truncatedBody => 0x18#8
  | .leafRoot => 0x19#8
  | .queueFull => 0x21#8
  | .stackFull => 0x22#8
  | .codeTooLong => 0x23#8
  | .poolExhausted => 0x24#8
  | .treeTooLarge => 0x25#8
  | .countOverflow => 0x26#8
  | .readFailed => 0x31#8
  | .writeFailed => 0x32#8
  | .rewindFailed => 0x33#8
  | .noCode => 0x34#8

/-- The kind of a cause (R216, column "kind"). -/
def Cause.kind : Cause → ErrorKind
  | .badMagic | .shortHeader | .shortTree | .stackUnderflow | .badDepth | .badTag | .cutLeaf | .truncatedBody
  | .leafRoot => .format
  | .queueFull | .stackFull | .codeTooLong | .poolExhausted | .treeTooLarge | .countOverflow => .capacity
  | .readFailed | .writeFailed | .rewindFailed | .noCode => .io

/-- The value of `ERR_KIND` for a kind (R215). -/
def ErrorKind.code : ErrorKind → BitVec 2
  | .format => 1#2
  | .capacity => 2#2
  | .io => 3#2

/-- The status a command answers when it raises an error of a kind (R215, R222). -/
def ErrorKind.status : ErrorKind → Status
  | .format => .errFormat
  | .capacity => .errCapacity
  | .io => .errIo

/-- The three bits of a status (30_encoding R95). -/
def Status.code : Status → BitVec 3
  | .ok => 0#3
  | .fail => 1#3
  | .eos => 2#3
  | .illegal => 3#3
  | .faulted => 4#3
  | .errFormat => 5#3
  | .errCapacity => 6#3
  | .errIo => 7#3

/-- Gives the response of a command (30_encoding R90). -/
def State.respond (s : State) (st : Status) (v : Word64) : State :=
  { s with host := { s.host with responses := s.host.responses ++ [⟨st, v⟩] } }

/-- FAULT ENTRY (R222): the error record is written and `FAULT` set; nothing else changes. -/
def State.recordError (s : State) (op : BitVec 8) (c : Cause) (info : Word64) : State :=
  { s with fault := true, errKind := c.kind.code, errCause := c.code, errInfo := info, errOp := op }

/-- `raise` (R222): fault entry, then the response with the kind's status and `rdata = 0`. -/
def State.raiseError (s : State) (op : BitVec 8) (c : Cause) (info : Word64) : State :=
  (s.recordError op c info).respond c.kind.status 0#64

/-- THE RETURN FROM FAULT (R224) and the start of a session (40 R121, 70 R245): every piece of the block's state takes its
reset value; the parameters, the streams and the port are not touched (70 R246). -/
def State.sessionReset (s : State) : State := State.resetWith s.params s.env s.host

/-! ### The frame of a command (30_encoding R99, steps 2 to 4) -/

/-- The end of a command: its answer, or the raise it ended in, as the response given to the host. -/
def finish (op : BitVec 8) : Res Response → Host.Outcome State Fault Refusal
  | .ok r t => .next (t.respond r.status r.rdata)
  | .raised c info t => .next (t.raiseError op c info)
  | .stuck f => .fault f

/-- Handles a decoded command: the FAULT gate (`inFault` is the row's F column, R96), the operand range check (R98), then the
command's rule. `op` is the opcode, recorded as `ERR_OP` by a raise. -/
def runCommand (op : BitVec 8) (inFault legal : Bool) (body : State → Res Response) (s : State) :
    Host.Outcome State Fault Refusal :=
  if s.fault && !inFault then .next (s.respond .faulted 0#64)
  else if !legal then .next (s.respond .illegal 0#64)
  else finish op (body s)

/-! ### The node pool (10_state R24) and the stack (R28) -/

/-- The node in an allocated slot; none when the id names no such slot (`n >= NODE_NEXT`). -/
def nodeAt (s : State) (n : NodeId) : Option Node := s.nodes[n.toNat]?

/-- `NODE[n].weight` of a node. -/
def Node.weight : Node → Word64
  | .leaf _ w => w
  | .internal w _ _ => w

/-- `NODE[n].kind`: 0 = Leaf, 1 = Internal (R24). -/
def Node.kindBit : Node → BitVec 1
  | .leaf _ _ => 0#1
  | .internal _ _ _ => 1#1

/-- `NODE[n].sym`: 0 for an Internal node (R24). -/
def Node.symField : Node → Sym
  | .leaf a _ => a
  | .internal _ _ _ => 0#8

/-- `NODE[n].left`: `NIL` for a Leaf (R24). -/
def Node.leftField : Node → NodeId
  | .leaf _ _ => nil
  | .internal _ l _ => l

/-- `NODE[n].right`: `NIL` for a Leaf (R24). -/
def Node.rightField : Node → NodeId
  | .leaf _ _ => nil
  | .internal _ _ r => r

/-- The child on a side: bit 0 is `left`, bit 1 is `right` (46 R203). -/
def Node.child (nd : Node) (b : Bool) : NodeId := if b then nd.rightField else nd.leftField

/-- The weight of an allocated node. -/
def weightOf (s : State) (n : NodeId) : Option Word64 := (nodeAt s n).map Node.weight

/-- `alloc` (R24): the new node takes slot `NODE_NEXT`; cause 0x24 when the pool is exhausted. -/
def alloc (nd : Node) (s : State) : Res NodeId :=
  if s.nodes.length = nodeMax then .raised .poolExhausted 511#64 s
  else .ok (BitVec.ofNat 9 s.nodes.length) { s with nodes := s.nodes ++ [nd] }

/-- The release of the whole pool, with what would name released slots: the root, the queue's and the stack's entries and the
decode cursor (42 R146, R147, 44 R166). -/
def State.releaseTree (s : State) : State :=
  { s with nodes := [], root := nil, q := [], stk := [], dcur := nil }

/-- `push` (R28): cause 0x22 when the stack is full. `info` is what the error records, the index of the unit (60 R216). -/
def push (n : NodeId) (info : Word64) (s : State) : Res Unit :=
  if s.stk.length = stackCap then .raised .stackFull info s
  else .ok () { s with stk := n :: s.stk }

/-! ### The stream primitives (20_memory R62 to R66) -/

/-- How many bytes of the source lie after its position. -/
def srcLeft (s : State) : Nat := s.env.src.length - s.env.spos

/-- `SrcRead(n)` when the environment delivers up to `k` bytes (R63): at the end no byte, else at least one and at most
`min(n, |SRC| - SPOS)`. -/
def srcDeliver (n k : Nat) (s : State) : Res (List Byte) :=
  let d := (s.env.src.drop s.env.spos).take (min (max 1 k) n)
  .ok d { s with env := { s.env with spos := s.env.spos + d.length } }

/-- `SrcRead(n)` (R63): the next answer of the environment decides, the ideal source when none is prepared (log entry 2). A
failure raises IOError 0x31 and leaves the source where the environment says (log entry 3). -/
def srcRead (n : Nat) (s : State) : Res (List Byte) :=
  match s.env.reads with
  | [] => srcDeliver n n s
  | .deliver k :: rest => srcDeliver n k { s with env := { s.env with reads := rest } }
  | .fail pos :: rest =>
    .raised .readFailed 0#64
      { s with env := { s.env with reads := rest, spos := min pos s.env.src.length } }

/-- The loop of `SrcReadExact`; every read that goes on delivers at least one byte, so `n` rounds suffice. -/
def srcReadLoop : Nat → Nat → State → Res (List Byte)
  | 0, _, s => .ok [] s
  | f + 1, n, s =>
    if n = 0 then .ok [] s
    else
      (srcRead n s).bind fun d s =>
        if d = [] then .ok [] s
        else (srcReadLoop f (n - d.length) s).bind fun out s => .ok (d ++ out) s

/-- `SrcReadExact(n)` (R64): reads until `n` bytes are there or a read returns none. -/
def srcReadExact (n : Nat) (s : State) : Res (List Byte) := srcReadLoop n n s

/-- `SrcRewind()` (R65): back to the first byte, or IOError 0x33. -/
def srcRewind (s : State) : Res Unit :=
  match s.env.rewinds with
  | [] => .ok () { s with env := { s.env with spos := 0 } }
  | .done :: rest => .ok () { s with env := { s.env with rewinds := rest, spos := 0 } }
  | .fail pos :: rest =>
    .raised .rewindFailed 0#64
      { s with env := { s.env with rewinds := rest, spos := min pos s.env.src.length } }

/-- The sink takes one write whole. -/
def sinkAccept (bytes : List Byte) (s : State) : State :=
  { s with env := { s.env with sink := s.env.sink ++ [bytes] } }

/-- `SinkWrite(bytes)` (R66): taken whole, or IOError 0x32 with the sink unchanged. -/
def sinkWrite (bytes : List Byte) (s : State) : Res Unit :=
  match s.env.writes with
  | [] => .ok () (sinkAccept bytes s)
  | .accept :: rest => .ok () (sinkAccept bytes { s with env := { s.env with writes := rest } })
  | .fail :: rest => .raised .writeFailed 0#64 { s with env := { s.env with writes := rest } }

/-! ### Events between commands (70 R262) -/

/-- The state once the next event has been taken from the port. -/
def State.popEvent (s : State) : State :=
  { s with host := { s.host with events := s.host.events.tail } }

/-- The source changed (70 R257): its content and position are the environment's to choose (log entry 11). -/
def State.changeSource (s : State) (content : List Byte) (pos : Nat) : State :=
  { s with env := { s.env with src := content, spos := min pos content.length } }

/-- The answer to a command word that no row matches (30_encoding R97): `ILLEGAL`, no state changes. -/
def State.illegalCommand (s : State) : State := s.respond .illegal 0#64

end Sys2Proof.Machine
end

