-- ==== Sys2Proof/Machine/Flags.lean ====
section
/-! DEFINITION. The flags gathered in `STATUS` (10_state R37) and the derived byte counters (R38). -/

namespace Sys2Proof.Machine

open Sys2Proof

/-- `TREE`: `ROOT != NIL`. -/
def flagTree (s : State) : Bool := s.root != nil

/-- `Q_EMPTY`: `QSIZE = 0`. -/
def flagQEmpty (s : State) : Bool := s.q.length == 0

/-- `Q_FULL`: `QSIZE = QCAP`. -/
def flagQFull (s : State) : Bool := s.q.length == s.qcap.toNat

/-- `D_DESC`: `DCUR != NIL and DCUR != ROOT`. -/
def flagDDesc (s : State) : Bool := s.dcur != nil && s.dcur != s.root

/-- `STATUS` (R37), bit 7 first: `D_DESC, Q_FULL, Q_EMPTY, R_EOS, W_DONE, CT_DONE, TREE, FAULT`. -/
def statusReg (s : State) : BitVec 8 :=
  BitVec.ofBool (flagDDesc s) ++ BitVec.ofBool (flagQFull s) ++ BitVec.ofBool (flagQEmpty s) ++ BitVec.ofBool s.rEos
    ++ BitVec.ofBool s.wDone ++ BitVec.ofBool s.ctDone ++ BitVec.ofBool (flagTree s) ++ BitVec.ofBool s.fault

/-- `BYTES_WRITTEN = ceil8(W_TOTAL)` (R38). -/
def bytesWritten (s : State) : Word64 := BitVec.ofNat 64 (ceil8 s.wTotal.toNat)

/-- `BYTES_READ = ceil8(R_TOTAL)` (R38). -/
def bytesRead (s : State) : Word64 := BitVec.ofNat 64 (ceil8 s.rTotal.toNat)

end Sys2Proof.Machine
end

