-- ==== Sys2Proof/Syntax.lean ====
section
/-! DEFINITION. The commands of HFC-1 (30_encoding R96), one constructor for each row of the opcode table, with the
operands each format carries (R92): `a` for formats A and AW, `wdata` for formats W and AW. A format that ignores `wdata`
has no field for it. Operands are the raw fields, since the range check is a later step than decoding (R99). -/

namespace Sys2Proof

/-- The commands, in the order of the opcode table (R96). -/
inductive Instr where
  -- 40_system.md
  | nop
  | sessionReset
  | rdreg (a : BitVec 8)
  | wrreg (a : BitVec 8) (wdata : Word64)
  -- 41_queue.md
  | qCreate (wdata : Word64)
  | qInsert (wdata : Word64)
  | qExtract
  | nodeLeaf (sym : Sym) (wdata : Word64)
  | nodeGet (wdata : Word64)
  | nodeWeight (wdata : Word64)
  -- 42_tree_builder.md
  | ftClr
  | ftInc (sym : Sym)
  | ftSet (sym : Sym) (wdata : Word64)
  | ftGet (sym : Sym)
  | ftScan
  | ftPad
  | tbBuild
  | treeFree
  -- 43_code_table.md
  | ctGen
  | ctLen (sym : Sym)
  | ctWord (sym : Sym) (wdata : Word64)
  -- 44_tree_codec.md
  | tcDump
  | tcRebuild
  | tcLoad
  | tcStore
  | tbufRd (wdata : Word64)
  | tbufWr (byte : Byte) (wdata : Word64)
  -- 45_bit_channel.md
  | wrSym (sym : Sym)
  | wrFinal
  | rdBit
  -- 46_framing.md
  | hdrPut
  | hdrGet
  | srcRewind
  | encBody
  | decSym
  | decBody
deriving DecidableEq, Repr

/-- The four formats of a command (R92). -/
inductive Format where
  /-- `a` must be 0, `wdata` is ignored. -/
  | n
  /-- `a` is an operand, `wdata` is ignored. -/
  | a
  /-- `a` must be 0, `wdata` is an operand. -/
  | w
  /-- `a` and `wdata` are operands. -/
  | aw
deriving DecidableEq, Repr

/-- The control registers (10_state R39). -/
inductive Reg where
  | id | status | errKind | errCause | errInfo | errOp
  | qcap | qsize | ssize | nodeNext | root
  | fileSize | hPerm | hTreeSize | tlen
  | wCursor | wTotal | bytesWritten
  | rCursor | rLen | rTotal | bytesRead
  | emitted | dcur
deriving DecidableEq, Repr

end Sys2Proof
end

