-- ==== Sys2Proof/Machine/Operands.lean ====
section
/-! DEFINITION. Every operand form: the register map with its reads and writes (10_state R39, R40), the operand ranges
(30_encoding R98) and the fields taken from `wdata` (R93). -/

namespace Sys2Proof.Machine

open Sys2Proof

/-- The register numbers of R39's table. -/
def regMap : List (BitVec 8 × Reg) :=
  [(0x00#8, .id), (0x01#8, .status), (0x02#8, .errKind), (0x03#8, .errCause), (0x04#8, .errInfo), (0x05#8, .errOp),
   (0x08#8, .qcap), (0x09#8, .qsize), (0x0A#8, .ssize), (0x0C#8, .nodeNext), (0x0D#8, .root),
   (0x10#8, .fileSize), (0x11#8, .hPerm), (0x12#8, .hTreeSize), (0x13#8, .tlen),
   (0x18#8, .wCursor), (0x19#8, .wTotal), (0x1A#8, .bytesWritten),
   (0x1C#8, .rCursor), (0x1D#8, .rLen), (0x1E#8, .rTotal), (0x1F#8, .bytesRead),
   (0x20#8, .emitted), (0x21#8, .dcur)]

/-- The register of a number; none for a number that is not in the table. -/
def regOfNum (a : BitVec 8) : Option Reg := (regMap.find? fun row => row.1 == a).map Prod.snd

/-- A count as the 64 bits of `rdata` (30_encoding R94); a count that does not fit is a free value (log entry 13). -/
def countWord (n : Nat) : Word64 := if n < 2 ^ 64 then BitVec.ofNat 64 n else Config.freeCount n

/-- The 64-bit value a register reads as, zero-extended from its width (R39); `ID` is the constant of R41. -/
def readReg (s : State) : Reg → Word64
  | .id => 0x48464331#64
  | .status => (statusReg s).setWidth 64
  | .errKind => s.errKind.setWidth 64
  | .errCause => s.errCause.setWidth 64
  | .errInfo => s.errInfo
  | .errOp => s.errOp.setWidth 64
  | .qcap => s.qcap.setWidth 64
  | .qsize => BitVec.ofNat 64 s.q.length
  | .ssize => BitVec.ofNat 64 s.stk.length
  | .nodeNext => BitVec.ofNat 64 s.nodes.length
  | .root => s.root.setWidth 64
  | .fileSize => s.fileSize
  | .hPerm => s.hPerm.setWidth 64
  | .hTreeSize => s.hTreeSize.setWidth 64
  | .tlen => s.tlen.setWidth 64
  | .wCursor => countWord s.wCursor
  | .wTotal => s.wTotal
  | .bytesWritten => bytesWritten s
  | .rCursor => countWord s.rCursor
  | .rLen => countWord s.rLen
  | .rTotal => s.rTotal
  | .bytesRead => bytesRead s
  | .emitted => s.emitted
  | .dcur => s.dcur.setWidth 64

/-- Which values a register takes from `WRREG` (R40): none for a read-only register. -/
def regAccepts (r : Reg) (v : Word64) : Bool :=
  match r with
  | .fileSize => true
  | .hPerm => v.toNat ≤ 0xFFFF
  | .hTreeSize => v.toNat ≤ 0xFFFF
  | .tlen => v.toNat ≤ tbufBytes
  | _ => false

/-- The state with a writable register holding a value (40 R123); any other register is left alone. -/
def writeReg (s : State) (r : Reg) (v : Word64) : State :=
  match r with
  | .fileSize => { s with fileSize := v }
  | .hPerm => { s with hPerm := v.setWidth 16 }
  | .hTreeSize => { s with hTreeSize := v.setWidth 16 }
  | .tlen => { s with tlen := v.setWidth 10 }
  | _ => s

/-- `RDREG`: the number is in the register map (R98). -/
def rdregLegal (a : BitVec 8) : Bool := (regOfNum a).isSome

/-- `WRREG`: the register is writable and the value legal (R98). -/
def wrregLegal (a : BitVec 8) (v : Word64) : Bool :=
  match regOfNum a with
  | some r => regAccepts r v
  | none => false

/-- `Q_CREATE`: capacity 1..256 (R98, 41 R131). -/
def capacityLegal (v : Word64) : Bool := 1 ≤ v.toNat && v.toNat ≤ 256

/-- A node id operand: `wdata[63:9] = 0` (R98). -/
def nodeIdLegal (v : Word64) : Bool := v.toNat < 512

/-- A `TBUF` index operand: `wdata[63:10] = 0` and at most 766 (R98). -/
def tbufIndexLegal (v : Word64) : Bool := v.toNat ≤ 766

/-- A `CT_WORD` word index operand: `wdata[63:2] = 0` (R98). -/
def wordIndexLegal (v : Word64) : Bool := v.toNat < 4

/-- The node id in `wdata[8:0]`. -/
def nodeIdOf (v : Word64) : NodeId := v.setWidth 9

end Sys2Proof.Machine
end

