-- ==== Sys2Proof/WellFormed.lean ====
section
/-! DEFINITION. When a command is well formed: its operands are in the ranges of 30_encoding R98. An ill-formed command
still decodes, and is answered `ILLEGAL` after the FAULT gate (R99). -/

namespace Sys2Proof

/-- The operand check of R98 for every command. -/
def Instr.wellFormed : Instr → Bool
  | .rdreg a => Machine.rdregLegal a
  | .wrreg a v => Machine.wrregLegal a v
  | .qCreate v => Machine.capacityLegal v
  | .qInsert v | .nodeGet v | .nodeWeight v => Machine.nodeIdLegal v
  | .ctWord _ k => Machine.wordIndexLegal k
  | .tbufRd i | .tbufWr _ i => Machine.tbufIndexLegal i
  | .nop | .sessionReset | .qExtract | .nodeLeaf _ _ | .ftClr | .ftInc _ | .ftSet _ _ | .ftGet _ | .ftScan | .ftPad
  | .tbBuild | .treeFree | .ctGen | .ctLen _ | .tcDump | .tcRebuild | .tcLoad | .tcStore | .wrSym _ | .wrFinal | .rdBit
  | .hdrPut | .hdrGet | .srcRewind | .encBody | .decSym | .decBody => true

end Sys2Proof
end

