-- ==== Sys2Proof/Decode.lean ====
section
/-! DEFINITION. Decoding and encoding of commands (30_encoding R90 to R97), and the assembler line of a command (R104). -/

namespace Sys2Proof

/-- Why a command word is illegal (R97). Both are answered `ILLEGAL` and change nothing: safe. -/
inductive DecodeError where
  /-- The opcode is in no row of R96. -/
  | undefinedOpcode
  /-- A format N or W command with `a != 0`. -/
  | reservedFieldNonZero
deriving DecidableEq, Repr

/-- A row of the opcode map (R96): the opcode, the mnemonic, the format, and the command its operands make. -/
structure OpcodeRow where
  opcode : BitVec 8
  mnemonic : String
  format : Format
  build : BitVec 8 → Word64 → Instr

/-- Rows 0x00 to 0x27 of R96. -/
def opcodeRowsLow : List OpcodeRow :=
  [⟨0x00#8, "NOP", .n, fun _ _ => .nop⟩,
   ⟨0x01#8, "SESSION_RESET", .n, fun _ _ => .sessionReset⟩,
   ⟨0x02#8, "RDREG", .a, fun a _ => .rdreg a⟩,
   ⟨0x03#8, "WRREG", .aw, fun a w => .wrreg a w⟩,
   ⟨0x10#8, "Q_CREATE", .w, fun _ w => .qCreate w⟩,
   ⟨0x11#8, "Q_INSERT", .w, fun _ w => .qInsert w⟩,
   ⟨0x12#8, "Q_EXTRACT", .n, fun _ _ => .qExtract⟩,
   ⟨0x13#8, "NODE_LEAF", .aw, fun a w => .nodeLeaf a w⟩,
   ⟨0x14#8, "NODE_GET", .w, fun _ w => .nodeGet w⟩,
   ⟨0x15#8, "NODE_WEIGHT", .w, fun _ w => .nodeWeight w⟩,
   ⟨0x20#8, "FT_CLR", .n, fun _ _ => .ftClr⟩,
   ⟨0x21#8, "FT_INC", .a, fun a _ => .ftInc a⟩,
   ⟨0x22#8, "FT_SET", .aw, fun a w => .ftSet a w⟩,
   ⟨0x23#8, "FT_GET", .a, fun a _ => .ftGet a⟩,
   ⟨0x24#8, "FT_SCAN", .n, fun _ _ => .ftScan⟩,
   ⟨0x25#8, "FT_PAD", .n, fun _ _ => .ftPad⟩,
   ⟨0x26#8, "TB_BUILD", .n, fun _ _ => .tbBuild⟩,
   ⟨0x27#8, "TREE_FREE", .n, fun _ _ => .treeFree⟩]

/-- Rows 0x30 to 0x65 of R96. -/
def opcodeRowsHigh : List OpcodeRow :=
  [⟨0x30#8, "CT_GEN", .n, fun _ _ => .ctGen⟩,
   ⟨0x31#8, "CT_LEN", .a, fun a _ => .ctLen a⟩,
   ⟨0x32#8, "CT_WORD", .aw, fun a w => .ctWord a w⟩,
   ⟨0x40#8, "TC_DUMP", .n, fun _ _ => .tcDump⟩,
   ⟨0x41#8, "TC_REBUILD", .n, fun _ _ => .tcRebuild⟩,
   ⟨0x42#8, "TC_LOAD", .n, fun _ _ => .tcLoad⟩,
   ⟨0x43#8, "TC_STORE", .n, fun _ _ => .tcStore⟩,
   ⟨0x44#8, "TBUF_RD", .w, fun _ w => .tbufRd w⟩,
   ⟨0x45#8, "TBUF_WR", .aw, fun a w => .tbufWr a w⟩,
   ⟨0x50#8, "WR_SYM", .a, fun a _ => .wrSym a⟩,
   ⟨0x51#8, "WR_FINAL", .n, fun _ _ => .wrFinal⟩,
   ⟨0x52#8, "RD_BIT", .n, fun _ _ => .rdBit⟩,
   ⟨0x60#8, "HDR_PUT", .n, fun _ _ => .hdrPut⟩,
   ⟨0x61#8, "HDR_GET", .n, fun _ _ => .hdrGet⟩,
   ⟨0x62#8, "SRC_REWIND", .n, fun _ _ => .srcRewind⟩,
   ⟨0x63#8, "ENC_BODY", .n, fun _ _ => .encBody⟩,
   ⟨0x64#8, "DEC_SYM", .n, fun _ _ => .decSym⟩,
   ⟨0x65#8, "DEC_BODY", .n, fun _ _ => .decBody⟩]

/-- The opcode map (R96), 36 rows. -/
def opcodeRows : List OpcodeRow := opcodeRowsLow ++ opcodeRowsHigh

/-- The bits of `CW` a format fixes: all 16 for N and W, the high byte for A and AW (R96). -/
def Format.mask : Format → BitVec 16
  | .n | .w => 0xFFFF#16
  | .a | .aw => 0xFF00#16

/-- Whether a format uses `wdata` (R92). -/
def Format.usesWdata : Format → Bool
  | .n | .a => false
  | .w | .aw => true

/-- `CW[15:8]` (R91). -/
def opcodeOf (cw : BitVec 16) : BitVec 8 := cw.extractLsb' 8 8

/-- `CW[7:0]` (R91). -/
def operandOf (cw : BitVec 16) : BitVec 8 := cw.extractLsb' 0 8

/-- The row of an opcode. -/
def rowOf (op : BitVec 8) : Option OpcodeRow := opcodeRows.find? fun row => row.opcode == op

/-- Step 1 of R99: the command a `CW` and a `wdata` stand for, or why there is none (R97). -/
def decode (cw : BitVec 16) (wdata : Word64) : Except DecodeError Instr :=
  match rowOf (opcodeOf cw) with
  | none => .error .undefinedOpcode
  | some row =>
    if (row.format = .n ∨ row.format = .w) ∧ operandOf cw ≠ 0#8 then .error .reservedFieldNonZero
    else .ok (row.build (operandOf cw) wdata)

/-- The instruction a table word of `nbits` bits stands for: `CW` is bits 15..0 and `wdata` counts on from bit 16; every bit
above `nbits` is 0 (log entry 16). -/
def decodeTableWord (nbits w : Nat) : Option Instr :=
  match decode (BitVec.ofNat 16 (w % 2 ^ nbits)) (BitVec.ofNat 64 ((w % 2 ^ nbits) / 2 ^ 16)) with
  | .ok i => some i
  | .error _ => none

/-- The opcode of a command (R96). -/
def Instr.opcode : Instr → BitVec 8
  | .nop => 0x00#8
  | .sessionReset => 0x01#8
  | .rdreg _ => 0x02#8
  | .wrreg _ _ => 0x03#8
  | .qCreate _ => 0x10#8
  | .qInsert _ => 0x11#8
  | .qExtract => 0x12#8
  | .nodeLeaf _ _ => 0x13#8
  | .nodeGet _ => 0x14#8
  | .nodeWeight _ => 0x15#8
  | .ftClr => 0x20#8
  | .ftInc _ => 0x21#8
  | .ftSet _ _ => 0x22#8
  | .ftGet _ => 0x23#8
  | .ftScan => 0x24#8
  | .ftPad => 0x25#8
  | .tbBuild => 0x26#8
  | .treeFree => 0x27#8
  | .ctGen => 0x30#8
  | .ctLen _ => 0x31#8
  | .ctWord _ _ => 0x32#8
  | .tcDump => 0x40#8
  | .tcRebuild => 0x41#8
  | .tcLoad => 0x42#8
  | .tcStore => 0x43#8
  | .tbufRd _ => 0x44#8
  | .tbufWr _ _ => 0x45#8
  | .wrSym _ => 0x50#8
  | .wrFinal => 0x51#8
  | .rdBit => 0x52#8
  | .hdrPut => 0x60#8
  | .hdrGet => 0x61#8
  | .srcRewind => 0x62#8
  | .encBody => 0x63#8
  | .decSym => 0x64#8
  | .decBody => 0x65#8

/-- The operand `a` of a command, 0 for formats N and W (R92). -/
def Instr.operandA : Instr → BitVec 8
  | .rdreg a | .wrreg a _ | .nodeLeaf a _ | .ftInc a | .ftSet a _ | .ftGet a | .ctLen a | .ctWord a _ | .tbufWr a _
  | .wrSym a => a
  | .nop | .sessionReset | .qCreate _ | .qInsert _ | .qExtract | .nodeGet _ | .nodeWeight _ | .ftClr | .ftScan | .ftPad
  | .tbBuild | .treeFree | .ctGen | .tcDump | .tcRebuild | .tcLoad | .tcStore | .tbufRd _ | .wrFinal | .rdBit | .hdrPut
  | .hdrGet | .srcRewind | .encBody | .decSym | .decBody => 0#8

/-- The operand `wdata` of a command, written as 0 where the format ignores it (R104). -/
def Instr.operandW : Instr → Word64
  | .wrreg _ w | .qCreate w | .qInsert w | .nodeLeaf _ w | .nodeGet w | .nodeWeight w | .ftSet _ w | .ctWord _ w
  | .tbufRd w | .tbufWr _ w => w
  | .nop | .sessionReset | .rdreg _ | .qExtract | .ftClr | .ftInc _ | .ftGet _ | .ftScan | .ftPad | .tbBuild | .treeFree
  | .ctGen | .ctLen _ | .tcDump | .tcRebuild | .tcLoad | .tcStore | .wrSym _ | .wrFinal | .rdBit | .hdrPut | .hdrGet
  | .srcRewind | .encBody | .decSym | .decBody => 0#64

/-- The command word and the operand the host sends for a command (R90, R91). -/
def encode (i : Instr) : BitVec 16 × Word64 := (i.opcode ++ i.operandA, i.operandW)

/-- The operands of a listing line, as decimal numbers (R104). -/
def operandText (f : Format) (i : Instr) : String :=
  match f with
  | .n => ""
  | .a => " " ++ toString i.operandA.toNat
  | .w => " " ++ toString i.operandW.toNat
  | .aw => " " ++ toString i.operandA.toNat ++ ", " ++ toString i.operandW.toNat

/-- The listing line of a command: `MNEMONIC [a] [, wdata]` (R104, log entry 17). -/
def listing (i : Instr) : String :=
  match rowOf i.opcode with
  | some row => row.mnemonic ++ operandText row.format i
  | none => ""

end Sys2Proof
end

