-- ==== Sys2Proof/Machine/Queue.lean ====
section
/-! DEFINITION. The BoundedOrderedQueue and the node commands (41_queue R130 to R136). -/

namespace Sys2Proof.Machine

open Sys2Proof

/-- The number of entries whose weight is at most `w` (R130, the place `p` of `q_insert`); none when an entry names no
allocated slot. -/
def insertPos (s : State) (w : Word64) : List NodeId → Option Nat
  | [] => some 0
  | m :: rest =>
    match weightOf s m, insertPos s w rest with
    | some wm, some p => some (if wm ≤ w then p + 1 else p)
    | _, _ => none

/-- `q_insert(n)` (R130): behind every entry of lower or equal weight; cause 0x21 when the queue is full. -/
def qInsert (n : NodeId) (s : State) : Res Unit :=
  if s.q.length = s.qcap.toNat then .raised .queueFull (n.setWidth 64) s
  else
    match weightOf s n with
    | none => .stuck .absentNode
    | some w =>
      match insertPos s w s.q with
      | none => .stuck .absentNode
      | some p => .ok () { s with q := s.q.take p ++ n :: s.q.drop p }

/-- `q_extract()` (R130): takes `Q[0]`. -/
def qExtract (s : State) : Res NodeId :=
  match s.q with
  | [] => .stuck .queueUnderflow
  | n :: rest => .ok n { s with q := rest }

/-- `Q_CREATE cap` (R131). -/
def execQCreate (v : Word64) (s : State) : Host.Outcome State Fault Refusal :=
  runCommand 0x10#8 false (capacityLegal v) (fun s => answerOk 0#64 { s with qcap := v.setWidth 9, q := [] }) s

/-- `Q_INSERT n` (R132): the absent-node test comes before the capacity test (60 R227). -/
def execQInsert (v : Word64) (s : State) : Host.Outcome State Fault Refusal :=
  runCommand 0x11#8 false (nodeIdLegal v)
    (fun s =>
      if s.nodes.length ≤ (nodeIdOf v).toNat then answerFail s
      else (qInsert (nodeIdOf v) s).bind fun _ s => answerOk 0#64 s) s

/-- `Q_EXTRACT` (R133). -/
def execQExtract (s : State) : Host.Outcome State Fault Refusal :=
  runCommand 0x12#8 false true
    (fun s =>
      if s.q.length = 0 then answerFail s
      else (qExtract s).bind fun n s => answerOk (n.setWidth 64) s) s

/-- `NODE_LEAF sym, weight` (R134). -/
def execNodeLeaf (a : Sym) (w : Word64) (s : State) : Host.Outcome State Fault Refusal :=
  runCommand 0x13#8 false true (fun s => (alloc (.leaf a w) s).bind fun n s => answerOk (n.setWidth 64) s) s

/-- The packed fields of a node (R135): `right, left, sym, kind`, 27 bits. -/
def nodeFields (nd : Node) : BitVec 27 := nd.rightField ++ nd.leftField ++ nd.symField ++ nd.kindBit

/-- `NODE_GET n` (R135). -/
def execNodeGet (v : Word64) (s : State) : Host.Outcome State Fault Refusal :=
  runCommand 0x14#8 true (nodeIdLegal v)
    (fun s =>
      match nodeAt s (nodeIdOf v) with
      | none => answerFail s
      | some nd => answerOk ((nodeFields nd).setWidth 64) s) s

/-- `NODE_WEIGHT n` (R136). -/
def execNodeWeight (v : Word64) (s : State) : Host.Outcome State Fault Refusal :=
  runCommand 0x15#8 true (nodeIdLegal v)
    (fun s =>
      match weightOf s (nodeIdOf v) with
      | none => answerFail s
      | some w => answerOk w s) s

end Sys2Proof.Machine
end

