-- ==== Sys2Proof/Machine/Builder.lean ====
section
/-! DEFINITION. The frequency table and the TreeBuilder (42_tree_builder R140 to R147). -/

namespace Sys2Proof.Machine

open Sys2Proof

/-- Counts one occurrence of a symbol (R141, R144): cause 0x26, before either counter is written, when one of them stands at
`2^64 - 1`. -/
def countByte (b : Byte) (s : State) : Res Unit :=
  if symGet s.ft b = BitVec.allOnes 64 ∨ s.fileSize = BitVec.allOnes 64 then
    .raised .countOverflow (b.setWidth 64) s
  else .ok () { s with ft := symSet s.ft b (symGet s.ft b + 1#64), fileSize := s.fileSize + 1#64 }

/-- Counts the bytes of a chunk, in order (R144). -/
def countBytes : List Byte → State → Res Unit
  | [], s => .ok () s
  | b :: rest, s => (countByte b s).bind fun _ s => countBytes rest s

/-- The loop of `FT_SCAN` (R144): each round that goes on takes at least one byte of the source. -/
def scanLoop : Nat → Nat → State → Res Nat
  | 0, _, _ => .stuck .loopUnbounded
  | f + 1, scanned, s =>
    (srcRead s.params.blockBytes s).bind fun d s =>
      if d = [] then .ok scanned s
      else (countBytes d s).bind fun _ s => scanLoop f (scanned + d.length) s

/-- The number of symbols with a non-zero count (R145, R146). -/
def nonZeroCounts (s : State) : Nat := (allSyms.filter fun a => symGet s.ft a != 0#64).length

/-- A count forced to at least 1 (R145). -/
def forceCount (a : Sym) (s : State) : State :=
  if symGet s.ft a = 0#64 then { s with ft := symSet s.ft a 1#64 } else s

/-- The padding policy (R145). -/
def padCounts (s : State) : State :=
  if nonZeroCounts s < 2 then forceCount 1#8 (forceCount 0#8 s) else s

/-- The leaves of `TB_BUILD` (R146): one for each symbol with a non-zero count, made and queued in the given order. -/
def insertLeaves : List Sym → State → Res Unit
  | [], s => .ok () s
  | a :: rest, s =>
    if symGet s.ft a = 0#64 then insertLeaves rest s
    else
      (alloc (.leaf a (symGet s.ft a)) s).bind fun n s =>
        (qInsert n s).bind fun _ s => insertLeaves rest s

/-- One combine step of `TB_BUILD` (R146): the two lowest entries become an Internal node, `left` the first extracted; the sum
is formed as an unbounded integer, cause 0x26 when it does not fit 64 bits. -/
def combineStep (s : State) : Res Unit :=
  (qExtract s).bind fun a s =>
    (qExtract s).bind fun b s =>
      match weightOf s a, weightOf s b with
      | some wa, some wb =>
        if 2 ^ 64 ≤ wa.toNat + wb.toNat then .raised .countOverflow 256#64 s
        else (alloc (.internal (wa + wb) a b) s).bind fun n s => qInsert n s
      | _, _ => .stuck .absentNode

/-- The loop of `TB_BUILD` (R146): "While more than one node remains queued". -/
def combineLoop : Nat → State → Res Unit
  | 0, s => if 1 < s.q.length then .stuck .loopUnbounded else .ok () s
  | f + 1, s =>
    if 1 < s.q.length then (combineStep s).bind fun _ s => combineLoop f s else .ok () s

/-- `TB_BUILD`'s rule (R146). -/
def buildTree (s : State) : Res Response :=
  if nonZeroCounts s < 2 then answerFail s
  else
    (insertLeaves allSyms { s.releaseTree with qcap := queueSlots }).bind fun _ s =>
      (combineLoop s.q.length s).bind fun _ s =>
        (qExtract s).bind fun r s => answerOk (r.setWidth 64) { s with root := r }

/-- `FT_CLR` (R140). -/
def execFtClr (s : State) : Host.Outcome State Fault Refusal :=
  runCommand 0x20#8 false true (fun s => answerOk 0#64 { s with ft := Vector.replicate 256 0#64 }) s

/-- `FT_INC sym` (R141). -/
def execFtInc (a : Sym) (s : State) : Host.Outcome State Fault Refusal :=
  runCommand 0x21#8 false true (fun s => (countByte a s).bind fun _ s => answerOk 0#64 s) s

/-- `FT_SET sym, count` (R142). -/
def execFtSet (a : Sym) (v : Word64) (s : State) : Host.Outcome State Fault Refusal :=
  runCommand 0x22#8 false true (fun s => answerOk 0#64 { s with ft := symSet s.ft a v }) s

/-- `FT_GET sym` (R143). -/
def execFtGet (a : Sym) (s : State) : Host.Outcome State Fault Refusal :=
  runCommand 0x23#8 true true (fun s => answerOk (symGet s.ft a) s) s

/-- `FT_SCAN` (R144). -/
def execFtScan (s : State) : Host.Outcome State Fault Refusal :=
  runCommand 0x24#8 false true
    (fun s => (scanLoop (srcLeft s + 1) 0 s).bind fun n s => answerOk (BitVec.ofNat 64 n) s) s

/-- `FT_PAD` (R145). -/
def execFtPad (s : State) : Host.Outcome State Fault Refusal :=
  runCommand 0x25#8 false true
    (fun s => answerOk (BitVec.ofNat 64 (nonZeroCounts (padCounts s))) (padCounts s)) s

/-- `TB_BUILD` (R146). -/
def execTbBuild (s : State) : Host.Outcome State Fault Refusal :=
  runCommand 0x26#8 false true buildTree s

/-- `TREE_FREE` (R147). -/
def execTreeFree (s : State) : Host.Outcome State Fault Refusal :=
  runCommand 0x27#8 false true (fun s => answerOk 0#64 s.releaseTree) s

end Sys2Proof.Machine
end

