-- ==== Sys2Proof/Machine/CodeTable.lean ====
section
/-! DEFINITION. The CodeTableGenerator (43_code_table R155 to R157). -/

namespace Sys2Proof.Machine

open Sys2Proof

/-- `walk(n, len, bits)` (R155), the left subtree before the right one. `room` is `MAX_CODE_BITS - len`: an Internal node
with no room left raises cause 0x23. -/
def walk (room : Nat) (n : NodeId) (len : Nat) (bits : BitVec 256) (s : State) : Res Unit :=
  match nodeAt s n with
  | none => .stuck .absentNode
  | some (.leaf a _) =>
    .ok () { s with ct := symSet s.ct a { valid := true, len := BitVec.ofNat 8 len, bits := bits } }
  | some (.internal _ l r) =>
    match room with
    | 0 => .raised .codeTooLong (n.setWidth 64) s
    | room + 1 =>
      (walk room l (len + 1) bits s).bind fun _ s => walk room r (len + 1) (bits ||| BitVec.twoPow 256 len) s

/-- The number of symbols with a valid code (R155). -/
def validCodes (s : State) : Nat := (allSyms.filter fun a => (symGet s.ct a).valid).length

/-- `CT_GEN`'s rule (R155). -/
def generateCodes (s : State) : Res Response :=
  if s.root = nil then answerFail s
  else
    (walk s.params.maxCodeBits s.root 0 0#256
        { s with ct := Vector.replicate 256 CodeEntry.none, ctDone := false }).bind fun _ s =>
      answerOk (BitVec.ofNat 64 (validCodes s)) { s with ctDone := true }

/-- The word `CT_LEN` reads: bit 8 = valid, bits 7:0 = len (R156). -/
def codeLenWord (e : CodeEntry) : BitVec 9 := BitVec.ofBool e.valid ++ e.len

/-- `bits[64*k + 63 : 64*k]` of an entry (R157). -/
def codeWord (e : CodeEntry) (k : Nat) : Word64 := e.bits.extractLsb' (64 * k) 64

/-- `CT_GEN` (R155). -/
def execCtGen (s : State) : Host.Outcome State Fault Refusal :=
  runCommand 0x30#8 false true generateCodes s

/-- `CT_LEN sym` (R156). -/
def execCtLen (a : Sym) (s : State) : Host.Outcome State Fault Refusal :=
  runCommand 0x31#8 true true (fun s => answerOk ((codeLenWord (symGet s.ct a)).setWidth 64) s) s

/-- `CT_WORD sym, k` (R157). -/
def execCtWord (a : Sym) (k : Word64) (s : State) : Host.Outcome State Fault Refusal :=
  runCommand 0x32#8 true (wordIndexLegal k) (fun s => answerOk (codeWord (symGet s.ct a) (k.setWidth 2).toNat) s) s

end Sys2Proof.Machine
end

