-- ==== Sys2Proof/Machine/Codec.lean ====
section
/-! DEFINITION. The TreeCodec (44_tree_codec R165 to R170). -/

namespace Sys2Proof.Machine

open Sys2Proof

/-- Writes one byte of `TBUF` inside a command; `TBUF` has the indices 0..766 (10_state R31). -/
def tbufPut (i : Nat) (b : Byte) (s : State) : Res Unit :=
  if i < tbufBytes then .ok () { s with tbuf := s.tbuf.write i b } else .stuck .noSuchByte

/-- Reads one byte of `TBUF` inside a command. -/
def tbufTake (i : Nat) (s : State) : Res Byte :=
  if i < tbufBytes then .ok (s.tbuf.read i) s else .stuck .noSuchByte

/-- `TBUF[TLEN] <- b`, then `TLEN` grows by one. -/
def tbufAppend (b : Byte) (s : State) : Res Unit :=
  (tbufPut s.tlen.toNat b s).bind fun _ s => .ok () { s with tlen := s.tlen + 1#10 }

/-- `post(n)` (R165): left, right, self. `depth` bounds the walk by the size of the pool. -/
def post (depth : Nat) (n : NodeId) (s : State) : Res Unit :=
  match nodeAt s n with
  | none => .stuck .absentNode
  | some (.leaf a _) => (tbufAppend s.params.tagLeaf s).bind fun _ s => tbufAppend a s
  | some (.internal _ l r) =>
    match depth with
    | 0 => .stuck .loopUnbounded
    | depth + 1 =>
      (post depth l s).bind fun _ s =>
        (post depth r s).bind fun _ s => tbufAppend s.params.tagInternal s

/-- `TC_DUMP`'s rule (R165). -/
def dumpTree (s : State) : Res Response :=
  if s.root = nil then answerFail s
  else (post nodeMax s.root { s with tlen := 0#10 }).bind fun _ s => answerOk (s.tlen.setWidth 64) s

/-- The leaf unit at index `i` (R166): 0x17 without a symbol byte, 0x22 with a full stack. -/
def leafUnit (i : Nat) (s : State) : Res Unit :=
  if s.tlen.toNat ≤ i + 1 then .raised .cutLeaf (BitVec.ofNat 64 i) s
  else if s.stk.length = stackCap then .raised .stackFull (BitVec.ofNat 64 i) s
  else
    (tbufTake (i + 1) s).bind fun a s =>
      (alloc (.leaf a 0#64) s).bind fun n s => push n (BitVec.ofNat 64 i) s

/-- The internal unit at index `i` (R166): 0x14, before either pop, with fewer than two entries; the first pop is the right
child, the second the left. -/
def internalUnit (i : Nat) (s : State) : Res Unit :=
  match s.stk with
  | r :: l :: rest =>
    (alloc (.internal 0#64 l r) { s with stk := rest }).bind fun n s => push n (BitVec.ofNat 64 i) s
  | _ => .raised .stackUnderflow (BitVec.ofNat 64 i) s

/-- The scan of `TC_REBUILD` from index `i` on (R166); every unit takes at least one byte, so `TLEN` rounds suffice. -/
def rebuildLoop : Nat → Nat → State → Res Unit
  | 0, _, s => .ok () s
  | f + 1, i, s =>
    if s.tlen.toNat ≤ i then .ok () s
    else
      (tbufTake i s).bind fun t s =>
        if t = s.params.tagLeaf then (leafUnit i s).bind fun _ s => rebuildLoop f (i + 2) s
        else if t = s.params.tagInternal then (internalUnit i s).bind fun _ s => rebuildLoop f (i + 1) s
        else .raised .badTag (BitVec.ofNat 64 i) s

/-- `TC_REBUILD`'s rule (R166). -/
def rebuildTree (s : State) : Res Response :=
  (rebuildLoop s.tlen.toNat 0 s.releaseTree).bind fun _ s =>
    match s.stk with
    | [r] => answerOk (r.setWidth 64) { s with root := r, stk := [] }
    | _ => .raised .badDepth (BitVec.ofNat 64 s.stk.length) s

/-- `TC_LOAD`'s rule (R167). -/
def loadTree (s : State) : Res Response :=
  let n := s.hTreeSize.toNat
  if tbufBytes < n then .raised .treeTooLarge (BitVec.ofNat 64 n) s
  else
    (srcReadExact n s).bind fun d s =>
      let s := { s with tbuf := s.tbuf.writeBytes 0 d }
      if d.length < n then .raised .shortTree (BitVec.ofNat 64 d.length) s
      else answerOk (BitVec.ofNat 64 n) { s with tlen := BitVec.ofNat 10 n }

/-- `TC_STORE`'s rule (R168): one write, none when `TLEN = 0`. -/
def storeTree (s : State) : Res Response :=
  if tbufBytes < s.tlen.toNat then .stuck .noSuchByte
  else if s.tlen.toNat = 0 then answerOk 0#64 s
  else (sinkWrite (s.tbuf.slice 0 s.tlen.toNat) s).bind fun _ s => answerOk (s.tlen.setWidth 64) s

/-- `TC_DUMP` (R165). -/
def execTcDump (s : State) : Host.Outcome State Fault Refusal :=
  runCommand 0x40#8 false true dumpTree s

/-- `TC_REBUILD` (R166). -/
def execTcRebuild (s : State) : Host.Outcome State Fault Refusal :=
  runCommand 0x41#8 false true rebuildTree s

/-- `TC_LOAD` (R167). -/
def execTcLoad (s : State) : Host.Outcome State Fault Refusal :=
  runCommand 0x42#8 false true loadTree s

/-- `TC_STORE` (R168). -/
def execTcStore (s : State) : Host.Outcome State Fault Refusal :=
  runCommand 0x43#8 false true storeTree s

/-- `TBUF_RD i` (R169). -/
def execTbufRd (v : Word64) (s : State) : Host.Outcome State Fault Refusal :=
  runCommand 0x44#8 true (tbufIndexLegal v)
    (fun s =>
      if s.tlen.toNat ≤ v.toNat then answerFail s
      else answerOk ((s.tbuf.read v.toNat).setWidth 64) s) s

/-- `TBUF_WR byte, i` (R170). -/
def execTbufWr (b : Byte) (v : Word64) (s : State) : Host.Outcome State Fault Refusal :=
  runCommand 0x45#8 false (tbufIndexLegal v)
    (fun s => answerOk 0#64 { s with tbuf := s.tbuf.write v.toNat b }) s

end Sys2Proof.Machine
end

