-- ==== Sys2Proof/Machine/Channel.lean ====
section
/-! DEFINITION. The BitChannel: writer and reader (45_bit_channel R180 to R184). -/

namespace Sys2Proof.Machine

open Sys2Proof

/-- The block flush of `write_bit` (R180): one write of the whole block, then the cursor returns to 0. -/
def flushFull (s : State) : Res Unit :=
  if s.wCursor = s.params.blockBits then
    (sinkWrite (s.wbuf.slice 0 s.params.blockBytes) s).bind fun _ s => .ok () { s with wCursor := 0 }
  else .ok () s

/-- `write_bit(b)` (R180). -/
def writeBit (b : Bool) (s : State) : Res Unit :=
  let i := s.wCursor / 8
  if i < s.params.blockBytes then
    flushFull
      { s with
        wbuf := s.wbuf.write i (setBit (s.wbuf.read i) (s.wCursor % 8) b)
        wCursor := s.wCursor + 1
        wTotal := s.wTotal + 1#64 }
  else .stuck .noSuchByte

/-- Writes bits in order. -/
def writeBits : List Bool → State → Res Unit
  | [], s => .ok () s
  | b :: rest, s => (writeBit b s).bind fun _ s => writeBits rest s

/-- The bits of a code, first branch first (30 R102). -/
def codeBits (e : CodeEntry) : List Bool := (List.range e.len.toNat).map fun j => e.bits.getLsbD j

/-- The state after the trailing byte is padded with zero bits and `W_DONE` set (R182). -/
def padTrailing (s : State) : State :=
  let n := ceil8 s.wCursor
  let r := s.wCursor % 8
  { s with
    wbuf := if r = 0 then s.wbuf else s.wbuf.write (n - 1) (lowBits (s.wbuf.read (n - 1)) r)
    wDone := true }

/-- `WR_FINAL`'s rule (R182). -/
def finalize (s : State) : Res Response :=
  let n := ceil8 s.wCursor
  if s.wDone then answerFail s
  else if s.params.blockBytes < n then .stuck .noSuchByte
  else if n = 0 then answerOk 0#64 { padTrailing s with wCursor := 0 }
  else
    (sinkWrite ((padTrailing s).wbuf.slice 0 n) (padTrailing s)).bind fun _ s =>
      answerOk (countWord n) { s with wCursor := 0 }

/-- The next bit of the block in `RBUF` (R184). -/
def takeBit (s : State) : Res (Option Bool) :=
  let i := s.rCursor / 8
  if i < s.params.blockBytes then
    .ok (some ((s.rbuf.read i).getLsbD (s.rCursor % 8)))
      { s with rCursor := s.rCursor + 1, rTotal := s.rTotal + 1#64 }
  else .stuck .noSuchByte

/-- `read_bit()` (R184); none is `EOS`. -/
def readBit (s : State) : Res (Option Bool) :=
  if s.rEos then .ok none s
  else if s.rCursor = 8 * s.rLen then
    (srcRead s.params.blockBytes s).bind fun d s =>
      let s := { s with rbuf := s.rbuf.writeBytes 0 d, rLen := d.length, rCursor := 0 }
      if d = [] then .ok none { s with rEos := true } else takeBit s
  else takeBit s

/-- `WR_SYM`'s rule (R181). -/
def writeSym (a : Sym) (s : State) : Res Response :=
  if s.wDone then answerFail s
  else if !(symGet s.ct a).valid then answerFail s
  else
    (writeBits (codeBits (symGet s.ct a)) s).bind fun _ t => answerOk ((symGet s.ct a).len.setWidth 64) t

/-- `WR_SYM sym` (R181). -/
def execWrSym (a : Sym) (s : State) : Host.Outcome State Fault Refusal :=
  runCommand 0x50#8 false true (writeSym a) s

/-- `WR_FINAL` (R182). -/
def execWrFinal (s : State) : Host.Outcome State Fault Refusal :=
  runCommand 0x51#8 false true finalize s

/-- `RD_BIT` (R183): end-of-stream is a status, not an error. -/
def execRdBit (s : State) : Host.Outcome State Fault Refusal :=
  runCommand 0x52#8 false true
    (fun s =>
      (readBit s).bind fun b s =>
        match b with
        | none => .ok ⟨.eos, 0#64⟩ s
        | some b => answerOk ((BitVec.ofBool b).setWidth 64) s) s

end Sys2Proof.Machine
end

