-- ==== Sys2Proof/Machine/Framing.lean ====
section
/-! DEFINITION. Framing, body encode and decode (46_framing R195 to R200). -/

namespace Sys2Proof.Machine

open Sys2Proof

/-- The 16-byte header image of `HDR_PUT` (R195, 30 R100), every field little-endian. -/
def headerBytes (s : State) : List Byte :=
  leBytes 4 s.params.magic.toNat ++ leBytes 2 s.hPerm.toNat ++ leBytes 2 s.tlen.toNat ++ leBytes 8 s.fileSize.toNat

/-- The number in the `n` bytes of a header image from index `i` on (R196). -/
def headerField (d : List Byte) (i n : Nat) : Nat := leNat ((d.drop i).take n)

/-- `HDR_GET`'s rule (R196): the whole record is read before the magic is compared (90_conflicts C5). -/
def getHeader (s : State) : Res Response :=
  (srcReadExact 16 s).bind fun d s =>
    if d.length < 16 then .raised .shortHeader (BitVec.ofNat 64 d.length) s
    else if headerField d 0 4 ≠ s.params.magic.toNat then
      .raised .badMagic (BitVec.ofNat 64 (headerField d 0 4)) s
    else
      answerOk 0#64
        { s with
          hPerm := BitVec.ofNat 16 (headerField d 4 2)
          hTreeSize := BitVec.ofNat 16 (headerField d 6 2)
          fileSize := BitVec.ofNat 64 (headerField d 8 8) }

/-- The bytes of a chunk of `ENC_BODY` (R198): each byte's code, cause 0x34 for a byte with none. -/
def encodeBytes : List Byte → State → Res Unit
  | [], s => .ok () s
  | b :: rest, s =>
    if !(symGet s.ct b).valid then .raised .noCode (b.setWidth 64) s
    else (writeBits (codeBits (symGet s.ct b)) s).bind fun _ s => encodeBytes rest s

/-- The loop of `ENC_BODY` (R198): each round that goes on takes at least one byte of the source. -/
def encodeLoop : Nat → Nat → State → Res Nat
  | 0, _, _ => .stuck .loopUnbounded
  | f + 1, cnt, s =>
    (srcRead s.params.blockBytes s).bind fun d s =>
      if d = [] then .ok cnt s
      else (encodeBytes d s).bind fun _ s => encodeLoop f (cnt + d.length) s

/-- `ENC_BODY`'s rule (R198). -/
def encodeBody (s : State) : Res Response :=
  if s.wDone then answerFail s
  else (encodeLoop (srcLeft s + 1) 0 s).bind fun n s => answerOk (countWord n) s

/-- How many bits the reader can still return: those left in the block and those of the source. It bounds the decode loops. -/
def bitsLeft (s : State) : Nat := 8 * srcLeft s + (8 * s.rLen - s.rCursor)

/-- A symbol has been reached (R199): it goes to the sink as one byte, the walk is AT_ROOT again, and it is counted. -/
def emitSym (a : Sym) (s : State) : Res Sym :=
  (sinkWrite [a] s).bind fun _ s => .ok a { s with dcur := s.root, emitted := s.emitted + 1#64 }

/-- The loop of `dec_one` (R199): one bit, one move, until the walk lands on a Leaf. -/
def decodeWalk : Nat → State → Res Sym
  | 0, _ => .stuck .loopUnbounded
  | f + 1, s =>
    (readBit s).bind fun b s =>
      match b with
      | none => .raised .truncatedBody s.emitted s
      | some b =>
        match nodeAt s s.dcur with
        | none => .stuck .absentNode
        | some nd =>
          let s := { s with dcur := nd.child b }
          match nodeAt s s.dcur with
          | none => .stuck .absentNode
          | some (.leaf a _) => emitSym a s
          | some (.internal _ _ _) => decodeWalk f s

/-- `dec_one()` (R199). -/
def decodeOne (s : State) : Res Sym :=
  match nodeAt s s.root with
  | none => .stuck .absentNode
  | some (.leaf _ _) => .raised .leafRoot 0#64 s
  | some (.internal _ _ _) => decodeWalk (bitsLeft s + 1) { s with dcur := s.root }

/-- The loop of `DEC_BODY` (R200): "until the emitted-symbol count equals `file_size`"; every symbol takes at least one bit. -/
def decodeLoop : Nat → Nat → State → Res Nat
  | 0, cnt, s => if s.emitted < s.fileSize then .stuck .loopUnbounded else .ok cnt s
  | f + 1, cnt, s =>
    if s.emitted < s.fileSize then (decodeOne s).bind fun _ s => decodeLoop f (cnt + 1) s else .ok cnt s

/-- `DEC_BODY`'s rule (R200). -/
def decodeBody (s : State) : Res Response :=
  if s.root = nil then answerFail s
  else (decodeLoop (bitsLeft s + 1) 0 s).bind fun n s => answerOk (BitVec.ofNat 64 n) s

/-- `HDR_PUT` (R195). -/
def execHdrPut (s : State) : Host.Outcome State Fault Refusal :=
  runCommand 0x60#8 false true (fun s => (sinkWrite (headerBytes s) s).bind fun _ s => answerOk 0#64 s) s

/-- `HDR_GET` (R196). -/
def execHdrGet (s : State) : Host.Outcome State Fault Refusal :=
  runCommand 0x61#8 false true getHeader s

/-- `SRC_REWIND` (R197). -/
def execSrcRewind (s : State) : Host.Outcome State Fault Refusal :=
  runCommand 0x62#8 false true (fun s => (srcRewind s).bind fun _ s => answerOk 0#64 s) s

/-- `ENC_BODY` (R198). -/
def execEncBody (s : State) : Host.Outcome State Fault Refusal :=
  runCommand 0x63#8 false true encodeBody s

/-- `DEC_SYM` (R199). -/
def execDecSym (s : State) : Host.Outcome State Fault Refusal :=
  runCommand 0x64#8 false true
    (fun s =>
      if s.root = nil then answerFail s
      else (decodeOne s).bind fun a s => answerOk (a.setWidth 64) s) s

/-- `DEC_BODY` (R200). -/
def execDecBody (s : State) : Host.Outcome State Fault Refusal :=
  runCommand 0x65#8 false true decodeBody s

end Sys2Proof.Machine
end

