-- ==== Sys2Proof/Machine/System.lean ====
section
/-! DEFINITION. The meanings of the system commands (40_system R120 to R123). -/

namespace Sys2Proof.Machine

open Sys2Proof

/-- `return ILLEGAL` (00_scope R14). -/
def answerIllegal (s : State) : Res Response := .ok ⟨.illegal, 0#64⟩ s

/-- `NOP` (R120). -/
def execNop (s : State) : Host.Outcome State Fault Refusal :=
  runCommand 0x00#8 true true (answerOk 0#64) s

/-- `SESSION_RESET` (R121): runs in FAULT and is the only command that leaves it (60 R224). -/
def execSessionReset (s : State) : Host.Outcome State Fault Refusal :=
  runCommand 0x01#8 true true (fun s => answerOk 0#64 s.sessionReset) s

/-- `RDREG a` (R122). -/
def execRdreg (a : BitVec 8) (s : State) : Host.Outcome State Fault Refusal :=
  runCommand 0x02#8 true (rdregLegal a)
    (fun s =>
      match regOfNum a with
      | some r => answerOk (readReg s r) s
      | none => answerIllegal s) s

/-- `WRREG a, wdata` (R123). -/
def execWrreg (a : BitVec 8) (v : Word64) (s : State) : Host.Outcome State Fault Refusal :=
  runCommand 0x03#8 false (wrregLegal a v)
    (fun s =>
      match regOfNum a with
      | some r => answerOk 0#64 (writeReg s r v)
      | none => answerIllegal s) s

end Sys2Proof.Machine
end

