-- ==== Sys2Proof/Machine/Dispatch.lean ====
section
/-! DEFINITION. The meaning of each command (30_encoding R96), one arm each. -/

namespace Sys2Proof.Machine

open Sys2Proof

def exec (i : Instr) (s : State) : Host.Outcome State Fault Refusal :=
  match i with
  | .nop => Sys2Proof.Machine.execNop s
  | .sessionReset => Sys2Proof.Machine.execSessionReset s
  | .rdreg a => Sys2Proof.Machine.execRdreg a s
  | .wrreg a wdata => Sys2Proof.Machine.execWrreg a wdata s
  | .qCreate wdata => Sys2Proof.Machine.execQCreate wdata s
  | .qInsert wdata => Sys2Proof.Machine.execQInsert wdata s
  | .qExtract => Sys2Proof.Machine.execQExtract s
  | .nodeLeaf sym wdata => Sys2Proof.Machine.execNodeLeaf sym wdata s
  | .nodeGet wdata => Sys2Proof.Machine.execNodeGet wdata s
  | .nodeWeight wdata => Sys2Proof.Machine.execNodeWeight wdata s
  | .ftClr => Sys2Proof.Machine.execFtClr s
  | .ftInc sym => Sys2Proof.Machine.execFtInc sym s
  | .ftSet sym wdata => Sys2Proof.Machine.execFtSet sym wdata s
  | .ftGet sym => Sys2Proof.Machine.execFtGet sym s
  | .ftScan => Sys2Proof.Machine.execFtScan s
  | .ftPad => Sys2Proof.Machine.execFtPad s
  | .tbBuild => Sys2Proof.Machine.execTbBuild s
  | .treeFree => Sys2Proof.Machine.execTreeFree s
  | .ctGen => Sys2Proof.Machine.execCtGen s
  | .ctLen sym => Sys2Proof.Machine.execCtLen sym s
  | .ctWord sym wdata => Sys2Proof.Machine.execCtWord sym wdata s
  | .tcDump => Sys2Proof.Machine.execTcDump s
  | .tcRebuild => Sys2Proof.Machine.execTcRebuild s
  | .tcLoad => Sys2Proof.Machine.execTcLoad s
  | .tcStore => Sys2Proof.Machine.execTcStore s
  | .tbufRd wdata => Sys2Proof.Machine.execTbufRd wdata s
  | .tbufWr byte wdata => Sys2Proof.Machine.execTbufWr byte wdata s
  | .wrSym sym => Sys2Proof.Machine.execWrSym sym s
  | .wrFinal => Sys2Proof.Machine.execWrFinal s
  | .rdBit => Sys2Proof.Machine.execRdBit s
  | .hdrPut => Sys2Proof.Machine.execHdrPut s
  | .hdrGet => Sys2Proof.Machine.execHdrGet s
  | .srcRewind => Sys2Proof.Machine.execSrcRewind s
  | .encBody => Sys2Proof.Machine.execEncBody s
  | .decSym => Sys2Proof.Machine.execDecSym s
  | .decBody => Sys2Proof.Machine.execDecBody s

end Sys2Proof.Machine
end

