-- ==== Sys2Proof/Machine/Step.lean ====
section
/-! DEFINITION. One step of the machine: one event of the environment (00_scope R15, R19; 70 R262). -/

namespace Sys2Proof.Machine

open Sys2Proof

/-- One step: the next command is decoded and run, or answered `ILLEGAL` (30_encoding R99); a hardware reset (70 R245) and a
change of the source (70 R257) happen between commands; with no event pending the block holds its state (60 R236, log
entry 5). -/
def step (s : State) : Host.Outcome State Fault Refusal :=
  match s.host.events with
  | [] => .next s
  | .command cw wdata :: _ =>
    match decode cw wdata with
    | .ok i => exec i s.popEvent
    | .error _ => .next s.popEvent.illegalCommand
  | .hardReset :: _ => .next s.popEvent.sessionReset
  | .sourceChange content pos :: _ => .next (s.popEvent.changeSource content pos)

/-- The state with the instruction of a table word as the command the host sends next (log entry 16). -/
def State.withFetchWord (s : State) (nbits w : Nat) : State :=
  { s with
    host :=
      { s.host with
        events :=
          .command (BitVec.ofNat 16 (w % 2 ^ nbits)) (BitVec.ofNat 64 ((w % 2 ^ nbits) / 2 ^ 16)) :: s.host.events } }

end Sys2Proof.Machine
end

