-- ==== Sys2Proof/Machine/Sequences.lean ====
section
/-! DEFINITION. The pseudo-instructions of the assembler (30_encoding R105, R106; 46_framing R201, R202). They are the host's:
each expands to commands, and the block sees only those. -/

namespace Sys2Proof.Machine

open Sys2Proof

/-- The pseudo-instructions (R105, R106). -/
inductive Pseudo where
  | qSize | qIsEmpty | qIsFull | statsW | statsR
  | compress (perm : BitVec 16)
  | decompress
deriving DecidableEq, Repr

/-- The commands a pseudo-instruction expands to, in the host's order (R105, R201, R202). -/
def expand : Pseudo → List Instr
  | .qSize => [.rdreg 0x09#8]
  | .qIsEmpty => [.rdreg 0x01#8]
  | .qIsFull => [.rdreg 0x01#8]
  | .statsW => [.rdreg 0x1A#8]
  | .statsR => [.rdreg 0x1F#8]
  | .compress perm =>
    [.sessionReset, .wrreg 0x11#8 (perm.setWidth 64), .ftScan, .ftPad, .tbBuild, .ctGen, .tcDump, .hdrPut, .tcStore,
     .srcRewind, .encBody, .wrFinal, .treeFree]
  | .decompress => [.sessionReset, .hdrGet, .tcLoad, .tcRebuild, .decBody, .treeFree]

/-- What the host takes from the `rdata` of a query: `isEmpty` is bit 5 and `isFull` bit 6 of `STATUS`, any other result is
the whole word (R105). -/
def queryResult (p : Pseudo) (rdata : Word64) : Word64 :=
  match p with
  | .qIsEmpty => (rdata.extractLsb' 5 1).setWidth 64
  | .qIsFull => (rdata.extractLsb' 6 1).setWidth 64
  | _ => rdata

/-- The host's rule for a sequence (R201): it issues the commands in order and "stops at the first response whose status is
not `OK`". -/
def runSequence : List Instr → State → Host.Outcome State Fault Refusal
  | [], s => .next s
  | i :: rest, s =>
    match exec i s with
    | .next t => if t.host.responses.getLast?.map Response.status = some .ok then runSequence rest t else .next t
    | .fault f => .fault f
    | .refused r => .refused r

end Sys2Proof.Machine
end

