-- ==== Sys2Proof/Safety.lean ====
section
/-! DEFINITION. What claims about the machine speak of: the tree under a node id (10_state R26), its codes and its dump; the
bits in the two buffers (10_state R33, R34); the invariants of the state; and which command may write which piece of state
(20_memory R60). -/

namespace Sys2Proof.Machine

open Sys2Proof

/-! ### The CodeTree (00_scope R17) -/

/-- A strict binary tree with a symbol at each leaf (10_state R26). -/
inductive CodeTree where
  | leaf (a : Sym)
  | node (l r : CodeTree)
deriving DecidableEq, Repr

/-- The number of leaves `L`. -/
def CodeTree.leaves : CodeTree → Nat
  | .leaf _ => 1
  | .node l r => l.leaves + r.leaves

/-- The number of nodes, `2L - 1`. -/
def CodeTree.size : CodeTree → Nat
  | .leaf _ => 1
  | .node l r => l.size + r.size + 1

/-- The length of the longest path from the root to a leaf. -/
def CodeTree.depth : CodeTree → Nat
  | .leaf _ => 0
  | .node l r => max l.depth r.depth + 1

/-- The nodes reachable from an id form this tree (10_state R26). -/
def Represents (nodes : List Node) : NodeId → CodeTree → Prop
  | n, .leaf a => ∃ w, nodes[n.toNat]? = some (.leaf a w)
  | n, .node l r =>
    ∃ w i j, nodes[n.toNat]? = some (.internal w i j) ∧ Represents nodes i l ∧ Represents nodes j r

/-- The ids of the nodes of a tree under an id, each as often as it is reached (10_state R26). -/
def idsUnder (nodes : List Node) : CodeTree → NodeId → List NodeId
  | .leaf _, n => [n]
  | .node l r, n =>
    match nodes[n.toNat]? with
    | some (.internal _ i j) => n :: (idsUnder nodes l i ++ idsUnder nodes r j)
    | _ => [n]

/-- The node a path leads to from an id, 0 = left = false and 1 = right = true (R17, 46 R203); none when the path leaves the
tree. -/
def follow (nodes : List Node) : NodeId → List Bool → Option NodeId
  | n, [] => some n
  | n, b :: path =>
    match nodes[n.toNat]? with
    | some (.internal _ l r) => follow nodes (if b then r else l) path
    | _ => none

/-- The path to the leaf of a symbol, the rightmost one when it stands at several (43 R155 corner case (c)); 0 = left = false,
1 = right = true (R17). -/
def CodeTree.codeOf : CodeTree → Sym → Option (List Bool)
  | .leaf b, a => if a = b then some [] else none
  | .node l r, a =>
    match r.codeOf a with
    | some c => some (true :: c)
    | none => (l.codeOf a).map (List.cons false)

/-- The canonical tree dump: left, right, self (44 R165, 30 R101). -/
def CodeTree.dump (p : Params) : CodeTree → List Byte
  | .leaf a => [p.tagLeaf, a]
  | .node l r => l.dump p ++ r.dump p ++ [p.tagInternal]

/-- The pool `TC_REBUILD` makes of a dump (44 R171): the i-th unit becomes node `base + i`, every weight is 0. -/
def CodeTree.rebuilt : CodeTree → Nat → List Node
  | .leaf a, _ => [.leaf a 0#64]
  | .node l r, base =>
    l.rebuilt base ++ r.rebuilt (base + l.size)
      ++ [.internal 0#64 (BitVec.ofNat 9 (base + l.size - 1)) (BitVec.ofNat 9 (base + l.size + r.size - 1))]

/-- A unit of a tree dump (44 R166): a leaf tag with its symbol, or an internal tag. -/
inductive DumpUnit where
  | leaf (a : Sym)
  | internal
deriving DecidableEq, Repr

/-- The bytes of a unit (30 R101). -/
def DumpUnit.bytes (p : Params) : DumpUnit → List Byte
  | .leaf a => [p.tagLeaf, a]
  | .internal => [p.tagInternal]

/-- The stack depth after a unit, from the depth before it; none where the unit raises (44 R166): a leaf on a full stack, or an
internal tag with fewer than two entries. -/
def DumpUnit.depth : DumpUnit → Nat → Option Nat
  | .leaf _, d => if d < 256 then some (d + 1) else none
  | .internal, d => if 2 ≤ d then some (d - 1) else none

/-- The bytes of a sequence of units. -/
def unitsBytes (p : Params) (units : List DumpUnit) : List Byte := units.flatMap (DumpUnit.bytes p)

/-- The stack depth after a sequence of units; none where one of them raises. -/
def unitsDepth : List DumpUnit → Nat → Option Nat
  | [], d => some d
  | u :: units, d => (u.depth d).bind (unitsDepth units)

/-- The pool the units of a sequence of trees make (44 R166): their nodes one tree after the other, from id `base` on. -/
def forestNodes : List CodeTree → Nat → List Node
  | [], _ => []
  | t :: trees, base => t.rebuilt base ++ forestNodes trees (base + t.size)

/-- The ids of the roots of a sequence of trees in that pool, the first tree's first. -/
def forestRoots : List CodeTree → Nat → List NodeId
  | [], _ => []
  | t :: trees, base => BitVec.ofNat 9 (base + t.size - 1) :: forestRoots trees (base + t.size)

/-- The decode walk from the root over a sequence of bits (46 R203): the symbol landed on and the bits left, or none when the
bits run out first. -/
def CodeTree.decode : CodeTree → List Bool → Option (Sym × List Bool)
  | .leaf a, bits => some (a, bits)
  | .node _ _, [] => none
  | .node l r, b :: bits => if b then r.decode bits else l.decode bits

/-- `n` decode walks in a row (46 R200). -/
def CodeTree.decodeMany (t : CodeTree) : Nat → List Bool → Option (List Sym × List Bool)
  | 0, bits => some ([], bits)
  | n + 1, bits =>
    match t.decode bits with
    | none => none
    | some (a, rest) =>
      match t.decodeMany n rest with
      | none => none
      | some (out, left) => some (a :: out, left)

/-! ### Bits and bytes of the streams -/

/-- The bits of a byte, bit 0 first (20_memory R67). -/
def byteBits (b : Byte) : List Bool := (List.range 8).map fun k => b.getLsbD k

/-- The bits of a byte sequence in the order of R67. -/
def bytesBits (bs : List Byte) : List Bool := bs.flatMap byteBits

/-- Bit `k` of a byte array: bit `k mod 8` of byte `k div 8` (R67). -/
def memBit (m : Memory) (k : Nat) : Bool := (m.read (k / 8)).getLsbD (k % 8)

/-- The bits placed in `WBUF` since the last flush (10_state R33, R42 (a)). -/
def pendingBits (s : State) : List Bool := (List.range s.wCursor).map (memBit s.wbuf)

/-- The bits left of the block in `RBUF` (10_state R34). -/
def blockLeft (s : State) : List Bool :=
  (List.range (8 * s.rLen - s.rCursor)).map fun k => memBit s.rbuf (s.rCursor + k)

/-- The bits the reader can still return: those left of the block, then those of the source (10_state R34, R42 (b)). -/
def unreadBits (s : State) : List Bool := blockLeft s ++ bytesBits (s.env.src.drop s.env.spos)

/-- The bytes of the source from its position on. -/
def srcRest (s : State) : List Byte := s.env.src.drop s.env.spos

/-- No read the environment has prepared fails; how the reads are cut is left open. -/
abbrev ReadsDeliver (s : State) : Prop := ∀ r ∈ s.env.reads, ∀ pos, r ≠ .fail pos

/-- No write the environment has prepared fails. -/
abbrev WritesAccepted (s : State) : Prop := WriteAnswer.fail ∉ s.env.writes

/-- How many bytes reads of up to `n` bytes deliver, whose answers are `ks`, when the source ends after `left` bytes
(20_memory R63). -/
def delivered (n left : Nat) (ks : List Nat) : Nat := min (ks.map fun k => min (max 1 k) n).sum left

/-- Each of these reads finds a byte, so that a command that reads on comes to the read after them. -/
abbrev EachDelivers (n left : Nat) (ks : List Nat) : Prop := ks = [] ∨ delivered n left ks.dropLast < left

/-- The reads to come: some that deliver, then one that fails and leaves the source at `pos`. -/
abbrev ReadsFailAfter (s : State) (ks : List Nat) (pos : Nat) (rest : List ReadAnswer) : Prop :=
  s.env.reads = ks.map .deliver ++ .fail pos :: rest

/-- The next `n` bytes of the source come before any read fails. -/
abbrev ReadsGive (s : State) (n : Nat) : Prop :=
  ReadsDeliver s ∨ ∃ ks pos rest, ReadsFailAfter s ks pos rest ∧ n ≤ delivered n (srcRest s).length ks

/-- The writes to come: `k` that are taken, then one that fails. -/
abbrev WritesFailAfter (s : State) (k : Nat) (rest : List WriteAnswer) : Prop :=
  s.env.writes = List.replicate k .accept ++ .fail :: rest

/-- The response given last. -/
def lastResponse (s : State) : Option Response := s.host.responses.getLast?

/-! ### Invariants -/

/-- The byte arrays keep the canonical form and list no index outside the array (10_state R31, R33, R34). -/
abbrev MemoryInv (s : State) : Prop :=
  (s.tbuf.wf ∧ ∀ c ∈ s.tbuf, c.1 < tbufBytes) ∧ (s.wbuf.wf ∧ ∀ c ∈ s.wbuf, c.1 < s.params.blockBytes)
    ∧ (s.rbuf.wf ∧ ∀ c ∈ s.rbuf, c.1 < s.params.blockBytes)

/-- `0 <= SPOS <= |SRC|` (20_memory R62). -/
abbrev SourceInv (s : State) : Prop := s.env.spos ≤ s.env.src.length

/-- The parameters are legal (R10), `TLEN` is at most 767 (R31), and the cursors are in range: `W_CURSOR` below `BLOCK_BITS`
outside FAULT (R33), `R_LEN` at most `BLOCK_BYTES`, `R_CURSOR` at most `8*R_LEN`, both 0 at end-of-stream (R34), and the
source's position inside the source (20_memory R62). -/
abbrev CursorInv (s : State) : Prop :=
  s.params.Valid ∧ s.tlen.toNat ≤ tbufBytes ∧ s.wCursor ≤ s.params.blockBits
    ∧ (s.fault = false → s.wCursor < s.params.blockBits) ∧ s.rLen ≤ s.params.blockBytes ∧ s.rCursor ≤ 8 * s.rLen
    ∧ (s.rEos = true → s.rLen = 0 ∧ s.rCursor = 0) ∧ SourceInv s

/-- `QSIZE <= QCAP <= 256`, `QCAP >= 1`, every entry names an allocated node, and the entries are in rising order of weight
(R27, 41 R137). -/
abbrev QueueInv (s : State) : Prop :=
  1 ≤ s.qcap.toNat ∧ s.qcap.toNat ≤ 256 ∧ s.q.length ≤ s.qcap.toNat ∧ (∀ n ∈ s.q, n.toNat < s.nodes.length)
    ∧ s.q.Pairwise fun m n => ∀ wm wn, weightOf s m = some wm → weightOf s n = some wn → wm ≤ wn

/-- At most 511 slots are allocated, and the nodes under `ROOT` form a strict binary tree in which no node is reached twice, so
that each but the root has exactly one parent, with no more nodes than are allocated (R24, R26). -/
def TreeInv (s : State) : Prop :=
  s.nodes.length ≤ nodeMax
    ∧ (s.root = nil
        ∨ ∃ t, Represents s.nodes s.root t ∧ (idsUnder s.nodes t s.root).Nodup ∧ t.size ≤ s.nodes.length)

/-- The stack holds at most 256 entries, and none outside FAULT (R28). -/
abbrev StackInv (s : State) : Prop := s.stk.length ≤ stackCap ∧ (s.fault = false → s.stk = [])

/-- Outside FAULT the decode walk is AT_ROOT (R35). -/
abbrev DecoderInv (s : State) : Prop := s.fault = false → s.dcur = nil ∨ s.dcur = s.root

/-- Nothing is left half done between two commands outside FAULT: the stack is empty and the walk is AT_ROOT (R28, R35). -/
abbrev RestInv (s : State) : Prop := StackInv s ∧ DecoderInv s

/-- The parameters are legal; an entry that is not valid is zero, and no entry has a bit at or beyond its length (R29). -/
abbrev CodeTableInv (s : State) : Prop :=
  s.params.Valid
    ∧ ∀ a : Sym, ((symGet s.ct a).valid = false → symGet s.ct a = CodeEntry.none)
        ∧ ∀ i, (symGet s.ct a).len.toNat ≤ i → (symGet s.ct a).bits.getLsbD i = false

/-- The error record (R36, 60 R216): zero in RUN; in FAULT a cause of R216's table with its kind. -/
def ErrorInv (s : State) : Prop :=
  (s.fault = false → s.errKind = 0#2 ∧ s.errCause = 0#8 ∧ s.errInfo = 0#64 ∧ s.errOp = 0#8)
    ∧ (s.fault = true → ∃ c : Cause, s.errCause = c.code ∧ s.errKind = c.kind.code)

/-- The invariants that rule out every reason of the model's own to stop. -/
def SafeInv (s : State) : Prop := CursorInv s ∧ QueueInv s ∧ TreeInv s

/-- Every invariant of the state. -/
def EveryInv (s : State) : Prop :=
  MemoryInv s ∧ CursorInv s ∧ QueueInv s ∧ TreeInv s ∧ RestInv s ∧ CodeTableInv s ∧ ErrorInv s

/-- Every piece of the block's state has its reset value (10_state R44). -/
def ResetValues (s : State) : Prop :=
  (∀ a, symGet s.ft a = 0#64) ∧ s.nodes.length = 0 ∧ s.root = 0x1FF#9 ∧ s.q.length = 0 ∧ s.qcap = 256#9 ∧ s.stk.length = 0
    ∧ (∀ a, symGet s.ct a = ⟨false, 0#8, 0#256⟩) ∧ s.ctDone = false ∧ (∀ i, s.tbuf.read i = 0#8) ∧ s.tlen = 0#10
    ∧ s.fileSize = 0#64 ∧ s.hPerm = 0#16 ∧ s.hTreeSize = 0#16 ∧ (∀ i, s.wbuf.read i = 0#8) ∧ s.wCursor = 0
    ∧ s.wTotal = 0#64 ∧ s.wDone = false ∧ (∀ i, s.rbuf.read i = 0#8) ∧ s.rLen = 0 ∧ s.rCursor = 0 ∧ s.rTotal = 0#64
    ∧ s.rEos = false ∧ s.dcur = 0x1FF#9 ∧ s.emitted = 0#64 ∧ s.fault = false ∧ s.errKind = 0#2 ∧ s.errCause = 0#8
    ∧ s.errInfo = 0#64 ∧ s.errOp = 0#8 ∧ statusReg s = 0x20#8

/-- The sum of all counts of the frequency table, as an unbounded integer. -/
def totalCount (s : State) : Nat := (allSyms.map fun a => (symGet s.ft a).toNat).sum

/-- The symbols with a non-zero count, in rising order. -/
def countedSyms (s : State) : List Sym := allSyms.filter fun a => symGet s.ft a != 0#64

/-! ### The greedy choice of `TB_BUILD` (42 R146) -/

/-- A node is a child of an Internal node with an id below `n`. -/
def Joined (s : State) (n : Nat) (m : NodeId) : Prop :=
  ∃ k w l r, k < n ∧ s.nodes[k]? = some (.internal w l r) ∧ (m = l ∨ m = r)

/-- The order of extraction in a build (41 R130): the lower weight, and among equal weights the one inserted earlier, which in a
build is the lower id, since every node is inserted as soon as it is made (42 R146). -/
def ExtractedBefore (s : State) (a b : NodeId) : Prop :=
  ∃ wa wb, weightOf s a = some wa ∧ weightOf s b = some wb ∧ (wa < wb ∨ wa = wb ∧ a.toNat < b.toNat)

/-- Of the nodes below `n` that no Internal node below `n` has joined, `a` and then `b` are the two lowest. -/
def TwoLowest (s : State) (n : Nat) (a b : NodeId) : Prop :=
  a.toNat < n ∧ b.toNat < n ∧ ¬ Joined s n a ∧ ¬ Joined s n b ∧ ExtractedBefore s a b
    ∧ ∀ m : NodeId, m.toNat < n → ¬ Joined s n m → m ≠ a → m ≠ b → ExtractedBefore s b m

/-- Every node from id `first` on is the Internal node that joins the two lowest nodes below it, the lowest on the left, and
weighs as much as both (42 R146). -/
def GreedyMerges (s : State) (first : Nat) : Prop :=
  ∀ n nd, first ≤ n → s.nodes[n]? = some nd →
    ∃ w l r wl wr, nd = .internal w l r ∧ TwoLowest s n l r ∧ weightOf s l = some wl ∧ weightOf s r = some wr
      ∧ w.toNat = wl.toNat + wr.toNat

/-! ### What a command may write (20_memory R60) -/

/-- The pieces of state a command may write. -/
inductive Space where
  | ft | pool | root | queue | qcap | stack | ct | ctDone | tbuf | tlen | fileSize | hPerm | hTreeSize
  | wbuf | wCursor | wTotal | wDone | rbuf | reader | dcur | emitted | errors | source | sink
deriving DecidableEq, Repr

/-- The error record: only a command that can raise writes it (60 R216). -/
def raises : Instr → List Space
  | .qInsert _ | .nodeLeaf _ _ | .ftInc _ | .ftScan | .tbBuild | .ctGen | .tcRebuild | .tcLoad | .tcStore | .wrSym _
  | .wrFinal | .rdBit | .hdrPut | .hdrGet | .srcRewind | .encBody | .decSym | .decBody => [.errors]
  | _ => []

/-- The spaces a command writes (R60; the registers as each command's rule says). -/
def writes : Instr → List Space
  | .sessionReset =>
    [.ft, .pool, .root, .queue, .qcap, .stack, .ct, .ctDone, .tbuf, .tlen, .fileSize, .hPerm, .hTreeSize, .wbuf, .wCursor,
     .wTotal, .wDone, .rbuf, .reader, .dcur, .emitted, .errors]
  | .wrreg _ _ => [.fileSize, .hPerm, .hTreeSize, .tlen]
  | .qCreate _ => [.queue, .qcap]
  | .qInsert _ | .qExtract => [.queue]
  | .nodeLeaf _ _ => [.pool]
  | .ftClr | .ftSet _ _ | .ftPad => [.ft]
  | .ftInc _ => [.ft, .fileSize]
  | .ftScan => [.ft, .fileSize, .source]
  | .tbBuild => [.pool, .root, .queue, .qcap, .stack, .dcur]
  | .treeFree => [.pool, .root, .queue, .stack, .dcur]
  | .ctGen => [.ct, .ctDone]
  | .tcDump => [.tbuf, .tlen]
  | .tcRebuild => [.pool, .root, .queue, .stack, .dcur]
  | .tcLoad => [.tbuf, .tlen, .source]
  | .tcStore => [.sink]
  | .tbufWr _ _ => [.tbuf]
  | .wrSym _ => [.wbuf, .wCursor, .wTotal, .sink]
  | .wrFinal => [.wbuf, .wCursor, .wDone, .sink]
  | .rdBit => [.rbuf, .reader, .source]
  | .hdrPut => [.sink]
  | .hdrGet => [.hPerm, .hTreeSize, .fileSize, .source]
  | .srcRewind => [.source]
  | .encBody => [.wbuf, .wCursor, .wTotal, .source, .sink]
  | .decSym | .decBody => [.rbuf, .reader, .dcur, .emitted, .source, .sink]
  | .nop | .rdreg _ | .nodeGet _ | .nodeWeight _ | .ftGet _ | .ctLen _ | .ctWord _ _ | .tbufRd _ => []

/-- A space holds after a step what it held before; a byte array byte by byte. -/
def Unchanged (s t : State) : Space → Prop
  | .ft => ∀ a, symGet t.ft a = symGet s.ft a
  | .pool => t.nodes = s.nodes
  | .root => t.root = s.root
  | .queue => t.q = s.q
  | .qcap => t.qcap = s.qcap
  | .stack => t.stk = s.stk
  | .ct => ∀ a, symGet t.ct a = symGet s.ct a
  | .ctDone => t.ctDone = s.ctDone
  | .tbuf => ∀ i, t.tbuf.read i = s.tbuf.read i
  | .tlen => t.tlen = s.tlen
  | .fileSize => t.fileSize = s.fileSize
  | .hPerm => t.hPerm = s.hPerm
  | .hTreeSize => t.hTreeSize = s.hTreeSize
  | .wbuf => ∀ i, t.wbuf.read i = s.wbuf.read i
  | .wCursor => t.wCursor = s.wCursor
  | .wTotal => t.wTotal = s.wTotal
  | .wDone => t.wDone = s.wDone
  | .rbuf => ∀ i, t.rbuf.read i = s.rbuf.read i
  | .reader => t.rLen = s.rLen ∧ t.rCursor = s.rCursor ∧ t.rTotal = s.rTotal ∧ t.rEos = s.rEos
  | .dcur => t.dcur = s.dcur
  | .emitted => t.emitted = s.emitted
  | .errors =>
    t.fault = s.fault ∧ t.errKind = s.errKind ∧ t.errCause = s.errCause ∧ t.errInfo = s.errInfo ∧ t.errOp = s.errOp
  | .source => t.env.spos = s.env.spos ∧ t.env.reads = s.env.reads ∧ t.env.rewinds = s.env.rewinds
  | .sink => t.env.sink = s.env.sink ∧ t.env.writes = s.env.writes

/-- The nine commands that run in FAULT (60 R223). -/
def runsInFault : Instr → Bool
  | .nop | .sessionReset | .rdreg _ | .nodeGet _ | .nodeWeight _ | .ftGet _ | .ctLen _ | .ctWord _ _ | .tbufRd _ => true
  | _ => false

/-- What a query or a read-only command answers to, changing no state (20_memory R73). -/
def isReadOnly : Instr → Bool
  | .nop | .rdreg _ | .nodeGet _ | .nodeWeight _ | .ftGet _ | .ctLen _ | .ctWord _ _ | .tbufRd _ => true
  | _ => false

end Sys2Proof.Machine
end

