-- ==== Sys2Proof/Certificates/Slice0/Obligations.lean ====
section
/-! DEFINITION. The statements about the machine, each formalising rules of the specification. -/

open Sys2Proof Sys2Proof.Machine

/-! ### Encoding (30_encoding) -/

/-- Decoding the words of a command gives the command back, and encoding a decoded command gives back its command word, and its
operand where the format uses one (R91, R92, R96). -/
def Obligations.DecodeAndEncodeAgree : Prop :=
  (∀ i : Instr, decode (encode i).1 (encode i).2 = .ok i)
    ∧ ∀ cw w i, decode cw w = .ok i →
      ∃ row ∈ opcodeRows, row.opcode = opcodeOf cw ∧ encode i = (cw, if row.format.usesWdata then w else 0#64)

/-- "for formats N and W the match is on all 16 bits (`mask = 0xFFFF`, `match = opcode << 8`), for formats A and AW on the high
byte (`mask = 0xFF00`)" (R96), and a word that no row matches is illegal (R97). -/
def Obligations.DecodingIsTheMaskedMatch : Prop :=
  ∀ (cw : BitVec 16) (w : Word64),
    (∀ row ∈ opcodeRows, cw &&& row.format.mask = row.opcode ++ 0#8 →
      decode cw w = .ok (row.build (operandOf cw) w))
    ∧ ((∀ row ∈ opcodeRows, cw &&& row.format.mask ≠ row.opcode ++ 0#8) → ∃ e, decode cw w = .error e)

/-- Words written out from the encodings of the command rules decode to their commands (R104 and the examples of the command
rules); a sanity statement. -/
def Obligations.WrittenOutWordsDecode : Prop :=
  decode 0x2261#16 0x3E8#64 = .ok (.ftSet 0x61#8 1000#64) ∧ decode 0x0311#16 0x1A4#64 = .ok (.wrreg 0x11#8 0x1A4#64)
    ∧ decode 0x1378#16 5#64 = .ok (.nodeLeaf 0x78#8 5#64) ∧ decode 0x3266#16 0#64 = .ok (.ctWord 0x66#8 0#64)
    ∧ decode 0x45AA#16 0x2FE#64 = .ok (.tbufWr 0xAA#8 766#64) ∧ decode 0x5062#16 0#64 = .ok (.wrSym 0x62#8)
    ∧ decode 0x6500#16 0#64 = .ok .decBody ∧ decode 0x0001#16 0#64 = .error .reservedFieldNonZero
    ∧ decode 0x0400#16 0#64 = .error .undefinedOpcode

/-! ### One step (30_encoding R90, R99; 70 R245, R262) -/

/-- A step runs the decoded command on the state with the command taken from the port (R99 step 1). -/
def Obligations.StepRunsTheDecodedCommand : Prop :=
  ∀ s cw w rest i, s.host.events = .command cw w :: rest → decode cw w = .ok i →
    step s = exec i { s with host := { s.host with events := rest } }

/-- "An illegal command is answered `ILLEGAL` with `rdata = 0` and changes no state; it does not raise an error and does not
enter FAULT" (R97), in RUN and in FAULT; so is an operand out of range (R98), unless the FAULT gate has refused the command
before (R99 steps 2 and 3). -/
def Obligations.IllegalCommandsChangeNothing : Prop :=
  (∀ s cw w rest, s.host.events = .command cw w :: rest →
    (∀ row ∈ opcodeRows, cw &&& row.format.mask ≠ row.opcode ++ 0#8) →
    step s = .next { s with host := { events := rest, responses := s.host.responses ++ [⟨.illegal, 0#64⟩] } })
  ∧ ∀ i s, i.wellFormed = false → s.fault = false ∨ runsInFault i = true →
    exec i s = .next (s.respond .illegal 0#64)

/-- The other events: a hardware reset gives the reset state and touches neither the streams nor the parameters (R245, R246); a
change of the source replaces the source alone (R257, log entry 11); with no event the block holds its state (60 R236, log
entry 5). The last two rest on the model's choices. -/
def Obligations.StepOnOtherEvents : Prop :=
  (∀ s rest, s.host.events = .hardReset :: rest →
    ∃ t, step s = .next t ∧ ResetValues t ∧ t.params = s.params ∧ t.env = s.env
      ∧ t.host = { s.host with events := rest })
  ∧ (∀ s content pos rest, s.host.events = .sourceChange content pos :: rest →
    step s = .next { s with
      env := { s.env with src := content, spos := min pos content.length }
      host := { s.host with events := rest } })
  ∧ ∀ s, s.host.events = [] → step s = .next s

/-- "Every command gets exactly one response" (R90), and "For every status other than `OK` it is 0" (R94); a command answered
`FAIL`, `ILLEGAL` or `FAULTED` has changed no state (R95, 60 R220). -/
def Obligations.EveryCommandGetsOneResponse : Prop :=
  ∀ s t cw w rest, s.host.events = .command cw w :: rest → step s = .next t →
    ∃ r, t.host = { events := rest, responses := s.host.responses ++ [r] }
      ∧ (r.status ≠ .ok → r.rdata = 0#64)
      ∧ (r.status = .fail ∨ r.status = .illegal ∨ r.status = .faulted → t = { s with host := t.host })

/-! ### Errors and the FAULT state (60_exceptions) -/

/-- A command that raises records its kind, cause and opcode, sets FAULT and answers the kind's status with `rdata = 0` (R222);
one that does not raise leaves FAULT clear and, but for SESSION_RESET, the record alone. -/
def Obligations.RaisingRecordsTheError : Prop :=
  ∀ i s t, s.fault = false → exec i s = .next t →
    (t.fault = true →
      ∃ c : Cause, t.errKind = c.kind.code ∧ t.errCause = c.code ∧ t.errOp = i.opcode
        ∧ lastResponse t = some ⟨c.kind.status, 0#64⟩)
    ∧ (t.fault = false →
      (∃ r, lastResponse t = some r
        ∧ (r.status = .ok ∨ r.status = .fail ∨ r.status = .eos ∨ r.status = .illegal))
      ∧ (i ≠ .sessionReset → Unchanged s t .errors))

/-- "In the FAULT state (`FAULT = 1`) exactly nine commands run"; "Every other legal command is answered `FAULTED` with
`rdata = 0` and changes nothing"; the nine run in any state, apart from `SESSION_RESET` they change no state, and they answer as in
the RUN state, but for `RDREG STATUS`, which shows the FAULT bit (R223). -/
def Obligations.FaultStateAllowsNineCommands : Prop :=
  (∀ i s, s.fault = true → runsInFault i = false → exec i s = .next (s.respond .faulted 0#64))
  ∧ (∀ i s, runsInFault i = true → ∃ t r, exec i s = .next t ∧ lastResponse t = some r ∧ r.status ≠ .faulted)
  ∧ (∀ i s, runsInFault i = true → i ≠ .sessionReset → ∃ st v, exec i s = .next (s.respond st v))
  ∧ ∀ (i : Instr) (s : State), runsInFault i = true → i ≠ .sessionReset → i ≠ .rdreg 0x01#8 →
      ∃ st v, ∀ b, exec i { s with fault := b } = .next (({ s with fault := b } : State).respond st v)

/-- "`SESSION_RESET` (...) and a hardware reset are the only exits" from FAULT (R224), and until one of them comes "the error
record always describes the first and only error of the session, it is never overwritten" (R225, the specification's own
inference from R216 and R223). -/
def Obligations.FaultLastsUntilAReset : Prop :=
  ∀ s t, s.fault = true → step s = .next t →
    (t.fault = false →
      (∃ rest, s.host.events = .hardReset :: rest) ∨ ∃ w rest, s.host.events = .command 0x0100#16 w :: rest)
    ∧ (t.fault = true → Unchanged s t .errors)

/-- When the first read of `FT_SCAN`, `ENC_BODY` or `RD_BIT`, or any read of `HDR_GET` or `TC_LOAD`, fails: IOError 0x31 with
`ERR_INFO = 0`, and nothing else has changed but the source (20_memory R63, R64, 60 R219); when the write of `HDR_PUT` or `TC_STORE`
fails: IOError 0x32, the sink unchanged (R66); when the rewind of `SRC_REWIND` fails: IOError 0x33 (R65). The other commands, and
the later reads of `FT_SCAN` and `ENC_BODY`, are in FtScanCountsTheSource, WriterFailuresKeepWhatWasWritten and
DecoderFailuresKeepTheWalk. That the failure leaves the source at a position of the environment's choice is the model's reading
(log entry 3). -/
def Obligations.StreamFailuresRaiseIOError : Prop :=
  let ioError (u : State) (cause op : BitVec 8) : State :=
    ({ u with fault := true, errKind := 3#2, errCause := cause, errInfo := 0#64, errOp := op } : State).respond .errIo 0#64
  (∀ s pos rest, s.fault = false → s.env.reads = .fail pos :: rest →
    let u : State := { s with env := { s.env with reads := rest, spos := min pos s.env.src.length } }
    exec .ftScan s = .next (ioError u 0x31#8 0x24#8)
    ∧ exec .hdrGet s = .next (ioError u 0x31#8 0x61#8)
    ∧ (s.wDone = false → exec .encBody s = .next (ioError u 0x31#8 0x63#8))
    ∧ (1 ≤ s.hTreeSize.toNat → s.hTreeSize.toNat ≤ 767 → exec .tcLoad s = .next (ioError u 0x31#8 0x42#8))
    ∧ (s.rEos = false → s.rCursor = 8 * s.rLen → exec .rdBit s = .next (ioError u 0x31#8 0x52#8)))
  ∧ (∀ s ks pos rest, s.fault = false → ReadsFailAfter s ks pos rest →
    let u : State := { s with env := { s.env with reads := rest, spos := min pos s.env.src.length } }
    let reaches (n : Nat) : Prop :=
      EachDelivers n (srcRest s).length ks ∧ delivered n (srcRest s).length ks < n
    (reaches 16 → exec .hdrGet s = .next (ioError u 0x31#8 0x61#8))
    ∧ (reaches s.hTreeSize.toNat → s.hTreeSize.toNat ≤ 767 → exec .tcLoad s = .next (ioError u 0x31#8 0x42#8)))
  ∧ (∀ s rest, s.fault = false → s.env.writes = .fail :: rest →
    let u : State := { s with env := { s.env with writes := rest } }
    exec .hdrPut s = .next (ioError u 0x32#8 0x60#8)
    ∧ (1 ≤ s.tlen.toNat → s.tlen.toNat ≤ 767 → exec .tcStore s = .next (ioError u 0x32#8 0x43#8)))
  ∧ ∀ s pos rest, s.fault = false → s.env.rewinds = .fail pos :: rest →
    exec .srcRewind s =
      .next (ioError { s with env := { s.env with rewinds := rest, spos := min pos s.env.src.length } } 0x33#8 0x62#8)

/-! ### What a command may write (20_memory R60, R62; 70 R246) -/

/-- A command writes only the spaces R60 gives it: every other register, table, counter and byte of a byte array is what it
was, the parameters, the content of the source and the coming events always are, and the sink "only grows" (R62). -/
def Obligations.CommandsWriteOnlyTheirSpaces : Prop :=
  ∀ i s t, exec i s = .next t →
    t.params = s.params ∧ t.env.src = s.env.src ∧ t.host.events = s.host.events
      ∧ (∃ ws, t.env.sink = s.env.sink ++ ws) ∧ ∀ sp, sp ∉ writes i ++ raises i → Unchanged s t sp

/-! ### Invariants that every step keeps -/

/-- The byte arrays keep their canonical form and list no index outside the array (10_state R31, R33, R34). -/
def Obligations.StepKeepsMemoryInv : Prop := ∀ s t, MemoryInv s → step s = .next t → MemoryInv t

/-- `TLEN` stays at most 767 and the cursors and the source's position stay in range (10_state R31, R33, R34, 20_memory R62). -/
def Obligations.StepKeepsCursorInv : Prop := ∀ s t, CursorInv s → step s = .next t → CursorInv t

/-- "Occupancy obeys `0 <= QSIZE <= QCAP <= 256` at all times" (41 R137), and the queue stays sorted (10_state R27). -/
def Obligations.StepKeepsQueueInv : Prop := ∀ s t, QueueInv s → step s = .next t → QueueInv t

/-- "Whenever `ROOT != NIL`, the nodes reachable from `ROOT` form a strict binary tree", and "every non-root node is owned by
exactly one parent (no sharing, no cycles)" (10_state R26). -/
def Obligations.StepKeepsTreeInv : Prop := ∀ s t, TreeInv s → step s = .next t → TreeInv t

/-- The stack never holds more than 256 entries, and none outside FAULT (10_state R28); "Between commands the walk is always
AT_ROOT, except after a `DEC_SYM` or `DEC_BODY` that faulted in mid-walk" (10_state R35). -/
def Obligations.StepKeepsRestInv : Prop := ∀ s t, RestInv s → step s = .next t → RestInv t

/-- An invalid entry of the code table is zero, and a code has no bit at or beyond its length (10_state R29). -/
def Obligations.StepKeepsCodeTableInv : Prop := ∀ s t, CodeTableInv s → step s = .next t → CodeTableInv t

/-- The error record is zero in RUN and holds a cause of R216 with its kind in FAULT (10_state R36, 60 R216). -/
def Obligations.StepKeepsErrorInv : Prop := ∀ s t, ErrorInv s → step s = .next t → ErrorInv t

/-- After reset every piece of the block's state has the value of R44's table, `STATUS = 0x20` among them, and every invariant
holds, whatever the legal parameters (R10), the streams and the port. The last clause says the same of `State.reset`, whose default
parameters and empty streams are the model's choice (log entries 6 and 9). -/
def Obligations.ResetStateMeetsEveryInvariant : Prop :=
  (∀ (p : Params) (env : Env) (host : HostPort), p.Valid → env.spos ≤ env.src.length →
    ResetValues (State.resetWith p env host) ∧ EveryInv (State.resetWith p env host))
  ∧ ResetValues State.reset ∧ EveryInv State.reset

/-- From a state that meets the invariants every step gives a next state: "every command ends with exactly one of the eight
statuses" (60 R215), "every command terminates" (70 R260), and no index runs out of an array (20_memory R76). -/
def Obligations.SafeStatesNeverStop : Prop := ∀ s, SafeInv s → ∃ t, step s = .next t

/-! ### System commands (40_system) -/

/-- `NOP` does nothing, in RUN and in FAULT; `CW = 0x0001` is not `NOP` (R120). `SESSION_RESET` puts every piece of state at its
reset value, in RUN and in FAULT; the streams are not touched (R121). -/
def Obligations.NopAndSessionReset : Prop :=
  (∀ w, decode 0x0000#16 w = .ok .nop) ∧ (∀ s, exec .nop s = .next (s.respond .ok 0#64))
    ∧ (∀ w, decode 0x0001#16 w = .error .reservedFieldNonZero) ∧ (∀ w, decode 0x0100#16 w = .ok .sessionReset)
    ∧ ∀ s, ∃ t, exec .sessionReset s = .next t ∧ ResetValues t ∧ t.params = s.params ∧ t.env = s.env
        ∧ t.host = { s.host with responses := s.host.responses ++ [⟨.ok, 0#64⟩] }

/-- `RDREG` gives the register's value, zero-extended, for every number of the register map, and `ILLEGAL` for any other
(R122, 10_state R39). A cursor that does not fit 64 bits reads as the free value of log entry 13, whatever it is. -/
def Obligations.RdregReadsTheRegisterMap : Prop :=
  (∀ a w, decode (0x02#8 ++ a) w = .ok (.rdreg a))
  ∧ ∀ s : State,
    let reads (a : BitVec 8) (v : Word64) : Prop := exec (.rdreg a) s = .next (s.respond .ok v)
    reads 0x00#8 0x48464331#64 ∧ reads 0x01#8 ((statusReg s).setWidth 64) ∧ reads 0x02#8 (s.errKind.setWidth 64)
    ∧ reads 0x03#8 (s.errCause.setWidth 64) ∧ reads 0x04#8 s.errInfo ∧ reads 0x05#8 (s.errOp.setWidth 64)
    ∧ reads 0x08#8 (s.qcap.setWidth 64) ∧ reads 0x09#8 (BitVec.ofNat 64 s.q.length)
    ∧ reads 0x0A#8 (BitVec.ofNat 64 s.stk.length) ∧ reads 0x0C#8 (BitVec.ofNat 64 s.nodes.length)
    ∧ reads 0x0D#8 (s.root.setWidth 64) ∧ reads 0x10#8 s.fileSize ∧ reads 0x11#8 (s.hPerm.setWidth 64)
    ∧ reads 0x12#8 (s.hTreeSize.setWidth 64) ∧ reads 0x13#8 (s.tlen.setWidth 64)
    ∧ reads 0x18#8 (countWord s.wCursor) ∧ reads 0x19#8 s.wTotal
    ∧ reads 0x1A#8 (BitVec.ofNat 64 ((s.wTotal.toNat + 7) / 8)) ∧ reads 0x1C#8 (countWord s.rCursor)
    ∧ reads 0x1D#8 (countWord s.rLen) ∧ reads 0x1E#8 s.rTotal
    ∧ reads 0x1F#8 (BitVec.ofNat 64 ((s.rTotal.toNat + 7) / 8)) ∧ reads 0x20#8 s.emitted
    ∧ reads 0x21#8 (s.dcur.setWidth 64)
    ∧ ∀ a, a ∈ [0x06#8, 0x07#8, 0x0B#8, 0x0E#8, 0x0F#8, 0x14#8, 0x15#8, 0x16#8, 0x17#8, 0x1B#8] ∨ 0x22 ≤ a.toNat →
        exec (.rdreg a) s = .next (s.respond .illegal 0#64)

/-- `STATUS` gathers the flags, each at its bit, bits 63:8 zero (10_state R37). -/
def Obligations.StatusGathersTheFlags : Prop :=
  ∀ s, ∃ v, exec (.rdreg 0x01#8) s = .next (s.respond .ok v)
    ∧ v.getLsbD 0 = s.fault ∧ (v.getLsbD 1 = true ↔ s.root ≠ 0x1FF#9) ∧ v.getLsbD 2 = s.ctDone ∧ v.getLsbD 3 = s.wDone
    ∧ v.getLsbD 4 = s.rEos ∧ (v.getLsbD 5 = true ↔ s.q.length = 0) ∧ (v.getLsbD 6 = true ↔ s.q.length = s.qcap.toNat)
    ∧ (v.getLsbD 7 = true ↔ s.dcur ≠ 0x1FF#9 ∧ s.dcur ≠ s.root) ∧ ∀ i, 8 ≤ i → v.getLsbD i = false

/-- `WRREG` writes the four writable registers within their ranges; any other register or value is `ILLEGAL`; in FAULT it is
`FAULTED` whatever its operands (R123, 10_state R40). -/
def Obligations.WrregWritesTheWritableRegisters : Prop :=
  (∀ a w, decode (0x03#8 ++ a) w = .ok (.wrreg a w))
  ∧ ∀ (s : State) (v : Word64),
    (s.fault = true → ∀ a, exec (.wrreg a v) s = .next (s.respond .faulted 0#64))
    ∧ (s.fault = false →
      exec (.wrreg 0x10#8 v) s = .next (({ s with fileSize := v } : State).respond .ok 0#64)
      ∧ (v.toNat ≤ 0xFFFF →
          exec (.wrreg 0x11#8 v) s = .next (({ s with hPerm := v.setWidth 16 } : State).respond .ok 0#64)
          ∧ exec (.wrreg 0x12#8 v) s = .next (({ s with hTreeSize := v.setWidth 16 } : State).respond .ok 0#64))
      ∧ (v.toNat ≤ 767 →
          exec (.wrreg 0x13#8 v) s = .next (({ s with tlen := v.setWidth 10 } : State).respond .ok 0#64))
      ∧ (0xFFFF < v.toNat →
          exec (.wrreg 0x11#8 v) s = .next (s.respond .illegal 0#64)
          ∧ exec (.wrreg 0x12#8 v) s = .next (s.respond .illegal 0#64))
      ∧ (767 < v.toNat → exec (.wrreg 0x13#8 v) s = .next (s.respond .illegal 0#64))
      ∧ ∀ a, a.toNat < 0x10 ∨ 0x13 < a.toNat → exec (.wrreg a v) s = .next (s.respond .illegal 0#64))

/-! ### Queue and nodes (41_queue) -/

/-- `Q_CREATE` creates the queue anew, empty, with a capacity of 1 to 256; the nodes stay (R131). -/
def Obligations.QCreateEmptiesTheQueue : Prop :=
  (∀ w, decode 0x1000#16 w = .ok (.qCreate w))
  ∧ ∀ (s : State) (v : Word64), s.fault = false →
    (1 ≤ v.toNat → v.toNat ≤ 256 →
      exec (.qCreate v) s = .next (({ s with qcap := v.setWidth 9, q := [] } : State).respond .ok 0#64)
      ∧ flagQEmpty { s with qcap := v.setWidth 9, q := [] } = true
      ∧ flagQFull { s with qcap := v.setWidth 9, q := [] } = false)
    ∧ (v.toNat = 0 ∨ 256 < v.toNat → exec (.qCreate v) s = .next (s.respond .illegal 0#64))

/-- `Q_INSERT` puts the node behind every entry of lower or equal weight and before every heavier one; an absent node is
`FAIL`, then a full queue raises 0x21 (R130, R132, 60 R227). -/
def Obligations.QInsertKeepsTheOrder : Prop :=
  (∀ w, decode 0x1100#16 w = .ok (.qInsert w))
  ∧ ∀ (s : State) (v : Word64), s.fault = false → v.toNat < 512 →
    (s.nodes.length ≤ v.toNat → exec (.qInsert v) s = .next (s.respond .fail 0#64))
    ∧ (v.toNat < s.nodes.length → s.q.length = s.qcap.toNat →
      exec (.qInsert v) s =
        .next (({ s with fault := true, errKind := 2#2, errCause := 0x21#8, errInfo := v, errOp := 0x11#8 } : State).respond
          .errCapacity 0#64))
    ∧ (v.toNat < s.nodes.length → s.q.length ≠ s.qcap.toNat → QueueInv s →
      ∃ w before after, weightOf s (v.setWidth 9) = some w ∧ s.q = before ++ after
        ∧ (∀ m ∈ before, ∀ wm, weightOf s m = some wm → wm ≤ w)
        ∧ (∀ m ∈ after, ∀ wm, weightOf s m = some wm → w < wm)
        ∧ exec (.qInsert v) s = .next (({ s with q := before ++ v.setWidth 9 :: after } : State).respond .ok 0#64))

/-- `Q_EXTRACT` "removes and returns the single node with the lowest weight currently present", `FAIL` when the queue is empty
(R133). -/
def Obligations.QExtractTakesTheLowest : Prop :=
  ∀ s : State, s.fault = false →
    (s.q = [] → exec .qExtract s = .next (s.respond .fail 0#64))
    ∧ ∀ n rest, s.q = n :: rest →
      exec .qExtract s = .next (({ s with q := rest } : State).respond .ok (n.setWidth 64))
      ∧ (QueueInv s → ∀ m ∈ rest, ∀ wn wm, weightOf s n = some wn → weightOf s m = some wm → wn ≤ wm)

/-- `NODE_LEAF` allocates slot `NODE_NEXT` and returns its id; with the pool exhausted it raises 0x24 (R134, 10_state R24).
`NODE_GET` packs `kind` at bit 0, `sym` at bits 8:1, `left` at 17:9, `right` at 26:18, and `NODE_WEIGHT` gives the weight; an
absent node is `FAIL` (R135, R136). -/
def Obligations.NodesAreMadeAndRead : Prop :=
  (∀ a w, decode (0x13#8 ++ a) w = .ok (.nodeLeaf a w)) ∧ (∀ w, decode 0x1400#16 w = .ok (.nodeGet w))
  ∧ (∀ w, decode 0x1500#16 w = .ok (.nodeWeight w))
  ∧ (∀ (s : State) (a : Sym) (w : Word64), s.fault = false →
    (s.nodes.length < 511 →
      exec (.nodeLeaf a w) s =
        .next (({ s with nodes := s.nodes ++ [.leaf a w] } : State).respond .ok (BitVec.ofNat 64 s.nodes.length)))
    ∧ (s.nodes.length = 511 →
      exec (.nodeLeaf a w) s =
        .next (({ s with fault := true, errKind := 2#2, errCause := 0x24#8, errInfo := 511#64, errOp := 0x13#8 } :
          State).respond .errCapacity 0#64)))
  ∧ ∀ (s : State) (v : Word64), v.toNat < 512 →
    (s.nodes[v.toNat]? = none →
      exec (.nodeGet v) s = .next (s.respond .fail 0#64) ∧ exec (.nodeWeight v) s = .next (s.respond .fail 0#64))
    ∧ (∀ a w, s.nodes[v.toNat]? = some (.leaf a w) →
      exec (.nodeGet v) s =
        .next (s.respond .ok (BitVec.ofNat 64 (2 * a.toNat + 2 ^ 9 * 0x1FF + 2 ^ 18 * 0x1FF)))
      ∧ exec (.nodeWeight v) s = .next (s.respond .ok w))
    ∧ ∀ w l r, s.nodes[v.toNat]? = some (.internal w l r) →
      exec (.nodeGet v) s = .next (s.respond .ok (BitVec.ofNat 64 (1 + 2 ^ 9 * l.toNat + 2 ^ 18 * r.toNat)))
      ∧ exec (.nodeWeight v) s = .next (s.respond .ok w)

/-! ### Frequency table and builder (42_tree_builder) -/

/-- `FT_CLR` zeroes the table, `FT_SET` writes one count, `FT_GET` reads one (R140, R142, R143). -/
def Obligations.FrequencyTableReadsAndWrites : Prop :=
  (∀ w, decode 0x2000#16 w = .ok .ftClr) ∧ (∀ a w, decode (0x22#8 ++ a) w = .ok (.ftSet a w))
  ∧ (∀ a w, decode (0x23#8 ++ a) w = .ok (.ftGet a))
  ∧ ∀ (s : State) (a : Sym) (v : Word64),
    exec (.ftGet a) s = .next (s.respond .ok (symGet s.ft a))
    ∧ (s.fault = false →
      (∃ t, exec .ftClr s = .next t ∧ (∀ b, symGet t.ft b = 0#64)
        ∧ t = ({ s with ft := t.ft } : State).respond .ok 0#64)
      ∧ ∃ t, exec (.ftSet a v) s = .next t ∧ symGet t.ft a = v ∧ (∀ b, b ≠ a → symGet t.ft b = symGet s.ft b)
        ∧ t = ({ s with ft := t.ft } : State).respond .ok 0#64)

/-- `FT_INC` moves the count and `FILE_SIZE` together, and raises 0x26 before writing either when one would pass 2^64 - 1
(R141, R149 (a)). -/
def Obligations.FtIncCountsOrOverflows : Prop :=
  (∀ a w, decode (0x21#8 ++ a) w = .ok (.ftInc a))
  ∧ ∀ (s : State) (a : Sym), s.fault = false →
    ((symGet s.ft a).toNat + 1 < 2 ^ 64 → s.fileSize.toNat + 1 < 2 ^ 64 →
      ∃ t, exec (.ftInc a) s = .next t ∧ (symGet t.ft a).toNat = (symGet s.ft a).toNat + 1
        ∧ (∀ b, b ≠ a → symGet t.ft b = symGet s.ft b) ∧ t.fileSize.toNat = s.fileSize.toNat + 1
        ∧ t = ({ s with ft := t.ft, fileSize := t.fileSize } : State).respond .ok 0#64)
    ∧ ((symGet s.ft a).toNat + 1 = 2 ^ 64 ∨ s.fileSize.toNat + 1 = 2 ^ 64 →
      exec (.ftInc a) s =
        .next (({ s with fault := true, errKind := 2#2, errCause := 0x26#8, errInfo := a.setWidth 64, errOp := 0x21#8 } :
          State).respond .errCapacity 0#64))

/-- `FT_SCAN` counts every byte of the source from its position to its end, however the reads are cut. A byte whose count, or
`FILE_SIZE`, would pass 2^64 - 1 raises 0x26 with the byte, and a read that fails raises 0x31; the counts made before stay
(R144, R149 (a)). That a failed read leaves the source where the environment says is the model's reading (log entry 3). -/
def Obligations.FtScanCountsTheSource : Prop :=
  ∀ s : State, s.fault = false → 1 ≤ s.params.blockBytes → SourceInv s →
    let fits (bytes : List Byte) : Prop :=
      (∀ a, (symGet s.ft a).toNat + bytes.count a < 2 ^ 64) ∧ s.fileSize.toNat + bytes.length < 2 ^ 64
    let counted (t : State) (bytes : List Byte) : Prop :=
      ∀ a, symGet t.ft a = symGet s.ft a + BitVec.ofNat 64 (bytes.count a)
    (ReadsDeliver s → fits (srcRest s) →
      ∃ t, exec .ftScan s = .next t ∧ counted t (srcRest s)
        ∧ t = ({ s with
            ft := t.ft
            fileSize := s.fileSize + BitVec.ofNat 64 (srcRest s).length
            env := { s.env with spos := s.env.src.length, reads := t.env.reads } } : State).respond
              .ok (BitVec.ofNat 64 (srcRest s).length))
    ∧ (∀ before b after, ReadsDeliver s → srcRest s = before ++ b :: after → fits before →
      (symGet s.ft b).toNat + before.count b + 1 = 2 ^ 64 ∨ s.fileSize.toNat + before.length + 1 = 2 ^ 64 →
      ∃ t, exec .ftScan s = .next t ∧ counted t before
        ∧ s.env.spos + before.length < t.env.spos ∧ t.env.spos ≤ s.env.src.length
        ∧ t = ({ s with
            ft := t.ft
            fileSize := s.fileSize + BitVec.ofNat 64 before.length
            env := { s.env with spos := t.env.spos, reads := t.env.reads }
            fault := true, errKind := 2#2, errCause := 0x26#8, errInfo := b.setWidth 64, errOp := 0x24#8 } : State).respond
              .errCapacity 0#64)
    ∧ ∀ ks pos rest, ReadsFailAfter s ks pos rest → EachDelivers s.params.blockBytes (srcRest s).length ks →
      let got := (srcRest s).take (delivered s.params.blockBytes (srcRest s).length ks)
      fits got →
      ∃ t, exec .ftScan s = .next t ∧ counted t got
        ∧ t = ({ s with
            ft := t.ft
            fileSize := s.fileSize + BitVec.ofNat 64 got.length
            env := { s.env with spos := min pos s.env.src.length, reads := rest }
            fault := true, errKind := 3#2, errCause := 0x31#8, errInfo := 0#64, errOp := 0x24#8 } : State).respond
              .errIo 0#64

/-- `FT_PAD`: with fewer than two non-zero counts the counts of symbols 0 and 1 are forced to at least 1; afterwards at least
two are non-zero, three when the one symbol present is neither (R145, 90_conflicts C1). -/
def Obligations.FtPadEstablishesTwoCounts : Prop :=
  (∀ w, decode 0x2500#16 w = .ok .ftPad)
  ∧ ∀ s : State, s.fault = false →
    ∃ t, exec .ftPad s = .next t
      ∧ (∀ a, symGet t.ft a =
          if (countedSyms s).length < 2 ∧ (a = 0#8 ∨ a = 1#8) ∧ symGet s.ft a = 0#64 then 1#64 else symGet s.ft a)
      ∧ (countedSyms t).length =
          (if (countedSyms s).length = 1 ∧ symGet s.ft 0#8 = 0#64 ∧ symGet s.ft 1#8 = 0#64 then 3
            else max 2 (countedSyms s).length)
      ∧ t = ({ s with ft := t.ft } : State).respond .ok (BitVec.ofNat 64 (countedSyms t).length)

/-- One combine step: the two first entries of the queue, its two lowest, become the children of a new Internal node whose
weight is their sum, `left` the first, and the node is queued behind every entry of lower or equal weight (R146, R130). -/
def Obligations.CombineStepJoinsTheTwoLowest : Prop :=
  ∀ (s : State) a b rest wa wb, QueueInv s → s.nodes.length < 511 → s.q = a :: b :: rest →
    weightOf s a = some wa → weightOf s b = some wb → wa.toNat + wb.toNat < 2 ^ 64 →
    (∀ m ∈ rest, ∀ wm, weightOf s m = some wm → wa ≤ wb ∧ wb ≤ wm)
    ∧ ∃ before after, rest = before ++ after
      ∧ (∀ m ∈ before, ∀ wm, weightOf s m = some wm → wm.toNat ≤ wa.toNat + wb.toNat)
      ∧ (∀ m ∈ after, ∀ wm, weightOf s m = some wm → wa.toNat + wb.toNat < wm.toNat)
      ∧ combineStep s =
        .ok () { s with
          nodes := s.nodes ++ [.internal (wa + wb) a b]
          q := before ++ BitVec.ofNat 9 s.nodes.length :: after }

/-- What a successful `TB_BUILD` makes (R146, R148): leaves `0 .. L-1` in rising symbol order; Internal nodes `L .. 2L-2`,
each joining the two lowest nodes not yet joined, the lowest on the left and ties broken by insertion order (41 R130), with
the sum of their weights; `ROOT = 2L-2` with the sum of all counts; and a strict binary tree of `L` leaves. -/
def Obligations.TbBuildMakesTheTree : Prop :=
  ∀ s : State, s.fault = false → 2 ≤ (countedSyms s).length → totalCount s < 2 ^ 64 →
    ∃ t tree, exec .tbBuild s = .next t
      ∧ t.nodes.length = 2 * (countedSyms s).length - 1
      ∧ t.nodes.take (countedSyms s).length = (countedSyms s).map (fun a => .leaf a (symGet s.ft a))
      ∧ GreedyMerges t (countedSyms s).length
      ∧ weightOf t t.root = some (BitVec.ofNat 64 (totalCount s))
      ∧ Represents t.nodes t.root tree ∧ tree.leaves = (countedSyms s).length
      ∧ t = ({ s with
          nodes := t.nodes
          root := BitVec.ofNat 9 (2 * (countedSyms s).length - 2)
          q := []
          qcap := 256#9
          stk := []
          dcur := 0x1FF#9 } : State).respond .ok (BitVec.ofNat 64 (2 * (countedSyms s).length - 2))

/-- `TB_BUILD` answers `FAIL` with fewer than two non-zero counts, and raises 0x26 with `ERR_INFO = 256` and `ROOT = NIL` when the
weights do not fit 64 bits (R146). The sum that does not fit is that of the two lowest nodes left, which are out of the queue; no
node is made for it (R149 (a), 60 R227), and what was made and queued before stays (60 R221). -/
def Obligations.TbBuildRefusesOrOverflows : Prop :=
  ∀ s : State, s.fault = false →
    ((countedSyms s).length < 2 → exec .tbBuild s = .next (s.respond .fail 0#64))
    ∧ (2 ≤ (countedSyms s).length → 2 ^ 64 ≤ totalCount s →
      ∃ t a b wa wb, exec .tbBuild s = .next t
        ∧ t.nodes.take (countedSyms s).length = (countedSyms s).map (fun a => .leaf a (symGet s.ft a))
        ∧ GreedyMerges t (countedSyms s).length
        ∧ t.nodes.length + t.q.length + 2 = 2 * (countedSyms s).length
        ∧ TwoLowest t t.nodes.length a b ∧ weightOf t a = some wa ∧ weightOf t b = some wb
        ∧ 2 ^ 64 ≤ wa.toNat + wb.toNat
        ∧ (∀ m, m ∈ t.q ↔ m.toNat < t.nodes.length ∧ ¬ Joined t t.nodes.length m ∧ m ≠ a ∧ m ≠ b)
        ∧ t.q.Pairwise (ExtractedBefore t)
        ∧ t = ({ s with
            nodes := t.nodes, root := 0x1FF#9, q := t.q, qcap := 256#9, stk := [], dcur := 0x1FF#9
            fault := true, errKind := 2#2, errCause := 0x26#8, errInfo := 256#64, errOp := 0x26#8 } : State).respond
              .errCapacity 0#64)

/-- "`TB_BUILD` reads nothing but `FT`, so two runs on equal tables give equal pools, node for node" (R148). -/
def Obligations.TbBuildDependsOnTheTableAlone : Prop :=
  ∀ s s' t t' : State, s.fault = false → s'.fault = false → 2 ≤ (countedSyms s).length → s.ft = s'.ft →
    exec .tbBuild s = .next t → exec .tbBuild s' = .next t' →
    t.nodes = t'.nodes ∧ t.root = t'.root ∧ lastResponse t = lastResponse t'

/-- `TREE_FREE` releases the pool and empties the queue and the stack; the capacity, the tables and the channel stay; `TREE` becomes
0, `Q_EMPTY` 1, `Q_FULL` 0, `D_DESC` 0 (R147). -/
def Obligations.TreeFreeReleasesThePool : Prop :=
  (∀ w, decode 0x2700#16 w = .ok .treeFree)
  ∧ ∀ s : State, s.fault = false →
    ∃ t, exec .treeFree s = .next t
      ∧ t = ({ s with nodes := [], root := 0x1FF#9, q := [], stk := [], dcur := 0x1FF#9 } : State).respond .ok 0#64
      ∧ flagTree t = false ∧ flagQEmpty t = true ∧ (1 ≤ s.qcap.toNat → flagQFull t = false) ∧ flagDDesc t = false

/-! ### Code table (43_code_table) -/

/-- `CT_GEN` records for each leaf's symbol the path from the root, the rightmost one for a repeated symbol, and leaves every
other symbol without a code (R155, R158). -/
def Obligations.CtGenRecordsThePaths : Prop :=
  ∀ (s : State) (tree : CodeTree), s.fault = false → s.root ≠ 0x1FF#9 → Represents s.nodes s.root tree →
    tree.depth ≤ s.params.maxCodeBits → s.params.maxCodeBits ≤ 255 →
    ∃ t, exec .ctGen s = .next t
      ∧ (∀ a c, tree.codeOf a = some c →
          (symGet t.ct a).valid = true ∧ (symGet t.ct a).len.toNat = c.length ∧ codeBits (symGet t.ct a) = c
            ∧ ∀ i, c.length ≤ i → (symGet t.ct a).bits.getLsbD i = false)
      ∧ (∀ a, tree.codeOf a = none → symGet t.ct a = ⟨false, 0#8, 0#256⟩)
      ∧ t = ({ s with ct := t.ct, ctDone := true } : State).respond .ok
          (BitVec.ofNat 64 (allSyms.filter fun a => (tree.codeOf a).isSome).length)

/-- `CT_GEN` answers `FAIL` without a tree, and raises 0x23 when a path is longer than `MAX_CODE_BITS`, `CT_DONE` staying 0;
`ERR_INFO` is the Internal node where the path would have grown past `MAX_CODE_BITS`: at that depth, and the first the walk
meets there, the left subtree being walked before the right one. Of the table, cleared at the start, the entries recorded
before the raise stay: a symbol at a leaf before that node has the path to the last such leaf, and every other symbol has no
code (R155). -/
def Obligations.CtGenRefusesOrFindsACodeTooLong : Prop :=
  ∀ s : State, s.fault = false →
    (s.root = 0x1FF#9 → exec .ctGen s = .next (s.respond .fail 0#64))
    ∧ ∀ tree : CodeTree, s.root ≠ 0x1FF#9 → Represents s.nodes s.root tree → s.params.maxCodeBits < tree.depth →
      ∃ t path n w l r, exec .ctGen s = .next t
        ∧ path.length = s.params.maxCodeBits ∧ follow s.nodes s.root path = some n
        ∧ nodeAt s n = some (.internal w l r)
        ∧ (∀ earlier m w' l' r', earlier.length = s.params.maxCodeBits → earlier < path →
            follow s.nodes s.root earlier = some m → nodeAt s m ≠ some (.internal w' l' r'))
        ∧ (s.params.maxCodeBits ≤ 255 →
          let walked (a : Sym) (c : List Bool) : Prop :=
            c < path ∧ ∃ m v, follow s.nodes s.root c = some m ∧ nodeAt s m = some (.leaf a v)
          ∀ a,
            (∀ c, walked a c → (∀ later, c < later → ¬ walked a later) →
              (symGet t.ct a).valid = true ∧ (symGet t.ct a).len.toNat = c.length ∧ codeBits (symGet t.ct a) = c
                ∧ ∀ i, c.length ≤ i → (symGet t.ct a).bits.getLsbD i = false)
            ∧ ((∀ c, ¬ walked a c) → symGet t.ct a = ⟨false, 0#8, 0#256⟩))
        ∧ t.ctDone = false
        ∧ t = ({ s with
            ct := t.ct, ctDone := false, fault := true, errKind := 2#2, errCause := 0x23#8, errInfo := n.setWidth 64
            errOp := 0x30#8 } : State).respond .errCapacity 0#64

/-- "for all symbols `a ≠ b` present in a CodeTable, neither `Code(a)` is a prefix of `Code(b)` nor vice versa" after a `CT_GEN`
that answered `OK` (R158). -/
def Obligations.GeneratedCodesArePrefixFree : Prop :=
  ∀ (s t : State) (tree : CodeTree), s.fault = false → s.root ≠ 0x1FF#9 → Represents s.nodes s.root tree →
    s.params.maxCodeBits ≤ 255 → exec .ctGen s = .next t → t.fault = false →
    ∀ a b, a ≠ b → (symGet t.ct a).valid = true → (symGet t.ct b).valid = true →
      ¬ codeBits (symGet t.ct a) <+: codeBits (symGet t.ct b)

/-- `CT_LEN` reads valid and length; bit `j` of `CT_WORD sym, k` is branch `64k + j` of the path, 0 at or beyond the length and for
an entry that is not valid (R156, R157). -/
def Obligations.CodeReadsGiveTheEntry : Prop :=
  (∀ a w, decode (0x31#8 ++ a) w = .ok (.ctLen a)) ∧ (∀ a w, decode (0x32#8 ++ a) w = .ok (.ctWord a w))
  ∧ ∀ (s : State) (a : Sym),
    exec (.ctLen a) s =
      .next (s.respond .ok
        (BitVec.ofNat 64 ((if (symGet s.ct a).valid then 256 else 0) + (symGet s.ct a).len.toNat)))
    ∧ ∀ k : Word64,
      (k.toNat < 4 → ∃ v, exec (.ctWord a k) s = .next (s.respond .ok v)
        ∧ (∀ j, j < 64 → v.getLsbD j = (symGet s.ct a).bits.getLsbD (64 * k.toNat + j))
        ∧ (CodeTableInv s → ∀ j, (symGet s.ct a).valid = false ∨ (symGet s.ct a).len.toNat ≤ 64 * k.toNat + j →
            v.getLsbD j = false))
      ∧ (4 ≤ k.toNat → exec (.ctWord a k) s = .next (s.respond .illegal 0#64))

/-! ### Tree codec (44_tree_codec) -/

/-- `TC_DUMP` writes the post-order dump of the tree under `ROOT`, `3L - 1` bytes, at the start of `TBUF`, leaves the bytes beyond
it, and answers its length; `FAIL` without a tree (R165). -/
def Obligations.TcDumpWritesThePostOrder : Prop :=
  (∀ w, decode 0x4000#16 w = .ok .tcDump)
  ∧ ∀ s : State, s.fault = false →
    (s.root = 0x1FF#9 → exec .tcDump s = .next (s.respond .fail 0#64))
    ∧ ∀ tree : CodeTree, s.root ≠ 0x1FF#9 → Represents s.nodes s.root tree → tree.leaves ≤ 256 → s.tbuf.wf →
      ∃ t, exec .tcDump s = .next t
        ∧ t.tbuf.slice 0 (3 * tree.leaves - 1) = tree.dump s.params
        ∧ (∀ i, 3 * tree.leaves - 1 ≤ i → t.tbuf.read i = s.tbuf.read i)
        ∧ t = ({ s with tbuf := t.tbuf, tlen := BitVec.ofNat 10 (3 * tree.leaves - 1) } : State).respond .ok
            (BitVec.ofNat 64 (3 * tree.leaves - 1))

/-- `TC_REBUILD` of a dump makes one node for each unit, in the order of the units, with weight 0, and the last is the root
(R166, R171). -/
def Obligations.TcRebuildMakesTheDumpedTree : Prop :=
  ∀ (s : State) (tree : CodeTree), s.fault = false → s.params.tagLeaf ≠ s.params.tagInternal → s.tlen.toNat ≤ 767 →
    s.tbuf.slice 0 s.tlen.toNat = tree.dump s.params →
    exec .tcRebuild s =
      .next (({ s with
          nodes := tree.rebuilt 0
          root := BitVec.ofNat 9 (tree.size - 1)
          q := []
          stk := []
          dcur := 0x1FF#9 } : State).respond .ok (BitVec.ofNat 64 (tree.size - 1)))

/-- "if `ROOT != NIL`, then `TC_DUMP` followed by `TC_REBUILD` succeeds and the new tree has the shape and the leaf symbols of the
old one"; "every weight is 0" (R171). -/
def Obligations.DumpThenRebuildKeepsTheTree : Prop :=
  ∀ (s : State) (tree : CodeTree), s.fault = false → s.params.tagLeaf ≠ s.params.tagInternal → s.tbuf.wf →
    s.root ≠ 0x1FF#9 → Represents s.nodes s.root tree → tree.leaves ≤ 256 →
    ∃ t u, exec .tcDump s = .next t ∧ exec .tcRebuild t = .next u ∧ Represents u.nodes u.root tree
      ∧ (∀ nd ∈ u.nodes, nd.weight = 0#64) ∧ u.nodes.length = tree.size ∧ u.fault = false

/-- "The scan never reads `TBUF` at or beyond `TLEN`" (R166): what lies there changes nothing of the outcome. -/
def Obligations.TcRebuildReadsOnlyBelowTlen : Prop :=
  ∀ (s : State) (m : Memory), s.tlen.toNat ≤ 767 → (∀ i, i < s.tlen.toNat → m.read i = s.tbuf.read i) →
    exec .tcRebuild { s with tbuf := m } =
      match exec .tcRebuild s with
      | .next t => .next { t with tbuf := m }
      | .fault f => .fault f
      | .refused r => .refused r

/-- Whatever `TBUF` holds, `TC_REBUILD` answers `OK` with the new root, the last node made, or raises 0x14, 0x15, 0x16, 0x17 or
0x22, never 0x24, and a raise leaves `ROOT = NIL` (R166 and its corner case (e)). Read as units, the bytes decide which: they all
are units that leave one entry, `OK`; another depth, 0x15 with that depth; a leaf tag at the very end, 0x17; a leaf unit on 256
entries, 0x22; an internal tag on fewer than two, 0x14; a byte that is neither tag, 0x16, each of the four with the index of the
unit. The units scanned are the dumps of the trees that stand on the stack then, and their nodes are the pool. -/
def Obligations.TcRebuildNeverExhaustsThePool : Prop :=
  ∀ s : State, s.fault = false → s.tlen.toNat ≤ 767 →
    (∃ t, exec .tcRebuild s = .next t
      ∧ (t.fault = false →
        t.root.toNat + 1 = t.nodes.length ∧ t.stk = [] ∧ lastResponse t = some ⟨.ok, t.root.setWidth 64⟩)
      ∧ (t.fault = true →
        t.root = 0x1FF#9 ∧ (t.errCause = 0x14#8 ∨ t.errCause = 0x15#8 ∨ t.errCause = 0x16#8 ∨ t.errCause = 0x17#8
          ∨ t.errCause = 0x22#8)))
    ∧ (s.params.tagLeaf ≠ s.params.tagInternal →
      let splits (units : List DumpUnit) (d : Nat) (tail : List Byte) : Prop :=
        s.tbuf.slice 0 s.tlen.toNat = unitsBytes s.params units ++ tail ∧ unitsDepth units 0 = some d
      (∀ units d tail, splits units d tail →
        let i := BitVec.ofNat 64 (unitsBytes s.params units).length
        let scanned (trees : List CodeTree) : Prop :=
          unitsBytes s.params units = trees.flatMap (CodeTree.dump s.params) ∧ trees.length = d
            ∧ (forestNodes trees 0).length = units.length
        let raises (kind : BitVec 2) (cause : BitVec 8) (info : Word64) (status : Status) : Prop :=
          ∃ t trees, exec .tcRebuild s = .next t ∧ scanned trees
            ∧ t = ({ s with
                nodes := forestNodes trees 0, root := 0x1FF#9, q := [], stk := (forestRoots trees 0).reverse, dcur := 0x1FF#9
                fault := true, errKind := kind, errCause := cause, errInfo := info, errOp := 0x41#8 } : State).respond
                  status 0#64
        (tail = [] → d = 1 →
          ∃ t tree, exec .tcRebuild s = .next t ∧ scanned [tree]
            ∧ t = ({ s with
                nodes := tree.rebuilt 0, root := BitVec.ofNat 9 (units.length - 1), q := [], stk := [], dcur := 0x1FF#9 } :
                  State).respond .ok (BitVec.ofNat 64 (units.length - 1)))
        ∧ (tail = [] → d ≠ 1 → raises 1#2 0x15#8 (BitVec.ofNat 64 d) .errFormat)
        ∧ (tail = [s.params.tagLeaf] → raises 1#2 0x17#8 i .errFormat)
        ∧ (∀ a more, tail = s.params.tagLeaf :: a :: more → d = 256 → raises 2#2 0x22#8 i .errCapacity)
        ∧ (∀ more, tail = s.params.tagInternal :: more → d < 2 → raises 1#2 0x14#8 i .errFormat)
        ∧ ∀ b more, tail = b :: more → b ≠ s.params.tagLeaf → b ≠ s.params.tagInternal → raises 1#2 0x16#8 i .errFormat)
      ∧ ∃ units d tail, splits units d tail
        ∧ (tail = [] ∨ tail = [s.params.tagLeaf] ∨ (∃ a more, tail = s.params.tagLeaf :: a :: more ∧ d = 256)
          ∨ (∃ more, tail = s.params.tagInternal :: more ∧ d < 2)
          ∨ ∃ b more, tail = b :: more ∧ b ≠ s.params.tagLeaf ∧ b ≠ s.params.tagInternal))

/-- `TC_LOAD` raises 0x25 before any read for a size above 767, reads nothing for a size of 0, else takes exactly
`H_TREE_SIZE` bytes of the source into `TBUF`, or raises 0x13 when the source ends first, `TLEN` kept (R167). -/
def Obligations.TcLoadReadsTheTree : Prop :=
  ∀ s : State, s.fault = false →
    (767 < s.hTreeSize.toNat →
      exec .tcLoad s =
        .next (({ s with
            fault := true, errKind := 2#2, errCause := 0x25#8, errInfo := s.hTreeSize.setWidth 64, errOp := 0x42#8 } :
          State).respond .errCapacity 0#64))
    ∧ (s.hTreeSize.toNat = 0 → exec .tcLoad s = .next (({ s with tlen := 0#10 } : State).respond .ok 0#64))
    ∧ (s.hTreeSize.toNat ≤ 767 → s.tbuf.wf →
      (ReadsGive s s.hTreeSize.toNat → s.hTreeSize.toNat ≤ (srcRest s).length →
        ∃ t, exec .tcLoad s = .next t
          ∧ t.tbuf.slice 0 s.hTreeSize.toNat = (srcRest s).take s.hTreeSize.toNat
          ∧ (∀ i, s.hTreeSize.toNat ≤ i → t.tbuf.read i = s.tbuf.read i)
          ∧ t = ({ s with
              tbuf := t.tbuf
              tlen := s.hTreeSize.setWidth 10
              env := { s.env with spos := s.env.spos + s.hTreeSize.toNat, reads := t.env.reads } } : State).respond .ok
                (s.hTreeSize.setWidth 64))
      ∧ (ReadsDeliver s → (srcRest s).length < s.hTreeSize.toNat →
        ∃ t, exec .tcLoad s = .next t
          ∧ t.tbuf.slice 0 (srcRest s).length = srcRest s
          ∧ (∀ i, (srcRest s).length ≤ i → t.tbuf.read i = s.tbuf.read i)
          ∧ t = ({ s with
              tbuf := t.tbuf
              env := { s.env with spos := s.env.spos + (srcRest s).length, reads := t.env.reads }
              fault := true, errKind := 1#2, errCause := 0x13#8
              errInfo := BitVec.ofNat 64 (srcRest s).length, errOp := 0x42#8 } : State).respond .errFormat 0#64))

/-- `TC_STORE` writes the `TLEN` bytes of the tree as one write, none when `TLEN = 0` (R168). -/
def Obligations.TcStoreWritesTheTree : Prop :=
  ∀ s : State, s.fault = false →
    (s.tlen.toNat = 0 → exec .tcStore s = .next (s.respond .ok 0#64))
    ∧ (1 ≤ s.tlen.toNat → s.tlen.toNat ≤ 767 → WritesAccepted s →
      exec .tcStore s =
        .next (({ s with
            env := { s.env with
              sink := s.env.sink ++ [s.tbuf.slice 0 s.tlen.toNat]
              writes := s.env.writes.tail } } : State).respond .ok (s.tlen.setWidth 64)))

/-- `TBUF_RD` reads a byte below `TLEN`, `FAIL` at or beyond it; `TBUF_WR` writes one byte and no other; an index above 766 is
`ILLEGAL` (R169, R170). -/
def Obligations.TbufReadsAndWritesOneByte : Prop :=
  (∀ w, decode 0x4400#16 w = .ok (.tbufRd w)) ∧ (∀ a w, decode (0x45#8 ++ a) w = .ok (.tbufWr a w))
  ∧ ∀ (s : State) (b : Byte) (v : Word64),
    (766 < v.toNat → exec (.tbufRd v) s = .next (s.respond .illegal 0#64))
    ∧ (v.toNat ≤ 766 → s.tlen.toNat ≤ v.toNat → exec (.tbufRd v) s = .next (s.respond .fail 0#64))
    ∧ (v.toNat ≤ 766 → v.toNat < s.tlen.toNat →
        exec (.tbufRd v) s = .next (s.respond .ok ((s.tbuf.read v.toNat).setWidth 64)))
    ∧ (s.fault = false →
      (766 < v.toNat → exec (.tbufWr b v) s = .next (s.respond .illegal 0#64))
      ∧ (v.toNat ≤ 766 → s.tbuf.wf →
        ∃ t, exec (.tbufWr b v) s = .next t ∧ t.tbuf.read v.toNat = b
          ∧ (∀ i, i ≠ v.toNat → t.tbuf.read i = s.tbuf.read i)
          ∧ t = ({ s with tbuf := t.tbuf } : State).respond .ok 0#64))

/-! ### Bit channel (45_bit_channel) -/

/-- `WR_SYM` appends the bits of the symbol's code in order: what was pending and the code together are the blocks flushed,
each one write of `BLOCK_BYTES` bytes, and what is pending then, no write being made but those; `FAIL` after `WR_FINAL` or
without a code (R180, R181). -/
def Obligations.WrSymAppendsTheCode : Prop :=
  ∀ (s : State) (a : Sym), s.fault = false →
    (s.wDone = true ∨ (symGet s.ct a).valid = false → exec (.wrSym a) s = .next (s.respond .fail 0#64))
    ∧ (s.wDone = false → (symGet s.ct a).valid = true → CursorInv s → s.wbuf.wf →
      WriteAnswer.fail ∉ s.env.writes.take ((s.wCursor + (symGet s.ct a).len.toNat) / s.params.blockBits) →
      ∃ t blocks, exec (.wrSym a) s = .next t
        ∧ (∀ b ∈ blocks, b.length = s.params.blockBytes)
        ∧ pendingBits s ++ codeBits (symGet s.ct a) = bytesBits blocks.flatten ++ pendingBits t
        ∧ t.wCursor < s.params.blockBits
        ∧ (blocks = [] →
            ∀ i, i < s.wCursor / 8 ∨ ceil8 t.wCursor ≤ i → t.wbuf.read i = s.wbuf.read i)
        ∧ t = ({ s with
            wbuf := t.wbuf
            wCursor := t.wCursor
            wTotal := s.wTotal + (symGet s.ct a).len.setWidth 64
            env := { s.env with
              sink := s.env.sink ++ blocks
              writes := s.env.writes.drop blocks.length } } : State).respond .ok ((symGet s.ct a).len.setWidth 64))

/-- `WR_FINAL` writes the bytes occupied since the last flush, the last one filled with zero bits, as one write, none when nothing
is pending; the total is kept; a second one is `FAIL` (R182). A count that does not fit 64 bits is the free value of log entry
13, whatever it is. -/
def Obligations.WrFinalFlushesThePendingBits : Prop :=
  ∀ s : State, s.fault = false →
    (s.wDone = true → exec .wrFinal s = .next (s.respond .fail 0#64))
    ∧ (s.wDone = false → CursorInv s → s.wbuf.wf → WritesAccepted s →
      ∃ t bytes, exec .wrFinal s = .next t
        ∧ bytes.length = ceil8 s.wCursor
        ∧ bytesBits bytes = pendingBits s ++ List.replicate (8 * ceil8 s.wCursor - s.wCursor) false
        ∧ (∀ i, s.wCursor % 8 = 0 ∨ i ≠ s.wCursor / 8 → t.wbuf.read i = s.wbuf.read i)
        ∧ t = ({ s with
            wbuf := t.wbuf
            wCursor := 0
            wDone := true
            env := if s.wCursor = 0 then s.env
              else { s.env with sink := s.env.sink ++ [bytes], writes := s.env.writes.tail } } : State).respond .ok
                (countWord (ceil8 s.wCursor)))

/-- `RD_BIT` returns the next bit of the block, with no request to the source while one is left there, and of the source after
it, in the order of 20_memory R67 and however the reads are cut; with none left it answers `EOS`, and again without touching
the source (R183, R184). -/
def Obligations.RdBitReturnsTheNextBit : Prop :=
  ∀ s : State, s.fault = false →
    (s.rEos = true → exec .rdBit s = .next (s.respond .eos 0#64))
    ∧ (s.rEos = false → CursorInv s → s.rCursor < 8 * s.rLen →
      exec .rdBit s =
        .next (({ s with rCursor := s.rCursor + 1, rTotal := s.rTotal + 1#64 } : State).respond .ok
          (if memBit s.rbuf s.rCursor then 1#64 else 0#64)))
    ∧ (s.rEos = false → CursorInv s → s.rbuf.wf → ReadsDeliver s →
      (unreadBits s = [] →
        exec .rdBit s =
          .next (({ s with
            rLen := 0, rCursor := 0, rEos := true
            env := { s.env with reads := s.env.reads.tail } } : State).respond .eos 0#64))
      ∧ ∀ b rest, unreadBits s = b :: rest →
        ∃ t, exec .rdBit s = .next t ∧ unreadBits t = rest
          ∧ (s.rCursor < 8 * s.rLen → t.rbuf = s.rbuf ∧ t.env = s.env)
          ∧ (s.rCursor = 8 * s.rLen → ∀ i, t.rLen ≤ i → t.rbuf.read i = s.rbuf.read i)
          ∧ t = ({ s with
              rbuf := t.rbuf
              rLen := t.rLen
              rCursor := t.rCursor
              rTotal := s.rTotal + 1#64
              env := { s.env with spos := t.env.spos, reads := t.env.reads } } : State).respond .ok
                (if b then 1#64 else 0#64))

/-! ### Framing (46_framing) -/

/-- `HDR_PUT` writes `MAGIC`, `H_PERM`, `TLEN`, `FILE_SIZE` as 4, 2, 2, 8 bytes, little-endian, as one write (R195, 30 R100).
`SRC_REWIND` puts the source back at its first byte and changes no state of the block (R197, 20_memory R65). -/
def Obligations.HdrPutWritesTheHeaderAndSrcRewindGoesBack : Prop :=
  (∀ s : State, s.fault = false → (∀ pos, RewindAnswer.fail pos ∉ s.env.rewinds) →
    exec .srcRewind s =
      .next (({ s with env := { s.env with spos := 0, rewinds := s.env.rewinds.tail } } : State).respond .ok 0#64))
  ∧ ∀ s : State, s.fault = false → WritesAccepted s →
    let m := s.params.magic
    let p := s.hPerm
    let n := s.tlen.setWidth 16
    let f := s.fileSize
    exec .hdrPut s =
      .next (({ s with
          env := { s.env with
            sink := s.env.sink ++
              [[m.extractLsb' 0 8, m.extractLsb' 8 8, m.extractLsb' 16 8, m.extractLsb' 24 8,
                p.extractLsb' 0 8, p.extractLsb' 8 8, n.extractLsb' 0 8, n.extractLsb' 8 8,
                f.extractLsb' 0 8, f.extractLsb' 8 8, f.extractLsb' 16 8, f.extractLsb' 24 8,
                f.extractLsb' 32 8, f.extractLsb' 40 8, f.extractLsb' 48 8, f.extractLsb' 56 8]]
            writes := s.env.writes.tail } } : State).respond .ok 0#64)

/-- `HDR_GET` takes 16 bytes of the source apart, little-endian; a magic mismatch raises 0x11 with the value found, and a source
that ends first raises 0x12; the three registers are then kept (R196). -/
def Obligations.HdrGetTakesTheHeaderApart : Prop :=
  ∀ s : State, s.fault = false →
    (ReadsGive s 16 → ∀ b0 b1 b2 b3 b4 b5 b6 b7 b8 b9 b10 b11 b12 b13 b14 b15 more,
      srcRest s = [b0, b1, b2, b3, b4, b5, b6, b7, b8, b9, b10, b11, b12, b13, b14, b15] ++ more →
      let found : BitVec 32 := b3 ++ b2 ++ b1 ++ b0
      (found = s.params.magic →
        ∃ t, exec .hdrGet s = .next t
          ∧ t = ({ s with
              hPerm := b5 ++ b4
              hTreeSize := b7 ++ b6
              fileSize := b15 ++ b14 ++ b13 ++ b12 ++ b11 ++ b10 ++ b9 ++ b8
              env := { s.env with spos := s.env.spos + 16, reads := t.env.reads } } : State).respond .ok 0#64)
      ∧ (found ≠ s.params.magic →
        ∃ t, exec .hdrGet s = .next t
          ∧ t = ({ s with
              env := { s.env with spos := s.env.spos + 16, reads := t.env.reads }
              fault := true, errKind := 1#2, errCause := 0x11#8, errInfo := found.setWidth 64, errOp := 0x61#8 } :
                State).respond .errFormat 0#64))
    ∧ (ReadsDeliver s → (srcRest s).length < 16 →
      ∃ t, exec .hdrGet s = .next t
        ∧ t = ({ s with
            env := { s.env with spos := s.env.spos + (srcRest s).length, reads := t.env.reads }
            fault := true, errKind := 1#2, errCause := 0x12#8
            errInfo := BitVec.ofNat 64 (srcRest s).length, errOp := 0x61#8 } : State).respond .errFormat 0#64)

/-- `ENC_BODY` appends the code of every byte of the source, in order, from its position to its end; a byte with no code raises
0x34 with that byte; `FAIL` after `WR_FINAL` (R198, 30 R102). A count that does not fit 64 bits is the free value of log entry
13, whatever it is. -/
def Obligations.EncBodyAppendsEveryCode : Prop :=
  ∀ s : State, s.fault = false →
    (s.wDone = true → exec .encBody s = .next (s.respond .fail 0#64))
    ∧ (s.wDone = false → CursorInv s → s.wbuf.wf → SourceInv s → ReadsDeliver s → WritesAccepted s →
      ((∀ b ∈ srcRest s, (symGet s.ct b).valid = true) →
        ∃ t blocks, exec .encBody s = .next t
          ∧ (∀ b ∈ blocks, b.length = s.params.blockBytes)
          ∧ pendingBits s ++ (srcRest s).flatMap (fun b => codeBits (symGet s.ct b))
              = bytesBits blocks.flatten ++ pendingBits t
          ∧ (blocks = [] → ∀ i, i < s.wCursor / 8 ∨ ceil8 t.wCursor ≤ i → t.wbuf.read i = s.wbuf.read i)
          ∧ t = ({ s with
              wbuf := t.wbuf
              wCursor := t.wCursor
              wTotal := s.wTotal
                + BitVec.ofNat 64 ((srcRest s).flatMap fun b => codeBits (symGet s.ct b)).length
              env := { s.env with
                spos := s.env.src.length
                sink := s.env.sink ++ blocks
                reads := t.env.reads
                writes := s.env.writes.drop blocks.length } } : State).respond .ok
                  (countWord (srcRest s).length))
      ∧ ∀ before b after, srcRest s = before ++ b :: after → (∀ c ∈ before, (symGet s.ct c).valid = true) →
        (symGet s.ct b).valid = false →
        ∃ t, exec .encBody s = .next t ∧ t.fault = true ∧ t.errKind = 3#2 ∧ t.errCause = 0x34#8
          ∧ t.errInfo = b.setWidth 64 ∧ t.errOp = 0x63#8 ∧ lastResponse t = some ⟨.errIo, 0#64⟩)

/-- `DEC_SYM` walks from the root by the next bits to a leaf, writes its symbol as one byte, counts it and stands at the root
again, with no request to the source while the block holds the bits; bits that run out raise 0x18 with `ERR_INFO = EMITTED`,
the walk staying where they led, and so does a `DEC_SYM` after they had run out, without touching the source; a Leaf root
raises 0x19; no tree is `FAIL` (R199, R203, 45 R184). -/
def Obligations.DecSymDecodesOneSymbol : Prop :=
  ∀ s : State, s.fault = false →
    (s.root = 0x1FF#9 → exec .decSym s = .next (s.respond .fail 0#64))
    ∧ (∀ a, s.root ≠ 0x1FF#9 → Represents s.nodes s.root (.leaf a) →
      exec .decSym s =
        .next (({ s with fault := true, errKind := 1#2, errCause := 0x19#8, errInfo := 0#64, errOp := 0x64#8 } :
          State).respond .errFormat 0#64))
    ∧ (∀ l r, s.root ≠ 0x1FF#9 → Represents s.nodes s.root (.node l r) → s.rEos = true →
      exec .decSym s =
        .next (({ s with
            dcur := s.root
            fault := true, errKind := 1#2, errCause := 0x18#8, errInfo := s.emitted, errOp := 0x64#8 } :
          State).respond .errFormat 0#64))
    ∧ (∀ l r a rest, s.root ≠ 0x1FF#9 → Represents s.nodes s.root (.node l r) → CursorInv s → s.rEos = false →
      WritesAccepted s → (CodeTree.node l r).decode (blockLeft s) = some (a, rest) →
      exec .decSym s =
        .next (({ s with
            rCursor := s.rCursor + ((blockLeft s).length - rest.length)
            rTotal := s.rTotal + BitVec.ofNat 64 ((blockLeft s).length - rest.length)
            dcur := s.root
            emitted := s.emitted + 1#64
            env := { s.env with sink := s.env.sink ++ [[a]], writes := s.env.writes.tail } } :
          State).respond .ok (a.setWidth 64)))
    ∧ ∀ l r, s.root ≠ 0x1FF#9 → Represents s.nodes s.root (.node l r) → CursorInv s → s.rEos = false → s.rbuf.wf →
      ReadsDeliver s →
      (WritesAccepted s → ∀ a rest, (CodeTree.node l r).decode (unreadBits s) = some (a, rest) →
        ∃ t, exec .decSym s = .next t ∧ unreadBits t = rest
          ∧ ((unreadBits s).length - rest.length ≤ 8 * s.rLen - s.rCursor → t.rbuf = s.rbuf ∧ t.env.spos = s.env.spos)
          ∧ (∀ i, s.params.blockBytes ≤ i → t.rbuf.read i = s.rbuf.read i)
          ∧ t = ({ s with
              rbuf := t.rbuf
              rLen := t.rLen
              rCursor := t.rCursor
              rTotal := s.rTotal + BitVec.ofNat 64 ((unreadBits s).length - rest.length)
              dcur := s.root
              emitted := s.emitted + 1#64
              env := { s.env with
                spos := t.env.spos
                sink := s.env.sink ++ [[a]]
                reads := t.env.reads
                writes := s.env.writes.tail } } : State).respond .ok (a.setWidth 64))
      ∧ ((CodeTree.node l r).decode (unreadBits s) = none →
        ∃ t, exec .decSym s = .next t ∧ follow s.nodes s.root (unreadBits s) = some t.dcur
          ∧ (∀ i, s.params.blockBytes ≤ i → t.rbuf.read i = s.rbuf.read i)
          ∧ t = ({ s with
              rbuf := t.rbuf
              rLen := 0
              rCursor := 0
              rTotal := s.rTotal + BitVec.ofNat 64 (unreadBits s).length
              rEos := true
              dcur := t.dcur
              env := { s.env with spos := s.env.src.length, reads := t.env.reads }
              fault := true, errKind := 1#2, errCause := 0x18#8, errInfo := s.emitted, errOp := 0x64#8 } :
                State).respond .errFormat 0#64)

/-- `DEC_BODY` decodes until `EMITTED = FILE_SIZE`, one byte written for each symbol, with no request to the source while the
block holds the bits; with nothing owed it reads no bit, whatever the root; with something owed a Leaf root raises 0x19, and
bits that run out raise 0x18 with `ERR_INFO = EMITTED`, the walk staying where they led, or without touching the source when
they had run out before; no tree is `FAIL` (R200, R199, 45 R184). -/
def Obligations.DecBodyDecodesWhatIsOwed : Prop :=
  ∀ s : State, s.fault = false →
    (s.root = 0x1FF#9 → exec .decBody s = .next (s.respond .fail 0#64))
    ∧ (s.root ≠ 0x1FF#9 → s.fileSize.toNat ≤ s.emitted.toNat → exec .decBody s = .next (s.respond .ok 0#64))
    ∧ (∀ a, s.root ≠ 0x1FF#9 → Represents s.nodes s.root (.leaf a) → s.emitted.toNat < s.fileSize.toNat →
      exec .decBody s =
        .next (({ s with fault := true, errKind := 1#2, errCause := 0x19#8, errInfo := 0#64, errOp := 0x65#8 } :
          State).respond .errFormat 0#64))
    ∧ (∀ l r, s.root ≠ 0x1FF#9 → Represents s.nodes s.root (.node l r) → s.emitted.toNat < s.fileSize.toNat →
      s.rEos = true →
      exec .decBody s =
        .next (({ s with
            dcur := s.root
            fault := true, errKind := 1#2, errCause := 0x18#8, errInfo := s.emitted, errOp := 0x65#8 } :
          State).respond .errFormat 0#64))
    ∧ (∀ l r out rest, s.root ≠ 0x1FF#9 → Represents s.nodes s.root (.node l r) → CursorInv s → s.rEos = false →
      WritesAccepted s → s.emitted.toNat < s.fileSize.toNat →
      (CodeTree.node l r).decodeMany (s.fileSize.toNat - s.emitted.toNat) (blockLeft s) = some (out, rest) →
      exec .decBody s =
        .next (({ s with
            rCursor := s.rCursor + ((blockLeft s).length - rest.length)
            rTotal := s.rTotal + BitVec.ofNat 64 ((blockLeft s).length - rest.length)
            dcur := s.root
            emitted := s.fileSize
            env := { s.env with sink := s.env.sink ++ (out.map fun a => [a]), writes := s.env.writes.drop out.length } } :
          State).respond .ok (BitVec.ofNat 64 (s.fileSize.toNat - s.emitted.toNat))))
    ∧ ∀ l r, s.root ≠ 0x1FF#9 → Represents s.nodes s.root (.node l r) → CursorInv s → s.rEos = false → s.rbuf.wf →
      ReadsDeliver s → WritesAccepted s → s.emitted.toNat < s.fileSize.toNat →
      (∀ out rest,
        (CodeTree.node l r).decodeMany (s.fileSize.toNat - s.emitted.toNat) (unreadBits s) = some (out, rest) →
        ∃ t, exec .decBody s = .next t ∧ unreadBits t = rest
          ∧ ((unreadBits s).length - rest.length ≤ 8 * s.rLen - s.rCursor → t.rbuf = s.rbuf ∧ t.env.spos = s.env.spos)
          ∧ (∀ i, s.params.blockBytes ≤ i → t.rbuf.read i = s.rbuf.read i)
          ∧ t = ({ s with
              rbuf := t.rbuf
              rLen := t.rLen
              rCursor := t.rCursor
              rTotal := s.rTotal + BitVec.ofNat 64 ((unreadBits s).length - rest.length)
              dcur := s.root
              emitted := s.fileSize
              env := { s.env with
                spos := t.env.spos
                sink := s.env.sink ++ out.map fun a => [a]
                reads := t.env.reads
                writes := s.env.writes.drop out.length } } : State).respond .ok
                  (BitVec.ofNat 64 (s.fileSize.toNat - s.emitted.toNat)))
      ∧ ∀ k out rest, k < s.fileSize.toNat - s.emitted.toNat →
        (CodeTree.node l r).decodeMany k (unreadBits s) = some (out, rest) → (CodeTree.node l r).decode rest = none →
        ∃ t, exec .decBody s = .next t ∧ follow s.nodes s.root rest = some t.dcur
          ∧ (∀ i, s.params.blockBytes ≤ i → t.rbuf.read i = s.rbuf.read i)
          ∧ t = ({ s with
              rbuf := t.rbuf
              rLen := 0
              rCursor := 0
              rTotal := s.rTotal + BitVec.ofNat 64 (unreadBits s).length
              rEos := true
              dcur := t.dcur
              emitted := s.emitted + BitVec.ofNat 64 k
              env := { s.env with
                spos := s.env.src.length
                sink := s.env.sink ++ out.map fun a => [a]
                reads := t.env.reads
                writes := s.env.writes.drop k }
              fault := true, errKind := 1#2, errCause := 0x18#8, errInfo := s.emitted + BitVec.ofNat 64 k
              errOp := 0x65#8 } : State).respond .errFormat 0#64

/-! ### Failures in the middle of a command (45_bit_channel R180, R182, R184; 46_framing R198, R199, R200) -/

/-- A failure keeps what was written before it. In `WR_SYM` and `ENC_BODY` the block flush that fails raises 0x32 with the bit that
filled the block placed and counted, `W_CURSOR = BLOCK_BITS` (R180); in `ENC_BODY` a read that fails raises 0x31, and a byte with no
code 0x34 with that byte, everything encoded before kept (R198); in `WR_FINAL` a failed write raises 0x32 with `W_DONE = 1` and
`W_CURSOR` kept, and with nothing pending there is no write to fail (R182). That a failed read leaves the source where the
environment says is the model's reading (log entry 3). -/
def Obligations.WriterFailuresKeepWhatWasWritten : Prop :=
  ∀ s : State, s.fault = false → s.wDone = false → CursorInv s → s.wbuf.wf →
    let codes (bytes : List Byte) : List Bool := bytes.flatMap fun b => codeBits (symGet s.ct b)
    let written (t : State) (bits : List Bool) (blocks : List (List Byte)) : Prop :=
      (∀ b ∈ blocks, b.length = s.params.blockBytes)
        ∧ pendingBits s ++ bits = bytesBits blocks.flatten ++ pendingBits t
        ∧ (∀ i, s.params.blockBytes ≤ i → t.wbuf.read i = s.wbuf.read i)
        ∧ (blocks = [] → ∀ i, i < s.wCursor / 8 ∨ ceil8 t.wCursor ≤ i → t.wbuf.read i = s.wbuf.read i)
    let readPast (t : State) (before : List Byte) : Prop :=
      s.env.spos + before.length < t.env.spos ∧ t.env.spos ≤ s.env.src.length
    let flushFails (i : Instr) (op : BitVec 8) (bits : List Bool) (k : Nat) (more : List WriteAnswer)
        (source : State → Prop) : Prop :=
      let placed := bits.take ((k + 1) * s.params.blockBits - s.wCursor)
      ∃ t blocks, exec i s = .next t ∧ blocks.length = k ∧ written t placed blocks ∧ source t
        ∧ t = ({ s with
            wbuf := t.wbuf
            wCursor := s.params.blockBits
            wTotal := s.wTotal + BitVec.ofNat 64 placed.length
            env := { s.env with
              spos := t.env.spos, reads := t.env.reads, sink := s.env.sink ++ blocks, writes := more }
            fault := true, errKind := 3#2, errCause := 0x32#8, errInfo := 0#64, errOp := op } : State).respond .errIo 0#64
    (∀ a k more, (symGet s.ct a).valid = true → WritesFailAfter s k more →
      (k + 1) * s.params.blockBits ≤ s.wCursor + (symGet s.ct a).len.toNat →
      flushFails (.wrSym a) 0x50#8 (codeBits (symGet s.ct a)) k more fun t =>
        t.env.spos = s.env.spos ∧ t.env.reads = s.env.reads)
    ∧ (∀ before b after k more, srcRest s = before ++ b :: after → (∀ c ∈ b :: before, (symGet s.ct c).valid = true) →
      ReadsDeliver s → WritesFailAfter s k more →
      s.wCursor + (codes before).length < (k + 1) * s.params.blockBits →
      (k + 1) * s.params.blockBits ≤ s.wCursor + (codes (before ++ [b])).length →
      flushFails .encBody 0x63#8 (codes (before ++ [b])) k more fun t => readPast t before)
    ∧ (∀ ks pos rest, ReadsFailAfter s ks pos rest → EachDelivers s.params.blockBytes (srcRest s).length ks →
      let got := (srcRest s).take (delivered s.params.blockBytes (srcRest s).length ks)
      WritesAccepted s → (∀ c ∈ got, (symGet s.ct c).valid = true) →
      ∃ t blocks, exec .encBody s = .next t ∧ written t (codes got) blocks ∧ t.wCursor < s.params.blockBits
        ∧ t = ({ s with
            wbuf := t.wbuf
            wCursor := t.wCursor
            wTotal := s.wTotal + BitVec.ofNat 64 (codes got).length
            env := { s.env with
              spos := min pos s.env.src.length, reads := rest
              sink := s.env.sink ++ blocks, writes := s.env.writes.drop blocks.length }
            fault := true, errKind := 3#2, errCause := 0x31#8, errInfo := 0#64, errOp := 0x63#8 } : State).respond
              .errIo 0#64)
    ∧ (∀ before b after, srcRest s = before ++ b :: after → (∀ c ∈ before, (symGet s.ct c).valid = true) →
      (symGet s.ct b).valid = false → ReadsDeliver s → WritesAccepted s →
      ∃ t blocks, exec .encBody s = .next t ∧ written t (codes before) blocks ∧ t.wCursor < s.params.blockBits
        ∧ readPast t before
        ∧ t = ({ s with
            wbuf := t.wbuf
            wCursor := t.wCursor
            wTotal := s.wTotal + BitVec.ofNat 64 (codes before).length
            env := { s.env with
              spos := t.env.spos, reads := t.env.reads
              sink := s.env.sink ++ blocks, writes := s.env.writes.drop blocks.length }
            fault := true, errKind := 3#2, errCause := 0x34#8, errInfo := b.setWidth 64, errOp := 0x63#8 } : State).respond
              .errIo 0#64)
    ∧ (s.wCursor = 0 → exec .wrFinal s = .next (({ s with wDone := true } : State).respond .ok 0#64))
    ∧ ∀ more, 0 < s.wCursor → s.env.writes = .fail :: more →
      ∃ t, exec .wrFinal s = .next t ∧ pendingBits t = pendingBits s
        ∧ (∀ k, s.wCursor ≤ k → k < 8 * ceil8 s.wCursor → memBit t.wbuf k = false)
        ∧ (∀ i, s.wCursor % 8 = 0 ∨ i ≠ s.wCursor / 8 → t.wbuf.read i = s.wbuf.read i)
        ∧ t = ({ s with
            wbuf := t.wbuf
            wDone := true
            env := { s.env with writes := more }
            fault := true, errKind := 3#2, errCause := 0x32#8, errInfo := 0#64, errOp := 0x51#8 } : State).respond
              .errIo 0#64

/-- A failure keeps the walk of `DEC_SYM` and `DEC_BODY` where it is. A refill that fails raises 0x31, `R_LEN` and `RBUF` those of the
refill before it (R184), `DCUR` on the node reached; a symbol write that fails raises 0x32, the symbol not counted and `DCUR` on its
leaf; the symbols written before stay written and counted (R199, R200). That a failed read leaves the source where the environment
says is the model's reading (log entry 3). -/
def Obligations.DecoderFailuresKeepTheWalk : Prop :=
  ∀ (s : State) (l r : CodeTree), s.fault = false → s.root ≠ 0x1FF#9 → Represents s.nodes s.root (.node l r) →
    CursorInv s → s.rEos = false → s.rbuf.wf →
    let tree := CodeTree.node l r
    let owed := s.fileSize.toNat - s.emitted.toNat
    (∀ ks pos rest, ReadsFailAfter s ks pos rest → EachDelivers s.params.blockBytes (srcRest s).length ks →
      WritesAccepted s →
      let got := (srcRest s).take (delivered s.params.blockBytes (srcRest s).length ks)
      let bits := blockLeft s ++ bytesBits got
      let refillFails (i : Instr) (op : BitVec 8) (out : List Sym) (last : List Bool) : Prop :=
        ∃ t, exec i s = .next t ∧ follow s.nodes s.root last = some t.dcur
          ∧ (if ks = [] then t.rbuf = s.rbuf ∧ t.rLen = s.rLen
              else t.rLen = got.length - delivered s.params.blockBytes (srcRest s).length ks.dropLast
                ∧ t.rbuf.slice 0 t.rLen = got.drop (got.length - t.rLen))
          ∧ (∀ j, s.params.blockBytes ≤ j → t.rbuf.read j = s.rbuf.read j)
          ∧ t = ({ s with
              rbuf := t.rbuf
              rLen := t.rLen
              rCursor := 8 * t.rLen
              rTotal := s.rTotal + BitVec.ofNat 64 bits.length
              dcur := t.dcur
              emitted := s.emitted + BitVec.ofNat 64 out.length
              env := { s.env with
                spos := min pos s.env.src.length, reads := rest
                sink := s.env.sink ++ out.map fun a => [a]
                writes := s.env.writes.drop out.length }
              fault := true, errKind := 3#2, errCause := 0x31#8, errInfo := 0#64, errOp := op } : State).respond .errIo 0#64
      (tree.decode bits = none → refillFails .decSym 0x64#8 [] bits)
      ∧ ∀ k out last, k < owed → tree.decodeMany k bits = some (out, last) → tree.decode last = none →
        refillFails .decBody 0x65#8 out last)
    ∧ ∀ k more, WritesFailAfter s k more → ReadsDeliver s →
      let writeFails (i : Instr) (op : BitVec 8) (out : List Sym) (last : List Bool) (a : Sym) (rest : List Bool) : Prop :=
        ∃ t w, exec i s = .next t ∧ unreadBits t = rest
          ∧ follow s.nodes s.root (last.take (last.length - rest.length)) = some t.dcur
          ∧ nodeAt s t.dcur = some (.leaf a w)
          ∧ ((unreadBits s).length - rest.length ≤ 8 * s.rLen - s.rCursor → t.rbuf = s.rbuf ∧ t.env.spos = s.env.spos)
          ∧ (∀ j, s.params.blockBytes ≤ j → t.rbuf.read j = s.rbuf.read j)
          ∧ t = ({ s with
              rbuf := t.rbuf
              rLen := t.rLen
              rCursor := t.rCursor
              rTotal := s.rTotal + BitVec.ofNat 64 ((unreadBits s).length - rest.length)
              dcur := t.dcur
              emitted := s.emitted + BitVec.ofNat 64 out.length
              env := { s.env with
                spos := t.env.spos, reads := t.env.reads
                sink := s.env.sink ++ out.map fun a => [a]
                writes := more }
              fault := true, errKind := 3#2, errCause := 0x32#8, errInfo := 0#64, errOp := op } : State).respond .errIo 0#64
      (∀ a rest, k = 0 → tree.decode (unreadBits s) = some (a, rest) →
        writeFails .decSym 0x64#8 [] (unreadBits s) a rest)
      ∧ ∀ out last a rest, k < owed → tree.decodeMany k (unreadBits s) = some (out, last) →
        tree.decode last = some (a, rest) → writeFails .decBody 0x65#8 out last a rest
end

