-- ==== Sys2Proof/Laws/Decode.lean ====
section
/-! SUPPORT. The laws of the command word: what packing and unpacking a word give, and the row of each command. -/

namespace Sys2Proof

@[simp] theorem opcodeOf_append (op a : BitVec 8) : opcodeOf (op ++ a) = op := by
  unfold opcodeOf
  ext i hi
  simp only [BitVec.getElem_extractLsb', BitVec.getLsbD_append]
  have h1 : ¬ (8 + i < 8) := by omega
  have h2 : 8 + i - 8 = i := by omega
  simp [h1, h2, BitVec.getLsbD_eq_getElem hi]

@[simp] theorem operandOf_append (op a : BitVec 8) : operandOf (op ++ a) = a := by
  unfold operandOf
  ext i hi
  simp only [BitVec.getElem_extractLsb', BitVec.getLsbD_append, Nat.zero_add]
  simp [hi]

theorem append_opcodeOf_operandOf (cw : BitVec 16) : opcodeOf cw ++ operandOf cw = cw := by
  ext i hi
  rw [BitVec.getElem_append]
  unfold opcodeOf operandOf
  split
  · simp [BitVec.getElem_extractLsb', BitVec.getLsbD_eq_getElem hi]
  · rename_i h
    have h1 : 8 + (i - 8) = i := by omega
    simp [BitVec.getElem_extractLsb', h1, BitVec.getLsbD_eq_getElem hi]

theorem opcodeOf_encode (i : Instr) : opcodeOf (encode i).1 = i.opcode := opcodeOf_append _ _

theorem operandOf_encode (i : Instr) : operandOf (encode i).1 = i.operandA := operandOf_append _ _

end Sys2Proof
end

