-- ==== Sys2Proof/Laws/Memory.lean ====
section
/-! SUPPORT. The laws of a byte array and of a table by symbol: read after write, and that every operation keeps the canonical
form. -/

namespace Sys2Proof.Machine

open Sys2Proof

@[simp] theorem Memory.read_nil (a : Nat) : Memory.read [] a = 0#8 := rfl

theorem Memory.read_of_all_above {m : Memory} {a : Nat} (h : ∀ c ∈ m, a < c.1) : m.read a = 0#8 := by
  induction m with
  | nil => rfl
  | cons c m ih =>
    obtain ⟨k, b⟩ := c
    have hk : a < k := h (k, b) (by simp)
    have : k ≠ a := by omega
    simp only [Memory.read, this, if_false]
    exact ih fun c hc => h c (by simp [hc])

theorem Memory.read_write_same (m : Memory) (a : Nat) (v : Byte) (h : m.wf) : (m.write a v).read a = v := by
  induction m with
  | nil => by_cases hv : v = 0#8 <;> simp [Memory.write, Memory.read, hv]
  | cons c m ih =>
    obtain ⟨k, b⟩ := c
    have hm : Memory.wf m := ⟨(List.pairwise_cons.mp h.1).2, fun c hc => h.2 c (by simp [hc])⟩
    have habove : ∀ c ∈ m, k < c.1 := fun c hc => (List.pairwise_cons.mp h.1).1 c hc
    simp only [Memory.write]
    split
    · rename_i hlt
      split
      · rename_i hv
        rw [hv]
        exact Memory.read_of_all_above fun c hc => by
          rcases List.mem_cons.mp hc with rfl | hc
          · exact hlt
          · exact lt_trans hlt (habove c hc)
      · simp [Memory.read]
    · split
      · rename_i hlt heq
        split
        · rename_i hv
          rw [hv, heq]
          exact Memory.read_of_all_above habove
        · simp [Memory.read]
      · rename_i hlt hne
        have : k ≠ a := fun e => hne e.symm
        simp only [Memory.read, this, if_false]
        exact ih hm

theorem Memory.read_write_other (m : Memory) (a i : Nat) (v : Byte) (h : i ≠ a) :
    (m.write a v).read i = m.read i := by
  induction m with
  | nil =>
    by_cases hv : v = 0#8
    · simp [Memory.write, hv]
    · have : a ≠ i := fun e => h e.symm
      simp [Memory.write, Memory.read, hv, this]
  | cons c m ih =>
    obtain ⟨k, b⟩ := c
    have hne : a ≠ i := fun e => h e.symm
    simp only [Memory.write]
    split
    · split
      · rfl
      · simp [Memory.read, hne]
    · split
      · rename_i heq
        subst heq
        split <;> simp [Memory.read, hne]
      · simp only [Memory.read]
        split
        · rfl
        · exact ih

theorem Memory.write_mem {m : Memory} {a : Nat} {v : Byte} {c : Host.Cell} (h : c ∈ m.write a v) :
    c ∈ m ∨ (c = (a, v) ∧ v ≠ 0#8) := by
  induction m with
  | nil =>
    by_cases hv : v = 0#8 <;> simp [Memory.write, hv] at h
    exact .inr ⟨h, hv⟩
  | cons d m ih =>
    obtain ⟨k, b⟩ := d
    simp only [Memory.write] at h
    split at h
    · split at h
      · exact .inl h
      · rename_i hv
        rcases List.mem_cons.mp h with h | h
        · exact .inr ⟨h, hv⟩
        · exact .inl h
    · split at h
      · split at h
        · exact .inl (List.mem_cons_of_mem _ h)
        · rename_i hv
          rcases List.mem_cons.mp h with h | h
          · exact .inr ⟨h, hv⟩
          · exact .inl (List.mem_cons_of_mem _ h)
      · rcases List.mem_cons.mp h with h | h
        · exact .inl (by simp [h])
        · rcases ih h with h | h
          · exact .inl (List.mem_cons_of_mem _ h)
          · exact .inr h

theorem Memory.write_wf {m : Memory} (a : Nat) (v : Byte) (h : m.wf) : (m.write a v).wf := by
  refine ⟨?_, fun c hc => ?_⟩
  · induction m with
    | nil => by_cases hv : v = 0#8 <;> simp [Memory.write, hv]
    | cons d m ih =>
      obtain ⟨k, b⟩ := d
      have hp := List.pairwise_cons.mp h.1
      have hm : Memory.wf m := ⟨hp.2, fun c hc => h.2 c (by simp [hc])⟩
      simp only [Memory.write]
      split
      · rename_i hlt
        split
        · exact h.1
        · refine List.pairwise_cons.mpr ⟨fun c hc => ?_, h.1⟩
          rcases List.mem_cons.mp hc with rfl | hc
          · exact hlt
          · exact lt_trans hlt (hp.1 c hc)
      · split
        · rename_i heq
          split
          · exact hp.2
          · exact List.pairwise_cons.mpr ⟨fun c hc => heq ▸ hp.1 c hc, hp.2⟩
        · rename_i hlt hne
          refine List.pairwise_cons.mpr ⟨fun c hc => ?_, ih hm⟩
          rcases Memory.write_mem hc with hc | ⟨rfl, -⟩
          · exact hp.1 c hc
          · show k < a
            omega
  · rcases Memory.write_mem hc with hc | ⟨rfl, hv⟩
    · exact h.2 c hc
    · exact hv

theorem Memory.writeBytes_wf (bs : List Byte) {m : Memory} (a : Nat) (h : m.wf) : (m.writeBytes a bs).wf := by
  induction bs generalizing m a with
  | nil => exact h
  | cons b bs ih => exact ih (a + 1) (Memory.write_wf a b h)

/-- Writing a run of bytes leaves every index outside the run alone. -/
theorem Memory.read_writeBytes_other (bs : List Byte) (m : Memory) (a i : Nat) (h : i < a ∨ a + bs.length ≤ i) :
    (m.writeBytes a bs).read i = m.read i := by
  induction bs generalizing m a with
  | nil => rfl
  | cons b bs ih =>
    simp only [List.length_cons] at h
    rw [Memory.writeBytes, ih _ _ (by omega), Memory.read_write_other _ _ _ _ (by omega)]

/-- Reading inside a run just written gives the byte written there. -/
theorem Memory.read_writeBytes_inside (bs : List Byte) {m : Memory} (a i : Nat) (h : m.wf) (hi : i < bs.length) :
    (m.writeBytes a bs).read (a + i) = bs[i] := by
  induction bs generalizing m a i with
  | nil => simp at hi
  | cons b bs ih =>
    cases i with
    | zero =>
      rw [Memory.writeBytes, Memory.read_writeBytes_other _ _ _ _ (by omega)]
      exact Memory.read_write_same m a b h
    | succ i =>
      have := ih (a + 1) i (Memory.write_wf a b h) (by simpa using hi)
      rw [Memory.writeBytes, List.getElem_cons_succ, ← this]
      congr 1
      omega

/-- The indices a run of writes lists were listed before or lie in the run. -/
theorem Memory.writeBytes_index {bs : List Byte} {m : Memory} {a n : Nat} (hm : ∀ c ∈ m, c.1 < n)
    (ha : a + bs.length ≤ n) : ∀ c ∈ m.writeBytes a bs, c.1 < n := by
  induction bs generalizing m a with
  | nil => exact hm
  | cons b bs ih =>
    simp only [List.length_cons] at ha
    refine ih (fun c hc => ?_) (by omega)
    rcases Memory.write_mem hc with hc | ⟨rfl, -⟩
    · exact hm c hc
    · show a < n
      omega

@[simp] theorem Memory.slice_length (m : Memory) (n : Nat) : ∀ a, (m.slice a n).length = n := by
  induction n with
  | zero => intro a; rfl
  | succ n ih => intro a; simp [Memory.slice, ih]

theorem Memory.getElem_slice (m : Memory) (n : Nat) :
    ∀ a i, (h : i < (m.slice a n).length) → (m.slice a n)[i] = m.read (a + i) := by
  induction n with
  | zero => intro a i h; simp at h
  | succ n ih =>
    intro a i h
    cases i with
    | zero => simp [Memory.slice]
    | succ i =>
      simp only [Memory.slice, List.getElem_cons_succ]
      rw [ih]
      congr 1
      omega

/-- Bytes written from an index on read back as the slice there. -/
theorem Memory.slice_writeBytes {m : Memory} (bs : List Byte) (a : Nat) (h : m.wf) :
    (m.writeBytes a bs).slice a bs.length = bs := by
  refine List.ext_getElem (Memory.slice_length _ _ _) fun i h1 h2 => ?_
  rw [Memory.getElem_slice, Memory.read_writeBytes_inside bs a i h h2]

@[simp] theorem symGet_symSet_same {α : Type} (t : Vector α 256) (a : Sym) (v : α) : symGet (symSet t a v) a = v := by
  simp [symGet, symSet]

theorem symGet_symSet_other {α : Type} (t : Vector α 256) (a b : Sym) (v : α) (h : b ≠ a) :
    symGet (symSet t a v) b = symGet t b := by
  have : a.toNat ≠ b.toNat := fun e => h (BitVec.eq_of_toNat_eq e.symm)
  simp [symGet, symSet, this]

theorem symGet_symSet {α : Type} (t : Vector α 256) (a b : Sym) (v : α) :
    symGet (symSet t a v) b = if b = a then v else symGet t b := by
  split
  · rename_i h; rw [h, symGet_symSet_same]
  · rename_i h; exact symGet_symSet_other t a b v h

@[simp] theorem symGet_replicate {α : Type} (v : α) (a : Sym) : symGet (Vector.replicate 256 v) a = v := by
  simp [symGet]

/-- Tables that agree at every symbol are equal. -/
theorem symGet_ext {α : Type} {t u : Vector α 256} (h : ∀ a, symGet t a = symGet u a) : t = u := by
  refine Vector.ext fun i hi => ?_
  have := h (BitVec.ofNat 8 i)
  simpa [symGet, Nat.mod_eq_of_lt hi] using this

theorem mem_allSyms (a : Sym) : a ∈ allSyms := by
  refine List.mem_map.mpr ⟨a.toNat, List.mem_range.mpr a.isLt, ?_⟩
  simp

theorem allSyms_length : allSyms.length = 256 := by simp [allSyms]

end Sys2Proof.Machine
end

