-- ==== Sys2Proof/Laws/State.lean ====
section
/-! SUPPORT. One lemma for each field and each named update of the state, so that no later proof unfolds a record update. -/

namespace Sys2Proof.Machine

open Sys2Proof

/-! ### `State.respond` -/

@[simp] theorem State.respond_params (s : State) (st : Status) (v : Word64) : (s.respond st v).params = s.params := rfl
@[simp] theorem State.respond_ft (s : State) (st : Status) (v : Word64) : (s.respond st v).ft = s.ft := rfl
@[simp] theorem State.respond_nodes (s : State) (st : Status) (v : Word64) : (s.respond st v).nodes = s.nodes := rfl
@[simp] theorem State.respond_root (s : State) (st : Status) (v : Word64) : (s.respond st v).root = s.root := rfl
@[simp] theorem State.respond_q (s : State) (st : Status) (v : Word64) : (s.respond st v).q = s.q := rfl
@[simp] theorem State.respond_qcap (s : State) (st : Status) (v : Word64) : (s.respond st v).qcap = s.qcap := rfl
@[simp] theorem State.respond_stk (s : State) (st : Status) (v : Word64) : (s.respond st v).stk = s.stk := rfl
@[simp] theorem State.respond_ct (s : State) (st : Status) (v : Word64) : (s.respond st v).ct = s.ct := rfl
@[simp] theorem State.respond_ctDone (s : State) (st : Status) (v : Word64) : (s.respond st v).ctDone = s.ctDone := rfl
@[simp] theorem State.respond_tbuf (s : State) (st : Status) (v : Word64) : (s.respond st v).tbuf = s.tbuf := rfl
@[simp] theorem State.respond_tlen (s : State) (st : Status) (v : Word64) : (s.respond st v).tlen = s.tlen := rfl
@[simp] theorem State.respond_fileSize (s : State) (st : Status) (v : Word64) :
    (s.respond st v).fileSize = s.fileSize := rfl
@[simp] theorem State.respond_hPerm (s : State) (st : Status) (v : Word64) : (s.respond st v).hPerm = s.hPerm := rfl
@[simp] theorem State.respond_hTreeSize (s : State) (st : Status) (v : Word64) :
    (s.respond st v).hTreeSize = s.hTreeSize := rfl
@[simp] theorem State.respond_wbuf (s : State) (st : Status) (v : Word64) : (s.respond st v).wbuf = s.wbuf := rfl
@[simp] theorem State.respond_wCursor (s : State) (st : Status) (v : Word64) :
    (s.respond st v).wCursor = s.wCursor := rfl
@[simp] theorem State.respond_wTotal (s : State) (st : Status) (v : Word64) : (s.respond st v).wTotal = s.wTotal := rfl
@[simp] theorem State.respond_wDone (s : State) (st : Status) (v : Word64) : (s.respond st v).wDone = s.wDone := rfl
@[simp] theorem State.respond_rbuf (s : State) (st : Status) (v : Word64) : (s.respond st v).rbuf = s.rbuf := rfl
@[simp] theorem State.respond_rLen (s : State) (st : Status) (v : Word64) : (s.respond st v).rLen = s.rLen := rfl
@[simp] theorem State.respond_rCursor (s : State) (st : Status) (v : Word64) :
    (s.respond st v).rCursor = s.rCursor := rfl
@[simp] theorem State.respond_rTotal (s : State) (st : Status) (v : Word64) : (s.respond st v).rTotal = s.rTotal := rfl
@[simp] theorem State.respond_rEos (s : State) (st : Status) (v : Word64) : (s.respond st v).rEos = s.rEos := rfl
@[simp] theorem State.respond_dcur (s : State) (st : Status) (v : Word64) : (s.respond st v).dcur = s.dcur := rfl
@[simp] theorem State.respond_emitted (s : State) (st : Status) (v : Word64) :
    (s.respond st v).emitted = s.emitted := rfl
@[simp] theorem State.respond_fault (s : State) (st : Status) (v : Word64) : (s.respond st v).fault = s.fault := rfl
@[simp] theorem State.respond_errKind (s : State) (st : Status) (v : Word64) :
    (s.respond st v).errKind = s.errKind := rfl
@[simp] theorem State.respond_errCause (s : State) (st : Status) (v : Word64) :
    (s.respond st v).errCause = s.errCause := rfl
@[simp] theorem State.respond_errInfo (s : State) (st : Status) (v : Word64) :
    (s.respond st v).errInfo = s.errInfo := rfl
@[simp] theorem State.respond_errOp (s : State) (st : Status) (v : Word64) : (s.respond st v).errOp = s.errOp := rfl
@[simp] theorem State.respond_env (s : State) (st : Status) (v : Word64) : (s.respond st v).env = s.env := rfl
@[simp] theorem State.respond_host (s : State) (st : Status) (v : Word64) :
    (s.respond st v).host = { s.host with responses := s.host.responses ++ [⟨st, v⟩] } := rfl

/-! ### `State.recordError` -/

@[simp] theorem State.recordError_params (s : State) (op : BitVec 8) (c : Cause) (info : Word64) :
    (s.recordError op c info).params = s.params := rfl
@[simp] theorem State.recordError_ft (s : State) (op : BitVec 8) (c : Cause) (info : Word64) :
    (s.recordError op c info).ft = s.ft := rfl
@[simp] theorem State.recordError_nodes (s : State) (op : BitVec 8) (c : Cause) (info : Word64) :
    (s.recordError op c info).nodes = s.nodes := rfl
@[simp] theorem State.recordError_root (s : State) (op : BitVec 8) (c : Cause) (info : Word64) :
    (s.recordError op c info).root = s.root := rfl
@[simp] theorem State.recordError_q (s : State) (op : BitVec 8) (c : Cause) (info : Word64) :
    (s.recordError op c info).q = s.q := rfl
@[simp] theorem State.recordError_qcap (s : State) (op : BitVec 8) (c : Cause) (info : Word64) :
    (s.recordError op c info).qcap = s.qcap := rfl
@[simp] theorem State.recordError_stk (s : State) (op : BitVec 8) (c : Cause) (info : Word64) :
    (s.recordError op c info).stk = s.stk := rfl
@[simp] theorem State.recordError_ct (s : State) (op : BitVec 8) (c : Cause) (info : Word64) :
    (s.recordError op c info).ct = s.ct := rfl
@[simp] theorem State.recordError_ctDone (s : State) (op : BitVec 8) (c : Cause) (info : Word64) :
    (s.recordError op c info).ctDone = s.ctDone := rfl
@[simp] theorem State.recordError_tbuf (s : State) (op : BitVec 8) (c : Cause) (info : Word64) :
    (s.recordError op c info).tbuf = s.tbuf := rfl
@[simp] theorem State.recordError_tlen (s : State) (op : BitVec 8) (c : Cause) (info : Word64) :
    (s.recordError op c info).tlen = s.tlen := rfl
@[simp] theorem State.recordError_fileSize (s : State) (op : BitVec 8) (c : Cause) (info : Word64) :
    (s.recordError op c info).fileSize = s.fileSize := rfl
@[simp] theorem State.recordError_hPerm (s : State) (op : BitVec 8) (c : Cause) (info : Word64) :
    (s.recordError op c info).hPerm = s.hPerm := rfl
@[simp] theorem State.recordError_hTreeSize (s : State) (op : BitVec 8) (c : Cause) (info : Word64) :
    (s.recordError op c info).hTreeSize = s.hTreeSize := rfl
@[simp] theorem State.recordError_wbuf (s : State) (op : BitVec 8) (c : Cause) (info : Word64) :
    (s.recordError op c info).wbuf = s.wbuf := rfl
@[simp] theorem State.recordError_wCursor (s : State) (op : BitVec 8) (c : Cause) (info : Word64) :
    (s.recordError op c info).wCursor = s.wCursor := rfl
@[simp] theorem State.recordError_wTotal (s : State) (op : BitVec 8) (c : Cause) (info : Word64) :
    (s.recordError op c info).wTotal = s.wTotal := rfl
@[simp] theorem State.recordError_wDone (s : State) (op : BitVec 8) (c : Cause) (info : Word64) :
    (s.recordError op c info).wDone = s.wDone := rfl
@[simp] theorem State.recordError_rbuf (s : State) (op : BitVec 8) (c : Cause) (info : Word64) :
    (s.recordError op c info).rbuf = s.rbuf := rfl
@[simp] theorem State.recordError_rLen (s : State) (op : BitVec 8) (c : Cause) (info : Word64) :
    (s.recordError op c info).rLen = s.rLen := rfl
@[simp] theorem State.recordError_rCursor (s : State) (op : BitVec 8) (c : Cause) (info : Word64) :
    (s.recordError op c info).rCursor = s.rCursor := rfl
@[simp] theorem State.recordError_rTotal (s : State) (op : BitVec 8) (c : Cause) (info : Word64) :
    (s.recordError op c info).rTotal = s.rTotal := rfl
@[simp] theorem State.recordError_rEos (s : State) (op : BitVec 8) (c : Cause) (info : Word64) :
    (s.recordError op c info).rEos = s.rEos := rfl
@[simp] theorem State.recordError_dcur (s : State) (op : BitVec 8) (c : Cause) (info : Word64) :
    (s.recordError op c info).dcur = s.dcur := rfl
@[simp] theorem State.recordError_emitted (s : State) (op : BitVec 8) (c : Cause) (info : Word64) :
    (s.recordError op c info).emitted = s.emitted := rfl
@[simp] theorem State.recordError_fault (s : State) (op : BitVec 8) (c : Cause) (info : Word64) :
    (s.recordError op c info).fault = true := rfl
@[simp] theorem State.recordError_errKind (s : State) (op : BitVec 8) (c : Cause) (info : Word64) :
    (s.recordError op c info).errKind = c.kind.code := rfl
@[simp] theorem State.recordError_errCause (s : State) (op : BitVec 8) (c : Cause) (info : Word64) :
    (s.recordError op c info).errCause = c.code := rfl
@[simp] theorem State.recordError_errInfo (s : State) (op : BitVec 8) (c : Cause) (info : Word64) :
    (s.recordError op c info).errInfo = info := rfl
@[simp] theorem State.recordError_errOp (s : State) (op : BitVec 8) (c : Cause) (info : Word64) :
    (s.recordError op c info).errOp = op := rfl
@[simp] theorem State.recordError_env (s : State) (op : BitVec 8) (c : Cause) (info : Word64) :
    (s.recordError op c info).env = s.env := rfl
@[simp] theorem State.recordError_host (s : State) (op : BitVec 8) (c : Cause) (info : Word64) :
    (s.recordError op c info).host = s.host := rfl

/-! ### `State.raiseError` -/

@[simp] theorem State.raiseError_params (s : State) (op : BitVec 8) (c : Cause) (info : Word64) :
    (s.raiseError op c info).params = s.params := rfl
@[simp] theorem State.raiseError_ft (s : State) (op : BitVec 8) (c : Cause) (info : Word64) :
    (s.raiseError op c info).ft = s.ft := rfl
@[simp] theorem State.raiseError_nodes (s : State) (op : BitVec 8) (c : Cause) (info : Word64) :
    (s.raiseError op c info).nodes = s.nodes := rfl
@[simp] theorem State.raiseError_root (s : State) (op : BitVec 8) (c : Cause) (info : Word64) :
    (s.raiseError op c info).root = s.root := rfl
@[simp] theorem State.raiseError_q (s : State) (op : BitVec 8) (c : Cause) (info : Word64) :
    (s.raiseError op c info).q = s.q := rfl
@[simp] theorem State.raiseError_qcap (s : State) (op : BitVec 8) (c : Cause) (info : Word64) :
    (s.raiseError op c info).qcap = s.qcap := rfl
@[simp] theorem State.raiseError_stk (s : State) (op : BitVec 8) (c : Cause) (info : Word64) :
    (s.raiseError op c info).stk = s.stk := rfl
@[simp] theorem State.raiseError_ct (s : State) (op : BitVec 8) (c : Cause) (info : Word64) :
    (s.raiseError op c info).ct = s.ct := rfl
@[simp] theorem State.raiseError_ctDone (s : State) (op : BitVec 8) (c : Cause) (info : Word64) :
    (s.raiseError op c info).ctDone = s.ctDone := rfl
@[simp] theorem State.raiseError_tbuf (s : State) (op : BitVec 8) (c : Cause) (info : Word64) :
    (s.raiseError op c info).tbuf = s.tbuf := rfl
@[simp] theorem State.raiseError_tlen (s : State) (op : BitVec 8) (c : Cause) (info : Word64) :
    (s.raiseError op c info).tlen = s.tlen := rfl
@[simp] theorem State.raiseError_fileSize (s : State) (op : BitVec 8) (c : Cause) (info : Word64) :
    (s.raiseError op c info).fileSize = s.fileSize := rfl
@[simp] theorem State.raiseError_hPerm (s : State) (op : BitVec 8) (c : Cause) (info : Word64) :
    (s.raiseError op c info).hPerm = s.hPerm := rfl
@[simp] theorem State.raiseError_hTreeSize (s : State) (op : BitVec 8) (c : Cause) (info : Word64) :
    (s.raiseError op c info).hTreeSize = s.hTreeSize := rfl
@[simp] theorem State.raiseError_wbuf (s : State) (op : BitVec 8) (c : Cause) (info : Word64) :
    (s.raiseError op c info).wbuf = s.wbuf := rfl
@[simp] theorem State.raiseError_wCursor (s : State) (op : BitVec 8) (c : Cause) (info : Word64) :
    (s.raiseError op c info).wCursor = s.wCursor := rfl
@[simp] theorem State.raiseError_wTotal (s : State) (op : BitVec 8) (c : Cause) (info : Word64) :
    (s.raiseError op c info).wTotal = s.wTotal := rfl
@[simp] theorem State.raiseError_wDone (s : State) (op : BitVec 8) (c : Cause) (info : Word64) :
    (s.raiseError op c info).wDone = s.wDone := rfl
@[simp] theorem State.raiseError_rbuf (s : State) (op : BitVec 8) (c : Cause) (info : Word64) :
    (s.raiseError op c info).rbuf = s.rbuf := rfl
@[simp] theorem State.raiseError_rLen (s : State) (op : BitVec 8) (c : Cause) (info : Word64) :
    (s.raiseError op c info).rLen = s.rLen := rfl
@[simp] theorem State.raiseError_rCursor (s : State) (op : BitVec 8) (c : Cause) (info : Word64) :
    (s.raiseError op c info).rCursor = s.rCursor := rfl
@[simp] theorem State.raiseError_rTotal (s : State) (op : BitVec 8) (c : Cause) (info : Word64) :
    (s.raiseError op c info).rTotal = s.rTotal := rfl
@[simp] theorem State.raiseError_rEos (s : State) (op : BitVec 8) (c : Cause) (info : Word64) :
    (s.raiseError op c info).rEos = s.rEos := rfl
@[simp] theorem State.raiseError_dcur (s : State) (op : BitVec 8) (c : Cause) (info : Word64) :
    (s.raiseError op c info).dcur = s.dcur := rfl
@[simp] theorem State.raiseError_emitted (s : State) (op : BitVec 8) (c : Cause) (info : Word64) :
    (s.raiseError op c info).emitted = s.emitted := rfl
@[simp] theorem State.raiseError_fault (s : State) (op : BitVec 8) (c : Cause) (info : Word64) :
    (s.raiseError op c info).fault = true := rfl
@[simp] theorem State.raiseError_errKind (s : State) (op : BitVec 8) (c : Cause) (info : Word64) :
    (s.raiseError op c info).errKind = c.kind.code := rfl
@[simp] theorem State.raiseError_errCause (s : State) (op : BitVec 8) (c : Cause) (info : Word64) :
    (s.raiseError op c info).errCause = c.code := rfl
@[simp] theorem State.raiseError_errInfo (s : State) (op : BitVec 8) (c : Cause) (info : Word64) :
    (s.raiseError op c info).errInfo = info := rfl
@[simp] theorem State.raiseError_errOp (s : State) (op : BitVec 8) (c : Cause) (info : Word64) :
    (s.raiseError op c info).errOp = op := rfl
@[simp] theorem State.raiseError_env (s : State) (op : BitVec 8) (c : Cause) (info : Word64) :
    (s.raiseError op c info).env = s.env := rfl
@[simp] theorem State.raiseError_host (s : State) (op : BitVec 8) (c : Cause) (info : Word64) :
    (s.raiseError op c info).host = { s.host with responses := s.host.responses ++ [⟨c.kind.status, 0#64⟩] } := rfl

/-! ### `State.popEvent` -/

@[simp] theorem State.popEvent_params (s : State) : s.popEvent.params = s.params := rfl
@[simp] theorem State.popEvent_ft (s : State) : s.popEvent.ft = s.ft := rfl
@[simp] theorem State.popEvent_nodes (s : State) : s.popEvent.nodes = s.nodes := rfl
@[simp] theorem State.popEvent_root (s : State) : s.popEvent.root = s.root := rfl
@[simp] theorem State.popEvent_q (s : State) : s.popEvent.q = s.q := rfl
@[simp] theorem State.popEvent_qcap (s : State) : s.popEvent.qcap = s.qcap := rfl
@[simp] theorem State.popEvent_stk (s : State) : s.popEvent.stk = s.stk := rfl
@[simp] theorem State.popEvent_ct (s : State) : s.popEvent.ct = s.ct := rfl
@[simp] theorem State.popEvent_ctDone (s : State) : s.popEvent.ctDone = s.ctDone := rfl
@[simp] theorem State.popEvent_tbuf (s : State) : s.popEvent.tbuf = s.tbuf := rfl
@[simp] theorem State.popEvent_tlen (s : State) : s.popEvent.tlen = s.tlen := rfl
@[simp] theorem State.popEvent_fileSize (s : State) : s.popEvent.fileSize = s.fileSize := rfl
@[simp] theorem State.popEvent_hPerm (s : State) : s.popEvent.hPerm = s.hPerm := rfl
@[simp] theorem State.popEvent_hTreeSize (s : State) : s.popEvent.hTreeSize = s.hTreeSize := rfl
@[simp] theorem State.popEvent_wbuf (s : State) : s.popEvent.wbuf = s.wbuf := rfl
@[simp] theorem State.popEvent_wCursor (s : State) : s.popEvent.wCursor = s.wCursor := rfl
@[simp] theorem State.popEvent_wTotal (s : State) : s.popEvent.wTotal = s.wTotal := rfl
@[simp] theorem State.popEvent_wDone (s : State) : s.popEvent.wDone = s.wDone := rfl
@[simp] theorem State.popEvent_rbuf (s : State) : s.popEvent.rbuf = s.rbuf := rfl
@[simp] theorem State.popEvent_rLen (s : State) : s.popEvent.rLen = s.rLen := rfl
@[simp] theorem State.popEvent_rCursor (s : State) : s.popEvent.rCursor = s.rCursor := rfl
@[simp] theorem State.popEvent_rTotal (s : State) : s.popEvent.rTotal = s.rTotal := rfl
@[simp] theorem State.popEvent_rEos (s : State) : s.popEvent.rEos = s.rEos := rfl
@[simp] theorem State.popEvent_dcur (s : State) : s.popEvent.dcur = s.dcur := rfl
@[simp] theorem State.popEvent_emitted (s : State) : s.popEvent.emitted = s.emitted := rfl
@[simp] theorem State.popEvent_fault (s : State) : s.popEvent.fault = s.fault := rfl
@[simp] theorem State.popEvent_errKind (s : State) : s.popEvent.errKind = s.errKind := rfl
@[simp] theorem State.popEvent_errCause (s : State) : s.popEvent.errCause = s.errCause := rfl
@[simp] theorem State.popEvent_errInfo (s : State) : s.popEvent.errInfo = s.errInfo := rfl
@[simp] theorem State.popEvent_errOp (s : State) : s.popEvent.errOp = s.errOp := rfl
@[simp] theorem State.popEvent_env (s : State) : s.popEvent.env = s.env := rfl
@[simp] theorem State.popEvent_host (s : State) : s.popEvent.host = { s.host with events := s.host.events.tail } := rfl

/-! ### `State.releaseTree` -/

@[simp] theorem State.releaseTree_params (s : State) : s.releaseTree.params = s.params := rfl
@[simp] theorem State.releaseTree_ft (s : State) : s.releaseTree.ft = s.ft := rfl
@[simp] theorem State.releaseTree_nodes (s : State) : s.releaseTree.nodes = [] := rfl
@[simp] theorem State.releaseTree_root (s : State) : s.releaseTree.root = nil := rfl
@[simp] theorem State.releaseTree_q (s : State) : s.releaseTree.q = [] := rfl
@[simp] theorem State.releaseTree_qcap (s : State) : s.releaseTree.qcap = s.qcap := rfl
@[simp] theorem State.releaseTree_stk (s : State) : s.releaseTree.stk = [] := rfl
@[simp] theorem State.releaseTree_ct (s : State) : s.releaseTree.ct = s.ct := rfl
@[simp] theorem State.releaseTree_ctDone (s : State) : s.releaseTree.ctDone = s.ctDone := rfl
@[simp] theorem State.releaseTree_tbuf (s : State) : s.releaseTree.tbuf = s.tbuf := rfl
@[simp] theorem State.releaseTree_tlen (s : State) : s.releaseTree.tlen = s.tlen := rfl
@[simp] theorem State.releaseTree_fileSize (s : State) : s.releaseTree.fileSize = s.fileSize := rfl
@[simp] theorem State.releaseTree_hPerm (s : State) : s.releaseTree.hPerm = s.hPerm := rfl
@[simp] theorem State.releaseTree_hTreeSize (s : State) : s.releaseTree.hTreeSize = s.hTreeSize := rfl
@[simp] theorem State.releaseTree_wbuf (s : State) : s.releaseTree.wbuf = s.wbuf := rfl
@[simp] theorem State.releaseTree_wCursor (s : State) : s.releaseTree.wCursor = s.wCursor := rfl
@[simp] theorem State.releaseTree_wTotal (s : State) : s.releaseTree.wTotal = s.wTotal := rfl
@[simp] theorem State.releaseTree_wDone (s : State) : s.releaseTree.wDone = s.wDone := rfl
@[simp] theorem State.releaseTree_rbuf (s : State) : s.releaseTree.rbuf = s.rbuf := rfl
@[simp] theorem State.releaseTree_rLen (s : State) : s.releaseTree.rLen = s.rLen := rfl
@[simp] theorem State.releaseTree_rCursor (s : State) : s.releaseTree.rCursor = s.rCursor := rfl
@[simp] theorem State.releaseTree_rTotal (s : State) : s.releaseTree.rTotal = s.rTotal := rfl
@[simp] theorem State.releaseTree_rEos (s : State) : s.releaseTree.rEos = s.rEos := rfl
@[simp] theorem State.releaseTree_dcur (s : State) : s.releaseTree.dcur = nil := rfl
@[simp] theorem State.releaseTree_emitted (s : State) : s.releaseTree.emitted = s.emitted := rfl
@[simp] theorem State.releaseTree_fault (s : State) : s.releaseTree.fault = s.fault := rfl
@[simp] theorem State.releaseTree_errKind (s : State) : s.releaseTree.errKind = s.errKind := rfl
@[simp] theorem State.releaseTree_errCause (s : State) : s.releaseTree.errCause = s.errCause := rfl
@[simp] theorem State.releaseTree_errInfo (s : State) : s.releaseTree.errInfo = s.errInfo := rfl
@[simp] theorem State.releaseTree_errOp (s : State) : s.releaseTree.errOp = s.errOp := rfl
@[simp] theorem State.releaseTree_env (s : State) : s.releaseTree.env = s.env := rfl
@[simp] theorem State.releaseTree_host (s : State) : s.releaseTree.host = s.host := rfl

/-! ### `State.changeSource` -/

@[simp] theorem State.changeSource_params (s : State) (content : List Byte) (pos : Nat) :
    (s.changeSource content pos).params = s.params := rfl
@[simp] theorem State.changeSource_ft (s : State) (content : List Byte) (pos : Nat) :
    (s.changeSource content pos).ft = s.ft := rfl
@[simp] theorem State.changeSource_nodes (s : State) (content : List Byte) (pos : Nat) :
    (s.changeSource content pos).nodes = s.nodes := rfl
@[simp] theorem State.changeSource_root (s : State) (content : List Byte) (pos : Nat) :
    (s.changeSource content pos).root = s.root := rfl
@[simp] theorem State.changeSource_q (s : State) (content : List Byte) (pos : Nat) :
    (s.changeSource content pos).q = s.q := rfl
@[simp] theorem State.changeSource_qcap (s : State) (content : List Byte) (pos : Nat) :
    (s.changeSource content pos).qcap = s.qcap := rfl
@[simp] theorem State.changeSource_stk (s : State) (content : List Byte) (pos : Nat) :
    (s.changeSource content pos).stk = s.stk := rfl
@[simp] theorem State.changeSource_ct (s : State) (content : List Byte) (pos : Nat) :
    (s.changeSource content pos).ct = s.ct := rfl
@[simp] theorem State.changeSource_ctDone (s : State) (content : List Byte) (pos : Nat) :
    (s.changeSource content pos).ctDone = s.ctDone := rfl
@[simp] theorem State.changeSource_tbuf (s : State) (content : List Byte) (pos : Nat) :
    (s.changeSource content pos).tbuf = s.tbuf := rfl
@[simp] theorem State.changeSource_tlen (s : State) (content : List Byte) (pos : Nat) :
    (s.changeSource content pos).tlen = s.tlen := rfl
@[simp] theorem State.changeSource_fileSize (s : State) (content : List Byte) (pos : Nat) :
    (s.changeSource content pos).fileSize = s.fileSize := rfl
@[simp] theorem State.changeSource_hPerm (s : State) (content : List Byte) (pos : Nat) :
    (s.changeSource content pos).hPerm = s.hPerm := rfl
@[simp] theorem State.changeSource_hTreeSize (s : State) (content : List Byte) (pos : Nat) :
    (s.changeSource content pos).hTreeSize = s.hTreeSize := rfl
@[simp] theorem State.changeSource_wbuf (s : State) (content : List Byte) (pos : Nat) :
    (s.changeSource content pos).wbuf = s.wbuf := rfl
@[simp] theorem State.changeSource_wCursor (s : State) (content : List Byte) (pos : Nat) :
    (s.changeSource content pos).wCursor = s.wCursor := rfl
@[simp] theorem State.changeSource_wTotal (s : State) (content : List Byte) (pos : Nat) :
    (s.changeSource content pos).wTotal = s.wTotal := rfl
@[simp] theorem State.changeSource_wDone (s : State) (content : List Byte) (pos : Nat) :
    (s.changeSource content pos).wDone = s.wDone := rfl
@[simp] theorem State.changeSource_rbuf (s : State) (content : List Byte) (pos : Nat) :
    (s.changeSource content pos).rbuf = s.rbuf := rfl
@[simp] theorem State.changeSource_rLen (s : State) (content : List Byte) (pos : Nat) :
    (s.changeSource content pos).rLen = s.rLen := rfl
@[simp] theorem State.changeSource_rCursor (s : State) (content : List Byte) (pos : Nat) :
    (s.changeSource content pos).rCursor = s.rCursor := rfl
@[simp] theorem State.changeSource_rTotal (s : State) (content : List Byte) (pos : Nat) :
    (s.changeSource content pos).rTotal = s.rTotal := rfl
@[simp] theorem State.changeSource_rEos (s : State) (content : List Byte) (pos : Nat) :
    (s.changeSource content pos).rEos = s.rEos := rfl
@[simp] theorem State.changeSource_dcur (s : State) (content : List Byte) (pos : Nat) :
    (s.changeSource content pos).dcur = s.dcur := rfl
@[simp] theorem State.changeSource_emitted (s : State) (content : List Byte) (pos : Nat) :
    (s.changeSource content pos).emitted = s.emitted := rfl
@[simp] theorem State.changeSource_fault (s : State) (content : List Byte) (pos : Nat) :
    (s.changeSource content pos).fault = s.fault := rfl
@[simp] theorem State.changeSource_errKind (s : State) (content : List Byte) (pos : Nat) :
    (s.changeSource content pos).errKind = s.errKind := rfl
@[simp] theorem State.changeSource_errCause (s : State) (content : List Byte) (pos : Nat) :
    (s.changeSource content pos).errCause = s.errCause := rfl
@[simp] theorem State.changeSource_errInfo (s : State) (content : List Byte) (pos : Nat) :
    (s.changeSource content pos).errInfo = s.errInfo := rfl
@[simp] theorem State.changeSource_errOp (s : State) (content : List Byte) (pos : Nat) :
    (s.changeSource content pos).errOp = s.errOp := rfl
@[simp] theorem State.changeSource_env (s : State) (content : List Byte) (pos : Nat) :
    (s.changeSource content pos).env = { s.env with src := content, spos := min pos content.length } := rfl
@[simp] theorem State.changeSource_host (s : State) (content : List Byte) (pos : Nat) :
    (s.changeSource content pos).host = s.host := rfl

/-! ### `State.sessionReset` -/

@[simp] theorem State.sessionReset_params (s : State) : s.sessionReset.params = s.params := rfl
@[simp] theorem State.sessionReset_ft (s : State) : s.sessionReset.ft = Vector.replicate 256 0#64 := rfl
@[simp] theorem State.sessionReset_nodes (s : State) : s.sessionReset.nodes = [] := rfl
@[simp] theorem State.sessionReset_root (s : State) : s.sessionReset.root = nil := rfl
@[simp] theorem State.sessionReset_q (s : State) : s.sessionReset.q = [] := rfl
@[simp] theorem State.sessionReset_qcap (s : State) : s.sessionReset.qcap = queueSlots := rfl
@[simp] theorem State.sessionReset_stk (s : State) : s.sessionReset.stk = [] := rfl
@[simp] theorem State.sessionReset_ct (s : State) : s.sessionReset.ct = Vector.replicate 256 CodeEntry.none := rfl
@[simp] theorem State.sessionReset_ctDone (s : State) : s.sessionReset.ctDone = false := rfl
@[simp] theorem State.sessionReset_tbuf (s : State) : s.sessionReset.tbuf = [] := rfl
@[simp] theorem State.sessionReset_tlen (s : State) : s.sessionReset.tlen = 0#10 := rfl
@[simp] theorem State.sessionReset_fileSize (s : State) : s.sessionReset.fileSize = 0#64 := rfl
@[simp] theorem State.sessionReset_hPerm (s : State) : s.sessionReset.hPerm = 0#16 := rfl
@[simp] theorem State.sessionReset_hTreeSize (s : State) : s.sessionReset.hTreeSize = 0#16 := rfl
@[simp] theorem State.sessionReset_wbuf (s : State) : s.sessionReset.wbuf = [] := rfl
@[simp] theorem State.sessionReset_wCursor (s : State) : s.sessionReset.wCursor = 0 := rfl
@[simp] theorem State.sessionReset_wTotal (s : State) : s.sessionReset.wTotal = 0#64 := rfl
@[simp] theorem State.sessionReset_wDone (s : State) : s.sessionReset.wDone = false := rfl
@[simp] theorem State.sessionReset_rbuf (s : State) : s.sessionReset.rbuf = [] := rfl
@[simp] theorem State.sessionReset_rLen (s : State) : s.sessionReset.rLen = 0 := rfl
@[simp] theorem State.sessionReset_rCursor (s : State) : s.sessionReset.rCursor = 0 := rfl
@[simp] theorem State.sessionReset_rTotal (s : State) : s.sessionReset.rTotal = 0#64 := rfl
@[simp] theorem State.sessionReset_rEos (s : State) : s.sessionReset.rEos = false := rfl
@[simp] theorem State.sessionReset_dcur (s : State) : s.sessionReset.dcur = nil := rfl
@[simp] theorem State.sessionReset_emitted (s : State) : s.sessionReset.emitted = 0#64 := rfl
@[simp] theorem State.sessionReset_fault (s : State) : s.sessionReset.fault = false := rfl
@[simp] theorem State.sessionReset_errKind (s : State) : s.sessionReset.errKind = 0#2 := rfl
@[simp] theorem State.sessionReset_errCause (s : State) : s.sessionReset.errCause = 0#8 := rfl
@[simp] theorem State.sessionReset_errInfo (s : State) : s.sessionReset.errInfo = 0#64 := rfl
@[simp] theorem State.sessionReset_errOp (s : State) : s.sessionReset.errOp = 0#8 := rfl
@[simp] theorem State.sessionReset_env (s : State) : s.sessionReset.env = s.env := rfl
@[simp] theorem State.sessionReset_host (s : State) : s.sessionReset.host = s.host := rfl

end Sys2Proof.Machine
end

