-- ==== Sys2Proof/Laws/Res.lean ====
section
/-! SUPPORT. How a property passes through the pieces of a command: `Res.All R` says that every state a piece of a command can
leave, by ending well or by raising, has the property `R`. -/

namespace Sys2Proof.Machine

open Sys2Proof

/-- Every state the outcome carries has the property. -/
def Res.All {α : Type} (R : State → Prop) : Res α → Prop
  | .ok _ t => R t
  | .raised _ _ t => R t
  | .stuck _ => True

@[simp] theorem Res.all_ok {α : Type} (R : State → Prop) (v : α) (t : State) : (Res.ok v t).All R ↔ R t := Iff.rfl

@[simp] theorem Res.all_raised {α : Type} (R : State → Prop) (c : Cause) (info : Word64) (t : State) :
    (Res.raised (α := α) c info t).All R ↔ R t := Iff.rfl

@[simp] theorem Res.all_stuck {α : Type} (R : State → Prop) (f : Fault) : (Res.stuck (α := α) f).All R ↔ True := Iff.rfl

@[simp] theorem Res.bind_ok {α β : Type} (v : α) (t : State) (k : α → State → Res β) : (Res.ok v t).bind k = k v t := rfl

@[simp] theorem Res.bind_raised {α β : Type} (c : Cause) (info : Word64) (t : State) (k : α → State → Res β) :
    (Res.raised c info t).bind k = .raised c info t := rfl

@[simp] theorem Res.bind_stuck {α β : Type} (f : Fault) (k : α → State → Res β) :
    (Res.stuck (α := α) f).bind k = .stuck f := rfl

/-- A property the first piece leaves and the rest keeps is left by the whole. -/
theorem Res.all_bind {α β : Type} {Q R : State → Prop} {r : Res α} {k : α → State → Res β} (hr : r.All Q)
    (hq : ∀ t, Q t → R t) (hk : ∀ v t, Q t → (k v t).All R) : (r.bind k).All R := by
  cases r with
  | ok v t => exact hk v t hr
  | raised c info t => exact hq t hr
  | stuck f => trivial

theorem Res.all_mono {α : Type} {Q R : State → Prop} {r : Res α} (h : ∀ t, Q t → R t) (hr : r.All Q) : r.All R := by
  cases r with
  | ok v t => exact h t hr
  | raised c info t => exact h t hr
  | stuck f => trivial

/-- A piece followed by another ends well exactly when both do. -/
theorem Res.bind_eq_ok {α β : Type} {r : Res α} {k : α → State → Res β} {v : β} {t : State} :
    r.bind k = .ok v t ↔ ∃ a u, r = .ok a u ∧ k a u = .ok v t := by
  cases r <;> simp [Res.bind]

/-- A piece followed by another raises when the first does, or the second after it. -/
theorem Res.bind_eq_raised {α β : Type} {r : Res α} {k : α → State → Res β} {c : Cause} {info : Word64} {t : State} :
    r.bind k = .raised c info t ↔ r = .raised c info t ∨ ∃ a u, r = .ok a u ∧ k a u = .raised c info t := by
  cases r <;> simp [Res.bind]

/-- Everything a command can do (30_encoding R99): refused by the FAULT gate, refused by the operand check, or ended by its
rule. -/
theorem runCommand_cases (op : BitVec 8) (inFault legal : Bool) (body : State → Res Response) (s : State) :
    (s.fault = true ∧ inFault = false ∧ runCommand op inFault legal body s = .next (s.respond .faulted 0#64))
    ∨ ((s.fault = false ∨ inFault = true) ∧ legal = false
        ∧ runCommand op inFault legal body s = .next (s.respond .illegal 0#64))
    ∨ ((s.fault = false ∨ inFault = true) ∧ legal = true
        ∧ runCommand op inFault legal body s = finish op (body s)) := by
  unfold runCommand
  cases hf : s.fault <;> cases inFault <;> cases legal <;> simp

/-- What the end of a command can be. -/
theorem finish_eq_next {op : BitVec 8} {r : Res Response} {t : State} (h : finish op r = .next t) :
    (∃ a u, r = .ok a u ∧ t = u.respond a.status a.rdata) ∨ ∃ c info u, r = .raised c info u ∧ t = u.raiseError op c info := by
  cases r <;> simp [finish] at h
  · exact .inl ⟨_, _, rfl, h.symm⟩
  · exact .inr ⟨_, _, _, rfl, h.symm⟩

@[simp] theorem finish_ok (op : BitVec 8) (a : Response) (u : State) :
    finish op (.ok a u) = .next (u.respond a.status a.rdata) := rfl

@[simp] theorem finish_raised (op : BitVec 8) (c : Cause) (info : Word64) (u : State) :
    finish op (.raised c info u) = .next (u.raiseError op c info) := rfl

@[simp] theorem finish_answerOk (op : BitVec 8) (v : Word64) (u : State) :
    finish op (answerOk v u) = .next (u.respond .ok v) := rfl

@[simp] theorem finish_answerFail (op : BitVec 8) (u : State) :
    finish op (answerFail u) = .next (u.respond .fail 0#64) := rfl

/-- A command that may run, with legal operands, is its rule. -/
theorem runCommand_runs {op : BitVec 8} {inFault : Bool} {body : State → Res Response} {s : State}
    (h : s.fault = false ∨ inFault = true) : runCommand op inFault true body s = finish op (body s) := by
  unfold runCommand
  rcases h with h | h <;> simp [h]

/-- A property that the rule leaves, and that giving a response and raising keep, holds of the next state. -/
theorem runCommand_keeps {R : State → Prop} {op : BitVec 8} {inFault legal : Bool} {body : State → Res Response}
    {s t : State} (hs : R s) (hbody : (body s).All R) (hresp : ∀ u st v, R u → R (u.respond st v))
    (hraise : ∀ u c info, R u → R (u.recordError op c info)) (h : runCommand op inFault legal body s = .next t) : R t := by
  rcases runCommand_cases op inFault legal body s with
    ⟨-, -, e⟩ | ⟨-, -, e⟩ | ⟨-, -, e⟩ <;> rw [e] at h
  · cases h; exact hresp _ _ _ hs
  · cases h; exact hresp _ _ _ hs
  · rcases finish_eq_next h with ⟨a, u, hb, rfl⟩ | ⟨c, info, u, hb, rfl⟩ <;> rw [hb] at hbody
    · exact hresp _ _ _ hbody
    · exact hresp _ _ _ (hraise _ _ _ hbody)

end Sys2Proof.Machine
end

