-- ==== Sys2Proof/Laws/Kept.lean ====
section
/-! SUPPORT. What each shared operation leaves unchanged, however it ends: the frame of every operation, said once. -/

namespace Sys2Proof.Machine

open Sys2Proof

/-- Every space outside the list is unchanged, and so are the parameters, the port and the content of the source. -/
def Kept (L : List Space) (s t : State) : Prop :=
  t.params = s.params ∧ t.host = s.host ∧ t.env.src = s.env.src ∧ ∀ sp, sp ∉ L → Unchanged s t sp

theorem Unchanged.refl (s : State) (sp : Space) : Unchanged s s sp := by cases sp <;> simp [Unchanged]

theorem Unchanged.trans {s t u : State} {sp : Space} (h : Unchanged s t sp) (k : Unchanged t u sp) :
    Unchanged s u sp := by
  cases sp <;> simp only [Unchanged] at h k ⊢ <;> first | exact k.trans h | (intro i; exact (k i).trans (h i)) | skip
  · exact ⟨k.1.trans h.1, k.2.1.trans h.2.1, k.2.2.1.trans h.2.2.1, k.2.2.2.trans h.2.2.2⟩
  · exact ⟨k.1.trans h.1, k.2.1.trans h.2.1, k.2.2.1.trans h.2.2.1, k.2.2.2.1.trans h.2.2.2.1,
      k.2.2.2.2.trans h.2.2.2.2⟩
  · exact ⟨k.1.trans h.1, k.2.1.trans h.2.1, k.2.2.trans h.2.2⟩
  · exact ⟨k.1.trans h.1, k.2.trans h.2⟩

theorem Kept.refl (L : List Space) (s : State) : Kept L s s := ⟨rfl, rfl, rfl, fun sp _ => Unchanged.refl s sp⟩

theorem Kept.trans {L : List Space} {s t u : State} (h : Kept L s t) (k : Kept L t u) : Kept L s u :=
  ⟨k.1.trans h.1, k.2.1.trans h.2.1, k.2.2.1.trans h.2.2.1, fun sp hs => (h.2.2.2 sp hs).trans (k.2.2.2 sp hs)⟩

theorem Kept.mono {L M : List Space} {s t : State} (hLM : L ⊆ M) (h : Kept L s t) : Kept M s t :=
  ⟨h.1, h.2.1, h.2.2.1, fun sp hs => h.2.2.2 sp fun hm => hs (hLM hm)⟩

/-- The pieces of a command, one after the other, keep what each of them keeps. -/
theorem Res.kept_bind {α β : Type} {L : List Space} {s : State} {r : Res α} {k : α → State → Res β}
    (hr : r.All (Kept L s)) (hk : ∀ v t, (k v t).All (Kept L t)) : (r.bind k).All (Kept L s) :=
  Res.all_bind hr (fun _ h => h) fun v t h => Res.all_mono (fun _ hu => h.trans hu) (hk v t)

theorem Res.kept_mono {α : Type} {L M : List Space} {s : State} {r : Res α} (hLM : L ⊆ M) (h : r.All (Kept L s)) :
    r.All (Kept M s) := Res.all_mono (fun _ ht => ht.mono hLM) h

/-- A piece that starts from a changed state keeps what the change and the piece keep. -/
theorem Res.kept_from {α : Type} {L : List Space} {s t : State} {r : Res α} (h : Kept L s t) (hr : r.All (Kept L t)) :
    r.All (Kept L s) := Res.all_mono (fun _ hu => h.trans hu) hr

theorem answerOk_kept (L : List Space) (v : Word64) (s : State) : (answerOk v s).All (Kept L s) := Kept.refl L s

theorem answerFail_kept (L : List Space) (s : State) : (answerFail s).All (Kept L s) := Kept.refl L s

theorem alloc_kept (nd : Node) (s : State) : (alloc nd s).All (Kept [.pool] s) := by
  unfold alloc
  split
  · exact Kept.refl _ _
  · refine ⟨rfl, rfl, rfl, fun sp h => ?_⟩
    cases sp <;> simp_all [Unchanged]

theorem push_kept (n : NodeId) (info : Word64) (s : State) : (push n info s).All (Kept [.stack] s) := by
  unfold push
  split
  · exact Kept.refl _ _
  · refine ⟨rfl, rfl, rfl, fun sp h => ?_⟩
    cases sp <;> simp_all [Unchanged]

theorem releaseTree_kept (s : State) : Kept [.pool, .root, .queue, .stack, .dcur] s s.releaseTree := by
  refine ⟨rfl, rfl, rfl, fun sp h => ?_⟩
  cases sp <;> simp_all [Unchanged]

theorem qInsert_kept (n : NodeId) (s : State) : (qInsert n s).All (Kept [.queue] s) := by
  unfold qInsert
  split
  · exact Kept.refl _ _
  · split
    · trivial
    · split
      · trivial
      · refine ⟨rfl, rfl, rfl, fun sp h => ?_⟩
        cases sp <;> simp_all [Unchanged]

theorem qExtract_kept (s : State) : (qExtract s).All (Kept [.queue] s) := by
  unfold qExtract
  split
  · trivial
  · refine ⟨rfl, rfl, rfl, fun sp h => ?_⟩
    cases sp <;> simp_all [Unchanged]

/-- A change of the source's position and prepared answers alone. -/
theorem source_kept (s : State) (pos : Nat) (reads : List ReadAnswer) (rewinds : List RewindAnswer) :
    Kept [.source] s { s with env := { s.env with spos := pos, reads := reads, rewinds := rewinds } } := by
  refine ⟨rfl, rfl, rfl, fun sp h => ?_⟩
  cases sp <;> simp_all [Unchanged]

theorem srcRead_kept (n : Nat) (s : State) : (srcRead n s).All (Kept [.source] s) := by
  unfold srcRead srcDeliver
  split
  · exact source_kept s _ _ _
  · exact source_kept s _ _ _
  · exact source_kept s _ _ _

theorem srcReadLoop_kept (f : Nat) : ∀ (n : Nat) (s : State), (srcReadLoop f n s).All (Kept [.source] s) := by
  induction f with
  | zero => intro n s; exact Kept.refl _ _
  | succ f ih =>
    intro n s
    unfold srcReadLoop
    split
    · exact Kept.refl _ _
    · refine Res.kept_bind (srcRead_kept n s) fun d t => ?_
      split
      · exact Kept.refl _ _
      · exact Res.kept_bind (ih _ t) fun out u => Kept.refl _ _

theorem srcReadExact_kept (n : Nat) (s : State) : (srcReadExact n s).All (Kept [.source] s) := srcReadLoop_kept n n s

theorem srcRewind_kept (s : State) : (srcRewind s).All (Kept [.source] s) := by
  unfold srcRewind
  split <;> exact source_kept s _ _ _

theorem sinkWrite_kept (bytes : List Byte) (s : State) : (sinkWrite bytes s).All (Kept [.sink] s) := by
  unfold sinkWrite sinkAccept
  split <;>
  · refine ⟨rfl, rfl, rfl, fun sp h => ?_⟩
    cases sp <;> simp_all [Unchanged]

theorem countByte_kept (b : Byte) (s : State) : (countByte b s).All (Kept [.ft, .fileSize] s) := by
  unfold countByte
  split
  · exact Kept.refl _ _
  · refine ⟨rfl, rfl, rfl, fun sp h => ?_⟩
    cases sp <;> simp_all [Unchanged]

theorem countBytes_kept (bs : List Byte) : ∀ s, (countBytes bs s).All (Kept [.ft, .fileSize] s) := by
  induction bs with
  | nil => intro s; exact Kept.refl _ _
  | cons b bs ih => intro s; exact Res.kept_bind (countByte_kept b s) fun _ t => ih t

theorem scanLoop_kept (f : Nat) : ∀ n s, (scanLoop f n s).All (Kept [.ft, .fileSize, .source] s) := by
  induction f with
  | zero => intro n s; trivial
  | succ f ih =>
    intro n s
    refine Res.kept_bind (Res.kept_mono (by decide) (srcRead_kept _ s)) fun d t => ?_
    split
    · exact Kept.refl _ _
    · exact Res.kept_bind (Res.kept_mono (by decide) (countBytes_kept d t)) fun _ u => ih _ u

theorem insertLeaves_kept (l : List Sym) : ∀ s, (insertLeaves l s).All (Kept [.pool, .queue] s) := by
  induction l with
  | nil => intro s; exact Kept.refl _ _
  | cons a l ih =>
    intro s
    unfold insertLeaves
    split
    · exact ih s
    · exact Res.kept_bind (Res.kept_mono (by decide) (alloc_kept _ s)) fun n t =>
        Res.kept_bind (Res.kept_mono (by decide) (qInsert_kept n t)) fun _ u => ih u

theorem combineStep_kept (s : State) : (combineStep s).All (Kept [.pool, .queue] s) := by
  refine Res.kept_bind (Res.kept_mono (by decide) (qExtract_kept s)) fun a t =>
    Res.kept_bind (Res.kept_mono (by decide) (qExtract_kept t)) fun b u => ?_
  split
  · split
    · exact Kept.refl _ _
    · exact Res.kept_bind (Res.kept_mono (by decide) (alloc_kept _ u)) fun n v =>
        Res.kept_mono (by decide) (qInsert_kept n v)
  · trivial

theorem combineLoop_kept (f : Nat) : ∀ s, (combineLoop f s).All (Kept [.pool, .queue] s) := by
  induction f with
  | zero => intro s; unfold combineLoop; split <;> first | trivial | exact Kept.refl _ _
  | succ f ih =>
    intro s
    unfold combineLoop
    split
    · exact Res.kept_bind (combineStep_kept s) fun _ t => ih t
    · exact Kept.refl _ _

theorem walk_kept (room : Nat) : ∀ n len bits s, (walk room n len bits s).All (Kept [.ct] s) := by
  induction room with
  | zero =>
    intro n len bits s
    unfold walk
    split
    · trivial
    · refine ⟨rfl, rfl, rfl, fun sp h => ?_⟩
      cases sp <;> simp_all [Unchanged]
    · exact Kept.refl _ _
  | succ room ih =>
    intro n len bits s
    unfold walk
    split
    · trivial
    · refine ⟨rfl, rfl, rfl, fun sp h => ?_⟩
      cases sp <;> simp_all [Unchanged]
    · exact Res.kept_bind (ih _ _ _ s) fun _ t => ih _ _ _ t

theorem tbufPut_kept (i : Nat) (b : Byte) (s : State) : (tbufPut i b s).All (Kept [.tbuf] s) := by
  unfold tbufPut
  split
  · refine ⟨rfl, rfl, rfl, fun sp h => ?_⟩
    cases sp <;> simp_all [Unchanged]
  · trivial

theorem tbufTake_kept (L : List Space) (i : Nat) (s : State) : (tbufTake i s).All (Kept L s) := by
  unfold tbufTake
  split
  · exact Kept.refl _ _
  · trivial

theorem tbufAppend_kept (b : Byte) (s : State) : (tbufAppend b s).All (Kept [.tbuf, .tlen] s) := by
  refine Res.kept_bind (Res.kept_mono (by decide) (tbufPut_kept _ b s)) fun _ t => ?_
  refine ⟨rfl, rfl, rfl, fun sp h => ?_⟩
  cases sp <;> simp_all [Unchanged]

theorem post_kept (depth : Nat) : ∀ n s, (post depth n s).All (Kept [.tbuf, .tlen] s) := by
  induction depth with
  | zero =>
    intro n s
    unfold post
    split
    · trivial
    · exact Res.kept_bind (tbufAppend_kept _ s) fun _ t => tbufAppend_kept _ t
    · trivial
  | succ depth ih =>
    intro n s
    unfold post
    split
    · trivial
    · exact Res.kept_bind (tbufAppend_kept _ s) fun _ t => tbufAppend_kept _ t
    · exact Res.kept_bind (ih _ s) fun _ t => Res.kept_bind (ih _ t) fun _ u => tbufAppend_kept _ u

theorem leafUnit_kept (i : Nat) (s : State) : (leafUnit i s).All (Kept [.pool, .stack] s) := by
  unfold leafUnit
  split
  · exact Kept.refl _ _
  · split
    · exact Kept.refl _ _
    · exact Res.kept_bind (tbufTake_kept _ _ s) fun a t =>
        Res.kept_bind (Res.kept_mono (by decide) (alloc_kept _ t)) fun n u =>
          Res.kept_mono (by decide) (push_kept n _ u)

theorem internalUnit_kept (i : Nat) (s : State) : (internalUnit i s).All (Kept [.pool, .stack] s) := by
  unfold internalUnit
  split
  · rename_i r l rest _
    have h : Kept [.pool, .stack] s { s with stk := rest } := by
      refine ⟨rfl, rfl, rfl, fun sp h => ?_⟩
      cases sp <;> simp_all [Unchanged]
    exact Res.kept_from h (Res.kept_bind (Res.kept_mono (by decide) (alloc_kept _ _)) fun n u =>
      Res.kept_mono (by decide) (push_kept n _ u))
  · exact Kept.refl _ _

theorem rebuildLoop_kept (f : Nat) : ∀ i s, (rebuildLoop f i s).All (Kept [.pool, .stack] s) := by
  induction f with
  | zero => intro i s; exact Kept.refl _ _
  | succ f ih =>
    intro i s
    unfold rebuildLoop
    split
    · exact Kept.refl _ _
    · refine Res.kept_bind (tbufTake_kept _ _ s) fun a t => ?_
      split
      · exact Res.kept_bind (leafUnit_kept i t) fun _ u => ih _ u
      · split
        · exact Res.kept_bind (internalUnit_kept i t) fun _ u => ih _ u
        · exact Kept.refl _ _

theorem flushFull_kept (s : State) : (flushFull s).All (Kept [.wCursor, .sink] s) := by
  unfold flushFull
  split
  · refine Res.kept_bind (Res.kept_mono (by decide) (sinkWrite_kept _ s)) fun _ t => ?_
    refine ⟨rfl, rfl, rfl, fun sp h => ?_⟩
    cases sp <;> simp_all [Unchanged]
  · exact Kept.refl _ _

theorem writeBit_kept (b : Bool) (s : State) : (writeBit b s).All (Kept [.wbuf, .wCursor, .wTotal, .sink] s) := by
  unfold writeBit
  dsimp only
  split
  · refine Res.kept_from ?_ (Res.kept_mono (by decide) (flushFull_kept _))
    refine ⟨rfl, rfl, rfl, fun sp h => ?_⟩
    cases sp <;> simp_all [Unchanged]
  · trivial

theorem writeBits_kept (bs : List Bool) : ∀ s, (writeBits bs s).All (Kept [.wbuf, .wCursor, .wTotal, .sink] s) := by
  induction bs with
  | nil => intro s; exact Kept.refl _ _
  | cons b bs ih => intro s; exact Res.kept_bind (writeBit_kept b s) fun _ t => ih t

theorem padTrailing_kept (s : State) : Kept [.wbuf, .wDone] s (padTrailing s) := by
  refine ⟨rfl, rfl, rfl, fun sp h => ?_⟩
  cases sp <;> simp_all [Unchanged, padTrailing]

theorem takeBit_kept (s : State) : (takeBit s).All (Kept [.reader] s) := by
  unfold takeBit
  dsimp only
  split
  · refine ⟨rfl, rfl, rfl, fun sp h => ?_⟩
    cases sp <;> simp_all [Unchanged]
  · trivial

theorem readBit_kept (s : State) : (readBit s).All (Kept [.rbuf, .reader, .source] s) := by
  unfold readBit
  split
  · exact Kept.refl _ _
  · split
    · refine Res.kept_bind (Res.kept_mono (by decide) (srcRead_kept _ s)) fun d t => ?_
      have h : Kept [.rbuf, .reader, .source] t
          { t with rbuf := t.rbuf.writeBytes 0 d, rLen := d.length, rCursor := 0 } := by
        refine ⟨rfl, rfl, rfl, fun sp h => ?_⟩
        cases sp <;> simp_all [Unchanged]
      dsimp only
      split
      · refine ⟨rfl, rfl, rfl, fun sp h => ?_⟩
        cases sp <;> simp_all [Unchanged]
      · exact Res.kept_from h (Res.kept_mono (by decide) (takeBit_kept _))
    · exact Res.kept_mono (by decide) (takeBit_kept s)

theorem encodeBytes_kept (bs : List Byte) :
    ∀ s, (encodeBytes bs s).All (Kept [.wbuf, .wCursor, .wTotal, .source, .sink] s) := by
  induction bs with
  | nil => intro s; exact Kept.refl _ _
  | cons b bs ih =>
    intro s
    unfold encodeBytes
    split
    · exact Kept.refl _ _
    · exact Res.kept_bind (Res.kept_mono (by decide) (writeBits_kept _ s)) fun _ t => ih t

theorem encodeLoop_kept (f : Nat) :
    ∀ n s, (encodeLoop f n s).All (Kept [.wbuf, .wCursor, .wTotal, .source, .sink] s) := by
  induction f with
  | zero => intro n s; trivial
  | succ f ih =>
    intro n s
    refine Res.kept_bind (Res.kept_mono (by decide) (srcRead_kept _ s)) fun d t => ?_
    split
    · exact Kept.refl _ _
    · exact Res.kept_bind (encodeBytes_kept d t) fun _ u => ih _ u

theorem emitSym_kept (a : Sym) (s : State) : (emitSym a s).All (Kept [.dcur, .emitted, .sink] s) := by
  refine Res.kept_bind (Res.kept_mono (by decide) (sinkWrite_kept _ s)) fun _ t => ?_
  refine ⟨rfl, rfl, rfl, fun sp h => ?_⟩
  cases sp <;> simp_all [Unchanged]

theorem dcur_kept (s : State) (n : NodeId) :
    Kept [.rbuf, .reader, .dcur, .emitted, .source, .sink] s { s with dcur := n } := by
  refine ⟨rfl, rfl, rfl, fun sp h => ?_⟩
  cases sp <;> simp_all [Unchanged]

theorem decodeWalk_kept (f : Nat) :
    ∀ s, (decodeWalk f s).All (Kept [.rbuf, .reader, .dcur, .emitted, .source, .sink] s) := by
  induction f with
  | zero => intro s; trivial
  | succ f ih =>
    intro s
    refine Res.kept_bind (Res.kept_mono (by decide) (readBit_kept s)) fun b t => ?_
    cases b with
    | none => exact Kept.refl _ _
    | some b =>
      dsimp only
      split
      · trivial
      · rename_i nd _
        refine Res.kept_from (dcur_kept t (nd.child b)) ?_
        split
        · trivial
        · exact Res.kept_mono (by decide) (emitSym_kept _ _)
        · exact ih _

theorem decodeOne_kept (s : State) :
    (decodeOne s).All (Kept [.rbuf, .reader, .dcur, .emitted, .source, .sink] s) := by
  unfold decodeOne
  split
  · trivial
  · exact Kept.refl _ _
  · exact Res.kept_from (dcur_kept s s.root) (decodeWalk_kept _ _)

theorem decodeLoop_kept (f : Nat) :
    ∀ n s, (decodeLoop f n s).All (Kept [.rbuf, .reader, .dcur, .emitted, .source, .sink] s) := by
  induction f with
  | zero => intro n s; unfold decodeLoop; split <;> first | trivial | exact Kept.refl _ _
  | succ f ih =>
    intro n s
    unfold decodeLoop
    split
    · exact Res.kept_bind (decodeOne_kept s) fun _ t => ih _ t
    · exact Kept.refl _ _

end Sys2Proof.Machine
end

