-- ==== Sys2Proof/Laws/Ops.lean ====
section
/-! SUPPORT. For each shared operation everything it can answer, said once, so that no proof about a command unfolds it. -/

namespace Sys2Proof.Machine

open Sys2Proof

/-! ### Nodes, queue and stack -/

/-- `alloc` raises on a full pool and else takes the next slot (10_state R24). -/
theorem alloc_cases (nd : Node) (s : State) :
    (s.nodes.length = nodeMax ∧ alloc nd s = .raised .poolExhausted 511#64 s)
    ∨ (s.nodes.length ≠ nodeMax
        ∧ alloc nd s = .ok (BitVec.ofNat 9 s.nodes.length) { s with nodes := s.nodes ++ [nd] }) := by
  unfold alloc
  split <;> simp_all

/-- `push` raises on a full stack and else puts the node on top (10_state R28). -/
theorem push_cases (n : NodeId) (info : Word64) (s : State) :
    (s.stk.length = stackCap ∧ push n info s = .raised .stackFull info s)
    ∨ (s.stk.length ≠ stackCap ∧ push n info s = .ok () { s with stk := n :: s.stk }) := by
  unfold push
  split <;> simp_all

theorem qExtract_cons {s : State} {n : NodeId} {rest : List NodeId} (h : s.q = n :: rest) :
    qExtract s = .ok n { s with q := rest } := by
  unfold qExtract
  rw [h]

/-- An allocated node keeps its weight when another slot is taken. -/
theorem weightOf_append {s : State} {n : NodeId} (nd : Node) (h : n.toNat < s.nodes.length) :
    weightOf { s with nodes := s.nodes ++ [nd] } n = weightOf s n := by
  simp [weightOf, nodeAt, List.getElem?_append_left h]

theorem weightOf_some {s : State} {n : NodeId} (h : n.toNat < s.nodes.length) : ∃ w, weightOf s n = some w := by
  simp [weightOf, nodeAt, List.getElem?_eq_getElem h]

/-- The place of an insertion is at most the number of entries, and exists when every entry is allocated. -/
theorem insertPos_some (s : State) (w : Word64) :
    ∀ l : List NodeId, (∀ n ∈ l, n.toNat < s.nodes.length) → ∃ p, insertPos s w l = some p ∧ p ≤ l.length := by
  intro l
  induction l with
  | nil => exact fun _ => ⟨0, rfl, Nat.le_refl 0⟩
  | cons m l ih =>
    intro h
    obtain ⟨p, hp, hle⟩ := ih fun n hn => h n (List.mem_cons_of_mem _ hn)
    obtain ⟨wm, hwm⟩ := weightOf_some (h m List.mem_cons_self)
    simp only [insertPos, hwm, hp, List.length_cons]
    split
    · exact ⟨p + 1, rfl, by omega⟩
    · exact ⟨p, rfl, by omega⟩

/-- Into a queue with room, of allocated entries, an allocated node goes at some place, in front of which and behind which the
old entries stay as they were (41_queue R130). -/
theorem qInsert_ok {n : NodeId} {s : State} (hn : n.toNat < s.nodes.length) (hroom : s.q.length ≠ s.qcap.toNat)
    (hq : ∀ m ∈ s.q, m.toNat < s.nodes.length) :
    ∃ p, p ≤ s.q.length ∧ qInsert n s = .ok () { s with q := s.q.take p ++ n :: s.q.drop p } := by
  obtain ⟨w, hw⟩ := weightOf_some hn
  obtain ⟨p, hp, hle⟩ := insertPos_some s w s.q hq
  refine ⟨p, hle, ?_⟩
  simp [qInsert, hroom, hw, hp]

/-! ### Streams -/

/-- What one delivery is: between one byte and `n` of what is left, and none exactly at the end or when none is asked. -/
theorem srcDeliver_eq (n k : Nat) (s : State) :
    srcDeliver n k s =
      .ok ((srcRest s).take (min (max 1 k) n))
        { s with env := { s.env with spos := s.env.spos + ((srcRest s).take (min (max 1 k) n)).length } } := rfl

/-- Everything `SrcRead(n)` can answer when no prepared read fails: the next `m` bytes, `1 <= m <= n` if `n` is not 0, and
fewer only at the end of the source (20_memory R63). -/
theorem srcRead_ok {s : State} (n : Nat) (h : ReadsDeliver s) :
    ∃ m, m ≤ n ∧ (1 ≤ n → 1 ≤ m)
      ∧ srcRead n s =
          .ok ((srcRest s).take m)
            { s with env := { s.env with
                reads := s.env.reads.tail, spos := s.env.spos + ((srcRest s).take m).length } } := by
  unfold srcRead
  split
  · rename_i hr
    exact ⟨min (max 1 n) n, by omega, by omega, by simp [srcDeliver_eq, hr]⟩
  · rename_i k rest hr
    exact ⟨min (max 1 k) n, by omega, by omega, by simp [srcDeliver_eq, hr, srcRest]⟩
  · rename_i pos rest hr
    exact absurd rfl (h (.fail pos) (by simp [hr]) pos)

/-- The prepared answers that remain after a read still do not fail. -/
theorem readsDeliver_tail {s : State} {spos : Nat} (h : ReadsDeliver s) :
    ReadsDeliver { s with env := { s.env with reads := s.env.reads.tail, spos := spos } } :=
  fun r hr => h r (List.mem_of_mem_tail hr)

/-- A failing read raises and moves nothing but the source's position (20_memory R63). -/
theorem srcRead_fail {s : State} {pos : Nat} {rest : List ReadAnswer} (n : Nat) (h : s.env.reads = .fail pos :: rest) :
    srcRead n s =
      .raised .readFailed 0#64 { s with env := { s.env with reads := rest, spos := min pos s.env.src.length } } := by
  unfold srcRead
  rw [h]

theorem srcReadLoop_ok (f : Nat) :
    ∀ (n : Nat) (s : State), n ≤ f → ReadsDeliver s →
      ∃ reads, (∀ r ∈ reads, ∀ pos, r ≠ .fail pos)
        ∧ srcReadLoop f n s =
            .ok ((srcRest s).take n)
              { s with env := { s.env with reads := reads, spos := s.env.spos + ((srcRest s).take n).length } } := by
  induction f with
  | zero =>
    intro n s hn h
    have : n = 0 := by omega
    subst this
    exact ⟨s.env.reads, h, by simp [srcReadLoop]⟩
  | succ f ih =>
    intro n s hn h
    by_cases h0 : n = 0
    · subst h0
      exact ⟨s.env.reads, h, by simp [srcReadLoop]⟩
    · obtain ⟨m, hm, hm1, he⟩ := srcRead_ok n h
      have hm1 : 1 ≤ m := hm1 (by omega)
      by_cases hd : srcRest s = []
      · refine ⟨s.env.reads.tail, fun r hr => h r (List.mem_of_mem_tail hr), ?_⟩
        simp [srcReadLoop, h0, he, hd]
      · have hd' : (srcRest s).take m ≠ [] := by
          simp only [ne_eq, List.take_eq_nil_iff, not_or]
          exact ⟨by omega, hd⟩
        obtain ⟨reads, hr, hl⟩ := ih (n - ((srcRest s).take m).length)
          { s with env := { s.env with
              reads := s.env.reads.tail, spos := s.env.spos + ((srcRest s).take m).length } }
          (by
            have : 1 ≤ ((srcRest s).take m).length := List.length_pos_iff.mpr hd'
            omega)
          (readsDeliver_tail h)
        refine ⟨reads, hr, ?_⟩
        have hrest : srcRest { s with env := { s.env with
            reads := s.env.reads.tail, spos := s.env.spos + ((srcRest s).take m).length } }
            = (srcRest s).drop ((srcRest s).take m).length := by
          simp [srcRest, List.drop_drop]
        have hcat : (srcRest s).take m
              ++ ((srcRest s).drop ((srcRest s).take m).length).take (n - ((srcRest s).take m).length)
            = (srcRest s).take n := by
          simp only [List.length_take]
          by_cases hlen : m ≤ (srcRest s).length
          · rw [Nat.min_eq_left hlen]
            have hn' : n = m + (n - m) := by omega
            conv_rhs => rw [hn', List.take_add]
          · rw [Nat.min_eq_right (by omega), List.drop_length, List.take_nil, List.append_nil,
              List.take_of_length_le (by omega), List.take_of_length_le (by omega)]
        have hlen : ((srcRest s).take m).length
              + (((srcRest s).drop ((srcRest s).take m).length).take (n - ((srcRest s).take m).length)).length
            = ((srcRest s).take n).length := by rw [← List.length_append, hcat]
        rw [srcReadLoop, if_neg h0, he, Res.bind_ok, if_neg hd', hl, Res.bind_ok, hrest, hcat]
        congr 1
        simp only [Nat.add_assoc, hlen]

/-- `SrcReadExact(n)` when no prepared read fails: the next `n` bytes, or all that are left, however the reads are cut
(20_memory R64). -/
theorem srcReadExact_ok {s : State} (n : Nat) (h : ReadsDeliver s) :
    ∃ reads, (∀ r ∈ reads, ∀ pos, r ≠ .fail pos)
      ∧ srcReadExact n s =
          .ok ((srcRest s).take n)
            { s with env := { s.env with reads := reads, spos := s.env.spos + ((srcRest s).take n).length } } :=
  srcReadLoop_ok n n s (Nat.le_refl n) h

/-- An accepted write is one more entry of the sink (20_memory R66, R72). -/
theorem sinkWrite_ok {s : State} (bytes : List Byte) (h : WritesAccepted s) :
    sinkWrite bytes s =
      .ok () { s with env := { s.env with sink := s.env.sink ++ [bytes], writes := s.env.writes.tail } } := by
  unfold sinkWrite
  split
  · rename_i hw; simp [sinkAccept, hw]
  · rename_i rest hw; simp [sinkAccept, hw]
  · rename_i rest hw; exact absurd (by simp [hw]) h

/-- The prepared answers that remain after a write still do not fail. -/
theorem writesAccepted_tail {s : State} {sink : List (List Byte)} (h : WritesAccepted s) :
    WritesAccepted { s with env := { s.env with sink := sink, writes := s.env.writes.tail } } :=
  fun hw => h (List.mem_of_mem_tail hw)

theorem sinkWrite_fail {s : State} {rest : List WriteAnswer} (bytes : List Byte) (h : s.env.writes = .fail :: rest) :
    sinkWrite bytes s = .raised .writeFailed 0#64 { s with env := { s.env with writes := rest } } := by
  unfold sinkWrite
  rw [h]

/-! ### Counts, buffers and bits -/

/-- A count goes up with `FILE_SIZE`, or 0x26 is raised and neither is written (42_tree_builder R141). -/
theorem countByte_cases (b : Byte) (s : State) :
    ((symGet s.ft b = BitVec.allOnes 64 ∨ s.fileSize = BitVec.allOnes 64)
        ∧ countByte b s = .raised .countOverflow (b.setWidth 64) s)
    ∨ (symGet s.ft b ≠ BitVec.allOnes 64 ∧ s.fileSize ≠ BitVec.allOnes 64
        ∧ countByte b s =
            .ok () { s with ft := symSet s.ft b (symGet s.ft b + 1#64), fileSize := s.fileSize + 1#64 }) := by
  unfold countByte
  split <;> simp_all

/-- One byte more in `TBUF`, while there is room. -/
theorem tbufAppend_ok {s : State} (b : Byte) (h : s.tlen.toNat < tbufBytes) :
    tbufAppend b s = .ok () { s with tbuf := s.tbuf.write s.tlen.toNat b, tlen := s.tlen + 1#10 } := by
  simp [tbufAppend, tbufPut, h]

theorem tbufTake_ok {i : Nat} (s : State) (h : i < tbufBytes) : tbufTake i s = .ok (s.tbuf.read i) s := by
  simp [tbufTake, h]

/-- A bit that does not fill the block is placed, and no write is made (45_bit_channel R180). -/
theorem writeBit_inside {s : State} (b : Bool) (h : s.wCursor + 1 < s.params.blockBits) :
    writeBit b s =
      .ok () { s with
        wbuf := s.wbuf.write (s.wCursor / 8) (setBit (s.wbuf.read (s.wCursor / 8)) (s.wCursor % 8) b)
        wCursor := s.wCursor + 1
        wTotal := s.wTotal + 1#64 } := by
  have hb : s.params.blockBits = 8 * s.params.blockBytes := rfl
  have hi : s.wCursor / 8 < s.params.blockBytes := by omega
  have hn : s.wCursor + 1 ≠ s.params.blockBits := by omega
  simp [writeBit, hi, flushFull, hn]

/-- The bit that fills the block is placed, and the block is one write; the cursor returns to 0 (45_bit_channel R180). -/
theorem writeBit_last {s : State} (b : Bool) (h : s.wCursor + 1 = s.params.blockBits) (hw : WritesAccepted s) :
    writeBit b s =
      .ok () { s with
        wbuf := s.wbuf.write (s.wCursor / 8) (setBit (s.wbuf.read (s.wCursor / 8)) (s.wCursor % 8) b)
        wCursor := 0
        wTotal := s.wTotal + 1#64
        env := { s.env with
          sink := s.env.sink ++
            [(s.wbuf.write (s.wCursor / 8) (setBit (s.wbuf.read (s.wCursor / 8)) (s.wCursor % 8) b)).slice 0
              s.params.blockBytes]
          writes := s.env.writes.tail } } := by
  have hb : s.params.blockBits = 8 * s.params.blockBytes := rfl
  have hi : s.wCursor / 8 < s.params.blockBytes := by omega
  simp only [writeBit, hi, if_true, flushFull, h]
  rw [sinkWrite_ok (s := { s with
    wbuf := s.wbuf.write (s.wCursor / 8) (setBit (s.wbuf.read (s.wCursor / 8)) (s.wCursor % 8) b)
    wCursor := s.params.blockBits
    wTotal := s.wTotal + 1#64 }) _ hw]
  rfl

/-- A bit of the block in `RBUF` (45_bit_channel R184). -/
theorem takeBit_ok {s : State} (h : s.rCursor / 8 < s.params.blockBytes) :
    takeBit s =
      .ok (some (memBit s.rbuf s.rCursor)) { s with rCursor := s.rCursor + 1, rTotal := s.rTotal + 1#64 } := by
  simp [takeBit, h, memBit]

/-- The reader inside a block touches neither the source nor `RBUF`. -/
theorem readBit_inside {s : State} (he : s.rEos = false) (h : s.rCursor ≠ 8 * s.rLen) : readBit s = takeBit s := by
  simp [readBit, he, h]

theorem readBit_eos {s : State} (he : s.rEos = true) : readBit s = .ok none s := by simp [readBit, he]

/-- The bit that fills the block is placed and counted, and the cursor stays at the end of the block, when the write of the block
fails (45_bit_channel R180). -/
theorem writeBit_flush_fails {s : State} {rest : List WriteAnswer} (b : Bool) (h : s.wCursor + 1 = s.params.blockBits)
    (hw : s.env.writes = .fail :: rest) :
    writeBit b s =
      .raised .writeFailed 0#64 { s with
        wbuf := s.wbuf.write (s.wCursor / 8) (setBit (s.wbuf.read (s.wCursor / 8)) (s.wCursor % 8) b)
        wCursor := s.params.blockBits
        wTotal := s.wTotal + 1#64
        env := { s.env with writes := rest } } := by
  have hb : s.params.blockBits = 8 * s.params.blockBytes := rfl
  have hi : s.wCursor / 8 < s.params.blockBytes := by omega
  simp only [writeBit, hi, if_true, flushFull, h]
  rw [sinkWrite_fail (s := { s with
    wbuf := s.wbuf.write (s.wCursor / 8) (setBit (s.wbuf.read (s.wCursor / 8)) (s.wCursor % 8) b)
    wCursor := s.params.blockBits
    wTotal := s.wTotal + 1#64 }) _ hw]
  rfl

/-- Bits are written piece by piece. -/
theorem writeBits_append (p q : List Bool) : ∀ s, writeBits (p ++ q) s = (writeBits p s).bind fun _ t => writeBits q t := by
  induction p with
  | nil => exact fun _ => rfl
  | cons b p ih =>
    intro s
    simp only [List.cons_append, writeBits]
    cases writeBit b s with
    | ok _ t => exact ih t
    | raised c info t => rfl
    | stuck f => rfl

/-- A refill that fails leaves the block and the cursors as they were (45_bit_channel R184). -/
theorem readBit_refill_fails {s : State} {pos : Nat} {rest : List ReadAnswer} (he : s.rEos = false)
    (h : s.rCursor = 8 * s.rLen) (hr : s.env.reads = .fail pos :: rest) :
    readBit s =
      .raised .readFailed 0#64 { s with env := { s.env with reads := rest, spos := min pos s.env.src.length } } := by
  simp [readBit, he, h, srcRead_fail _ hr, Res.bind]

/-- A symbol whose write fails is not counted, and the walk stays on its leaf (46_framing R199). -/
theorem emitSym_fails {s : State} {rest : List WriteAnswer} (a : Sym) (hw : s.env.writes = .fail :: rest) :
    emitSym a s = .raised .writeFailed 0#64 { s with env := { s.env with writes := rest } } := by
  simp [emitSym, sinkWrite_fail _ hw, Res.bind]

end Sys2Proof.Machine
end

