-- ==== Sys2Proof/Laws/PerInstr.lean ====
section
/-! SUPPORT. Statements about every command as syntax, one lemma for each constructor, and the rows of the opcode map that match
no common word. -/

namespace Sys2Proof.Laws

open Sys2Proof

/-- The word of a command is matched by the row of its opcode, and that row builds the command from its operands (30_encoding
R96). -/
def TableWord.Statement (i : Instr) : Prop :=
  ∃ row ∈ opcodeRows, row.opcode = i.opcode ∧ (encode i).1 &&& row.format.mask = row.opcode ++ 0#8
    ∧ row.build i.operandA i.operandW = i

/-- Whatever its low byte, a word masked to its high byte is its opcode over a zero byte. -/
theorem append_and_highByte (op a : BitVec 8) : (op ++ a) &&& 0xFF00#16 = op ++ 0#8 := by
  have h : (0xFF00#16 : BitVec (8 + 8)) = BitVec.allOnes 8 ++ 0#8 := by decide
  show (op ++ a) &&& (0xFF00#16 : BitVec (8 + 8)) = op ++ 0#8
  rw [h, BitVec.and_append, BitVec.and_allOnes, BitVec.and_zero]

theorem and_fullWord (w : BitVec 16) : w &&& 0xFFFF#16 = w := by
  have h : (0xFFFF#16 : BitVec 16) = BitVec.allOnes 16 := by decide
  rw [h, BitVec.and_allOnes]

/-- A command whose operand `a` is 0, or whose format leaves `a` free, is matched by its row. -/
theorem TableWord.of_row {i : Instr} (k : Nat) (row : OpcodeRow) (hk : opcodeRows[k]? = some row)
    (ho : row.opcode = i.opcode) (ha : i.operandA = 0#8 ∨ row.format = .a ∨ row.format = .aw)
    (hb : row.build i.operandA i.operandW = i) : TableWord.Statement i := by
  refine ⟨row, List.mem_of_getElem? hk, ho, ?_, hb⟩
  show (i.opcode ++ i.operandA) &&& row.format.mask = row.opcode ++ 0#8
  rw [ho]
  rcases ha with h | h | h
  · rw [h]
    cases row.format
    · exact and_fullWord _
    · exact append_and_highByte _ _
    · exact and_fullWord _
    · exact append_and_highByte _ _
  · rw [h]
    exact append_and_highByte _ _
  · rw [h]
    exact append_and_highByte _ _

/-- No two rows of the opcode map share an opcode, so no word is matched by two rows (30_encoding R96). -/
theorem opcodeRows_nodup : (opcodeRows.map OpcodeRow.opcode).Nodup := by decide

theorem TableWord.nop : TableWord.Statement .nop :=
  TableWord.of_row 0 _ rfl rfl (.inl rfl) rfl

theorem TableWord.sessionReset : TableWord.Statement .sessionReset :=
  TableWord.of_row 1 _ rfl rfl (.inl rfl) rfl

theorem TableWord.rdreg (a : BitVec 8) : TableWord.Statement (.rdreg a) :=
  TableWord.of_row 2 _ rfl rfl (.inr (.inl rfl)) rfl

theorem TableWord.wrreg (a : BitVec 8) (wdata : Word64) : TableWord.Statement (.wrreg a wdata) :=
  TableWord.of_row 3 _ rfl rfl (.inr (.inr rfl)) rfl

theorem TableWord.qCreate (wdata : Word64) : TableWord.Statement (.qCreate wdata) :=
  TableWord.of_row 4 _ rfl rfl (.inl rfl) rfl

theorem TableWord.qInsert (wdata : Word64) : TableWord.Statement (.qInsert wdata) :=
  TableWord.of_row 5 _ rfl rfl (.inl rfl) rfl

theorem TableWord.qExtract : TableWord.Statement .qExtract :=
  TableWord.of_row 6 _ rfl rfl (.inl rfl) rfl

theorem TableWord.nodeLeaf (sym : Sym) (wdata : Word64) : TableWord.Statement (.nodeLeaf sym wdata) :=
  TableWord.of_row 7 _ rfl rfl (.inr (.inr rfl)) rfl

theorem TableWord.nodeGet (wdata : Word64) : TableWord.Statement (.nodeGet wdata) :=
  TableWord.of_row 8 _ rfl rfl (.inl rfl) rfl

theorem TableWord.nodeWeight (wdata : Word64) : TableWord.Statement (.nodeWeight wdata) :=
  TableWord.of_row 9 _ rfl rfl (.inl rfl) rfl

theorem TableWord.ftClr : TableWord.Statement .ftClr :=
  TableWord.of_row 10 _ rfl rfl (.inl rfl) rfl

theorem TableWord.ftInc (sym : Sym) : TableWord.Statement (.ftInc sym) :=
  TableWord.of_row 11 _ rfl rfl (.inr (.inl rfl)) rfl

theorem TableWord.ftSet (sym : Sym) (wdata : Word64) : TableWord.Statement (.ftSet sym wdata) :=
  TableWord.of_row 12 _ rfl rfl (.inr (.inr rfl)) rfl

theorem TableWord.ftGet (sym : Sym) : TableWord.Statement (.ftGet sym) :=
  TableWord.of_row 13 _ rfl rfl (.inr (.inl rfl)) rfl

theorem TableWord.ftScan : TableWord.Statement .ftScan :=
  TableWord.of_row 14 _ rfl rfl (.inl rfl) rfl

theorem TableWord.ftPad : TableWord.Statement .ftPad :=
  TableWord.of_row 15 _ rfl rfl (.inl rfl) rfl

theorem TableWord.tbBuild : TableWord.Statement .tbBuild :=
  TableWord.of_row 16 _ rfl rfl (.inl rfl) rfl

theorem TableWord.treeFree : TableWord.Statement .treeFree :=
  TableWord.of_row 17 _ rfl rfl (.inl rfl) rfl

theorem TableWord.ctGen : TableWord.Statement .ctGen :=
  TableWord.of_row 18 _ rfl rfl (.inl rfl) rfl

theorem TableWord.ctLen (sym : Sym) : TableWord.Statement (.ctLen sym) :=
  TableWord.of_row 19 _ rfl rfl (.inr (.inl rfl)) rfl

theorem TableWord.ctWord (sym : Sym) (wdata : Word64) : TableWord.Statement (.ctWord sym wdata) :=
  TableWord.of_row 20 _ rfl rfl (.inr (.inr rfl)) rfl

theorem TableWord.tcDump : TableWord.Statement .tcDump :=
  TableWord.of_row 21 _ rfl rfl (.inl rfl) rfl

theorem TableWord.tcRebuild : TableWord.Statement .tcRebuild :=
  TableWord.of_row 22 _ rfl rfl (.inl rfl) rfl

theorem TableWord.tcLoad : TableWord.Statement .tcLoad :=
  TableWord.of_row 23 _ rfl rfl (.inl rfl) rfl

theorem TableWord.tcStore : TableWord.Statement .tcStore :=
  TableWord.of_row 24 _ rfl rfl (.inl rfl) rfl

theorem TableWord.tbufRd (wdata : Word64) : TableWord.Statement (.tbufRd wdata) :=
  TableWord.of_row 25 _ rfl rfl (.inl rfl) rfl

theorem TableWord.tbufWr (byte : Byte) (wdata : Word64) : TableWord.Statement (.tbufWr byte wdata) :=
  TableWord.of_row 26 _ rfl rfl (.inr (.inr rfl)) rfl

theorem TableWord.wrSym (sym : Sym) : TableWord.Statement (.wrSym sym) :=
  TableWord.of_row 27 _ rfl rfl (.inr (.inl rfl)) rfl

theorem TableWord.wrFinal : TableWord.Statement .wrFinal :=
  TableWord.of_row 28 _ rfl rfl (.inl rfl) rfl

theorem TableWord.rdBit : TableWord.Statement .rdBit :=
  TableWord.of_row 29 _ rfl rfl (.inl rfl) rfl

theorem TableWord.hdrPut : TableWord.Statement .hdrPut :=
  TableWord.of_row 30 _ rfl rfl (.inl rfl) rfl

theorem TableWord.hdrGet : TableWord.Statement .hdrGet :=
  TableWord.of_row 31 _ rfl rfl (.inl rfl) rfl

theorem TableWord.srcRewind : TableWord.Statement .srcRewind :=
  TableWord.of_row 32 _ rfl rfl (.inl rfl) rfl

theorem TableWord.encBody : TableWord.Statement .encBody :=
  TableWord.of_row 33 _ rfl rfl (.inl rfl) rfl

theorem TableWord.decSym : TableWord.Statement .decSym :=
  TableWord.of_row 34 _ rfl rfl (.inl rfl) rfl

theorem TableWord.decBody : TableWord.Statement .decBody :=
  TableWord.of_row 35 _ rfl rfl (.inl rfl) rfl

end Sys2Proof.Laws
end

