-- ==== Sys2Proof/Laws/Tree.lean ====
section
/-! SUPPORT. The small lemmas of the trees, dump units and extraction order that claims speak of: what a taken slot, a longer path
or a longer sequence of units makes of them. -/

namespace Sys2Proof.Machine

open Sys2Proof

/-! ### Trees under an id (10_state R26) -/

@[simp] theorem follow_nil (nodes : List Node) (n : NodeId) : follow nodes n [] = some n := rfl

theorem follow_cons {nodes : List Node} {n i j : NodeId} {w : Word64} (b : Bool) (path : List Bool)
    (h : nodes[n.toNat]? = some (.internal w i j)) :
    follow nodes n (b :: path) = follow nodes (if b then j else i) path := by
  simp [follow, h]

/-- A path is followed piece by piece. -/
theorem follow_append (nodes : List Node) (p q : List Bool) :
    ∀ n, follow nodes n (p ++ q) = (follow nodes n p).bind fun m => follow nodes m q := by
  induction p with
  | nil => intro n; rfl
  | cons b p ih =>
    intro n
    simp only [List.cons_append, follow]
    split
    · exact ih _
    · rfl

@[simp] theorem idsUnder_leaf (nodes : List Node) (a : Sym) (n : NodeId) : idsUnder nodes (.leaf a) n = [n] := rfl

theorem idsUnder_node {nodes : List Node} {n i j : NodeId} {w : Word64} (l r : CodeTree)
    (h : nodes[n.toNat]? = some (.internal w i j)) :
    idsUnder nodes (.node l r) n = n :: (idsUnder nodes l i ++ idsUnder nodes r j) := by
  simp [idsUnder, h]

/-- Every node of a tree is allocated. -/
theorem idsUnder_lt {nodes : List Node} (t : CodeTree) :
    ∀ {n}, Represents nodes n t → ∀ m ∈ idsUnder nodes t n, m.toNat < nodes.length := by
  have lt : ∀ {n : NodeId} {nd}, nodes[n.toNat]? = some nd → n.toNat < nodes.length := fun h =>
    (List.getElem?_eq_some_iff.mp h).1
  induction t with
  | leaf a =>
    intro n h m hm
    obtain ⟨w, h⟩ := h
    rw [List.mem_singleton.mp hm]
    exact lt h
  | node l r ihl ihr =>
    intro n h m hm
    obtain ⟨w, i, j, h, hl, hr⟩ := h
    rw [idsUnder_node l r h, List.mem_cons, List.mem_append] at hm
    obtain rfl | hm | hm := hm
    · exact lt h
    · exact ihl hl m hm
    · exact ihr hr m hm

/-- A taken slot leaves the trees that stood before it. -/
theorem represents_append {nodes : List Node} (more : List Node) (t : CodeTree) :
    ∀ {n}, Represents nodes n t → Represents (nodes ++ more) n t := by
  have keep : ∀ {n : NodeId} {nd}, nodes[n.toNat]? = some nd → (nodes ++ more)[n.toNat]? = some nd := fun h => by
    rw [List.getElem?_append_left (List.getElem?_eq_some_iff.mp h).1, h]
  induction t with
  | leaf a => exact fun ⟨w, h⟩ => ⟨w, keep h⟩
  | node l r ihl ihr => exact fun ⟨w, i, j, h, hl, hr⟩ => ⟨w, i, j, keep h, ihl hl, ihr hr⟩

/-- A taken slot leaves the ids of the trees that stood before it. -/
theorem idsUnder_append {nodes : List Node} (more : List Node) (t : CodeTree) :
    ∀ {n}, Represents nodes n t → idsUnder (nodes ++ more) t n = idsUnder nodes t n := by
  induction t with
  | leaf a => exact fun _ => rfl
  | node l r ihl ihr =>
    intro n h
    obtain ⟨w, i, j, h, hl, hr⟩ := h
    have h' : (nodes ++ more)[n.toNat]? = some (.internal w i j) := by
      rw [List.getElem?_append_left (List.getElem?_eq_some_iff.mp h).1, h]
    rw [idsUnder_node l r h, idsUnder_node l r h', ihl hl, ihr hr]

/-! ### Units of a dump (44_tree_codec R166) -/

@[simp] theorem unitsBytes_nil (p : Params) : unitsBytes p [] = [] := rfl

@[simp] theorem unitsBytes_cons (p : Params) (u : DumpUnit) (units : List DumpUnit) :
    unitsBytes p (u :: units) = u.bytes p ++ unitsBytes p units := rfl

theorem unitsBytes_append (p : Params) (us vs : List DumpUnit) :
    unitsBytes p (us ++ vs) = unitsBytes p us ++ unitsBytes p vs := List.flatMap_append

@[simp] theorem unitsDepth_nil (d : Nat) : unitsDepth [] d = some d := rfl

theorem unitsDepth_append (us vs : List DumpUnit) :
    ∀ d, unitsDepth (us ++ vs) d = (unitsDepth us d).bind (unitsDepth vs) := by
  induction us with
  | nil => exact fun _ => rfl
  | cons u us ih =>
    intro d
    show (u.depth d).bind (unitsDepth (us ++ vs)) = ((u.depth d).bind (unitsDepth us)).bind (unitsDepth vs)
    cases u.depth d with
    | none => rfl
    | some e => exact ih e

/-! ### The pool of a sequence of trees (44_tree_codec R166, R171) -/

theorem rebuilt_length (t : CodeTree) : ∀ base, (t.rebuilt base).length = t.size := by
  induction t with
  | leaf a => exact fun _ => rfl
  | node l r ihl ihr => intro base; simp [CodeTree.rebuilt, CodeTree.size, ihl, ihr, Nat.add_assoc]

theorem forestNodes_length (trees : List CodeTree) :
    ∀ base, (forestNodes trees base).length = (trees.map CodeTree.size).sum := by
  induction trees with
  | nil => exact fun _ => rfl
  | cons t trees ih => intro base; simp [forestNodes, rebuilt_length, ih]

/-- The pool of more trees goes on behind the pool of the first ones. -/
theorem forestNodes_append (ts us : List CodeTree) :
    ∀ base, forestNodes (ts ++ us) base = forestNodes ts base ++ forestNodes us (base + (ts.map CodeTree.size).sum) := by
  induction ts with
  | nil => intro base; simp [forestNodes]
  | cons t ts ih => intro base; simp [forestNodes, ih, Nat.add_assoc]

theorem forestRoots_append (ts us : List CodeTree) :
    ∀ base, forestRoots (ts ++ us) base = forestRoots ts base ++ forestRoots us (base + (ts.map CodeTree.size).sum) := by
  induction ts with
  | nil => intro base; simp [forestRoots]
  | cons t ts ih => intro base; simp [forestRoots, ih, Nat.add_assoc]

@[simp] theorem forestRoots_length (trees : List CodeTree) : ∀ base, (forestRoots trees base).length = trees.length := by
  induction trees with
  | nil => exact fun _ => rfl
  | cons t trees ih => intro base; simp [forestRoots, ih]

/-! ### The greedy choice (42_tree_builder R146) -/

/-- A node joined stays joined. -/
theorem Joined.mono {s : State} {n n' : Nat} {m : NodeId} (h : Joined s n m) (hn : n ≤ n') : Joined s n' m := by
  obtain ⟨k, w, l, r, hk, hs⟩ := h
  exact ⟨k, w, l, r, by omega, hs⟩

/-- The order of extraction is a strict order. -/
theorem ExtractedBefore.trans {s : State} {a b c : NodeId} (h : ExtractedBefore s a b) (k : ExtractedBefore s b c) :
    ExtractedBefore s a c := by
  obtain ⟨wa, wb, ha, hb, h⟩ := h
  obtain ⟨wb', wc, hb', hc, k⟩ := k
  rw [hb] at hb'
  cases hb'
  refine ⟨wa, wc, ha, hc, ?_⟩
  simp only [BitVec.lt_def, ← BitVec.toNat_inj] at h k ⊢
  omega

theorem ExtractedBefore.irrefl {s : State} {a : NodeId} : ¬ ExtractedBefore s a a := by
  intro ⟨wa, wb, ha, hb, h⟩
  rw [ha] at hb
  cases hb
  simp at h

/-! ### Reads to come (20_memory R63) -/

@[simp] theorem delivered_nil (n left : Nat) : delivered n left [] = 0 := by simp [delivered]

theorem delivered_le (n left : Nat) (ks : List Nat) : delivered n left ks ≤ left := Nat.min_le_right _ _

theorem delivered_append (n left : Nat) (ks : List Nat) (k : Nat) :
    delivered n left (ks ++ [k]) = min (delivered n left ks + min (max 1 k) n) left := by
  simp only [delivered, List.map_append, List.map_cons, List.map_nil, List.sum_append, List.sum_cons, List.sum_nil]
  omega

end Sys2Proof.Machine
end

