-- ==== Sys2Proof/Tests/Slice0.lean ====
section
/-! SUPPORT. Tests of the model against the vectors of 95_test_vectors, and for each obligation with hypotheses a concrete
state and operands that meet them. -/

namespace Sys2Proof.Tests

-- One theorem at a time, so that the file needs no more threads than the machine gives.
set_option Elab.async false

open Sys2Proof Sys2Proof.Machine

/-! ### Helpers -/

/-- What a command gives of a state it leaves, none when it leaves none. -/
def after {α : Type} (i : Instr) (s : State) (f : State → α) : Option α :=
  match exec i s with
  | .next t => some (f t)
  | _ => none

/-- The response of a command. -/
def answer (i : Instr) (s : State) : Option Response := (after i s lastResponse).join

/-- The response of one step. -/
def stepAnswer (s : State) : Option Response :=
  match step s with
  | .next t => lastResponse t
  | _ => none

/-- The error record, as kind, cause, info and opcode. -/
def record (s : State) : BitVec 2 × BitVec 8 × Word64 × BitVec 8 := (s.errKind, s.errCause, s.errInfo, s.errOp)

/-- The reset state with a source, from its first byte. -/
def withSrc (src : List Byte) : State := { State.reset with env := { State.reset.env with src := src } }

/-- The reset state with blocks of one byte. -/
def byteBlocks : State := { State.reset with params := { Params.default with blockBytes := 1 } }

/-- A state in FAULT, after a `TC_REBUILD` that raised 0x14 at index 2 (95 P3). -/
def faulted : State :=
  { State.reset with
    fault := true, errKind := 1#2, errCause := 0x14#8, errInfo := 2#64, errOp := 0x41#8
    tbuf := [(0, 0x4C#8), (1, 0x61#8), (2, 0x49#8)], tlen := 3#10, nodes := [.leaf 0x61#8 0#64], stk := [0#9] }

/-- The counts of "abbbbccddeeeef" (95 2.3 (a)). -/
def sixCounts : State :=
  { State.reset with
    ft := symSet (symSet (symSet (symSet (symSet (symSet State.reset.ft 0x61#8 1#64) 0x62#8 4#64) 0x63#8 2#64) 0x64#8 2#64)
      0x65#8 4#64) 0x66#8 1#64 }

/-- The nodes `TB_BUILD` makes of them (95 2.3 (a)). -/
def sixNodes : List Node :=
  [.leaf 0x61#8 1#64, .leaf 0x62#8 4#64, .leaf 0x63#8 2#64, .leaf 0x64#8 2#64, .leaf 0x65#8 4#64, .leaf 0x66#8 1#64,
   .internal 2#64 0#9 5#9, .internal 4#64 2#9 3#9, .internal 6#64 6#9 1#9, .internal 8#64 4#9 7#9,
   .internal 14#64 8#9 9#9]

/-- The tree of 95 2.3 (a). -/
def sixTree : CodeTree :=
  .node (.node (.node (.leaf 0x61#8) (.leaf 0x66#8)) (.leaf 0x62#8))
    (.node (.leaf 0x65#8) (.node (.leaf 0x63#8) (.leaf 0x64#8)))

/-- The state that holds that tree. -/
def treeState : State := { State.reset with nodes := sixNodes, root := 10#9 }

/-- The state that holds two leaves under a root. -/
def smallTree : State :=
  { State.reset with nodes := [.leaf 0x61#8 1#64, .leaf 0x62#8 2#64, .internal 3#64 0#9 1#9], root := 2#9 }

/-- A leaf on the left, two more under an Internal node on the right, and codes of one bit at most. -/
def oneLeafFirst : State :=
  { State.reset with
    params := { Params.default with maxCodeBits := 1 }
    nodes := [.leaf 0x61#8 1#64, .leaf 0x62#8 1#64, .leaf 0x63#8 1#64, .internal 2#64 1#9 2#9, .internal 3#64 0#9 3#9]
    root := 4#9 }

/-- The state that holds a lone leaf as its root (95 2.5 (k)). -/
def leafRoot : State := { State.reset with nodes := [.leaf 0x61#8 0#64], root := 0#9 }

/-- Three leaves, the first queued, in a queue of two (95 P4). -/
def threeLeaves : State :=
  { State.reset with
    nodes := [.leaf 0x78#8 5#64, .leaf 0x79#8 3#64, .leaf 0x7A#8 5#64], q := [0#9], qcap := 2#9 }

/-- The codes of `b`, 01, and of `f`, 001 (95 2.4 (a)). -/
def twoCodes : State :=
  { State.reset with
    ct := symSet (symSet State.reset.ct 0x62#8 ⟨true, 2#8, 2#256⟩) 0x66#8 ⟨true, 3#8, 4#256⟩ }

theorem readsDeliver_of_nil {s : State} (h : s.env.reads = []) : ReadsDeliver s := by
  intro r hr
  rw [h] at hr
  cases hr

theorem smallTree_represents :
    Represents smallTree.nodes smallTree.root (.node (.leaf 0x61#8) (.leaf 0x62#8)) :=
  ⟨_, _, _, rfl, ⟨_, rfl⟩, ⟨_, rfl⟩⟩

theorem sixTree_represents : Represents treeState.nodes treeState.root sixTree :=
  ⟨_, _, _, rfl,
    ⟨_, _, _, rfl, ⟨_, _, _, rfl, ⟨_, rfl⟩, ⟨_, rfl⟩⟩, ⟨_, rfl⟩⟩,
    ⟨_, _, _, rfl, ⟨_, rfl⟩, ⟨_, _, _, rfl, ⟨_, rfl⟩, ⟨_, rfl⟩⟩⟩⟩

/-! ### Well-formedness: an ill-formed term for each check (30_encoding R98) -/

theorem test_wellFormed_refuses_a_gap_in_the_register_map : (Instr.rdreg 0x06#8).wellFormed = false := by decide
theorem test_wellFormed_refuses_a_read_only_register : (Instr.wrreg 0x0D#8 0#64).wellFormed = false := by decide
theorem test_wellFormed_refuses_a_wide_hPerm : (Instr.wrreg 0x11#8 0x10000#64).wellFormed = false := by decide
theorem test_wellFormed_refuses_tlen_768 : (Instr.wrreg 0x13#8 768#64).wellFormed = false := by decide
theorem test_wellFormed_refuses_capacity_0 : (Instr.qCreate 0#64).wellFormed = false := by decide
theorem test_wellFormed_refuses_capacity_257 : (Instr.qCreate 257#64).wellFormed = false := by decide
theorem test_wellFormed_refuses_node_id_512 :
    [Instr.qInsert 512#64, .nodeGet 512#64, .nodeWeight 512#64].all (fun i => !i.wellFormed) = true := by decide
theorem test_wellFormed_refuses_word_index_4 : (Instr.ctWord 0x61#8 4#64).wellFormed = false := by decide
theorem test_wellFormed_refuses_tbuf_index_767 :
    [Instr.tbufRd 767#64, .tbufWr 0#8 767#64].all (fun i => !i.wellFormed) = true := by decide
theorem test_wellFormed_accepts_the_edges :
    [Instr.rdreg 0x21#8, .wrreg 0x13#8 767#64, .wrreg 0x11#8 0xFFFF#64, .qCreate 1#64, .qCreate 256#64, .qInsert 511#64,
     .ctWord 0#8 3#64, .tbufRd 766#64].all Instr.wellFormed = true := by decide

/-! ### Decoding: words written out from the encodings of 30_encoding R91, R92 and R96 -/

theorem test_decode_system :
    [decodeTableWord 16 0x0000, decodeTableWord 16 0x0100, decodeTableWord 16 0x0201, decodeTableWord 80 (0x1A4 * 65536 + 0x0311)]
      = [some .nop, some .sessionReset, some (.rdreg 0x01#8), some (.wrreg 0x11#8 0x1A4#64)] := by decide

theorem test_decode_queue :
    [decodeTableWord 80 (2 * 65536 + 0x1000), decodeTableWord 80 (0x1FF * 65536 + 0x1100), decodeTableWord 16 0x1200,
     decodeTableWord 80 (5 * 65536 + 0x1378), decodeTableWord 80 (10 * 65536 + 0x1400), decodeTableWord 80 (2 * 65536 + 0x1500)]
      = [some (.qCreate 2#64), some (.qInsert 0x1FF#64), some .qExtract, some (.nodeLeaf 0x78#8 5#64), some (.nodeGet 10#64),
         some (.nodeWeight 2#64)] := by decide

theorem test_decode_builder :
    [decodeTableWord 16 0x2000, decodeTableWord 16 0x2161, decodeTableWord 80 (0x3E8 * 65536 + 0x2261), decodeTableWord 16 0x2362,
     decodeTableWord 16 0x2400, decodeTableWord 16 0x2500, decodeTableWord 16 0x2600, decodeTableWord 16 0x2700]
      = [some .ftClr, some (.ftInc 0x61#8), some (.ftSet 0x61#8 1000#64), some (.ftGet 0x62#8), some .ftScan, some .ftPad,
         some .tbBuild, some .treeFree] := by decide

theorem test_decode_codeTable :
    [decodeTableWord 16 0x3000, decodeTableWord 16 0x31FF, decodeTableWord 80 (3 * 65536 + 0x32FE)]
      = [some .ctGen, some (.ctLen 0xFF#8), some (.ctWord 0xFE#8 3#64)] := by decide

theorem test_decode_codec :
    [decodeTableWord 16 0x4000, decodeTableWord 16 0x4100, decodeTableWord 16 0x4200, decodeTableWord 16 0x4300,
     decodeTableWord 80 (4 * 65536 + 0x4400), decodeTableWord 80 (0x2FE * 65536 + 0x45AA)]
      = [some .tcDump, some .tcRebuild, some .tcLoad, some .tcStore, some (.tbufRd 4#64), some (.tbufWr 0xAA#8 766#64)] := by
  decide

theorem test_decode_channel :
    [decodeTableWord 16 0x5062, decodeTableWord 16 0x5100, decodeTableWord 16 0x5200]
      = [some (.wrSym 0x62#8), some .wrFinal, some .rdBit] := by decide

theorem test_decode_framing :
    [decodeTableWord 16 0x6000, decodeTableWord 16 0x6100, decodeTableWord 16 0x6200, decodeTableWord 16 0x6300,
     decodeTableWord 16 0x6400, decodeTableWord 16 0x6500]
      = [some .hdrPut, some .hdrGet, some .srcRewind, some .encBody, some .decSym, some .decBody] := by decide

/-- The gaps of R97 and a reserved field that is not 0. -/
theorem test_decode_refuses :
    [0x0400, 0x0F00, 0x1600, 0x1F00, 0x2800, 0x2F00, 0x3300, 0x3F00, 0x4600, 0x4F00, 0x5300, 0x5F00, 0x6600, 0xFF00, 0x0001,
     0x1001].all (fun w => decodeTableWord 16 w == none) = true := by decide

/-- 95 2.1 (o): an undefined opcode is `ILLEGAL` even in FAULT. -/
theorem test_step_illegal_in_fault : stepAnswer (faulted.withFetchWord 16 0x0400) = some ⟨.illegal, 0#64⟩ := by
  decide +kernel

/-- The first step after reset runs the placed command (95 2.1 (f)). -/
theorem test_step_runs_the_first_command :
    stepAnswer (State.reset.withFetchWord 16 0x0208) = some ⟨.ok, 0x100#64⟩ := by decide +kernel

/-- The listing line of 30_encoding R104's example. -/
theorem test_listing : listing (.ftSet 0x61#8 1000#64) = "FT_SET 97, 1000" := by decide +kernel

/-! ### System commands (95 2.1) -/

theorem test_nop : answer .nop State.reset = some ⟨.ok, 0#64⟩ := by decide +kernel
theorem test_sessionReset_leaves_fault :
    after .sessionReset faulted (fun t => (t.fault, statusReg t, t.tlen, t.nodes)) = some (false, 0x20#8, 0#10, []) := by
  decide +kernel
theorem test_rdreg_id : answer (.rdreg 0x00#8) State.reset = some ⟨.ok, 0x48464331#64⟩ := by decide +kernel
theorem test_rdreg_status_in_fault : answer (.rdreg 0x01#8) faulted = some ⟨.ok, 0x21#64⟩ := by decide +kernel
theorem test_wrreg_tlen :
    after (.wrreg 0x13#8 0x2FF#64) State.reset (fun t => (lastResponse t, t.tlen)) = some (some ⟨.ok, 0#64⟩, 767#10) := by
  decide +kernel
theorem test_wrreg_in_fault : answer (.wrreg 0x0D#8 0#64) faulted = some ⟨.faulted, 0#64⟩ := by decide +kernel

/-! ### Queue and nodes (95 2.2, P4) -/

theorem test_qCreate : after (.qCreate 1#64) threeLeaves (fun t => (t.q, t.qcap)) = some ([], 1#9) := by decide +kernel
theorem test_qInsert_goes_behind_its_equals :
    after (.qInsert 2#64) threeLeaves (fun t => (lastResponse t, t.q)) = some (some ⟨.ok, 0#64⟩, [0#9, 2#9]) := by
  decide +kernel
theorem test_qInsert_full :
    after (.qInsert 1#64) { threeLeaves with q := [0#9, 2#9] } (fun t => (lastResponse t, record t, t.q))
      = some (some ⟨.errCapacity, 0#64⟩, (2#2, 0x21#8, 1#64, 0x11#8), [0#9, 2#9]) := by decide +kernel
theorem test_qExtract :
    after .qExtract { threeLeaves with q := [1#9, 0#9] } (fun t => (lastResponse t, t.q))
      = some (some ⟨.ok, 1#64⟩, [0#9]) := by decide +kernel
theorem test_qExtract_empty : answer .qExtract State.reset = some ⟨.fail, 0#64⟩ := by decide +kernel
theorem test_nodeLeaf : answer (.nodeLeaf 0x7A#8 5#64) { threeLeaves with nodes := threeLeaves.nodes.take 2 }
    = some ⟨.ok, 2#64⟩ := by decide +kernel
theorem test_nodeGet_leaf : answer (.nodeGet 0#64) threeLeaves = some ⟨.ok, 0x7FFFEF0#64⟩ := by decide +kernel
theorem test_nodeGet_internal : answer (.nodeGet 10#64) treeState = some ⟨.ok, 0x241001#64⟩ := by decide +kernel
theorem test_nodeWeight : answer (.nodeWeight 10#64) treeState = some ⟨.ok, 14#64⟩ := by decide +kernel
theorem test_nodeWeight_absent : answer (.nodeWeight 0x1FF#64) State.reset = some ⟨.fail, 0#64⟩ := by decide +kernel

/-! ### Frequency table and builder (95 2.3) -/

theorem test_ftClr : after .ftClr sixCounts (fun t => symGet t.ft 0x62#8) = some 0#64 := by decide +kernel
theorem test_ftInc :
    after (.ftInc 0x61#8) sixCounts (fun t => (symGet t.ft 0x61#8, t.fileSize)) = some (2#64, 1#64) := by decide +kernel
theorem test_ftInc_overflow :
    after (.ftInc 0x61#8) { State.reset with ft := symSet State.reset.ft 0x61#8 0xFFFFFFFFFFFFFFFF#64 }
      (fun t => (record t, t.fileSize)) = some ((2#2, 0x26#8, 0x61#64, 0x21#8), 0#64) := by decide +kernel
theorem test_ftSet :
    after (.ftSet 0x61#8 1000#64) State.reset (fun t => (symGet t.ft 0x61#8, t.fileSize)) = some (1000#64, 0#64) := by
  decide +kernel
theorem test_ftGet : answer (.ftGet 0x62#8) sixCounts = some ⟨.ok, 4#64⟩ := by decide +kernel
theorem test_ftScan :
    after .ftScan (withSrc [0x61#8, 0x62#8, 0x62#8]) (fun t => (lastResponse t, symGet t.ft 0x62#8, t.fileSize, t.env.spos))
      = some (some ⟨.ok, 3#64⟩, 2#64, 3#64, 3) := by decide +kernel
/-- 95 2.3 (b): a one-symbol input has three counts after padding. -/
theorem test_ftPad_one_symbol :
    answer .ftPad { State.reset with ft := symSet State.reset.ft 0x61#8 1000#64 } = some ⟨.ok, 3#64⟩ := by decide +kernel
/-- R144: the counts made before the overflow stay. -/
theorem test_ftScan_overflow :
    after .ftScan { withSrc [0x61#8, 0x62#8, 0x61#8] with fileSize := 0xFFFFFFFFFFFFFFFE#64 }
      (fun t => (record t, symGet t.ft 0x61#8, symGet t.ft 0x62#8, t.fileSize))
      = some ((2#2, 0x26#8, 0x62#64, 0x24#8), 1#64, 0#64, 0xFFFFFFFFFFFFFFFF#64) := by decide +kernel
theorem test_ftPad_leaves_two_counts_alone :
    after .ftPad sixCounts (fun t => (lastResponse t, symGet t.ft 0#8)) = some (some ⟨.ok, 6#64⟩, 0#64) := by decide +kernel
theorem test_tbBuild :
    after .tbBuild sixCounts (fun t => (lastResponse t, t.nodes, t.root, statusReg t))
      = some (some ⟨.ok, 10#64⟩, sixNodes, 10#9, 0x22#8) := by decide +kernel
/-- 95 2.3 (f). -/
theorem test_tbBuild_overflow :
    after .tbBuild { State.reset with ft := symSet (symSet State.reset.ft 0#8 0x8000000000000000#64) 1#8 0x8000000000000000#64 }
      (fun t => (record t, t.nodes.length, t.q, t.root)) = some ((2#2, 0x26#8, 256#64, 0x26#8), 2, [], 0x1FF#9) := by
  decide +kernel
theorem test_treeFree :
    after .treeFree treeState (fun t => (t.nodes, t.root, statusReg t)) = some ([], 0x1FF#9, 0x20#8) := by decide +kernel

/-! ### Code table (95 2.4) -/

theorem test_ctGen :
    after .ctGen treeState (fun t => (lastResponse t, symGet t.ct 0x66#8, symGet t.ct 0x65#8, statusReg t))
      = some (some ⟨.ok, 6#64⟩, ⟨true, 3#8, 4#256⟩, ⟨true, 2#8, 1#256⟩, 0x26#8) := by decide +kernel
theorem test_ctGen_too_long :
    after .ctGen { treeState with params := { Params.default with maxCodeBits := 2 } }
      (fun t => (record t, t.ctDone, (symGet t.ct 0x61#8).valid)) = some ((2#2, 0x23#8, 6#64, 0x30#8), false, false) := by
  decide +kernel
/-- R155: the entry recorded before the raise stays, the one of before the command does not. -/
theorem test_ctGen_keeps_what_was_recorded :
    after .ctGen { oneLeafFirst with ct := twoCodes.ct }
      (fun t => (record t, symGet t.ct 0x61#8, symGet t.ct 0x66#8))
      = some ((2#2, 0x23#8, 3#64, 0x30#8), ⟨true, 1#8, 0#256⟩, CodeEntry.none) := by decide +kernel
theorem test_ctLen : answer (.ctLen 0x66#8) twoCodes = some ⟨.ok, 0x103#64⟩ := by decide +kernel
theorem test_ctLen_no_code : answer (.ctLen 0x7A#8) twoCodes = some ⟨.ok, 0#64⟩ := by decide +kernel
theorem test_ctWord : answer (.ctWord 0x66#8 0#64) twoCodes = some ⟨.ok, 4#64⟩ := by decide +kernel
theorem test_ctWord_index_4 : answer (.ctWord 0x61#8 4#64) twoCodes = some ⟨.illegal, 0#64⟩ := by decide +kernel

/-! ### Tree codec (95 2.5) -/

theorem test_tcDump :
    after .tcDump treeState (fun t => (lastResponse t, t.tbuf.slice 0 17))
      = some (some ⟨.ok, 17#64⟩,
          [0x4C#8, 0x61#8, 0x4C#8, 0x66#8, 0x49#8, 0x4C#8, 0x62#8, 0x49#8, 0x4C#8, 0x65#8, 0x4C#8, 0x63#8, 0x4C#8, 0x64#8,
           0x49#8, 0x49#8, 0x49#8]) := by decide +kernel
/-- Row l: a symbol equal to a tag is a symbol; the first pop is the right child. -/
theorem test_tcRebuild_tag_as_symbol :
    after .tcRebuild { State.reset with
        tbuf := [(0, 0x4C#8), (1, 0x4C#8), (2, 0x4C#8), (3, 0x49#8), (4, 0x49#8)], tlen := 5#10 }
      (fun t => (lastResponse t, t.nodes))
      = some (some ⟨.ok, 2#64⟩, [.leaf 0x4C#8 0#64, .leaf 0x49#8 0#64, .internal 0#64 0#9 1#9]) := by decide +kernel
/-- Row e: the second internal tag finds one entry. -/
theorem test_tcRebuild_underflow :
    after .tcRebuild { State.reset with
        tbuf := [(0, 0x4C#8), (1, 0x61#8), (2, 0x4C#8), (3, 0x62#8), (4, 0x49#8), (5, 0x49#8)], tlen := 6#10 }
      (fun t => (record t, t.stk.length, t.nodes.length, t.root)) = some ((1#2, 0x14#8, 5#64, 0x41#8), 1, 3, 0x1FF#9) := by
  decide +kernel
theorem test_tcLoad_in_short_reads :
    after .tcLoad { State.reset with
        hTreeSize := 2#16
        env := { State.reset.env with src := [0x4C#8, 0x61#8, 0x50#8], reads := [.deliver 1, .deliver 1] } }
      (fun t => (lastResponse t, t.tbuf, t.tlen, t.env.spos))
      = some (some ⟨.ok, 2#64⟩, [(0, 0x4C#8), (1, 0x61#8)], 2#10, 2) := by decide +kernel
theorem test_tcLoad_short_source :
    after .tcLoad { withSrc [0x4C#8, 0x61#8, 0x4C#8, 0x66#8] with hTreeSize := 17#16 }
      (fun t => (record t, t.tbuf.slice 0 4, t.tlen))
      = some ((1#2, 0x13#8, 4#64, 0x42#8), [0x4C#8, 0x61#8, 0x4C#8, 0x66#8], 0#10) := by decide +kernel
theorem test_tcStore :
    after .tcStore { State.reset with tbuf := [(0, 0x4C#8), (1, 0x61#8)], tlen := 2#10 } (fun t => t.env.sink)
      = some [[0x4C#8, 0x61#8]] := by decide +kernel
theorem test_tcStore_nothing : after .tcStore State.reset (fun t => t.env.sink) = some [] := by decide +kernel
theorem test_tbufRd_in_fault : answer (.tbufRd 2#64) faulted = some ⟨.ok, 0x49#64⟩ := by decide +kernel
theorem test_tbufRd_beyond : answer (.tbufRd 3#64) faulted = some ⟨.fail, 0#64⟩ := by decide +kernel
theorem test_tbufWr :
    after (.tbufWr 0xAA#8 766#64) State.reset (fun t => (t.tbuf, t.tlen)) = some ([(766, 0xAA#8)], 0#10) := by decide +kernel

/-! ### Bit channel (95 2.6) -/

/-- The third `b` of 2.6 (a) crosses a byte boundary. -/
theorem test_wrSym_across_a_byte :
    after (.wrSym 0x62#8) { twoCodes with wbuf := [(0, 0x50#8)], wCursor := 7, wTotal := 7#64 }
      (fun t => (lastResponse t, t.wCursor, t.wbuf.slice 0 2)) = some (some ⟨.ok, 2#64⟩, 9, [0x50#8, 0x01#8]) := by
  decide +kernel
/-- 2.8 (d): the flush at the eighth bit fails. -/
theorem test_wrSym_failed_flush :
    after (.wrSym 0x62#8) { byteBlocks with
        ct := twoCodes.ct, wCursor := 6, wTotal := 6#64, env := { State.reset.env with writes := [.fail] } }
      (fun t => (record t, t.wCursor, t.wTotal, t.env.sink)) = some ((3#2, 0x32#8, 0#64, 0x50#8), 8, 8#64, []) := by
  decide +kernel
/-- 2.6 (e): stale bits of the buffer are cleared by the padding. -/
theorem test_wrFinal_pads :
    after .wrFinal { byteBlocks with wbuf := [(0, 0xFE#8)], wCursor := 2, wTotal := 10#64 }
      (fun t => (lastResponse t, t.env.sink, t.wCursor, t.wDone, t.wTotal))
      = some (some ⟨.ok, 1#64⟩, [[0x02#8]], 0, true, 10#64) := by decide +kernel
/-- R182: after a failed write the trailing byte is padded, `W_DONE` is set and `W_CURSOR` keeps its value. -/
theorem test_wrFinal_failed_write :
    after .wrFinal { byteBlocks with
        wbuf := [(0, 0xFE#8)], wCursor := 2, env := { State.reset.env with writes := [.fail] } }
      (fun t => (t.errCause, t.wDone, t.wCursor, t.wbuf))
      = some (0x32#8, true, 2, [(0, 0x02#8)]) := by decide +kernel
theorem test_wrFinal_twice : answer .wrFinal { State.reset with wDone := true } = some ⟨.fail, 0#64⟩ := by decide +kernel
/-- 2.6 (g): the fifth bit of 0x50. -/
theorem test_rdBit :
    after .rdBit { withSrc [0x50#8] with rbuf := [(0, 0x50#8)], rLen := 1, rCursor := 4, rTotal := 4#64 }
      (fun t => (lastResponse t, t.rCursor, t.rTotal)) = some (some ⟨.ok, 1#64⟩, 5, 5#64) := by decide +kernel
theorem test_rdBit_eos :
    after .rdBit State.reset (fun t => (lastResponse t, t.rEos, t.fault)) = some (some ⟨.eos, 0#64⟩, true, false) := by
  decide +kernel

/-! ### Framing (95 2.7, 2.8) -/

theorem test_hdrPut :
    after .hdrPut { State.reset with hPerm := 0xFFFF#16, tlen := 767#10, fileSize := 0x0102030405060708#64 }
      (fun t => t.env.sink)
      = some [[0x0D#8, 0xD0#8, 0xEF#8, 0xBE#8, 0xFF#8, 0xFF#8, 0xFF#8, 0x02#8, 0x08#8, 0x07#8, 0x06#8, 0x05#8, 0x04#8, 0x03#8,
          0x02#8, 0x01#8]] := by decide +kernel
theorem test_hdrGet :
    after .hdrGet (withSrc [0x0D#8, 0xD0#8, 0xEF#8, 0xBE#8, 0xA4#8, 0x01#8, 0x11#8, 0#8, 0x0E#8, 0#8, 0#8, 0#8, 0#8, 0#8, 0#8,
        0#8, 0x4C#8])
      (fun t => (lastResponse t, t.hPerm, t.hTreeSize, t.fileSize, t.env.spos))
      = some (some ⟨.ok, 0#64⟩, 0x1A4#16, 17#16, 14#64, 16) := by decide +kernel
theorem test_hdrGet_bad_magic :
    after .hdrGet (withSrc [0#8, 0xD0#8, 0xEF#8, 0xBE#8, 0xA4#8, 0x01#8, 0x11#8, 0#8, 0x0E#8, 0#8, 0#8, 0#8, 0#8, 0#8, 0#8, 0#8])
      (fun t => (record t, t.hPerm, t.env.spos)) = some ((1#2, 0x11#8, 0xBEEFD000#64, 0x61#8), 0#16, 16) := by
  decide +kernel
theorem test_srcRewind_fails :
    after .srcRewind { State.reset with env := { State.reset.env with rewinds := [.fail 0] } } record
      = some (3#2, 0x33#8, 0#64, 0x62#8) := by decide +kernel
theorem test_encBody :
    after .encBody { twoCodes with env := { State.reset.env with src := [0x62#8, 0x66#8] } }
      (fun t => (lastResponse t, t.wCursor, t.wbuf)) = some (some ⟨.ok, 2#64⟩, 5, [(0, 0x12#8)]) := by decide +kernel
/-- Like 2.7 (h): a byte with no code. -/
theorem test_encBody_no_code :
    after .encBody { twoCodes with env := { State.reset.env with src := [0x62#8, 0x7A#8] } }
      (fun t => (record t, t.wCursor, t.env.sink)) = some ((3#2, 0x34#8, 0x7A#64, 0x63#8), 2, []) := by decide +kernel
theorem test_decSym :
    after .decSym { treeState with env := { State.reset.env with src := [0x50#8, 0xDD#8, 0xFE#8, 0x2A#8, 0x02#8] } }
      (fun t => (lastResponse t, t.rTotal, t.env.sink, t.dcur)) = some (some ⟨.ok, 0x61#64⟩, 3#64, [[0x61#8]], 10#9) := by
  decide +kernel
/-- 2.7 (e), like row 35, in the numbering of 2.3 (a): the bits run out in mid-walk, two bits into `c`. -/
theorem test_decBody_truncated :
    after .decBody { treeState with fileSize := 14#64, env := { State.reset.env with src := [0x50#8, 0xDD#8] } }
      (fun t => (record t, t.emitted, t.env.sink.flatten, t.rTotal, t.dcur))
      = some ((1#2, 0x18#8, 6#64, 0x65#8), 6#64, [0x61#8, 0x62#8, 0x62#8, 0x62#8, 0x62#8, 0x63#8], 16#64, 7#9) := by
  decide +kernel
/-- 2.8 (b): the refill fails with seven symbols out; the reader and its block stay, the walk is at the root. -/
theorem test_decBody_failed_refill :
    after .decBody { smallTree with
        fileSize := 14#64, rbuf := [(0, 0x50#8)], rLen := 1, rCursor := 1
        env := { State.reset.env with src := [0xDD#8], reads := [.fail 0] } }
      (fun t => (t.errCause, t.emitted, t.rLen, t.rCursor, t.dcur))
      = some (0x31#8, 7#64, 1, 8, 2#9) := by decide +kernel
/-- R199: the symbol whose write fails is not counted, and the walk stays on its leaf. -/
theorem test_decSym_failed_write :
    after .decSym { treeState with env := { State.reset.env with src := [0x50#8], writes := [.fail] } }
      (fun t => (t.errCause, t.emitted, t.env.sink, t.dcur))
      = some (0x32#8, 0#64, [], 0#9) := by decide +kernel
theorem test_decBody_leaf_root :
    after .decBody { leafRoot with fileSize := 1#64 } record = some (1#2, 0x19#8, 0#64, 0x65#8) := by decide +kernel

/-! ### A state for the hypotheses of each obligation -/

/-- A state with something in every unit, and `NOP` as the next command. -/
def busy : State :=
  { treeState with
    tbuf := [(0, 0x4C#8), (766, 0xAA#8)], tlen := 767#10, wbuf := [(0, 0x50#8)], wCursor := 7, wTotal := 7#64
    rbuf := [(0, 0x50#8), (4095, 0x02#8)], rLen := 4096, rCursor := 4, rTotal := 4#64, q := [0#9, 1#9], qcap := 2#9
    dcur := 10#9, ct := twoCodes.ct
    env := { State.reset.env with src := [0x61#8, 0x62#8], spos := 2 }
    host := { State.reset.host with events := [.command 0x0000#16 0#64] } }

theorem busy_queueInv : QueueInv busy := by
  refine ⟨by decide, by decide, by decide, by decide, ?_⟩
  refine List.Pairwise.cons ?_ (List.pairwise_singleton _ _)
  intro n hn wm wn hm hw
  rw [List.mem_singleton.mp hn] at hw
  have e1 : weightOf busy 0#9 = some 1#64 := rfl
  have e2 : weightOf busy 1#9 = some 4#64 := rfl
  rw [e1] at hm
  rw [e2] at hw
  cases hm
  cases hw
  decide

theorem busy_cursorInv : CursorInv busy := by decide +kernel

theorem busy_treeInv : TreeInv busy := ⟨by decide, .inr ⟨sixTree, sixTree_represents, by decide⟩⟩

theorem test_busy_steps : (match step busy with | .next t => lastResponse t | _ => none) = some ⟨.ok, 0#64⟩ := by
  decide +kernel

theorem witness_DecodeAndEncodeAgree : decode 0x2261#16 1000#64 = .ok (.ftSet 0x61#8 1000#64) := by decide

theorem witness_DecodingIsTheMaskedMatch :
    (∃ row ∈ opcodeRows, 0x2261#16 &&& row.format.mask = row.opcode ++ 0#8)
      ∧ ∀ row ∈ opcodeRows, 0x0400#16 &&& row.format.mask ≠ row.opcode ++ 0#8 := by decide

theorem witness_StepRunsTheDecodedCommand :
    busy.host.events = .command 0x0000#16 0#64 :: [] ∧ decode 0x0000#16 0#64 = .ok .nop := ⟨rfl, rfl⟩

theorem witness_IllegalCommandsChangeNothing :
    (faulted.withFetchWord 16 0x0400).host.events = .command 0x0400#16 0#64 :: []
      ∧ (∀ row ∈ opcodeRows, 0x0400#16 &&& row.format.mask ≠ row.opcode ++ 0#8)
      ∧ (Instr.qCreate 257#64).wellFormed = false ∧ busy.fault = false
      ∧ (Instr.rdreg 0x22#8).wellFormed = false ∧ runsInFault (.rdreg 0x22#8) = true :=
  ⟨rfl, by decide, by decide, rfl, by decide, rfl⟩

theorem witness_StepOnOtherEvents :
    ({ busy with host := ⟨[.hardReset], []⟩ } : State).host.events = .hardReset :: []
      ∧ ({ busy with host := ⟨[.sourceChange [0#8] 5], []⟩ } : State).host.events = .sourceChange [0#8] 5 :: []
      ∧ State.reset.host.events = [] := ⟨rfl, rfl, rfl⟩

/-- A command answered `OK` and one answered `FAIL`. -/
theorem witness_EveryCommandGetsOneResponse :
    (busy.host.events = .command 0x0000#16 0#64 :: [] ∧ ∃ t, step busy = .next t)
      ∧ (State.reset.withFetchWord 16 0x1200).host.events = .command 0x1200#16 0#64 :: []
      ∧ ∃ t, step (State.reset.withFetchWord 16 0x1200) = .next t ∧ lastResponse t = some ⟨.fail, 0#64⟩ :=
  ⟨⟨rfl, _, rfl⟩, rfl, _, rfl, rfl⟩

/-- A command that raises and one that does not. -/
theorem witness_RaisingRecordsTheError :
    (leafRoot.fault = false ∧ ∃ t, exec .decSym leafRoot = .next t ∧ t.fault = true)
      ∧ busy.fault = false ∧ ∃ t, exec .nop busy = .next t ∧ t.fault = false ∧ Instr.nop ≠ .sessionReset :=
  ⟨⟨rfl, _, rfl, rfl⟩, rfl, _, rfl, rfl, by decide⟩

theorem witness_FaultStateAllowsNineCommands :
    faulted.fault = true ∧ runsInFault (.wrreg 0x13#8 0#64) = false ∧ runsInFault .sessionReset = true
      ∧ runsInFault .nop = true ∧ Instr.nop ≠ .sessionReset ∧ Instr.nop ≠ .rdreg 0x01#8 :=
  ⟨rfl, rfl, rfl, rfl, by decide, by decide⟩

theorem witness_FaultLastsUntilAReset :
    (∃ t, step (faulted.withFetchWord 16 0x0100) = .next t ∧ t.fault = false)
      ∧ (∃ t, step { faulted with host := ⟨[.hardReset], []⟩ } = .next t ∧ t.fault = false)
      ∧ ∃ t, step (faulted.withFetchWord 16 0x4100) = .next t ∧ t.fault = true :=
  ⟨⟨_, rfl, rfl⟩, ⟨_, rfl, rfl⟩, _, rfl, rfl⟩

theorem witness_StreamFailuresRaiseIOError :
    (∃ s : State, s.fault = false ∧ s.env.reads = .fail 7 :: [] ∧ s.wDone = false ∧ s.hTreeSize.toNat = 767
        ∧ s.rEos = false ∧ s.rCursor = 8 * s.rLen)
      ∧ (∃ s : State, s.fault = false ∧ s.env.reads = .fail 0 :: [] ∧ s.hTreeSize.toNat = 1)
      ∧ (∃ s : State, s.fault = false ∧ s.env.writes = .fail :: [] ∧ s.tlen.toNat = 1)
      ∧ (∃ s : State, s.fault = false ∧ s.env.writes = .fail :: [] ∧ s.tlen.toNat = 767)
      ∧ (∃ s : State, s.fault = false ∧ s.env.rewinds = .fail 0 :: [])
      ∧ ∃ s : State, s.fault = false ∧ ReadsFailAfter s [7, 8] 0 [] ∧ EachDelivers 16 (srcRest s).length [7, 8]
        ∧ delivered 16 (srcRest s).length [7, 8] = 15 ∧ s.hTreeSize.toNat = 16 := by
  let e := State.reset.env
  exact ⟨⟨{ State.reset with hTreeSize := 767#16, env := { e with reads := [.fail 7] } }, rfl, rfl, rfl, rfl, rfl, rfl⟩,
    ⟨{ State.reset with hTreeSize := 1#16, env := { e with reads := [.fail 0] } }, rfl, rfl, rfl⟩,
    ⟨{ State.reset with tlen := 1#10, env := { e with writes := [.fail] } }, rfl, rfl, rfl⟩,
    ⟨{ State.reset with tlen := 767#10, env := { e with writes := [.fail] } }, rfl, rfl, rfl⟩,
    ⟨{ State.reset with env := { e with rewinds := [.fail 0] } }, rfl, rfl⟩,
    ⟨{ State.reset with
        hTreeSize := 16#16
        env := { e with src := List.replicate 15 0#8, reads := [.deliver 7, .deliver 8, .fail 0] } },
      rfl, rfl, by decide, by decide, rfl⟩⟩

theorem witness_CommandsWriteOnlyTheirSpaces :
    (∃ t, exec .tcStore faulted = .next t) ∧ (∃ t, exec .qExtract threeLeaves = .next t)
      ∧ Space.pool ∉ writes .qExtract ++ raises .qExtract := ⟨⟨_, rfl⟩, ⟨_, rfl⟩, by decide⟩

theorem witness_StepKeepsMemoryInv : MemoryInv busy ∧ ∃ t, step busy = .next t := ⟨by decide +kernel, _, rfl⟩

theorem witness_StepKeepsCursorInv : CursorInv busy ∧ ∃ t, step busy = .next t := ⟨busy_cursorInv, _, rfl⟩

theorem witness_StepKeepsQueueInv : QueueInv busy ∧ ∃ t, step busy = .next t := ⟨busy_queueInv, _, rfl⟩

theorem witness_StepKeepsTreeInv : TreeInv busy ∧ ∃ t, step busy = .next t := ⟨busy_treeInv, _, rfl⟩

theorem witness_StepKeepsRestInv :
    (RestInv busy ∧ ∃ t, step busy = .next t) ∧ RestInv faulted ∧ ∃ t, step faulted = .next t :=
  ⟨⟨by decide +kernel, _, rfl⟩, by decide +kernel, _, rfl⟩

/-- Legal parameters at the edges of R10, and a source already read to its end. -/
theorem witness_ResetStateMeetsEveryInvariant :
    let p : Params := { Params.default with blockBytes := 1, maxCodeBits := 1 }
    p.Valid ∧ busy.env.spos ≤ busy.env.src.length := by decide

theorem busy_codeTableInv : CodeTableInv busy := by
  refine ⟨by decide +kernel, fun a => ?_⟩
  have hz : ∀ n k i : Nat, n < 2 ^ k → k ≤ i → (BitVec.ofNat 256 n).getLsbD i = false := by
    intro n k i hn hk
    rw [BitVec.getLsbD_ofNat, Nat.testBit_lt_two_pow (Nat.lt_of_lt_of_le hn (Nat.pow_le_pow_right (by decide) hk))]
    simp
  have hc : symGet busy.ct a = if a = 0x66#8 then ⟨true, 3#8, 4#256⟩
      else if a = 0x62#8 then ⟨true, 2#8, 2#256⟩ else CodeEntry.none := by
    show symGet (symSet (symSet State.reset.ct 0x62#8 ⟨true, 2#8, 2#256⟩) 0x66#8 ⟨true, 3#8, 4#256⟩) a = _
    rw [symGet_symSet, symGet_symSet]
    show (if _ then _ else if _ then _ else symGet (Vector.replicate 256 CodeEntry.none) a) = _
    rw [symGet_replicate]
  rw [hc]
  split
  · exact ⟨by decide, fun i hi => hz 4 3 i (by decide) hi⟩
  · split
    · exact ⟨by decide, fun i hi => hz 2 2 i (by decide) hi⟩
    · exact ⟨fun _ => rfl, fun i _ => hz 0 0 i (by decide) (Nat.zero_le i)⟩

theorem witness_StepKeepsCodeTableInv : CodeTableInv busy ∧ ∃ t, step busy = .next t := ⟨busy_codeTableInv, _, rfl⟩

theorem witness_StepKeepsErrorInv :
    (ErrorInv busy ∧ ∃ t, step busy = .next t) ∧ ErrorInv faulted ∧ ∃ t, step faulted = .next t :=
  ⟨⟨⟨fun _ => ⟨rfl, rfl, rfl, rfl⟩, nofun⟩, _, rfl⟩, ⟨nofun, fun _ => ⟨.stackUnderflow, rfl, rfl⟩⟩, _, rfl⟩

theorem witness_SafeStatesNeverStop : SafeInv busy := ⟨busy_cursorInv, busy_queueInv, busy_treeInv⟩

theorem witness_RdregReadsTheRegisterMap :
    0x06#8 ∈ [0x06#8, 0x07#8, 0x0B#8, 0x0E#8, 0x0F#8, 0x14#8, 0x15#8, 0x16#8, 0x17#8, 0x1B#8]
      ∧ 0x22 ≤ (0x22#8).toNat := by decide

theorem witness_StatusGathersTheFlags : 8 ≤ 8 := Nat.le_refl 8

theorem witness_WrregWritesTheWritableRegisters :
    faulted.fault = true ∧ State.reset.fault = false ∧ (0xFFFF#64).toNat ≤ 0xFFFF ∧ (767#64).toNat ≤ 767
      ∧ 0xFFFF < (0x10000#64).toNat ∧ 767 < (768#64).toNat ∧ (0x0F#8).toNat < 0x10 ∧ 0x13 < (0x14#8).toNat := by decide

theorem witness_QCreateEmptiesTheQueue :
    State.reset.fault = false ∧ 1 ≤ (1#64).toNat ∧ (256#64).toNat ≤ 256 ∧ (0#64).toNat = 0 ∧ 256 < (257#64).toNat := by decide

theorem witness_QInsertKeepsTheOrder :
    (threeLeaves.fault = false ∧ (3#64).toNat < 512 ∧ threeLeaves.nodes.length ≤ (3#64).toNat)
      ∧ (busy.fault = false ∧ (10#64).toNat < busy.nodes.length ∧ busy.q.length = busy.qcap.toNat)
      ∧ (2#64).toNat < threeLeaves.nodes.length ∧ threeLeaves.q.length ≠ threeLeaves.qcap.toNat ∧ QueueInv threeLeaves :=
  ⟨by decide, by decide, by decide, by decide, by decide, by decide, by decide, by decide, List.pairwise_singleton _ _⟩

theorem witness_QExtractTakesTheLowest :
    (State.reset.fault = false ∧ State.reset.q = []) ∧ busy.fault = false ∧ busy.q = 0#9 :: [1#9] ∧ QueueInv busy :=
  ⟨⟨rfl, rfl⟩, rfl, rfl, busy_queueInv⟩

theorem witness_NodesAreMadeAndRead :
    (∃ s : State, s.fault = false ∧ s.nodes.length = 510) ∧ (∃ s : State, s.fault = false ∧ s.nodes.length = 511)
      ∧ State.reset.nodes[(511#64).toNat]? = none ∧ treeState.nodes[(0#64).toNat]? = some (.leaf 0x61#8 1#64)
      ∧ treeState.nodes[(10#64).toNat]? = some (.internal 14#64 8#9 9#9) :=
  ⟨⟨{ State.reset with nodes := List.replicate 510 (.leaf 0#8 0#64) }, rfl, List.length_replicate⟩,
    ⟨{ State.reset with nodes := List.replicate 511 (.leaf 0#8 0#64) }, rfl, List.length_replicate⟩, rfl, rfl, rfl⟩

theorem witness_FrequencyTableReadsAndWrites : sixCounts.fault = false := rfl

theorem witness_FtIncCountsOrOverflows :
    (sixCounts.fault = false ∧ (symGet sixCounts.ft 0x61#8).toNat + 1 < 2 ^ 64 ∧ sixCounts.fileSize.toNat + 1 < 2 ^ 64)
      ∧ ({ sixCounts with fileSize := 0xFFFFFFFFFFFFFFFF#64 } : State).fileSize.toNat + 1 = 2 ^ 64
      ∧ (symGet (symSet State.reset.ft 0x61#8 0xFFFFFFFFFFFFFFFF#64) 0x61#8).toNat + 1 = 2 ^ 64 := by decide +kernel

/-- Everything fits; the second byte finds `FILE_SIZE` at its end; the second read fails. -/
theorem witness_FtScanCountsTheSource :
    let e := { State.reset.env with src := [0x61#8, 0x62#8] }
    let s := { sixCounts with env := e }
    let full := { s with fileSize := 0xFFFFFFFFFFFFFFFE#64 }
    let failing := { s with env := { e with reads := [.deliver 1, .fail 2] } }
    (s.fault = false ∧ 1 ≤ s.params.blockBytes ∧ SourceInv s ∧ ReadsDeliver s
        ∧ (∀ a, (symGet s.ft a).toNat + (srcRest s).count a < 2 ^ 64)
        ∧ s.fileSize.toNat + (srcRest s).length < 2 ^ 64)
      ∧ (srcRest full = [0x61#8] ++ 0x62#8 :: [] ∧ full.fileSize.toNat + [0x61#8].length < 2 ^ 64
        ∧ full.fileSize.toNat + [0x61#8].length + 1 = 2 ^ 64)
      ∧ (symGet (symSet s.ft 0x62#8 0xFFFFFFFFFFFFFFFF#64) 0x62#8).toNat + [0x61#8].count 0x62#8 + 1 = 2 ^ 64
      ∧ ReadsFailAfter failing [1] 2 [] ∧ EachDelivers failing.params.blockBytes (srcRest failing).length [1]
      ∧ (srcRest failing).take (delivered failing.params.blockBytes (srcRest failing).length [1]) = [0x61#8] :=
  ⟨⟨rfl, by decide, by decide, readsDeliver_of_nil rfl, by decide +kernel, by decide⟩,
    ⟨rfl, by decide, by decide⟩, by decide +kernel, rfl, by decide, by decide⟩

theorem witness_FtPadEstablishesTwoCounts : sixCounts.fault = false := rfl

theorem witness_CombineStepJoinsTheTwoLowest :
    QueueInv busy ∧ busy.nodes.length < 511 ∧ busy.q = 0#9 :: 1#9 :: [] ∧ weightOf busy 0#9 = some 1#64
      ∧ weightOf busy 1#9 = some 4#64 ∧ (1#64).toNat + (4#64).toNat < 2 ^ 64 :=
  ⟨busy_queueInv, by decide, rfl, rfl, rfl, by decide⟩

theorem witness_TbBuildMakesTheTree :
    sixCounts.fault = false ∧ 2 ≤ (countedSyms sixCounts).length ∧ totalCount sixCounts < 2 ^ 64 := by decide +kernel

theorem witness_TbBuildRefusesOrOverflows :
    (State.reset.fault = false ∧ (countedSyms State.reset).length < 2)
      ∧ ∃ s : State, s.fault = false ∧ 2 ≤ (countedSyms s).length ∧ 2 ^ 64 ≤ totalCount s :=
  ⟨⟨rfl, by decide +kernel⟩,
    { State.reset with ft := symSet (symSet State.reset.ft 0#8 0x8000000000000000#64) 1#8 0x8000000000000000#64 }, rfl,
    by decide +kernel, by decide +kernel⟩

theorem witness_TbBuildDependsOnTheTableAlone :
    sixCounts.fault = false ∧ 2 ≤ (countedSyms sixCounts).length
      ∧ sixCounts.ft = ({ busy with ft := sixCounts.ft } : State).ft ∧ busy.fault = false
      ∧ after .tbBuild sixCounts (fun t => t.root) = some 10#9
      ∧ after .tbBuild { busy with ft := sixCounts.ft } (fun t => t.root) = some 10#9 :=
  ⟨rfl, by decide +kernel, rfl, rfl, by decide +kernel, by decide +kernel⟩

theorem witness_TreeFreeReleasesThePool : busy.fault = false ∧ 1 ≤ busy.qcap.toNat := by decide

/-- A tree as deep as the longest code allowed. -/
theorem witness_CtGenRecordsThePaths :
    let s := { treeState with params := { Params.default with maxCodeBits := 3 } }
    s.fault = false ∧ s.root ≠ 0x1FF#9 ∧ Represents s.nodes s.root sixTree ∧ sixTree.depth ≤ s.params.maxCodeBits
      ∧ s.params.maxCodeBits ≤ 255 :=
  ⟨rfl, by decide, sixTree_represents, by decide, by decide⟩

theorem witness_CtGenRefusesOrFindsACodeTooLong :
    (State.reset.fault = false ∧ State.reset.root = 0x1FF#9)
      ∧ let s := { treeState with params := { Params.default with maxCodeBits := 2 } }
        s.fault = false ∧ s.root ≠ 0x1FF#9 ∧ Represents s.nodes s.root sixTree ∧ s.params.maxCodeBits < sixTree.depth
          ∧ s.params.maxCodeBits ≤ 255 :=
  ⟨⟨rfl, rfl⟩, rfl, by decide, sixTree_represents, by decide, by decide⟩

/-- The path to the left leaf comes before the path to the Internal node at the depth of `MAX_CODE_BITS`. -/
theorem witness_CtGenRefusesOrFindsACodeTooLong_recorded :
    follow oneLeafFirst.nodes oneLeafFirst.root [true] = some 3#9 ∧ [true].length = oneLeafFirst.params.maxCodeBits
      ∧ [false] < [true] ∧ follow oneLeafFirst.nodes oneLeafFirst.root [false] = some 0#9
      ∧ nodeAt oneLeafFirst 0#9 = some (.leaf 0x61#8 1#64) := by decide

theorem witness_GeneratedCodesArePrefixFree :
    smallTree.fault = false ∧ smallTree.root ≠ 0x1FF#9
      ∧ Represents smallTree.nodes smallTree.root (.node (.leaf 0x61#8) (.leaf 0x62#8))
      ∧ smallTree.params.maxCodeBits ≤ 255
      ∧ after .ctGen smallTree (fun t => (t.fault, (symGet t.ct 0x61#8).valid, (symGet t.ct 0x62#8).valid))
          = some (false, true, true) :=
  ⟨rfl, by decide, smallTree_represents, by decide, by decide +kernel⟩

theorem witness_CodeReadsGiveTheEntry :
    (3#64).toNat < 4 ∧ 4 ≤ (4#64).toNat ∧ CodeTableInv busy ∧ (symGet busy.ct 0x62#8).len.toNat ≤ 64 * (0#64).toNat + 2
      ∧ (symGet busy.ct 0x7A#8).valid = false :=
  ⟨by decide, by decide, busy_codeTableInv, by decide +kernel, by decide +kernel⟩

theorem witness_TcDumpWritesThePostOrder :
    (State.reset.fault = false ∧ State.reset.root = 0x1FF#9) ∧ busy.fault = false ∧ busy.root ≠ 0x1FF#9
      ∧ Represents busy.nodes busy.root sixTree ∧ sixTree.leaves ≤ 256 ∧ busy.tbuf.wf :=
  ⟨⟨rfl, rfl⟩, rfl, by decide, sixTree_represents, by decide, by decide⟩

/-- A `TBUF` that holds the dump of a tree of two leaves. -/
def dumped : State :=
  { State.reset with tbuf := [(0, 0x4C#8), (1, 0x61#8), (2, 0x4C#8), (3, 0x62#8), (4, 0x49#8)], tlen := 5#10 }

theorem witness_TcRebuildMakesTheDumpedTree :
    dumped.fault = false ∧ dumped.params.tagLeaf ≠ dumped.params.tagInternal ∧ dumped.tlen.toNat ≤ 767
      ∧ dumped.tbuf.slice 0 dumped.tlen.toNat
          = (CodeTree.node (.leaf 0x61#8) (.leaf 0x62#8)).dump dumped.params := by decide +kernel

theorem witness_DumpThenRebuildKeepsTheTree :
    smallTree.fault = false ∧ smallTree.params.tagLeaf ≠ smallTree.params.tagInternal ∧ smallTree.tbuf.wf
      ∧ smallTree.root ≠ 0x1FF#9 ∧ Represents smallTree.nodes smallTree.root (.node (.leaf 0x61#8) (.leaf 0x62#8))
      ∧ (CodeTree.node (.leaf 0x61#8) (.leaf 0x62#8)).leaves ≤ 256 :=
  ⟨rfl, by decide, by decide, by decide, smallTree_represents, by decide⟩

/-- Two buffers that differ at `TLEN` and agree below it. -/
theorem witness_TcRebuildReadsOnlyBelowTlen :
    dumped.tlen.toNat ≤ 767
      ∧ (∀ i, i < dumped.tlen.toNat → Memory.read (dumped.tbuf.write 5 0xFF#8) i = dumped.tbuf.read i)
      ∧ Memory.read (dumped.tbuf.write 5 0xFF#8) 5 ≠ dumped.tbuf.read 5 := by decide

/-- An `OK` and a raise, and a buffer for each way the units can end: the 257th leaf unit is the first that finds 256
entries. -/
theorem witness_TcRebuildNeverExhaustsThePool :
    (dumped.fault = false ∧ dumped.tlen.toNat ≤ 767) ∧ after .tcRebuild State.reset (fun t => t.fault) = some true
      ∧ dumped.params.tagLeaf = 0x4C#8 ∧ dumped.params.tagInternal = 0x49#8
      ∧ (dumped.tbuf.slice 0 5 = unitsBytes dumped.params [.leaf 0x61#8, .leaf 0x62#8, .internal] ++ []
        ∧ unitsDepth [.leaf 0x61#8, .leaf 0x62#8, .internal] 0 = some 1)
      ∧ (dumped.tbuf.slice 0 4 = unitsBytes dumped.params [.leaf 0x61#8, .leaf 0x62#8] ++ []
        ∧ unitsDepth [.leaf 0x61#8, .leaf 0x62#8] 0 = some 2)
      ∧ (dumped.tbuf.slice 0 3 = unitsBytes dumped.params [.leaf 0x61#8] ++ [0x4C#8] ∧ unitsDepth [.leaf 0x61#8] 0 = some 1)
      ∧ (Memory.slice [(0, 0x49#8)] 0 1 = unitsBytes dumped.params [] ++ [0x49#8] ∧ unitsDepth [] 0 = some 0)
      ∧ Memory.slice [(0, 0x4C#8), (2, 0x4A#8)] 0 3 = unitsBytes dumped.params [.leaf 0#8] ++ [0x4A#8] := by
  decide +kernel

theorem witness_TcRebuildNeverExhaustsThePool_stack :
    let bytes := unitsBytes dumped.params (List.replicate 256 (.leaf 0x4C#8)) ++ [0x4C#8, 0x4C#8]
    bytes.length = 514 ∧ Memory.slice (Memory.writeBytes [] 0 bytes) 0 bytes.length = bytes
      ∧ unitsDepth (List.replicate 256 (.leaf 0x4C#8)) 0 = some 256 :=
  ⟨by decide +kernel, Memory.slice_writeBytes _ 0 ⟨List.Pairwise.nil, nofun⟩, by decide +kernel⟩

theorem witness_TcLoadReadsTheTree :
    (∃ s : State, s.fault = false ∧ 767 < s.hTreeSize.toNat)
      ∧ (State.reset.fault = false ∧ State.reset.hTreeSize.toNat = 0)
      ∧ (∃ s : State, ReadsFailAfter s [1, 1] 0 [] ∧ s.hTreeSize.toNat = 2
          ∧ s.hTreeSize.toNat ≤ delivered s.hTreeSize.toNat (srcRest s).length [1, 1])
      ∧ (∃ s : State, s.fault = false ∧ s.hTreeSize.toNat ≤ 767 ∧ ReadsDeliver s ∧ s.tbuf.wf
          ∧ s.hTreeSize.toNat ≤ (srcRest s).length)
      ∧ ∃ s : State, s.fault = false ∧ s.hTreeSize.toNat ≤ 767 ∧ ReadsDeliver s ∧ s.tbuf.wf
          ∧ (srcRest s).length < s.hTreeSize.toNat := by
  let e : Env := { State.reset.env with src := [0x4C#8, 0x61#8], reads := [.deliver 1] }
  have hd : ∀ s : State, s.env = e → ReadsDeliver s := by
    intro s hs r hr pos
    rw [hs] at hr
    rw [List.mem_singleton.mp hr]
    nofun
  exact ⟨⟨{ State.reset with hTreeSize := 768#16 }, rfl, by decide⟩, ⟨rfl, rfl⟩,
    ⟨{ State.reset with hTreeSize := 2#16, env := { e with reads := [.deliver 1, .deliver 1, .fail 0] } }, rfl, rfl,
      by decide⟩,
    ⟨{ State.reset with hTreeSize := 2#16, env := e }, rfl, by decide, hd _ rfl, by decide, by decide⟩,
    ⟨{ State.reset with hTreeSize := 767#16, env := e }, rfl, by decide, hd _ rfl, by decide, by decide⟩⟩

theorem witness_TcStoreWritesTheTree :
    (State.reset.fault = false ∧ State.reset.tlen.toNat = 0)
      ∧ busy.fault = false ∧ 1 ≤ busy.tlen.toNat ∧ busy.tlen.toNat ≤ 767 ∧ WritesAccepted busy := by decide +kernel

theorem witness_TbufReadsAndWritesOneByte :
    766 < (767#64).toNat ∧ (766#64).toNat ≤ 766 ∧ dumped.tlen.toNat ≤ (5#64).toNat ∧ (4#64).toNat < dumped.tlen.toNat
      ∧ (766#64).toNat < busy.tlen.toNat ∧ busy.fault = false ∧ busy.tbuf.wf := by decide +kernel

theorem witness_WrSymAppendsTheCode :
    (busy.fault = false ∧ (symGet busy.ct 0x7A#8).valid = false) ∧ busy.wDone = false
      ∧ (symGet busy.ct 0x62#8).valid = true ∧ CursorInv busy ∧ busy.wbuf.wf ∧ WritesAccepted busy
      ∧ WriteAnswer.fail ∉ [WriteAnswer.fail].take ((busy.wCursor + (symGet busy.ct 0x62#8).len.toNat) / busy.params.blockBits)
      := by decide +kernel

theorem witness_WrFinalFlushesThePendingBits :
    ({ busy with wDone := true } : State).wDone = true ∧ busy.fault = false ∧ busy.wDone = false ∧ CursorInv busy
      ∧ busy.wbuf.wf ∧ WritesAccepted busy := by decide +kernel

theorem witness_RdBitReturnsTheNextBit :
    (∃ s : State, s.fault = false ∧ s.rEos = true) ∧ (State.reset.fault = false ∧ State.reset.rEos = false
        ∧ CursorInv State.reset ∧ State.reset.rbuf.wf ∧ ReadsDeliver State.reset ∧ unreadBits State.reset = [])
      ∧ let s := withSrc [0x02#8]
        s.fault = false ∧ s.rEos = false ∧ CursorInv s ∧ s.rbuf.wf ∧ ReadsDeliver s ∧ s.rCursor = 8 * s.rLen
          ∧ unreadBits s = false :: [true, false, false, false, false, false, false] :=
  ⟨⟨{ State.reset with rEos := true }, rfl, rfl⟩,
    ⟨rfl, rfl, by decide +kernel, by decide, readsDeliver_of_nil rfl, by decide +kernel⟩, rfl, rfl, by decide +kernel,
    by decide, readsDeliver_of_nil rfl, rfl, by decide +kernel⟩

theorem witness_RdBitReturnsTheNextBit_block : busy.rEos = false ∧ CursorInv busy ∧ busy.rCursor < 8 * busy.rLen := by
  decide +kernel

theorem witness_HdrPutWritesTheHeaderAndSrcRewindGoesBack :
    busy.fault = false ∧ (∀ pos, RewindAnswer.fail pos ∉ busy.env.rewinds) ∧ WritesAccepted busy :=
  ⟨rfl, fun _ => List.not_mem_nil, List.not_mem_nil⟩

/-- A good header with a byte behind it, one with another marker, and a source that is too short. -/
theorem witness_HdrGetTakesTheHeaderApart :
    let good := withSrc [0x0D#8, 0xD0#8, 0xEF#8, 0xBE#8, 0xA4#8, 0x01#8, 0x11#8, 0#8, 0x0E#8, 0#8, 0#8, 0#8, 0#8, 0#8, 0#8, 0#8,
      0x4C#8]
    (good.fault = false ∧ ReadsDeliver good ∧ (0xBE#8 ++ 0xEF#8 ++ 0xD0#8 ++ 0x0D#8 : BitVec 32) = good.params.magic
        ∧ srcRest good = [0x0D#8, 0xD0#8, 0xEF#8, 0xBE#8, 0xA4#8, 0x01#8, 0x11#8, 0#8, 0x0E#8, 0#8, 0#8, 0#8, 0#8, 0#8, 0#8, 0#8]
            ++ [0x4C#8])
      ∧ (0xBE#8 ++ 0xEF#8 ++ 0xD0#8 ++ 0x00#8 : BitVec 32) ≠ good.params.magic
      ∧ (srcRest (withSrc (List.replicate 15 0#8))).length < 16 :=
  ⟨⟨rfl, readsDeliver_of_nil rfl, by decide, rfl⟩, by decide, by decide⟩

theorem witness_EncBodyAppendsEveryCode :
    let s := { twoCodes with env := { State.reset.env with src := [0x62#8, 0x66#8] } }
    let z := { twoCodes with env := { State.reset.env with src := [0x62#8, 0x7A#8] } }
    ({ s with wDone := true } : State).wDone = true
      ∧ (s.fault = false ∧ s.wDone = false ∧ CursorInv s ∧ s.wbuf.wf ∧ SourceInv s ∧ ReadsDeliver s ∧ WritesAccepted s
          ∧ ∀ b ∈ srcRest s, (symGet s.ct b).valid = true)
      ∧ srcRest z = [0x62#8] ++ 0x7A#8 :: [] ∧ (∀ c ∈ [0x62#8], (symGet z.ct c).valid = true)
      ∧ (symGet z.ct 0x7A#8).valid = false :=
  ⟨rfl, ⟨rfl, rfl, by decide +kernel, by decide, by decide, readsDeliver_of_nil rfl, by decide, by decide +kernel⟩, rfl,
    by decide +kernel, by decide +kernel⟩

/-- The tree of two leaves with a byte of code bits in the source, with none, and a lone leaf. -/
theorem witness_DecSymDecodesOneSymbol :
    let s := { smallTree with env := { State.reset.env with src := [0x02#8] } }
    (State.reset.fault = false ∧ State.reset.root = 0x1FF#9)
      ∧ (leafRoot.fault = false ∧ leafRoot.root ≠ 0x1FF#9 ∧ Represents leafRoot.nodes leafRoot.root (.leaf 0x61#8))
      ∧ (s.fault = false ∧ s.root ≠ 0x1FF#9 ∧ Represents s.nodes s.root (.node (.leaf 0x61#8) (.leaf 0x62#8)) ∧ CursorInv s
          ∧ s.rEos = false ∧ s.rbuf.wf ∧ ReadsDeliver s ∧ WritesAccepted s
          ∧ (CodeTree.node (.leaf 0x61#8) (.leaf 0x62#8)).decode (unreadBits s)
              = some (0x61#8, [true, false, false, false, false, false, false]))
      ∧ CursorInv smallTree ∧ (CodeTree.node (.leaf 0x61#8) (.leaf 0x62#8)).decode (unreadBits smallTree) = none
      ∧ ({ smallTree with rEos := true } : State).rEos = true :=
  ⟨⟨rfl, rfl⟩, ⟨rfl, by decide, _, rfl⟩,
    ⟨rfl, by decide, smallTree_represents, by decide +kernel, rfl, by decide, readsDeliver_of_nil rfl, by decide,
      by decide +kernel⟩, by decide +kernel, by decide +kernel, rfl⟩

/-- Eight bits of the block, and a source that would fail. -/
theorem witness_DecodeFromTheBlock :
    let tree := CodeTree.node (.leaf 0x61#8) (.leaf 0x62#8)
    let s : State := { smallTree with
      fileSize := 2#64, rbuf := [(0, 0x02#8)], rLen := 1, env := { State.reset.env with reads := [.fail 0] } }
    s.fault = false ∧ s.root ≠ 0x1FF#9 ∧ Represents s.nodes s.root tree ∧ CursorInv s ∧ s.rEos = false ∧ WritesAccepted s
      ∧ tree.decode (blockLeft s) = some (0x61#8, (blockLeft s).drop 1) ∧ s.emitted.toNat < s.fileSize.toNat
      ∧ tree.decodeMany (s.fileSize.toNat - s.emitted.toNat) (blockLeft s) = some ([0x61#8, 0x62#8], (blockLeft s).drop 2) :=
  ⟨rfl, by decide, smallTree_represents, by decide +kernel, rfl, by decide, by decide +kernel, by decide, by decide +kernel⟩

/-- Eight symbols in the source's byte: as many owed, none owed, and one more than the bits give. -/
theorem witness_DecBodyDecodesWhatIsOwed :
    let s := { smallTree with fileSize := 8#64, env := { State.reset.env with src := [0x02#8] } }
    (State.reset.fault = false ∧ State.reset.root = 0x1FF#9)
      ∧ (smallTree.root ≠ 0x1FF#9 ∧ smallTree.fileSize.toNat ≤ smallTree.emitted.toNat)
      ∧ (leafRoot.root ≠ 0x1FF#9 ∧ Represents leafRoot.nodes leafRoot.root (.leaf 0x61#8)
          ∧ ({ leafRoot with fileSize := 1#64 } : State).emitted.toNat < (1#64 : Word64).toNat)
      ∧ (s.fault = false ∧ s.root ≠ 0x1FF#9 ∧ Represents s.nodes s.root (.node (.leaf 0x61#8) (.leaf 0x62#8)) ∧ CursorInv s
          ∧ s.rEos = false ∧ s.rbuf.wf ∧ ReadsDeliver s ∧ WritesAccepted s ∧ s.emitted.toNat < s.fileSize.toNat
          ∧ (CodeTree.node (.leaf 0x61#8) (.leaf 0x62#8)).decodeMany (s.fileSize.toNat - s.emitted.toNat) (unreadBits s)
              = some ([0x61#8, 0x62#8, 0x61#8, 0x61#8, 0x61#8, 0x61#8, 0x61#8, 0x61#8], []))
      ∧ 8 < (9#64 : Word64).toNat - s.emitted.toNat
      ∧ (CodeTree.node (.leaf 0x61#8) (.leaf 0x62#8)).decode [] = none
      ∧ ({ s with rEos := true } : State).rEos = true :=
  ⟨⟨rfl, rfl⟩, by decide, ⟨by decide, ⟨_, rfl⟩, by decide⟩,
    ⟨rfl, by decide, smallTree_represents, by decide +kernel, rfl, by decide, readsDeliver_of_nil rfl, by decide, by decide,
      by decide +kernel⟩, by decide, rfl, rfl⟩

/-- Blocks of one byte with six bits placed, a source of `b` and `f`, whose codes fill the block at the second bit; the first
write fails, the first read, or the second byte has no code. -/
theorem witness_WriterFailuresKeepWhatWasWritten :
    let e := { State.reset.env with src := [0x62#8, 0x66#8] }
    let s : State := { byteBlocks with ct := twoCodes.ct, wCursor := 6, env := { e with writes := [.fail] } }
    let r : State := { s with env := { e with reads := [.deliver 1, .fail 0] } }
    let z : State := { s with env := { e with src := [0x62#8, 0x7A#8] } }
    (s.fault = false ∧ s.wDone = false ∧ CursorInv s ∧ s.wbuf.wf)
      ∧ ((symGet s.ct 0x62#8).valid = true ∧ WritesFailAfter s 0 []
        ∧ (0 + 1) * s.params.blockBits ≤ s.wCursor + (symGet s.ct 0x62#8).len.toNat)
      ∧ (srcRest s = [] ++ 0x62#8 :: [0x66#8] ∧ ReadsDeliver s ∧ s.wCursor + 0 < (0 + 1) * s.params.blockBits)
      ∧ (CursorInv r ∧ ReadsFailAfter r [1] 0 [] ∧ EachDelivers r.params.blockBytes (srcRest r).length [1]
        ∧ WritesAccepted r
        ∧ (srcRest r).take (delivered r.params.blockBytes (srcRest r).length [1]) = [0x62#8])
      ∧ (CursorInv z ∧ srcRest z = [0x62#8] ++ 0x7A#8 :: [] ∧ (symGet z.ct 0x7A#8).valid = false ∧ ReadsDeliver z
        ∧ WritesAccepted z)
      ∧ 0 < s.wCursor ∧ State.reset.wCursor = 0 :=
  ⟨⟨rfl, rfl, by decide +kernel, by decide⟩, ⟨by decide +kernel, rfl, by decide +kernel⟩,
    ⟨rfl, readsDeliver_of_nil rfl, by decide⟩, ⟨by decide +kernel, rfl, by decide, by decide, by decide⟩,
    ⟨by decide +kernel, rfl, by decide +kernel, readsDeliver_of_nil rfl, by decide⟩, by decide, rfl⟩

/-- The tree of two leaves, blocks of one byte: the second read fails with eight symbols out and one more owed, or the second
write fails. -/
theorem witness_DecoderFailuresKeepTheWalk :
    let tree := CodeTree.node (.leaf 0x61#8) (.leaf 0x62#8)
    let e := { State.reset.env with src := [0x02#8, 0x01#8] }
    let s : State := { smallTree with params := byteBlocks.params, fileSize := 9#64, env := e }
    let r : State := { s with env := { e with reads := [.deliver 1, .fail 0] } }
    let f : State := { s with env := { e with reads := [.fail 0] } }
    let w : State := { s with env := { e with writes := [.accept, .fail] } }
    (r.fault = false ∧ r.root ≠ 0x1FF#9 ∧ Represents r.nodes r.root tree ∧ CursorInv r ∧ r.rEos = false ∧ r.rbuf.wf)
      ∧ (ReadsFailAfter r [1] 0 [] ∧ EachDelivers r.params.blockBytes (srcRest r).length [1] ∧ WritesAccepted r
        ∧ 8 < r.fileSize.toNat - r.emitted.toNat
        ∧ tree.decodeMany 8 (blockLeft r ++ bytesBits ((srcRest r).take (delivered 1 2 [1])))
            = some ([0x61#8, 0x62#8, 0x61#8, 0x61#8, 0x61#8, 0x61#8, 0x61#8, 0x61#8], [])
        ∧ tree.decode [] = none)
      ∧ (CursorInv f ∧ ReadsFailAfter f [] 0 [] ∧ tree.decode (blockLeft f ++ bytesBits []) = none)
      ∧ CursorInv w ∧ WritesFailAfter w 1 [] ∧ ReadsDeliver w
      ∧ tree.decodeMany 1 (unreadBits w) = some ([0x61#8], (unreadBits w).drop 1)
      ∧ tree.decode ((unreadBits w).drop 1) = some (0x62#8, (unreadBits w).drop 2)
      ∧ ({ w with env := { e with writes := [.fail] } } : State).env.writes = List.replicate 0 .accept ++ .fail :: [] :=
  ⟨⟨rfl, by decide, smallTree_represents, by decide +kernel, rfl, by decide⟩,
    ⟨rfl, by decide, by decide, by decide, by decide +kernel, rfl⟩, ⟨by decide +kernel, rfl, by decide +kernel⟩,
    by decide +kernel, rfl, readsDeliver_of_nil rfl, by decide +kernel, by decide +kernel, rfl⟩

end Sys2Proof.Tests
end

section
/-! How a piece of a command ends, with a condition for a good end and another for a raise; and each command as one rule inside
the frame of 30_encoding R99. -/

namespace Sys2Proof.Machine

open Sys2Proof

/-! ### Conditions on how a piece of a command ends -/

/-- A piece that ends well leaves a value and a state with `Q`, one that raises leaves a state with `R`. -/
def Res.Ends {α : Type} (Q : α → State → Prop) (R : State → Prop) : Res α → Prop
  | .ok v t => Q v t
  | .raised _ _ t => R t
  | .stuck _ => True

@[simp] theorem Res.ends_ok {α : Type} (Q : α → State → Prop) (R : State → Prop) (v : α) (t : State) :
    (Res.ok v t).Ends Q R ↔ Q v t := Iff.rfl

@[simp] theorem Res.ends_raised {α : Type} (Q : α → State → Prop) (R : State → Prop) (c : Cause) (info : Word64) (t : State) :
    (Res.raised (α := α) c info t).Ends Q R ↔ R t := Iff.rfl

@[simp] theorem Res.ends_stuck {α : Type} (Q : α → State → Prop) (R : State → Prop) (f : Fault) :
    (Res.stuck (α := α) f).Ends Q R ↔ True := Iff.rfl

theorem Res.Ends.mono {α : Type} {Q Q' : α → State → Prop} {R R' : State → Prop} {r : Res α} (h : r.Ends Q R)
    (hQ : ∀ v t, Q v t → Q' v t) (hR : ∀ t, R t → R' t) : r.Ends Q' R' := by
  cases r with
  | ok v t => exact hQ v t h
  | raised c info t => exact hR t h
  | stuck f => trivial

/-- Less may be asked of the state a raise leaves. -/
theorem Res.Ends.weaken {α : Type} {Q : α → State → Prop} {R R' : State → Prop} {r : Res α} (h : r.Ends Q R)
    (hR : ∀ t, R t → R' t) : r.Ends Q R' := h.mono (fun _ _ hq => hq) hR

theorem Res.Ends.bind {α β : Type} {Q : α → State → Prop} {Q' : β → State → Prop} {R : State → Prop} {r : Res α}
    {k : α → State → Res β} (h : r.Ends Q R) (hk : ∀ v t, Q v t → (k v t).Ends Q' R) : (r.bind k).Ends Q' R := by
  cases r with
  | ok v t => exact hk v t h
  | raised c info t => exact h
  | stuck f => trivial

theorem Res.All.ends {α : Type} {I : State → Prop} {r : Res α} (h : r.All I) : r.Ends (fun _ => I) I := by
  cases r <;> exact h

theorem Res.Ends.all {α : Type} {I : State → Prop} {r : Res α} (h : r.Ends (fun _ => I) I) : r.All I := by
  cases r <;> exact h

/-- A condition on the end and a property of every state left hold together. -/
theorem Res.Ends.and_all {α : Type} {Q : α → State → Prop} {R I : State → Prop} {r : Res α} (h : r.Ends Q R) (hI : r.All I) :
    r.Ends (fun v t => Q v t ∧ I t) (fun t => R t ∧ I t) := by
  cases r with
  | ok v t => exact ⟨h, hI⟩
  | raised c info t => exact ⟨h, hI⟩
  | stuck f => trivial

theorem Res.All.and {α : Type} {I J : State → Prop} {r : Res α} (hI : r.All I) (hJ : r.All J) :
    r.All fun t => I t ∧ J t := by
  cases r with
  | ok v t => exact ⟨hI, hJ⟩
  | raised c info t => exact ⟨hI, hJ⟩
  | stuck f => trivial

/-- A property that every piece of a command keeps is kept by the pieces one after the other. -/
theorem Res.keeps_bind {α β : Type} {I : State → Prop} {r : Res α} {k : α → State → Res β} (hr : r.All I)
    (hk : ∀ v t, I t → (k v t).All I) : (r.bind k).All I :=
  Res.all_bind hr (fun _ h => h) hk

/-- Reading a byte of `TBUF` leaves the state as it is, and never raises. -/
theorem tbufTake_ends {I R : State → Prop} (i : Nat) {s : State} (hs : I s) : (tbufTake i s).Ends (fun _ => I) R := by
  unfold tbufTake
  split
  · exact hs
  · trivial

theorem tbufTake_all {I : State → Prop} (i : Nat) {s : State} (hs : I s) : (tbufTake i s).All I :=
  (tbufTake_ends i hs).all

/-! ### The rule of a command -/

/-- What each command does once the FAULT gate and the operand check have let it run (30_encoding R99 step 4). -/
def ruleOf : Instr → State → Res Response
  | .nop => answerOk 0#64
  | .sessionReset => fun s => answerOk 0#64 s.sessionReset
  | .rdreg a => fun s =>
    match regOfNum a with
    | some r => answerOk (readReg s r) s
    | none => answerIllegal s
  | .wrreg a v => fun s =>
    match regOfNum a with
    | some r => answerOk 0#64 (writeReg s r v)
    | none => answerIllegal s
  | .qCreate v => fun s => answerOk 0#64 { s with qcap := v.setWidth 9, q := [] }
  | .qInsert v => fun s =>
    if s.nodes.length ≤ (nodeIdOf v).toNat then answerFail s
    else (qInsert (nodeIdOf v) s).bind fun _ s => answerOk 0#64 s
  | .qExtract => fun s =>
    if s.q.length = 0 then answerFail s else (qExtract s).bind fun n s => answerOk (n.setWidth 64) s
  | .nodeLeaf a w => fun s => (alloc (.leaf a w) s).bind fun n s => answerOk (n.setWidth 64) s
  | .nodeGet v => fun s =>
    match nodeAt s (nodeIdOf v) with
    | none => answerFail s
    | some nd => answerOk ((nodeFields nd).setWidth 64) s
  | .nodeWeight v => fun s =>
    match weightOf s (nodeIdOf v) with
    | none => answerFail s
    | some w => answerOk w s
  | .ftClr => fun s => answerOk 0#64 { s with ft := Vector.replicate 256 0#64 }
  | .ftInc a => fun s => (countByte a s).bind fun _ s => answerOk 0#64 s
  | .ftSet a v => fun s => answerOk 0#64 { s with ft := symSet s.ft a v }
  | .ftGet a => fun s => answerOk (symGet s.ft a) s
  | .ftScan => fun s => (scanLoop (srcLeft s + 1) 0 s).bind fun n s => answerOk (BitVec.ofNat 64 n) s
  | .ftPad => fun s => answerOk (BitVec.ofNat 64 (nonZeroCounts (padCounts s))) (padCounts s)
  | .tbBuild => buildTree
  | .treeFree => fun s => answerOk 0#64 s.releaseTree
  | .ctGen => generateCodes
  | .ctLen a => fun s => answerOk ((codeLenWord (symGet s.ct a)).setWidth 64) s
  | .ctWord a k => fun s => answerOk (codeWord (symGet s.ct a) (k.setWidth 2).toNat) s
  | .tcDump => dumpTree
  | .tcRebuild => rebuildTree
  | .tcLoad => loadTree
  | .tcStore => storeTree
  | .tbufRd v => fun s =>
    if s.tlen.toNat ≤ v.toNat then answerFail s else answerOk ((s.tbuf.read v.toNat).setWidth 64) s
  | .tbufWr b v => fun s => answerOk 0#64 { s with tbuf := s.tbuf.write v.toNat b }
  | .wrSym a => writeSym a
  | .wrFinal => finalize
  | .rdBit => fun s =>
    (readBit s).bind fun b s =>
      match b with
      | none => .ok ⟨.eos, 0#64⟩ s
      | some b => answerOk ((BitVec.ofBool b).setWidth 64) s
  | .hdrPut => fun s => (sinkWrite (headerBytes s) s).bind fun _ s => answerOk 0#64 s
  | .hdrGet => getHeader
  | .srcRewind => fun s => (srcRewind s).bind fun _ s => answerOk 0#64 s
  | .encBody => encodeBody
  | .decSym => fun s =>
    if s.root = nil then answerFail s else (decodeOne s).bind fun a s => answerOk (a.setWidth 64) s
  | .decBody => decodeBody

/-- Every command is its rule in the frame of 30_encoding R99. -/
theorem exec_eq_runCommand (i : Instr) (s : State) :
    exec i s = runCommand i.opcode (runsInFault i) i.wellFormed (ruleOf i) s := by
  cases i <;> rfl

/-- Everything a command can do: it is refused, its rule ends well, or its rule raises. -/
theorem exec_cases {i : Instr} {s t : State} (h : exec i s = .next t) :
    (∃ st v, t = s.respond st v)
    ∨ (s.fault = false ∨ runsInFault i = true) ∧ i.wellFormed = true
      ∧ ((∃ a u, ruleOf i s = .ok a u ∧ t = u.respond a.status a.rdata)
        ∨ ∃ c info u, ruleOf i s = .raised c info u ∧ t = u.raiseError i.opcode c info) := by
  rw [exec_eq_runCommand] at h
  rcases runCommand_cases i.opcode (runsInFault i) i.wellFormed (ruleOf i) s with ⟨-, -, e⟩ | ⟨-, -, e⟩ | ⟨hf, hl, e⟩ <;>
    rw [e] at h
  · cases h; exact .inl ⟨_, _, rfl⟩
  · cases h; exact .inl ⟨_, _, rfl⟩
  · exact .inr ⟨hf, hl, finish_eq_next h⟩

/-! ### What each rule leaves unchanged (20_memory R60) -/

theorem ft_kept (s : State) (ft : Vector Word64 256) : Kept [.ft] s { s with ft := ft } := by
  refine ⟨rfl, rfl, rfl, fun sp h => ?_⟩
  cases sp <;> simp_all [Unchanged]

theorem queue_kept (s : State) (q : List NodeId) (qcap : BitVec 9) :
    Kept [.queue, .qcap] s { s with q := q, qcap := qcap } := by
  refine ⟨rfl, rfl, rfl, fun sp h => ?_⟩
  cases sp <;> simp_all [Unchanged]

theorem tbuf_kept (s : State) (tbuf : Memory) : Kept [.tbuf] s { s with tbuf := tbuf } := by
  refine ⟨rfl, rfl, rfl, fun sp h => ?_⟩
  cases sp <;> simp_all [Unchanged]

theorem tlen_kept (s : State) (tlen : BitVec 10) : Kept [.tlen] s { s with tlen := tlen } := by
  refine ⟨rfl, rfl, rfl, fun sp h => ?_⟩
  cases sp <;> simp_all [Unchanged]

theorem root_kept (s : State) (root : NodeId) (stk : List NodeId) :
    Kept [.root, .stack] s { s with root := root, stk := stk } := by
  refine ⟨rfl, rfl, rfl, fun sp h => ?_⟩
  cases sp <;> simp_all [Unchanged]

theorem codeTable_kept (s : State) (ct : Vector CodeEntry 256) (done : Bool) :
    Kept [.ct, .ctDone] s { s with ct := ct, ctDone := done } := by
  refine ⟨rfl, rfl, rfl, fun sp h => ?_⟩
  cases sp <;> simp_all [Unchanged]

theorem wCursor_kept (s : State) (n : Nat) : Kept [.wCursor] s { s with wCursor := n } := by
  refine ⟨rfl, rfl, rfl, fun sp h => ?_⟩
  cases sp <;> simp_all [Unchanged]

theorem header_kept (s : State) (perm treeSize : BitVec 16) (size : Word64) :
    Kept [.hPerm, .hTreeSize, .fileSize] s { s with hPerm := perm, hTreeSize := treeSize, fileSize := size } := by
  refine ⟨rfl, rfl, rfl, fun sp h => ?_⟩
  cases sp <;> simp_all [Unchanged]

theorem sessionReset_kept (s : State) : Kept (writes .sessionReset) s s.sessionReset := by
  refine ⟨rfl, rfl, rfl, fun sp h => ?_⟩
  cases sp <;> simp_all [writes, Unchanged]

theorem writeReg_kept (s : State) (r : Reg) (v : Word64) :
    Kept [.fileSize, .hPerm, .hTreeSize, .tlen] s (writeReg s r v) := by
  refine ⟨?_, ?_, ?_, fun sp h => ?_⟩
  · cases r <;> rfl
  · cases r <;> rfl
  · cases r <;> rfl
  · cases sp <;> cases r <;> simp_all [Unchanged, writeReg]

theorem forceCount_kept (a : Sym) (s : State) : Kept [.ft] s (forceCount a s) := by
  unfold forceCount
  split
  · exact ft_kept s _
  · exact Kept.refl _ s

theorem padCounts_kept (s : State) : Kept [.ft] s (padCounts s) := by
  unfold padCounts
  split
  · exact (forceCount_kept _ s).trans (forceCount_kept _ _)
  · exact Kept.refl _ s

theorem buildTree_kept (s : State) : (buildTree s).All (Kept [.pool, .root, .queue, .qcap, .stack, .dcur] s) := by
  unfold buildTree
  split
  · exact Kept.refl _ s
  · have start : Kept [.pool, .root, .queue, .qcap, .stack, .dcur] s { s.releaseTree with qcap := queueSlots } :=
      ((releaseTree_kept s).mono (by decide)).trans ((queue_kept s.releaseTree [] queueSlots).mono (by decide))
    refine Res.kept_from start (Res.kept_bind (Res.kept_mono (by decide) (insertLeaves_kept _ _)) fun _ t =>
      Res.kept_bind (Res.kept_mono (by decide) (combineLoop_kept _ t)) fun _ u =>
        Res.kept_bind (Res.kept_mono (by decide) (qExtract_kept u)) fun r v => ?_)
    exact (root_kept v r v.stk).mono (by decide)

theorem generateCodes_kept (s : State) : (generateCodes s).All (Kept [.ct, .ctDone] s) := by
  unfold generateCodes
  split
  · exact Kept.refl _ s
  · refine Res.kept_from (codeTable_kept s _ _)
      (Res.kept_bind (Res.kept_mono (by decide) (walk_kept _ _ _ _ _)) fun _ t => ?_)
    exact codeTable_kept t t.ct true

theorem dumpTree_kept (s : State) : (dumpTree s).All (Kept [.tbuf, .tlen] s) := by
  unfold dumpTree
  split
  · exact Kept.refl _ s
  · exact Res.kept_from ((tlen_kept s _).mono (by decide))
      (Res.kept_bind (post_kept _ _ _) fun _ t => answerOk_kept _ _ t)

theorem rebuildTree_kept (s : State) : (rebuildTree s).All (Kept [.pool, .root, .queue, .stack, .dcur] s) := by
  refine Res.kept_from (releaseTree_kept s)
    (Res.kept_bind (Res.kept_mono (by decide) (rebuildLoop_kept _ _ _)) fun _ t => ?_)
  split
  · exact (root_kept t _ _).mono (by decide)
  · exact Kept.refl _ t

theorem loadTree_kept (s : State) : (loadTree s).All (Kept [.tbuf, .tlen, .source] s) := by
  unfold loadTree
  dsimp only
  split
  · exact Kept.refl _ s
  · refine Res.kept_bind (Res.kept_mono (by decide) (srcReadExact_kept _ s)) fun d t => ?_
    have load : Kept [.tbuf, .tlen, .source] t { t with tbuf := t.tbuf.writeBytes 0 d } :=
      (tbuf_kept t _).mono (by decide)
    split
    · exact load
    · exact load.trans ((tlen_kept _ _).mono (by decide))

theorem storeTree_kept (s : State) : (storeTree s).All (Kept [.sink] s) := by
  unfold storeTree
  split
  · trivial
  · split
    · exact Kept.refl _ s
    · exact Res.kept_bind (sinkWrite_kept _ s) fun _ t => answerOk_kept _ _ t

theorem writeSym_kept (a : Sym) (s : State) : (writeSym a s).All (Kept [.wbuf, .wCursor, .wTotal, .sink] s) := by
  unfold writeSym
  split
  · exact Kept.refl _ s
  · split
    · exact Kept.refl _ s
    · exact Res.kept_bind (writeBits_kept _ s) fun _ t => answerOk_kept _ _ t

theorem finalize_kept (s : State) : (finalize s).All (Kept [.wbuf, .wCursor, .wDone, .sink] s) := by
  have pad : Kept [.wbuf, .wCursor, .wDone, .sink] s (padTrailing s) := (padTrailing_kept s).mono (by decide)
  unfold finalize
  dsimp only
  split
  · exact Kept.refl _ s
  · split
    · trivial
    · split
      · exact pad.trans ((wCursor_kept _ 0).mono (by decide))
      · exact Res.kept_from pad (Res.kept_bind (Res.kept_mono (by decide) (sinkWrite_kept _ _)) fun _ t =>
          (wCursor_kept t 0).mono (by decide))

theorem getHeader_kept (s : State) : (getHeader s).All (Kept [.hPerm, .hTreeSize, .fileSize, .source] s) := by
  refine Res.kept_bind (Res.kept_mono (by decide) (srcReadExact_kept 16 s)) fun d t => ?_
  split
  · exact Kept.refl _ t
  · split
    · exact Kept.refl _ t
    · exact (header_kept t _ _ _).mono (by decide)

theorem encodeBody_kept (s : State) : (encodeBody s).All (Kept [.wbuf, .wCursor, .wTotal, .source, .sink] s) := by
  unfold encodeBody
  split
  · exact Kept.refl _ s
  · exact Res.kept_bind (encodeLoop_kept _ _ s) fun _ t => answerOk_kept _ _ t

theorem decodeBody_kept (s : State) : (decodeBody s).All (Kept [.rbuf, .reader, .dcur, .emitted, .source, .sink] s) := by
  unfold decodeBody
  split
  · exact Kept.refl _ s
  · exact Res.kept_bind (decodeLoop_kept _ _ s) fun _ t => answerOk_kept _ _ t

/-- The rule of a command keeps every space that 20_memory R60 does not give the command. -/
theorem ruleOf_kept (i : Instr) (s : State) : (ruleOf i s).All (Kept (writes i) s) := by
  cases i with
  | nop => exact Kept.refl _ s
  | sessionReset => exact sessionReset_kept s
  | rdreg a =>
    simp only [ruleOf]
    split <;> exact Kept.refl _ s
  | wrreg a v =>
    simp only [ruleOf]
    split
    · exact writeReg_kept s _ v
    · exact Kept.refl _ s
  | qCreate v => exact queue_kept s _ _
  | qInsert v =>
    simp only [ruleOf]
    split
    · exact Kept.refl _ s
    · exact Res.kept_bind (qInsert_kept _ s) fun _ t => answerOk_kept _ _ t
  | qExtract =>
    simp only [ruleOf]
    split
    · exact Kept.refl _ s
    · exact Res.kept_bind (qExtract_kept s) fun _ t => answerOk_kept _ _ t
  | nodeLeaf a w => exact Res.kept_bind (alloc_kept _ s) fun _ t => answerOk_kept _ _ t
  | nodeGet v =>
    simp only [ruleOf]
    split <;> exact Kept.refl _ s
  | nodeWeight v =>
    simp only [ruleOf]
    split <;> exact Kept.refl _ s
  | ftClr => exact ft_kept s _
  | ftInc a => exact Res.kept_bind (countByte_kept a s) fun _ t => answerOk_kept _ _ t
  | ftSet a v => exact ft_kept s _
  | ftGet a => exact Kept.refl _ s
  | ftScan => exact Res.kept_bind (scanLoop_kept _ _ s) fun _ t => answerOk_kept _ _ t
  | ftPad => exact padCounts_kept s
  | tbBuild => exact buildTree_kept s
  | treeFree => exact releaseTree_kept s
  | ctGen => exact generateCodes_kept s
  | ctLen a => exact Kept.refl _ s
  | ctWord a k => exact Kept.refl _ s
  | tcDump => exact dumpTree_kept s
  | tcRebuild => exact rebuildTree_kept s
  | tcLoad => exact loadTree_kept s
  | tcStore => exact storeTree_kept s
  | tbufRd v =>
    simp only [ruleOf]
    split <;> exact Kept.refl _ s
  | tbufWr b v => exact tbuf_kept s _
  | wrSym a => exact writeSym_kept a s
  | wrFinal => exact finalize_kept s
  | rdBit =>
    refine Res.kept_bind (readBit_kept s) fun b t => ?_
    cases b <;> exact Kept.refl _ t
  | hdrPut => exact Res.kept_bind (sinkWrite_kept _ s) fun _ t => answerOk_kept _ _ t
  | hdrGet => exact getHeader_kept s
  | srcRewind => exact Res.kept_bind (srcRewind_kept s) fun _ t => answerOk_kept _ _ t
  | encBody => exact encodeBody_kept s
  | decSym =>
    simp only [ruleOf]
    split
    · exact Kept.refl _ s
    · exact Res.kept_bind (decodeOne_kept s) fun _ t => answerOk_kept _ _ t
  | decBody => exact decodeBody_kept s

end Sys2Proof.Machine
end

section
/-! What it takes for a property to be kept by every step, said once for all invariants; and the reset state. -/

namespace Sys2Proof.Machine

open Sys2Proof

/-! ### Properties that speak of some spaces only -/

/-- The property speaks of no more than these spaces, the parameters and the content of the source. -/
def DependsOn (L : List Space) (I : State → Prop) : Prop :=
  ∀ s t, t.params = s.params → t.env.src = s.env.src → (∀ sp ∈ L, Unchanged s t sp) → I s → I t

/-- What keeps the spaces a property speaks of keeps the property. -/
theorem DependsOn.of_kept {L M : List Space} {I : State → Prop} {s t : State} (hI : DependsOn L I) (h : Kept M s t)
    (hL : ∀ sp ∈ L, sp ∉ M) (hs : I s) : I t := by
  obtain ⟨hparams, -, hsrc, hkept⟩ := h
  exact hI s t hparams hsrc (fun sp hsp => hkept sp (hL sp hsp)) hs

theorem DependsOn.all_of_kept {α : Type} {L M : List Space} {I : State → Prop} {s : State} {r : Res α} (hI : DependsOn L I)
    (h : r.All (Kept M s)) (hL : ∀ sp ∈ L, sp ∉ M) (hs : I s) : r.All I :=
  Res.all_mono (fun _ ht => hI.of_kept ht hL hs) h

/-- A command that writes none of the spaces a property speaks of keeps the property. -/
theorem DependsOn.ruleOf_all {L : List Space} {I : State → Prop} {i : Instr} {s : State} (hI : DependsOn L I) (hs : I s)
    (hw : ∀ sp ∈ L, sp ∉ writes i) : (ruleOf i s).All I :=
  hI.all_of_kept (ruleOf_kept i s) hw hs

/-! ### From the rules to every step -/

/-- What makes a property `I` one that every step keeps: the rules lead from `I` to `I`, or raise and leave `R`, which the fault
entry makes `I`; and the other events keep it (70_reset_and_hazards R262). -/
structure StepStable (I R : State → Prop) : Prop where
  rule : ∀ i s, I s → i.wellFormed = true → (ruleOf i s).Ends (fun _ => I) R
  raise : ∀ s op c info, R s → I (s.recordError op c info)
  port : ∀ s port, I s → I { s with host := port }
  source : ∀ s content pos, I s → I (s.changeSource content pos)
  reset : ∀ s, I s → I s.sessionReset

theorem StepStable.exec {I R : State → Prop} (h : StepStable I R) {i : Instr} {s t : State} (hs : I s)
    (he : exec i s = .next t) : I t := by
  rcases exec_cases he with ⟨st, v, rfl⟩ | ⟨-, hl, ⟨a, u, hr, rfl⟩ | ⟨c, info, u, hr, rfl⟩⟩
  · exact h.port _ _ hs
  · have hu := h.rule i s hs hl
    rw [hr] at hu
    exact h.port _ _ hu
  · have hu := h.rule i s hs hl
    rw [hr] at hu
    exact h.port _ _ (h.raise _ _ _ _ hu)

/-- One step keeps the property, whatever the event. -/
theorem StepStable.step {I R : State → Prop} (h : StepStable I R) {s t : State} (hs : I s) (he : step s = .next t) : I t := by
  have hpop : I s.popEvent := h.port _ _ hs
  unfold Machine.step at he
  split at he
  · cases he; exact hs
  · split at he
    · exact h.exec hpop he
    · cases he; exact h.port _ _ hpop
  · cases he; exact h.reset _ hpop
  · cases he; exact h.source _ _ _ hpop

/-! ### The reset state (10_state R44) -/

theorem resetWith_status (p : Params) (env : Env) (host : HostPort) :
    statusReg (State.resetWith p env host) = 0x20#8 := by
  have hfull : flagQFull (State.resetWith p env host) = false := rfl
  have hempty : flagQEmpty (State.resetWith p env host) = true := rfl
  have htree : flagTree (State.resetWith p env host) = false := rfl
  have hdesc : flagDDesc (State.resetWith p env host) = false := rfl
  rw [statusReg, hfull, hempty, htree, hdesc]
  show BitVec.ofBool false ++ BitVec.ofBool false ++ BitVec.ofBool true ++ BitVec.ofBool false ++ BitVec.ofBool false
    ++ BitVec.ofBool false ++ BitVec.ofBool false ++ BitVec.ofBool false = 0x20#8
  decide

theorem resetWith_values (p : Params) (env : Env) (host : HostPort) : ResetValues (State.resetWith p env host) := by
  refine ⟨symGet_replicate _, rfl, rfl, rfl, rfl, rfl, symGet_replicate _, ?_⟩
  exact ⟨rfl, Memory.read_nil, rfl, rfl, rfl, rfl, Memory.read_nil, rfl, rfl, rfl, Memory.read_nil, rfl, rfl, rfl, rfl, rfl, rfl,
    rfl, rfl, rfl, rfl, rfl, resetWith_status p env host⟩

theorem resetWith_memoryInv (p : Params) (env : Env) (host : HostPort) : MemoryInv (State.resetWith p env host) := by
  have empty : ∀ n, Memory.wf [] ∧ ∀ c ∈ ([] : Memory), c.1 < n := fun _ => by simp [Memory.wf]
  exact ⟨empty _, empty _, empty _⟩

theorem resetWith_cursorInv {p : Params} {env : Env} (host : HostPort) (hp : p.Valid) (he : env.spos ≤ env.src.length) :
    CursorInv (State.resetWith p env host) := by
  obtain ⟨hblock, -⟩ := id hp
  have hbits : 0 < p.blockBits := Nat.mul_pos (by decide) hblock
  exact ⟨hp, Nat.zero_le _, Nat.zero_le _, fun _ => hbits, Nat.zero_le _, Nat.zero_le _, fun _ => ⟨rfl, rfl⟩, he⟩

theorem resetWith_queueInv (p : Params) (env : Env) (host : HostPort) : QueueInv (State.resetWith p env host) :=
  have hcap : (State.resetWith p env host).qcap.toNat = 256 := rfl
  ⟨by omega, by omega, Nat.zero_le _, fun _ h => absurd h List.not_mem_nil, List.Pairwise.nil⟩

theorem resetWith_treeInv (p : Params) (env : Env) (host : HostPort) : TreeInv (State.resetWith p env host) :=
  ⟨Nat.zero_le _, .inl rfl⟩

theorem resetWith_restInv (p : Params) (env : Env) (host : HostPort) : RestInv (State.resetWith p env host) :=
  ⟨⟨Nat.zero_le _, fun _ => rfl⟩, fun _ => .inl rfl⟩

theorem resetWith_codeTableInv {p : Params} (env : Env) (host : HostPort) (hp : p.Valid) :
    CodeTableInv (State.resetWith p env host) := by
  refine ⟨hp, fun a => ?_⟩
  have entry : symGet (State.resetWith p env host).ct a = CodeEntry.none := symGet_replicate _ a
  rw [entry]
  exact ⟨fun _ => rfl, fun i _ => BitVec.getLsbD_zero⟩

theorem resetWith_errorInv (p : Params) (env : Env) (host : HostPort) : ErrorInv (State.resetWith p env host) :=
  ⟨fun _ => ⟨rfl, rfl, rfl, rfl⟩, fun h => absurd h Bool.false_ne_true⟩

theorem resetWith_everyInv {p : Params} {env : Env} (host : HostPort) (hp : p.Valid) (he : env.spos ≤ env.src.length) :
    EveryInv (State.resetWith p env host) :=
  ⟨resetWith_memoryInv p env host, resetWith_cursorInv host hp he, resetWith_queueInv p env host,
    resetWith_treeInv p env host, resetWith_restInv p env host, resetWith_codeTableInv env host hp,
    resetWith_errorInv p env host⟩

/-- Settles O20: every field of the reset state is a constant, so each invariant is read off it. -/
theorem resetStateMeetsEveryInvariant : Obligations.ResetStateMeetsEveryInvariant :=
  ⟨fun p _ host hp he => ⟨resetWith_values p _ host, resetWith_everyInv host hp he⟩,
    resetWith_values _ _ _, resetWith_everyInv _ (by decide) (Nat.le_refl 0)⟩

/-! ### `STATUS` (10_state R37) -/

/-- Bit `k` of `STATUS` is the `k`-th flag of R37, and there is no flag from bit 8 on. -/
theorem getLsbD_statusReg (s : State) (k : Nat) :
    (statusReg s).getLsbD k =
      [s.fault, flagTree s, s.ctDone, s.wDone, s.rEos, flagQEmpty s, flagQFull s, flagDDesc s].getD k false := by
  unfold statusReg
  match k with
  | 0 | 1 | 2 | 3 | 4 | 5 | 6 | 7 => simp only [BitVec.getLsbD_append, BitVec.getLsbD_ofBool]; rfl
  | k + 8 => simp

/-- Settles O24: each bit of the word read is its flag. -/
theorem statusGathersTheFlags : Obligations.StatusGathersTheFlags := by
  intro s
  have hexec : exec (.rdreg 0x01#8) s = .next (s.respond .ok ((statusReg s).setWidth 64)) := by
    rw [exec_eq_runCommand]
    exact runCommand_runs (.inr rfl)
  have bit : ∀ k, ((statusReg s).setWidth 64).getLsbD k =
      [s.fault, flagTree s, s.ctDone, s.wDone, s.rEos, flagQEmpty s, flagQFull s, flagDDesc s].getD k false := by
    intro k
    rw [BitVec.getLsbD_setWidth, getLsbD_statusReg]
    by_cases hk : k < 64
    · simp [hk]
    · rw [List.getD_eq_default _ _ (by simp; omega), Bool.and_false]
  refine ⟨_, hexec, bit 0, ?_, bit 2, bit 3, bit 4, ?_, ?_, ?_, fun i hi => ?_⟩
  · rw [bit 1]
    exact bne_iff_ne
  · rw [bit 5]
    exact beq_iff_eq
  · rw [bit 6]
    exact beq_iff_eq
  · rw [bit 7]
    simp [flagDDesc, nil]
  · rw [bit i, List.getD_eq_default _ _ hi]

end Sys2Proof.Machine
end

section
/-! The invariants of the error record, the code table and the rest state: each command's rule keeps them, so every step does. -/

namespace Sys2Proof.Machine

open Sys2Proof

/-! ### The error record (10_state R36, 60_exceptions R216) -/

theorem errorInv_dependsOn : DependsOn [.errors] ErrorInv := by
  intro s t _ _ h hs
  obtain ⟨hfault, hkind, hcause, hinfo, hop⟩ := h .errors (List.mem_singleton.mpr rfl)
  unfold ErrorInv at hs ⊢
  rw [hfault, hkind, hcause, hinfo, hop]
  exact hs

theorem recordError_errorInv (s : State) (op : BitVec 8) (c : Cause) (info : Word64) : ErrorInv (s.recordError op c info) :=
  ⟨fun h => absurd h.symm Bool.false_ne_true, fun _ => ⟨c, rfl, rfl⟩⟩

/-- Only SESSION_RESET writes the record, and its rule never raises; any raise writes it afresh. -/
theorem errorInv_stable : StepStable ErrorInv ErrorInv where
  rule i s hs _ := by
    by_cases hw : .errors ∈ writes i
    · cases i with
      | sessionReset => exact resetWith_errorInv _ _ _
      | _ => simp [writes] at hw
    · exact (errorInv_dependsOn.ruleOf_all hs (by simpa using hw)).ends
  raise s op c info _ := recordError_errorInv s op c info
  port _ _ hs := hs
  source _ _ _ hs := hs
  reset _ _ := resetWith_errorInv _ _ _

/-- Settles O19: the record is written by a raise, with a cause and its kind, and by a reset, with zeros. -/
theorem stepKeepsErrorInv : Obligations.StepKeepsErrorInv := fun _ _ => errorInv_stable.step

/-! ### The code table (10_state R29) -/

theorem codeTableInv_dependsOn : DependsOn [.ct] CodeTableInv := by
  intro s t hp _ h hs
  have hct : ∀ a, symGet t.ct a = symGet s.ct a := h .ct (List.mem_singleton.mpr rfl)
  obtain ⟨hvalid, hentries⟩ := hs
  refine ⟨hp ▸ hvalid, fun a => ?_⟩
  rw [hct a]
  exact hentries a

/-- An entry that is valid, with no bit at or beyond its length, may take any place of the table. -/
theorem codeTableInv_symSet {s : State} {e : CodeEntry} (a : Sym) (hs : CodeTableInv s) (hv : e.valid = true)
    (hbits : ∀ i, e.len.toNat ≤ i → e.bits.getLsbD i = false) : CodeTableInv { s with ct := symSet s.ct a e } := by
  obtain ⟨hvalid, hentries⟩ := hs
  refine ⟨hvalid, fun b => ?_⟩
  show (_ ∧ _)
  rw [symGet_symSet]
  split
  · exact ⟨fun h => absurd (hv.symm.trans h) Bool.noConfusion, hbits⟩
  · exact hentries b

/-- The walk of `CT_GEN` records paths of at most 255 steps, each with no bit beyond its end (43_code_table R155). -/
theorem walk_codeTableInv (room : Nat) : ∀ (n : NodeId) (len : Nat) (bits : BitVec 256) (s : State), len + room ≤ 255 →
    (∀ i, len ≤ i → bits.getLsbD i = false) → CodeTableInv s → (walk room n len bits s).All CodeTableInv := by
  have leaf : ∀ (a : Sym) (len : Nat) (bits : BitVec 256) (s : State), len ≤ 255 →
      (∀ i, len ≤ i → bits.getLsbD i = false) → CodeTableInv s →
      CodeTableInv { s with ct := symSet s.ct a { valid := true, len := BitVec.ofNat 8 len, bits := bits } } := by
    intro a len bits s hlen hbits hs
    have hlen' : (BitVec.ofNat 8 len).toNat = len := by
      rw [BitVec.toNat_ofNat]
      omega
    exact codeTableInv_symSet a hs rfl fun i hi => hbits i (hlen' ▸ hi)
  induction room with
  | zero =>
    intro n len bits s hlen hbits hs
    unfold walk
    split
    · trivial
    · exact leaf _ len bits s hlen hbits hs
    · exact hs
  | succ room ih =>
    intro n len bits s hlen hbits hs
    unfold walk
    split
    · trivial
    · exact leaf _ len bits s (by omega) hbits hs
    · have left : ∀ i, len + 1 ≤ i → bits.getLsbD i = false := fun i hi => hbits i (by omega)
      have right : ∀ i, len + 1 ≤ i → (bits ||| BitVec.twoPow 256 len).getLsbD i = false := by
        intro i hi
        have hne : i ≠ len := by omega
        simp [left i hi, hne.symm]
      exact Res.keeps_bind (ih _ _ _ s (by omega) left hs) fun _ t ht => ih _ _ _ t (by omega) right ht

theorem generateCodes_codeTableInv {s : State} (hs : CodeTableInv s) : (generateCodes s).All CodeTableInv := by
  obtain ⟨hvalid, -⟩ := id hs
  obtain ⟨-, -, hmax, -⟩ := id hvalid
  unfold generateCodes
  split
  · exact hs
  · have clear : CodeTableInv { s with ct := Vector.replicate 256 CodeEntry.none, ctDone := false } := by
      obtain ⟨-, hentries⟩ := resetWith_codeTableInv s.env s.host hvalid
      exact ⟨hvalid, hentries⟩
    exact Res.keeps_bind (walk_codeTableInv _ _ 0 0#256 _ (by simpa using hmax) (fun _ _ => BitVec.getLsbD_zero) clear)
      fun _ t ht => ht

theorem codeTableInv_stable : StepStable CodeTableInv CodeTableInv where
  rule i s hs _ := by
    by_cases hw : .ct ∈ writes i
    · cases i with
      | sessionReset => exact resetWith_codeTableInv _ _ hs.1
      | ctGen => exact (generateCodes_codeTableInv hs).ends
      | _ => simp [writes] at hw
    · exact (codeTableInv_dependsOn.ruleOf_all hs (by simpa using hw)).ends
  raise _ _ _ _ hs := hs
  port _ _ hs := hs
  source _ _ _ hs := hs
  reset _ hs := resetWith_codeTableInv _ _ hs.1

/-- Settles O18: only `CT_GEN` and a reset write the table, and the walk of `CT_GEN` sets no bit beyond the path it is on. -/
theorem stepKeepsCodeTableInv : Obligations.StepKeepsCodeTableInv := fun _ _ => codeTableInv_stable.step

/-! ### The stack and the decode walk (10_state R28, R35) -/

/-- The stack is within its bound, which is all a raise leaves of the rest state. -/
abbrev StackBounded (s : State) : Prop := s.stk.length ≤ stackCap

/-- The stack is empty and no walk is under way, as `State.releaseTree` leaves them. -/
abbrev Released (s : State) : Prop := s.stk = [] ∧ s.dcur = nil

theorem restInv_dependsOn : DependsOn [.root, .stack, .dcur, .errors] RestInv := by
  intro s t _ _ h hs
  have hroot : t.root = s.root := h .root (by decide)
  have hstk : t.stk = s.stk := h .stack (by decide)
  have hdcur : t.dcur = s.dcur := h .dcur (by decide)
  obtain ⟨hfault, -⟩ := h .errors (by decide)
  unfold RestInv StackInv DecoderInv at hs ⊢
  rw [hroot, hstk, hdcur, hfault]
  exact hs

theorem stackInv_dependsOn : DependsOn [.stack, .errors] StackInv := by
  intro s t _ _ h hs
  have hstk : t.stk = s.stk := h .stack (by decide)
  obtain ⟨hfault, -⟩ := h .errors (by decide)
  unfold StackInv at hs ⊢
  rw [hstk, hfault]
  exact hs

theorem released_dependsOn : DependsOn [.stack, .dcur] Released := by
  intro s t _ _ h hs
  have hstk : t.stk = s.stk := h .stack (by decide)
  have hdcur : t.dcur = s.dcur := h .dcur (by decide)
  unfold Released at hs ⊢
  rw [hstk, hdcur]
  exact hs

theorem dcur_nil_dependsOn : DependsOn [.dcur] fun s => s.dcur = nil := by
  intro s t _ _ h hs
  have hdcur : t.dcur = s.dcur := h .dcur (by decide)
  exact hdcur.trans hs

theorem Released.restInv {s : State} (h : Released s) : RestInv s := by
  obtain ⟨hstk, hdcur⟩ := h
  exact ⟨⟨by rw [hstk]; exact Nat.zero_le _, fun _ => hstk⟩, fun _ => .inl hdcur⟩

theorem RestInv.stackBounded {s : State} (h : RestInv s) : StackBounded s := h.1.1

/-- `TB_BUILD` releases the tree and touches neither the stack nor the cursor again (42_tree_builder R146). -/
theorem buildTree_restInv {s : State} (hs : RestInv s) : (buildTree s).All RestInv := by
  unfold buildTree
  split
  · exact hs
  · have start : Released { s.releaseTree with qcap := queueSlots } := ⟨rfl, rfl⟩
    refine Res.all_mono (fun _ h => Released.restInv h) ?_
    exact Res.keeps_bind (released_dependsOn.all_of_kept (insertLeaves_kept _ _) (by decide) start) fun _ t ht =>
      Res.keeps_bind (released_dependsOn.all_of_kept (combineLoop_kept _ t) (by decide) ht) fun _ u hu =>
        Res.keeps_bind (released_dependsOn.all_of_kept (qExtract_kept u) (by decide) hu) fun _ _ hv => hv

theorem push_stackBounded (n : NodeId) (info : Word64) {s : State} (hs : StackBounded s) :
    (push n info s).All StackBounded := by
  rcases push_cases n info s with ⟨-, e⟩ | ⟨hroom, e⟩ <;> rw [e]
  · exact hs
  · exact Nat.lt_of_le_of_ne hs hroom

theorem alloc_stackBounded (nd : Node) {s : State} (hs : StackBounded s) : (alloc nd s).All StackBounded := by
  rcases alloc_cases nd s with ⟨-, e⟩ | ⟨-, e⟩ <;> rw [e] <;> exact hs

theorem leafUnit_stackBounded (i : Nat) {s : State} (hs : StackBounded s) : (leafUnit i s).All StackBounded := by
  unfold leafUnit
  split
  · exact hs
  · split
    · exact hs
    · exact Res.keeps_bind (tbufTake_all _ hs) fun _ t ht =>
        Res.keeps_bind (alloc_stackBounded _ ht) fun n u hu => push_stackBounded n _ hu

theorem internalUnit_stackBounded (i : Nat) {s : State} (hs : StackBounded s) :
    (internalUnit i s).All StackBounded := by
  unfold internalUnit
  split
  · rename_i r l rest hstk
    have popped : StackBounded { s with stk := rest } := by
      have : (r :: l :: rest).length ≤ stackCap := hstk ▸ hs
      simp only [List.length_cons] at this
      show rest.length ≤ stackCap
      omega
    exact Res.keeps_bind (alloc_stackBounded _ popped) fun n t ht => push_stackBounded n _ ht
  · exact hs

theorem rebuildLoop_stackBounded (f : Nat) : ∀ i s, StackBounded s → (rebuildLoop f i s).All StackBounded := by
  induction f with
  | zero => exact fun _ _ hs => hs
  | succ f ih =>
    intro i s hs
    unfold rebuildLoop
    split
    · exact hs
    · refine Res.keeps_bind (tbufTake_all i hs) fun b t ht => ?_
      split
      · exact Res.keeps_bind (leafUnit_stackBounded i ht) fun _ u hu => ih _ u hu
      · split
        · exact Res.keeps_bind (internalUnit_stackBounded i ht) fun _ u hu => ih _ u hu
        · exact ht

/-- `TC_REBUILD` ends well with the one entry of the stack taken off, and raises within the stack's bound
(44_tree_codec R166). -/
theorem rebuildTree_rest (s : State) : (rebuildTree s).Ends (fun _ => RestInv) StackBounded := by
  have loop := Res.All.and (rebuildLoop_stackBounded s.tlen.toNat 0 s.releaseTree (Nat.zero_le _))
    (dcur_nil_dependsOn.all_of_kept (rebuildLoop_kept s.tlen.toNat 0 s.releaseTree) (by decide) rfl)
  refine Res.Ends.bind (loop.ends.weaken fun _ h => h.1) fun _ t ⟨hstk, hdcur⟩ => ?_
  split
  · exact Released.restInv ⟨rfl, hdcur⟩
  · exact hstk

/-- A symbol reached puts the walk at the root (46_framing R199). -/
theorem emitSym_atRoot (a : Sym) (s : State) : (emitSym a s).Ends (fun _ t => t.dcur = t.root) fun _ => True :=
  Res.Ends.bind ((sinkWrite_kept [a] s).ends.weaken fun _ _ => trivial) fun _ _ _ => rfl

theorem decodeWalk_atRoot (f : Nat) : ∀ s, (decodeWalk f s).Ends (fun _ t => t.dcur = t.root) fun _ => True := by
  induction f with
  | zero => exact fun _ => trivial
  | succ f ih =>
    intro s
    refine Res.Ends.bind ((readBit_kept s).ends.weaken fun _ _ => trivial) fun b t _ => ?_
    cases b with
    | none => trivial
    | some b =>
      dsimp only
      split
      · trivial
      · split
        · trivial
        · exact emitSym_atRoot _ _
        · exact ih _

theorem decodeOne_atRoot (s : State) : (decodeOne s).Ends (fun _ t => t.dcur = t.root) fun _ => True := by
  unfold decodeOne
  split
  · trivial
  · trivial
  · exact decodeWalk_atRoot _ _

theorem decodeLoop_decoderInv (f : Nat) :
    ∀ n s, DecoderInv s → (decodeLoop f n s).Ends (fun _ => DecoderInv) fun _ => True := by
  induction f with
  | zero =>
    intro n s hs
    unfold decodeLoop
    split
    · trivial
    · exact hs
  | succ f ih =>
    intro n s hs
    unfold decodeLoop
    split
    · exact Res.Ends.bind (decodeOne_atRoot s) fun _ t ht => ih _ t fun _ => .inr ht
    · exact hs

/-- A decoding piece that ends AT_ROOT leaves the block at rest, since it does not touch the stack. -/
theorem decoder_rest {α : Type} {s : State} {r : Res α} (hs : RestInv s)
    (hkept : r.All (Kept [.rbuf, .reader, .dcur, .emitted, .source, .sink] s))
    (hroot : r.Ends (fun _ => DecoderInv) fun _ => True) : r.Ends (fun _ => RestInv) StackBounded :=
  (hroot.and_all (stackInv_dependsOn.all_of_kept hkept (by decide) hs.1)).mono (fun _ _ h => ⟨h.2, h.1⟩)
    fun _ h => h.2.1

theorem decSym_rest {s : State} (hs : RestInv s) : (ruleOf .decSym s).Ends (fun _ => RestInv) StackBounded := by
  simp only [ruleOf]
  split
  · exact hs
  · have atRoot := (decodeOne_atRoot s).mono (Q' := fun _ => DecoderInv) (fun _ _ h _ => .inr h) fun _ h => h
    exact Res.Ends.bind (decoder_rest hs (decodeOne_kept s) atRoot) fun _ _ ht => ht

theorem decodeBody_rest {s : State} (hs : RestInv s) : (decodeBody s).Ends (fun _ => RestInv) StackBounded := by
  unfold decodeBody
  split
  · exact hs
  · exact Res.Ends.bind (decoder_rest hs (decodeLoop_kept _ _ s) (decodeLoop_decoderInv _ _ s hs.2)) fun _ _ ht => ht

theorem restInv_stable : StepStable RestInv StackBounded where
  rule i s hs _ := by
    by_cases hw : ∀ sp ∈ [Space.root, .stack, .dcur, .errors], sp ∉ writes i
    · exact (restInv_dependsOn.ruleOf_all hs hw).ends.weaken fun _ h => h.stackBounded
    · cases i with
      | sessionReset => exact resetWith_restInv _ _ _
      | tbBuild => exact (buildTree_restInv hs).ends.weaken fun _ h => h.stackBounded
      | treeFree => exact Released.restInv ⟨rfl, rfl⟩
      | tcRebuild => exact rebuildTree_rest s
      | decSym => exact decSym_rest hs
      | decBody => exact decodeBody_rest hs
      | _ => simp [writes] at hw
  raise _ _ _ _ hs := ⟨⟨hs, fun h => absurd h.symm Bool.false_ne_true⟩, fun h => absurd h.symm Bool.false_ne_true⟩
  port _ _ hs := hs
  source _ _ _ hs := hs
  reset _ _ := resetWith_restInv _ _ _

/-- Settles O17: the rules that move the stack or the walk end with the stack empty and the walk AT_ROOT, or raise. -/
theorem stepKeepsRestInv : Obligations.StepKeepsRestInv := fun _ _ => restInv_stable.step

end Sys2Proof.Machine
end

section
/-! The loops of the stream commands keep whatever the operation on one read, bit or symbol keeps; and the invariant of `TLEN`,
the cursors and the source, part by part. -/

namespace Sys2Proof.Machine

open Sys2Proof

/-! ### The loops over the streams -/

section Loops

variable {I R : State → Prop}

theorem srcReadLoop_all (hread : ∀ n s, I s → (srcRead n s).All I) (f : Nat) :
    ∀ n s, I s → (srcReadLoop f n s).All I := by
  induction f with
  | zero => exact fun _ _ hs => hs
  | succ f ih =>
    intro n s hs
    unfold srcReadLoop
    split
    · exact hs
    · refine Res.keeps_bind (hread n s hs) fun d t ht => ?_
      split
      · exact ht
      · exact Res.keeps_bind (ih _ t ht) fun _ _ hu => hu

theorem scanLoop_all (hread : ∀ n s, I s → (srcRead n s).All I) (hcount : ∀ bs s, I s → (countBytes bs s).All I) (f : Nat) :
    ∀ n s, I s → (scanLoop f n s).All I := by
  induction f with
  | zero => exact fun _ _ _ => trivial
  | succ f ih =>
    intro n s hs
    refine Res.keeps_bind (hread _ s hs) fun d t ht => ?_
    split
    · exact ht
    · exact Res.keeps_bind (hcount d t ht) fun _ u hu => ih _ u hu

theorem writeBits_ends (hbit : ∀ b s, I s → (writeBit b s).Ends (fun _ => I) R) (bs : List Bool) :
    ∀ s, I s → (writeBits bs s).Ends (fun _ => I) R := by
  induction bs with
  | nil => exact fun _ hs => hs
  | cons b bs ih => exact fun s hs => Res.Ends.bind (hbit b s hs) fun _ t ht => ih t ht

theorem writeSym_ends (hbit : ∀ b s, I s → (writeBit b s).Ends (fun _ => I) R) (a : Sym) {s : State} (hs : I s) :
    (writeSym a s).Ends (fun _ => I) R := by
  unfold writeSym
  split
  · exact hs
  · split
    · exact hs
    · exact Res.Ends.bind (writeBits_ends hbit _ s hs) fun _ _ ht => ht

theorem encodeBytes_ends (hR : ∀ s, I s → R s) (hbit : ∀ b s, I s → (writeBit b s).Ends (fun _ => I) R) (bs : List Byte) :
    ∀ s, I s → (encodeBytes bs s).Ends (fun _ => I) R := by
  induction bs with
  | nil => exact fun _ hs => hs
  | cons b bs ih =>
    intro s hs
    unfold encodeBytes
    split
    · exact hR s hs
    · exact Res.Ends.bind (writeBits_ends hbit _ s hs) fun _ t ht => ih t ht

theorem encodeLoop_ends (hR : ∀ s, I s → R s) (hread : ∀ n s, I s → (srcRead n s).All I)
    (hbit : ∀ b s, I s → (writeBit b s).Ends (fun _ => I) R) (f : Nat) :
    ∀ n s, I s → (encodeLoop f n s).Ends (fun _ => I) R := by
  induction f with
  | zero => exact fun _ _ _ => trivial
  | succ f ih =>
    intro n s hs
    refine Res.Ends.bind ((hread _ s hs).ends.weaken hR) fun d t ht => ?_
    split
    · exact ht
    · exact Res.Ends.bind (encodeBytes_ends hR hbit d t ht) fun _ u hu => ih _ u hu

theorem encodeBody_ends (hR : ∀ s, I s → R s) (hread : ∀ n s, I s → (srcRead n s).All I)
    (hbit : ∀ b s, I s → (writeBit b s).Ends (fun _ => I) R) {s : State} (hs : I s) :
    (encodeBody s).Ends (fun _ => I) R := by
  unfold encodeBody
  split
  · exact hs
  · exact Res.Ends.bind (encodeLoop_ends hR hread hbit _ _ s hs) fun _ _ ht => ht

theorem decodeWalk_all (hread : ∀ s, I s → (readBit s).All I) (hmove : ∀ s n, I s → I { s with dcur := n })
    (hemit : ∀ a s, I s → (emitSym a s).All I) (f : Nat) : ∀ s, I s → (decodeWalk f s).All I := by
  induction f with
  | zero => exact fun _ _ => trivial
  | succ f ih =>
    intro s hs
    refine Res.keeps_bind (hread s hs) fun b t ht => ?_
    cases b with
    | none => exact ht
    | some b =>
      dsimp only
      split
      · trivial
      · split
        · trivial
        · exact hemit _ _ (hmove t _ ht)
        · exact ih _ (hmove t _ ht)

theorem decodeOne_all (hread : ∀ s, I s → (readBit s).All I) (hmove : ∀ s n, I s → I { s with dcur := n })
    (hemit : ∀ a s, I s → (emitSym a s).All I) {s : State} (hs : I s) : (decodeOne s).All I := by
  unfold decodeOne
  split
  · trivial
  · exact hs
  · exact decodeWalk_all hread hmove hemit _ _ (hmove s _ hs)

theorem decSym_all (hread : ∀ s, I s → (readBit s).All I) (hmove : ∀ s n, I s → I { s with dcur := n })
    (hemit : ∀ a s, I s → (emitSym a s).All I) {s : State} (hs : I s) : (ruleOf .decSym s).All I := by
  simp only [ruleOf]
  split
  · exact hs
  · exact Res.keeps_bind (decodeOne_all hread hmove hemit hs) fun _ _ ht => ht

theorem decodeLoop_all (hread : ∀ s, I s → (readBit s).All I) (hmove : ∀ s n, I s → I { s with dcur := n })
    (hemit : ∀ a s, I s → (emitSym a s).All I) (f : Nat) : ∀ n s, I s → (decodeLoop f n s).All I := by
  induction f with
  | zero =>
    intro n s hs
    unfold decodeLoop
    split
    · trivial
    · exact hs
  | succ f ih =>
    intro n s hs
    unfold decodeLoop
    split
    · exact Res.keeps_bind (decodeOne_all hread hmove hemit hs) fun _ t ht => ih _ t ht
    · exact hs

theorem decodeBody_all (hread : ∀ s, I s → (readBit s).All I) (hmove : ∀ s n, I s → I { s with dcur := n })
    (hemit : ∀ a s, I s → (emitSym a s).All I) {s : State} (hs : I s) : (decodeBody s).All I := by
  unfold decodeBody
  split
  · exact hs
  · exact Res.keeps_bind (decodeLoop_all hread hmove hemit _ _ s hs) fun _ _ ht => ht

theorem rdBit_all (hread : ∀ s, I s → (readBit s).All I) {s : State} (hs : I s) : (ruleOf .rdBit s).All I := by
  refine Res.keeps_bind (hread s hs) fun b t ht => ?_
  cases b <;> exact ht

end Loops

/-- A read delivers no more bytes than it asks for (20_memory R63). -/
theorem srcRead_length (n : Nat) (s : State) : (srcRead n s).Ends (fun d _ => d.length ≤ n) fun _ => True := by
  have cut : ∀ (k : Nat) (l : List Byte), (l.take (min k n)).length ≤ n := fun k l => by
    rw [List.length_take]
    omega
  unfold srcRead srcDeliver
  split
  · exact cut _ _
  · exact cut _ _
  · trivial

theorem srcReadLoop_length (f : Nat) : ∀ n s, (srcReadLoop f n s).Ends (fun d _ => d.length ≤ n) fun _ => True := by
  induction f with
  | zero => exact fun _ _ => Nat.zero_le _
  | succ f ih =>
    intro n s
    unfold srcReadLoop
    split
    · exact Nat.zero_le _
    · refine Res.Ends.bind (srcRead_length n s) fun d t hd => ?_
      split
      · exact Nat.zero_le _
      · refine Res.Ends.bind (ih (n - d.length) t) fun out u hout => ?_
        show (d ++ out).length ≤ n
        rw [List.length_append]
        omega

theorem srcReadExact_length (n : Nat) (s : State) :
    (srcReadExact n s).Ends (fun d _ => d.length ≤ n) fun _ => True := srcReadLoop_length n n s

/-! ### The source's position (20_memory R62) -/

theorem srcRead_sourceInv (n : Nat) (s : State) (hs : SourceInv s) : (srcRead n s).All SourceInv := by
  have advance : ∀ k, s.env.spos + ((s.env.src.drop s.env.spos).take k).length ≤ s.env.src.length := fun k => by
    simp only [List.length_take, List.length_drop]
    unfold SourceInv at hs
    omega
  unfold srcRead srcDeliver
  split
  · exact advance _
  · exact advance _
  · exact Nat.min_le_right _ _

theorem srcRewind_sourceInv (s : State) : (srcRewind s).All SourceInv := by
  unfold srcRewind
  split
  · exact Nat.zero_le _
  · exact Nat.zero_le _
  · exact Nat.min_le_right _ _

theorem sourceInv_dependsOn : DependsOn [.source] SourceInv := by
  intro s t _ hsrc h hs
  obtain ⟨hspos, -⟩ := h .source (by decide)
  unfold SourceInv at hs ⊢
  rw [hsrc, hspos]
  exact hs

theorem srcReadExact_sourceInv (n : Nat) (s : State) (hs : SourceInv s) : (srcReadExact n s).All SourceInv :=
  srcReadLoop_all srcRead_sourceInv n n s hs

theorem readBit_sourceInv (s : State) (hs : SourceInv s) : (readBit s).All SourceInv := by
  unfold readBit
  split
  · exact hs
  · split
    · refine Res.keeps_bind (srcRead_sourceInv _ s hs) fun d t ht => ?_
      dsimp only
      split
      · exact ht
      · exact sourceInv_dependsOn.all_of_kept (takeBit_kept _) (by decide) ht
    · exact sourceInv_dependsOn.all_of_kept (takeBit_kept s) (by decide) hs

theorem writeBit_sourceInv (b : Bool) (s : State) (hs : SourceInv s) : (writeBit b s).All SourceInv :=
  sourceInv_dependsOn.all_of_kept (writeBit_kept b s) (by decide) hs

theorem emitSym_sourceInv (a : Sym) (s : State) (hs : SourceInv s) : (emitSym a s).All SourceInv :=
  sourceInv_dependsOn.all_of_kept (emitSym_kept a s) (by decide) hs

theorem loadTree_sourceInv {s : State} (hs : SourceInv s) : (loadTree s).All SourceInv := by
  unfold loadTree
  dsimp only
  split
  · exact hs
  · refine Res.keeps_bind (srcReadExact_sourceInv _ s hs) fun d t ht => ?_
    split <;> exact ht

theorem getHeader_sourceInv {s : State} (hs : SourceInv s) : (getHeader s).All SourceInv := by
  refine Res.keeps_bind (srcReadExact_sourceInv 16 s hs) fun d t ht => ?_
  split
  · exact ht
  · split <;> exact ht

theorem sourceInv_stable : StepStable SourceInv SourceInv where
  rule i s hs _ := by
    refine Res.All.ends ?_
    by_cases hw : .source ∈ writes i
    · cases i with
      | ftScan =>
        have count : ∀ bs s, SourceInv s → (countBytes bs s).All SourceInv := fun bs s hs =>
          sourceInv_dependsOn.all_of_kept (countBytes_kept bs s) (by decide) hs
        exact Res.keeps_bind (scanLoop_all srcRead_sourceInv count _ _ s hs) fun _ _ ht => ht
      | tcLoad => exact loadTree_sourceInv hs
      | rdBit => exact rdBit_all readBit_sourceInv hs
      | hdrGet => exact getHeader_sourceInv hs
      | srcRewind => exact Res.keeps_bind (srcRewind_sourceInv s) fun _ _ ht => ht
      | encBody =>
        exact (encodeBody_ends (fun _ h => h) srcRead_sourceInv (fun b s hs => (writeBit_sourceInv b s hs).ends) hs).all
      | decSym => exact decSym_all readBit_sourceInv (fun _ _ h => h) emitSym_sourceInv hs
      | decBody => exact decodeBody_all readBit_sourceInv (fun _ _ h => h) emitSym_sourceInv hs
      | _ => simp [writes] at hw
    · exact sourceInv_dependsOn.ruleOf_all hs (by simpa using hw)
  raise _ _ _ _ hs := hs
  port _ _ hs := hs
  source _ _ _ _ := Nat.min_le_right _ _
  reset _ hs := hs

/-! ### `TLEN` (10_state R31) -/

/-- `TLEN` is at most the size of `TBUF`. -/
abbrev TlenInv (s : State) : Prop := s.tlen.toNat ≤ tbufBytes

theorem tlenInv_dependsOn : DependsOn [.tlen] TlenInv := by
  intro s t _ _ h hs
  have htlen : t.tlen = s.tlen := h .tlen (by decide)
  unfold TlenInv at hs ⊢
  rw [htlen]
  exact hs

/-- A byte is appended below the end of `TBUF` only, so `TLEN` stays in range. -/
theorem tbufAppend_tlenInv (b : Byte) (s : State) : (tbufAppend b s).All TlenInv := by
  by_cases h : s.tlen.toNat < tbufBytes
  · rw [tbufAppend_ok b h]
    show (s.tlen + 1#10).toNat ≤ 767
    have h767 : s.tlen.toNat < 767 := h
    rw [BitVec.toNat_add, BitVec.toNat_ofNat]
    omega
  · simp [tbufAppend, tbufPut, h]

theorem post_tlenInv (depth : Nat) : ∀ n s, (post depth n s).All TlenInv := by
  induction depth with
  | zero =>
    intro n s
    unfold post
    split
    · trivial
    · exact Res.keeps_bind (tbufAppend_tlenInv _ s) fun _ t _ => tbufAppend_tlenInv _ t
    · trivial
  | succ depth ih =>
    intro n s
    unfold post
    split
    · trivial
    · exact Res.keeps_bind (tbufAppend_tlenInv _ s) fun _ t _ => tbufAppend_tlenInv _ t
    · exact Res.keeps_bind (ih _ s) fun _ t _ => Res.keeps_bind (ih _ t) fun _ u _ => tbufAppend_tlenInv _ u

theorem dumpTree_tlenInv {s : State} (hs : TlenInv s) : (dumpTree s).All TlenInv := by
  unfold dumpTree
  split
  · exact hs
  · exact Res.keeps_bind (post_tlenInv _ _ _) fun _ _ ht => ht

theorem loadTree_tlenInv {s : State} (hs : TlenInv s) : (loadTree s).All TlenInv := by
  unfold loadTree
  dsimp only
  split
  · exact hs
  · rename_i hsize
    have loaded : (BitVec.ofNat 10 s.hTreeSize.toNat).toNat ≤ tbufBytes := by
      rw [BitVec.toNat_ofNat]
      exact (Nat.mod_le _ _).trans (Nat.le_of_not_lt hsize)
    refine Res.keeps_bind (tlenInv_dependsOn.all_of_kept (srcReadExact_kept _ s) (by decide) hs) fun d t ht => ?_
    split
    · exact ht
    · exact loaded

theorem writeReg_tlenInv {s : State} {r : Reg} {v : Word64} (hv : regAccepts r v = true) (hs : TlenInv s) :
    TlenInv (writeReg s r v) := by
  cases r with
  | tlen =>
    have hv : v.toNat ≤ tbufBytes := by simpa [regAccepts] using hv
    show (v.setWidth 10).toNat ≤ tbufBytes
    rw [BitVec.toNat_setWidth]
    exact (Nat.mod_le _ _).trans hv
  | _ => exact hs

theorem wrreg_tlenInv {a : BitVec 8} {v : Word64} {s : State} (hv : wrregLegal a v = true) (hs : TlenInv s) :
    (ruleOf (.wrreg a v) s).All TlenInv := by
  simp only [ruleOf]
  unfold wrregLegal at hv
  split
  · rename_i r hr
    rw [hr] at hv
    exact writeReg_tlenInv hv hs
  · exact hs

theorem tlenInv_stable : StepStable TlenInv TlenInv where
  rule i s hs hl := by
    refine Res.All.ends ?_
    by_cases hw : .tlen ∈ writes i
    · cases i with
      | sessionReset => exact Nat.zero_le _
      | wrreg a v => exact wrreg_tlenInv hl hs
      | tcDump => exact dumpTree_tlenInv hs
      | tcLoad => exact loadTree_tlenInv hs
      | _ => simp [writes] at hw
    · exact tlenInv_dependsOn.ruleOf_all hs (by simpa using hw)
  raise _ _ _ _ hs := hs
  port _ _ hs := hs
  source _ _ _ hs := hs
  reset _ _ := Nat.zero_le _

/-! ### The writer's cursor (10_state R33) -/

/-- The parameters are legal and `W_CURSOR` is at most `BLOCK_BITS`, which is all a failed flush leaves. -/
abbrev WriterBounded (s : State) : Prop := s.params.Valid ∧ s.wCursor ≤ s.params.blockBits

/-- The parameters are legal and `W_CURSOR` is below `BLOCK_BITS`, or at it in FAULT (90_conflicts C7). -/
abbrev WriterInv (s : State) : Prop := WriterBounded s ∧ (s.fault = false → s.wCursor < s.params.blockBits)

theorem writerBounded_dependsOn : DependsOn [.wCursor] WriterBounded := by
  intro s t hp _ h hs
  have hcursor : t.wCursor = s.wCursor := h .wCursor (by decide)
  unfold WriterBounded at hs ⊢
  rw [hp, hcursor]
  exact hs

theorem writerInv_dependsOn : DependsOn [.wCursor, .errors] WriterInv := by
  intro s t hp _ h hs
  have hcursor : t.wCursor = s.wCursor := h .wCursor (by decide)
  obtain ⟨hfault, -⟩ := h .errors (by decide)
  unfold WriterInv WriterBounded at hs ⊢
  rw [hp, hcursor, hfault]
  exact hs

theorem blockBits_pos {p : Params} (h : p.Valid) : 0 < p.blockBits := Nat.mul_pos (by decide) h.1

/-- At the start of a block the cursor is below its end. -/
theorem writerInv_of_zero {s : State} (hp : s.params.Valid) (hc : s.wCursor = 0) : WriterInv s := by
  have := blockBits_pos hp
  exact ⟨⟨hp, by omega⟩, fun _ => by omega⟩

theorem flushFull_writerInv {s : State} (hs : WriterBounded s) : (flushFull s).Ends (fun _ => WriterInv) WriterBounded := by
  unfold flushFull
  split
  · have written := writerBounded_dependsOn.all_of_kept (sinkWrite_kept (s.wbuf.slice 0 s.params.blockBytes) s) (by decide) hs
    exact Res.Ends.bind written.ends fun _ t ht => writerInv_of_zero ht.1 rfl
  · rename_i hne
    exact ⟨hs, fun _ => Nat.lt_of_le_of_ne hs.2 hne⟩

theorem writeBit_writerInv (b : Bool) (s : State) (hs : WriterInv s) :
    (writeBit b s).Ends (fun _ => WriterInv) WriterBounded := by
  unfold writeBit
  dsimp only
  split
  · rename_i hi
    have hb : s.params.blockBits = 8 * s.params.blockBytes := rfl
    have inside : s.wCursor + 1 ≤ s.params.blockBits := by omega
    exact flushFull_writerInv ⟨hs.1.1, inside⟩
  · trivial

theorem finalize_writerInv {s : State} (hs : WriterInv s) : (finalize s).Ends (fun _ => WriterInv) WriterBounded := by
  have padded : WriterBounded (padTrailing s) := hs.1
  unfold finalize
  dsimp only
  split
  · exact hs
  · split
    · trivial
    · split
      · exact writerInv_of_zero (s := { padTrailing s with wCursor := 0 }) hs.1.1 rfl
      · exact Res.Ends.bind (writerBounded_dependsOn.all_of_kept (sinkWrite_kept _ _) (by decide) padded).ends
          fun _ t ht => writerInv_of_zero (s := { t with wCursor := 0 }) ht.1 rfl

theorem writerInv_stable : StepStable WriterInv WriterBounded where
  rule i s hs _ := by
    by_cases hw : ∀ sp ∈ [Space.wCursor, .errors], sp ∉ writes i
    · exact (writerInv_dependsOn.ruleOf_all hs hw).ends.weaken fun _ h => h.1
    · cases i with
      | sessionReset => exact writerInv_of_zero (s := s.sessionReset) hs.1.1 rfl
      | wrSym a => exact writeSym_ends writeBit_writerInv a hs
      | wrFinal => exact finalize_writerInv hs
      | encBody =>
        exact encodeBody_ends (fun _ h => h.1)
          (fun n s hs => writerInv_dependsOn.all_of_kept (srcRead_kept n s) (by decide) hs) writeBit_writerInv hs
      | _ => simp [writes] at hw
  raise _ _ _ _ hs := ⟨hs, fun h => absurd h.symm Bool.false_ne_true⟩
  port _ _ hs := hs
  source _ _ _ hs := hs
  reset s hs := writerInv_of_zero (s := s.sessionReset) hs.1.1 rfl

/-! ### The reader's cursor (10_state R34) -/

/-- `R_LEN` is at most `BLOCK_BYTES` and `R_CURSOR` at most `8*R_LEN`; both are 0 at end-of-stream. -/
abbrev ReaderInv (s : State) : Prop :=
  s.rLen ≤ s.params.blockBytes ∧ s.rCursor ≤ 8 * s.rLen ∧ (s.rEos = true → s.rLen = 0 ∧ s.rCursor = 0)

theorem readerInv_dependsOn : DependsOn [.reader] ReaderInv := by
  intro s t hp _ h hs
  obtain ⟨hlen, hcursor, -, heos⟩ := h .reader (by decide)
  unfold ReaderInv at hs ⊢
  rw [hp, hlen, hcursor, heos]
  exact hs

theorem takeBit_readerInv {s : State} (hlen : s.rLen ≤ s.params.blockBytes) (hcursor : s.rCursor < 8 * s.rLen)
    (heos : s.rEos = false) : (takeBit s).All ReaderInv := by
  unfold takeBit
  dsimp only
  split
  · exact ⟨hlen, hcursor, fun h => absurd (heos.symm.trans h) Bool.false_ne_true⟩
  · trivial

theorem readBit_readerInv (s : State) (hs : ReaderInv s) : (readBit s).All ReaderInv := by
  obtain ⟨hlen, hcursor, -⟩ := id hs
  unfold readBit
  split
  · exact hs
  · rename_i heos
    have heos : s.rEos = false := by simpa using heos
    split
    · refine Res.Ends.all (Res.Ends.bind (((srcRead_length _ s).and_all (srcRead_kept _ s)).weaken
        fun t ⟨_, h⟩ => readerInv_dependsOn.of_kept h (by decide) hs) fun d t ⟨hd, hkept⟩ => ?_)
      obtain ⟨hp, -, -, hunchanged⟩ := hkept
      obtain ⟨-, -, -, heos'⟩ := hunchanged .reader (by decide)
      rw [← hp] at hd
      dsimp only
      split
      · rename_i hnil
        rw [hnil]
        exact ⟨Nat.zero_le _, Nat.zero_le _, fun _ => ⟨rfl, rfl⟩⟩
      · rename_i hne
        have hpos : 0 < d.length := List.length_pos_iff.mpr hne
        exact (takeBit_readerInv (s := { t with rbuf := t.rbuf.writeBytes 0 d, rLen := d.length, rCursor := 0 }) hd
          (Nat.mul_pos (by decide) hpos) (heos'.trans heos)).ends
    · rename_i hne
      exact takeBit_readerInv hlen (Nat.lt_of_le_of_ne hcursor hne) heos

theorem readerInv_stable : StepStable ReaderInv ReaderInv where
  rule i s hs _ := by
    have emit : ∀ a s, ReaderInv s → (emitSym a s).All ReaderInv := fun a s hs =>
      readerInv_dependsOn.all_of_kept (emitSym_kept a s) (by decide) hs
    refine Res.All.ends ?_
    by_cases hw : .reader ∈ writes i
    · cases i with
      | sessionReset => exact ⟨Nat.zero_le _, Nat.zero_le _, fun _ => ⟨rfl, rfl⟩⟩
      | rdBit => exact rdBit_all readBit_readerInv hs
      | decSym => exact decSym_all readBit_readerInv (fun _ _ h => h) emit hs
      | decBody => exact decodeBody_all readBit_readerInv (fun _ _ h => h) emit hs
      | _ => simp [writes] at hw
    · exact readerInv_dependsOn.ruleOf_all hs (by simpa using hw)
  raise _ _ _ _ hs := hs
  port _ _ hs := hs
  source _ _ _ hs := hs
  reset _ _ := ⟨Nat.zero_le _, Nat.zero_le _, fun _ => ⟨rfl, rfl⟩⟩

/-! ### The cursors together -/

theorem cursorInv_iff (s : State) : CursorInv s ↔ TlenInv s ∧ WriterInv s ∧ ReaderInv s ∧ SourceInv s := by
  constructor
  · rintro ⟨hp, htlen, hw, hrun, hlen, hcursor, heos, hsrc⟩
    exact ⟨htlen, ⟨⟨hp, hw⟩, hrun⟩, ⟨hlen, hcursor, heos⟩, hsrc⟩
  · rintro ⟨htlen, ⟨⟨hp, hw⟩, hrun⟩, ⟨hlen, hcursor, heos⟩, hsrc⟩
    exact ⟨hp, htlen, hw, hrun, hlen, hcursor, heos, hsrc⟩

/-- Settles O14: `TLEN`, the writer, the reader and the source are each kept in range on their own. -/
theorem stepKeepsCursorInv : Obligations.StepKeepsCursorInv := by
  intro s t hs h
  rw [cursorInv_iff] at hs ⊢
  obtain ⟨htlen, hwriter, hreader, hsource⟩ := hs
  exact ⟨tlenInv_stable.step htlen h, writerInv_stable.step hwriter h, readerInv_stable.step hreader h,
    sourceInv_stable.step hsource h⟩

end Sys2Proof.Machine
end

section
/-! The invariant of the three byte arrays: every write keeps the canonical form and stays inside the array, and every other
operation leaves the arrays as they are. -/

namespace Sys2Proof.Machine

open Sys2Proof

/-! ### One byte array -/

/-- The array is canonical and lists no index at or beyond `n`. -/
abbrev Memory.Fits (m : Memory) (n : Nat) : Prop := m.wf ∧ ∀ c ∈ m, c.1 < n

theorem Memory.Fits.write {m : Memory} {n a : Nat} (h : m.Fits n) (v : Byte) (ha : a < n) : (m.write a v).Fits n := by
  obtain ⟨hwf, hlt⟩ := h
  refine ⟨Memory.write_wf a v hwf, fun c hc => ?_⟩
  obtain hc | ⟨rfl, -⟩ := Memory.write_mem hc
  · exact hlt c hc
  · exact ha

theorem Memory.Fits.writeBytes {m : Memory} {n : Nat} {bs : List Byte} (h : m.Fits n) (hlen : bs.length ≤ n) :
    (m.writeBytes 0 bs).Fits n :=
  ⟨Memory.writeBytes_wf bs 0 h.1, Memory.writeBytes_index h.2 (by omega)⟩

/-! ### Operations that leave the arrays as they are -/

theorem alloc_memoryInv (nd : Node) {s : State} (hs : MemoryInv s) : (alloc nd s).All MemoryInv := by
  unfold alloc
  split <;> exact hs

theorem push_memoryInv (n : NodeId) (info : Word64) {s : State} (hs : MemoryInv s) : (push n info s).All MemoryInv := by
  unfold push
  split <;> exact hs

theorem qInsert_memoryInv (n : NodeId) {s : State} (hs : MemoryInv s) : (qInsert n s).All MemoryInv := by
  unfold qInsert
  split
  · exact hs
  · split
    · trivial
    · split
      · trivial
      · exact hs

theorem qExtract_memoryInv {s : State} (hs : MemoryInv s) : (qExtract s).All MemoryInv := by
  unfold qExtract
  split
  · trivial
  · exact hs

theorem srcRead_memoryInv (n : Nat) (s : State) (hs : MemoryInv s) : (srcRead n s).All MemoryInv := by
  unfold srcRead
  split <;> exact hs

theorem srcReadExact_memoryInv (n : Nat) {s : State} (hs : MemoryInv s) : (srcReadExact n s).All MemoryInv :=
  srcReadLoop_all srcRead_memoryInv n n s hs

theorem srcRewind_memoryInv {s : State} (hs : MemoryInv s) : (srcRewind s).All MemoryInv := by
  unfold srcRewind
  split <;> exact hs

theorem sinkWrite_memoryInv (bytes : List Byte) {s : State} (hs : MemoryInv s) : (sinkWrite bytes s).All MemoryInv := by
  unfold sinkWrite
  split <;> exact hs

theorem countByte_memoryInv (b : Byte) {s : State} (hs : MemoryInv s) : (countByte b s).All MemoryInv := by
  unfold countByte
  split <;> exact hs

theorem countBytes_memoryInv (bs : List Byte) : ∀ s, MemoryInv s → (countBytes bs s).All MemoryInv := by
  induction bs with
  | nil => exact fun _ hs => hs
  | cons b bs ih => exact fun s hs => Res.keeps_bind (countByte_memoryInv b hs) fun _ t ht => ih t ht

theorem forceCount_memoryInv (a : Sym) {s : State} (hs : MemoryInv s) : MemoryInv (forceCount a s) := by
  unfold forceCount
  split <;> exact hs

theorem padCounts_memoryInv {s : State} (hs : MemoryInv s) : MemoryInv (padCounts s) := by
  unfold padCounts
  split
  · exact forceCount_memoryInv _ (forceCount_memoryInv _ hs)
  · exact hs

theorem insertLeaves_memoryInv (l : List Sym) : ∀ s, MemoryInv s → (insertLeaves l s).All MemoryInv := by
  induction l with
  | nil => exact fun _ hs => hs
  | cons a l ih =>
    intro s hs
    unfold insertLeaves
    split
    · exact ih s hs
    · exact Res.keeps_bind (alloc_memoryInv _ hs) fun n t ht =>
        Res.keeps_bind (qInsert_memoryInv n ht) fun _ u hu => ih u hu

theorem combineStep_memoryInv {s : State} (hs : MemoryInv s) : (combineStep s).All MemoryInv := by
  refine Res.keeps_bind (qExtract_memoryInv hs) fun a t ht => Res.keeps_bind (qExtract_memoryInv ht) fun b u hu => ?_
  split
  · split
    · exact hu
    · exact Res.keeps_bind (alloc_memoryInv _ hu) fun n v hv => qInsert_memoryInv n hv
  · trivial

theorem combineLoop_memoryInv (f : Nat) : ∀ s, MemoryInv s → (combineLoop f s).All MemoryInv := by
  induction f with
  | zero =>
    intro s hs
    unfold combineLoop
    split
    · trivial
    · exact hs
  | succ f ih =>
    intro s hs
    unfold combineLoop
    split
    · exact Res.keeps_bind (combineStep_memoryInv hs) fun _ t ht => ih t ht
    · exact hs

theorem buildTree_memoryInv {s : State} (hs : MemoryInv s) : (buildTree s).All MemoryInv := by
  unfold buildTree
  split
  · exact hs
  · exact Res.keeps_bind (insertLeaves_memoryInv _ _ hs) fun _ t ht =>
      Res.keeps_bind (combineLoop_memoryInv _ t ht) fun _ u hu =>
        Res.keeps_bind (qExtract_memoryInv hu) fun _ _ hv => hv

theorem walk_memoryInv (room : Nat) : ∀ n len bits s, MemoryInv s → (walk room n len bits s).All MemoryInv := by
  induction room with
  | zero =>
    intro n len bits s hs
    unfold walk
    split
    · trivial
    · exact hs
    · exact hs
  | succ room ih =>
    intro n len bits s hs
    unfold walk
    split
    · trivial
    · exact hs
    · exact Res.keeps_bind (ih _ _ _ s hs) fun _ t ht => ih _ _ _ t ht

theorem generateCodes_memoryInv {s : State} (hs : MemoryInv s) : (generateCodes s).All MemoryInv := by
  unfold generateCodes
  split
  · exact hs
  · exact Res.keeps_bind (walk_memoryInv _ _ _ _ _ hs) fun _ _ ht => ht

theorem leafUnit_memoryInv (i : Nat) {s : State} (hs : MemoryInv s) : (leafUnit i s).All MemoryInv := by
  unfold leafUnit
  split
  · exact hs
  · split
    · exact hs
    · exact Res.keeps_bind (tbufTake_all _ hs) fun _ t ht =>
        Res.keeps_bind (alloc_memoryInv _ ht) fun n u hu => push_memoryInv n _ hu

theorem internalUnit_memoryInv (i : Nat) {s : State} (hs : MemoryInv s) : (internalUnit i s).All MemoryInv := by
  unfold internalUnit
  split
  · rename_i r l rest _
    have popped : MemoryInv { s with stk := rest } := hs
    exact Res.keeps_bind (alloc_memoryInv _ popped) fun n t ht => push_memoryInv n _ ht
  · exact hs

theorem rebuildLoop_memoryInv (f : Nat) : ∀ i s, MemoryInv s → (rebuildLoop f i s).All MemoryInv := by
  induction f with
  | zero => exact fun _ _ hs => hs
  | succ f ih =>
    intro i s hs
    unfold rebuildLoop
    split
    · exact hs
    · refine Res.keeps_bind (tbufTake_all i hs) fun b t ht => ?_
      split
      · exact Res.keeps_bind (leafUnit_memoryInv i ht) fun _ u hu => ih _ u hu
      · split
        · exact Res.keeps_bind (internalUnit_memoryInv i ht) fun _ u hu => ih _ u hu
        · exact ht

theorem rebuildTree_memoryInv {s : State} (hs : MemoryInv s) : (rebuildTree s).All MemoryInv := by
  refine Res.keeps_bind (rebuildLoop_memoryInv _ 0 s.releaseTree hs) fun _ t ht => ?_
  split <;> exact ht

theorem storeTree_memoryInv {s : State} (hs : MemoryInv s) : (storeTree s).All MemoryInv := by
  unfold storeTree
  split
  · trivial
  · split
    · exact hs
    · exact Res.keeps_bind (sinkWrite_memoryInv _ hs) fun _ _ ht => ht

theorem getHeader_memoryInv {s : State} (hs : MemoryInv s) : (getHeader s).All MemoryInv := by
  refine Res.keeps_bind (srcReadExact_memoryInv 16 hs) fun d t ht => ?_
  split
  · exact ht
  · split <;> exact ht

theorem emitSym_memoryInv (a : Sym) (s : State) (hs : MemoryInv s) : (emitSym a s).All MemoryInv :=
  Res.keeps_bind (sinkWrite_memoryInv _ hs) fun _ _ ht => ht

theorem takeBit_memoryInv {s : State} (hs : MemoryInv s) : (takeBit s).All MemoryInv := by
  unfold takeBit
  dsimp only
  split
  · exact hs
  · trivial

theorem writeReg_memoryInv (r : Reg) (v : Word64) {s : State} (hs : MemoryInv s) : MemoryInv (writeReg s r v) := by
  cases r <;> exact hs

/-! ### Operations that write an array -/

theorem tbufAppend_memoryInv (b : Byte) {s : State} (hs : MemoryInv s) : (tbufAppend b s).All MemoryInv := by
  obtain ⟨htbuf, hwbuf, hrbuf⟩ := hs
  by_cases h : s.tlen.toNat < tbufBytes
  · rw [tbufAppend_ok b h]
    exact ⟨Memory.Fits.write htbuf b h, hwbuf, hrbuf⟩
  · simp [tbufAppend, tbufPut, h]

theorem post_memoryInv (depth : Nat) : ∀ n s, MemoryInv s → (post depth n s).All MemoryInv := by
  induction depth with
  | zero =>
    intro n s hs
    unfold post
    split
    · trivial
    · exact Res.keeps_bind (tbufAppend_memoryInv _ hs) fun _ t ht => tbufAppend_memoryInv _ ht
    · trivial
  | succ depth ih =>
    intro n s hs
    unfold post
    split
    · trivial
    · exact Res.keeps_bind (tbufAppend_memoryInv _ hs) fun _ t ht => tbufAppend_memoryInv _ ht
    · exact Res.keeps_bind (ih _ s hs) fun _ t ht =>
        Res.keeps_bind (ih _ t ht) fun _ u hu => tbufAppend_memoryInv _ hu

theorem dumpTree_memoryInv {s : State} (hs : MemoryInv s) : (dumpTree s).All MemoryInv := by
  unfold dumpTree
  split
  · exact hs
  · exact Res.keeps_bind (post_memoryInv _ _ _ hs) fun _ _ ht => ht

theorem loadTree_memoryInv {s : State} (hs : MemoryInv s) : (loadTree s).All MemoryInv := by
  unfold loadTree
  dsimp only
  split
  · exact hs
  · rename_i hsize
    refine Res.Ends.all (Res.Ends.bind (((srcReadExact_length _ s).and_all (srcReadExact_memoryInv _ hs)).weaken
      fun _ h => h.2) fun d t ⟨hlen, htbuf, hwbuf, hrbuf⟩ => ?_)
    have loaded : MemoryInv { t with tbuf := t.tbuf.writeBytes 0 d } :=
      ⟨Memory.Fits.writeBytes htbuf (by omega), hwbuf, hrbuf⟩
    split <;> exact loaded

theorem flushFull_memoryInv {s : State} (hs : MemoryInv s) : (flushFull s).All MemoryInv := by
  unfold flushFull
  split
  · exact Res.keeps_bind (sinkWrite_memoryInv _ hs) fun _ _ ht => ht
  · exact hs

theorem writeBit_memoryInv (b : Bool) (s : State) (hs : MemoryInv s) : (writeBit b s).All MemoryInv := by
  obtain ⟨htbuf, hwbuf, hrbuf⟩ := hs
  unfold writeBit
  dsimp only
  split
  · rename_i hi
    exact flushFull_memoryInv ⟨htbuf, Memory.Fits.write hwbuf _ hi, hrbuf⟩
  · trivial

/-- The trailing byte that is padded lies inside the block when the pending bits fit it (45_bit_channel R182). -/
theorem padTrailing_memoryInv {s : State} (hs : MemoryInv s) (hfit : ceil8 s.wCursor ≤ s.params.blockBytes) :
    MemoryInv (padTrailing s) := by
  obtain ⟨htbuf, hwbuf, hrbuf⟩ := hs
  refine ⟨htbuf, ?_, hrbuf⟩
  show Memory.Fits (if s.wCursor % 8 = 0 then _ else _) s.params.blockBytes
  split
  · exact hwbuf
  · have : ceil8 s.wCursor = (s.wCursor + 7) / 8 := rfl
    exact Memory.Fits.write hwbuf _ (by omega)

theorem finalize_memoryInv {s : State} (hs : MemoryInv s) : (finalize s).All MemoryInv := by
  unfold finalize
  dsimp only
  split
  · exact hs
  · split
    · trivial
    · rename_i hfit
      have padded : MemoryInv (padTrailing s) := padTrailing_memoryInv hs (by omega)
      split
      · exact padded
      · exact Res.keeps_bind (sinkWrite_memoryInv _ padded) fun _ _ ht => ht

theorem readBit_memoryInv (s : State) (hs : MemoryInv s) : (readBit s).All MemoryInv := by
  unfold readBit
  split
  · exact hs
  · split
    · refine Res.Ends.all (Res.Ends.bind (((srcRead_length _ s).and_all
        ((srcRead_memoryInv _ s hs).and (srcRead_kept _ s))).weaken fun _ h => h.2.1)
          fun d t ⟨hlen, ⟨htbuf, hwbuf, hrbuf⟩, hp, _⟩ => ?_)
      rw [← hp] at hlen
      have refilled : MemoryInv { t with rbuf := t.rbuf.writeBytes 0 d, rLen := d.length, rCursor := 0 } :=
        ⟨htbuf, hwbuf, Memory.Fits.writeBytes hrbuf hlen⟩
      dsimp only
      split
      · exact refilled
      · exact (takeBit_memoryInv refilled).ends
    · exact takeBit_memoryInv hs

/-! ### Every command -/

theorem ruleOf_memoryInv (i : Instr) (s : State) (hs : MemoryInv s) (hl : i.wellFormed = true) :
    (ruleOf i s).All MemoryInv := by
  cases i with
  | nop | qCreate v | ftClr | ftSet a v | ftGet a | treeFree | ctLen a | ctWord a k => exact hs
  | sessionReset => exact resetWith_memoryInv _ _ _
  | rdreg a =>
    simp only [ruleOf]
    split <;> exact hs
  | wrreg a v =>
    simp only [ruleOf]
    split
    · exact writeReg_memoryInv _ v hs
    · exact hs
  | qInsert v =>
    simp only [ruleOf]
    split
    · exact hs
    · exact Res.keeps_bind (qInsert_memoryInv _ hs) fun _ _ ht => ht
  | qExtract =>
    simp only [ruleOf]
    split
    · exact hs
    · exact Res.keeps_bind (qExtract_memoryInv hs) fun _ _ ht => ht
  | nodeLeaf a w => exact Res.keeps_bind (alloc_memoryInv _ hs) fun _ _ ht => ht
  | nodeGet v =>
    simp only [ruleOf]
    split <;> exact hs
  | nodeWeight v =>
    simp only [ruleOf]
    split <;> exact hs
  | ftInc a => exact Res.keeps_bind (countByte_memoryInv a hs) fun _ _ ht => ht
  | ftScan =>
    exact Res.keeps_bind (scanLoop_all srcRead_memoryInv countBytes_memoryInv _ _ s hs) fun _ _ ht => ht
  | ftPad => exact padCounts_memoryInv hs
  | tbBuild => exact buildTree_memoryInv hs
  | ctGen => exact generateCodes_memoryInv hs
  | tcDump => exact dumpTree_memoryInv hs
  | tcRebuild => exact rebuildTree_memoryInv hs
  | tcLoad => exact loadTree_memoryInv hs
  | tcStore => exact storeTree_memoryInv hs
  | tbufRd v =>
    simp only [ruleOf]
    split <;> exact hs
  | tbufWr b v =>
    obtain ⟨htbuf, hwbuf, hrbuf⟩ := hs
    have hv : v.toNat ≤ 766 := of_decide_eq_true hl
    exact ⟨Memory.Fits.write htbuf b (Nat.lt_succ_of_le hv), hwbuf, hrbuf⟩
  | wrSym a => exact (writeSym_ends (fun b s hs => (writeBit_memoryInv b s hs).ends) a hs).all
  | wrFinal => exact finalize_memoryInv hs
  | rdBit => exact rdBit_all readBit_memoryInv hs
  | hdrPut => exact Res.keeps_bind (sinkWrite_memoryInv _ hs) fun _ _ ht => ht
  | hdrGet => exact getHeader_memoryInv hs
  | srcRewind => exact Res.keeps_bind (srcRewind_memoryInv hs) fun _ _ ht => ht
  | encBody =>
    exact (encodeBody_ends (fun _ h => h) srcRead_memoryInv (fun b s hs => (writeBit_memoryInv b s hs).ends) hs).all
  | decSym => exact decSym_all readBit_memoryInv (fun _ _ h => h) emitSym_memoryInv hs
  | decBody => exact decodeBody_all readBit_memoryInv (fun _ _ h => h) emitSym_memoryInv hs

theorem memoryInv_stable : StepStable MemoryInv MemoryInv where
  rule i s hs hl := (ruleOf_memoryInv i s hs hl).ends
  raise _ _ _ _ hs := hs
  port _ _ hs := hs
  source _ _ _ hs := hs
  reset _ _ := resetWith_memoryInv _ _ _

/-- Settles O13: a byte is written at an index below the array's size only, and a write keeps the canonical form. -/
theorem stepKeepsMemoryInv : Obligations.StepKeepsMemoryInv := fun _ _ => memoryInv_stable.step

end Sys2Proof.Machine
end

section
/-! The invariant of the tree: the roots a build or a rebuild holds in its queue or on its stack are roots of disjoint trees, and
joining two of them gives one tree (10_state R26). -/

namespace Sys2Proof.Machine

open Sys2Proof

/-! ### The size of a tree -/

theorem idsUnder_length {nodes : List Node} (t : CodeTree) :
    ∀ {n}, Represents nodes n t → (idsUnder nodes t n).length = t.size := by
  induction t with
  | leaf a => exact fun _ => rfl
  | node l r ihl ihr =>
    intro n h
    obtain ⟨w, i, j, h, hl, hr⟩ := h
    rw [idsUnder_node l r h, List.length_cons, List.length_append, ihl hl, ihr hr]
    rfl

/-- A tree in which no node is reached twice has no more nodes than are allocated. -/
theorem size_le_of_nodup {nodes : List Node} {n : NodeId} {t : CodeTree} (h : Represents nodes n t)
    (hnodup : (idsUnder nodes t n).Nodup) : t.size ≤ nodes.length := by
  have inj : Function.Injective (BitVec.toNat (w := 9)) := fun _ _ => BitVec.eq_of_toNat_eq
  have sub : (idsUnder nodes t n).map BitVec.toNat ⊆ List.range nodes.length := by
    intro k hk
    obtain ⟨m, hm, rfl⟩ := List.mem_map.mp hk
    exact List.mem_range.mpr (idsUnder_lt t h m hm)
  have le := ((hnodup.map inj).subperm sub).length_le
  rwa [List.length_map, idsUnder_length t h, List.length_range] at le

/-! ### Disjoint trees in the pool -/

/-- The ids of the nodes of some trees, each with the id of its root. -/
def forestIds (nodes : List Node) (trees : List (NodeId × CodeTree)) : List NodeId :=
  trees.flatMap fun p => idsUnder nodes p.2 p.1

/-- The ids are the roots, in some order, of trees in the pool that share no node. -/
def Forest (nodes : List Node) (roots : List NodeId) : Prop :=
  ∃ trees : List (NodeId × CodeTree),
    (trees.map Prod.fst).Perm roots ∧ (∀ p ∈ trees, Represents nodes p.1 p.2) ∧ (forestIds nodes trees).Nodup

theorem Forest.empty (nodes : List Node) : Forest nodes [] :=
  ⟨[], List.Perm.refl _, fun _ h => absurd h List.not_mem_nil, List.nodup_nil⟩

theorem Forest.perm {nodes : List Node} {roots roots' : List NodeId} (h : Forest nodes roots) (hp : roots.Perm roots') :
    Forest nodes roots' := by
  obtain ⟨trees, hroots, hrep, hnodup⟩ := h
  exact ⟨trees, hroots.trans hp, hrep, hnodup⟩

/-- Each root brings its tree to the front of the list. -/
theorem exists_perm_cons_of_root {trees : List (NodeId × CodeTree)} {n : NodeId} {roots : List NodeId}
    (h : (trees.map Prod.fst).Perm (n :: roots)) :
    ∃ t rest, trees.Perm ((n, t) :: rest) ∧ (rest.map Prod.fst).Perm roots := by
  obtain ⟨⟨m, t⟩, hmem, rfl⟩ := List.mem_map.mp (h.symm.subset List.mem_cons_self)
  have hperm : trees.Perm ((m, t) :: trees.erase (m, t)) := List.perm_cons_erase hmem
  exact ⟨t, trees.erase (m, t), hperm, ((hperm.map Prod.fst).symm.trans h).cons_inv⟩

theorem forestIds_perm (nodes : List Node) {trees trees' : List (NodeId × CodeTree)} (h : trees.Perm trees') :
    (forestIds nodes trees).Perm (forestIds nodes trees') := h.flatMap_right _

@[simp] theorem forestIds_cons (nodes : List Node) (n : NodeId) (t : CodeTree) (trees : List (NodeId × CodeTree)) :
    forestIds nodes ((n, t) :: trees) = idsUnder nodes t n ++ forestIds nodes trees := rfl

/-- The tree of the first root stands apart from the trees of the others. -/
theorem Forest.uncons {nodes : List Node} {n : NodeId} {roots : List NodeId} (h : Forest nodes (n :: roots)) :
    ∃ t trees, (trees.map Prod.fst).Perm roots ∧ (∀ p ∈ (n, t) :: trees, Represents nodes p.1 p.2)
      ∧ (forestIds nodes ((n, t) :: trees)).Nodup := by
  obtain ⟨trees, hroots, hrep, hnodup⟩ := h
  obtain ⟨t, rest, hperm, hrest⟩ := exists_perm_cons_of_root hroots
  exact ⟨t, rest, hrest, fun p hp => hrep p (hperm.symm.subset hp), (forestIds_perm nodes hperm).nodup hnodup⟩

/-- A root of the forest is the root of a strict binary tree that reaches no node twice. -/
theorem Forest.tree {nodes : List Node} {n : NodeId} {roots : List NodeId} (h : Forest nodes (n :: roots)) :
    ∃ t, Represents nodes n t ∧ (idsUnder nodes t n).Nodup ∧ t.size ≤ nodes.length := by
  obtain ⟨t, trees, -, hrep, hnodup⟩ := h.uncons
  have hrep : Represents nodes n t := hrep _ List.mem_cons_self
  have hnodup : (idsUnder nodes t n).Nodup := hnodup.of_append_left
  exact ⟨t, hrep, hnodup, size_le_of_nodup hrep hnodup⟩

theorem forestIds_append {nodes : List Node} (nd : Node) {trees : List (NodeId × CodeTree)}
    (h : ∀ p ∈ trees, Represents nodes p.1 p.2) : forestIds (nodes ++ [nd]) trees = forestIds nodes trees := by
  unfold forestIds
  exact List.flatMap_congr fun p hp => idsUnder_append [nd] p.2 (h p hp)

/-- Every node of a forest is allocated. -/
theorem forestIds_lt {nodes : List Node} {trees : List (NodeId × CodeTree)} (h : ∀ p ∈ trees, Represents nodes p.1 p.2) :
    ∀ m ∈ forestIds nodes trees, m.toNat < nodes.length := by
  intro m hm
  obtain ⟨p, hp, hm⟩ := List.mem_flatMap.mp hm
  exact idsUnder_lt p.2 (h p hp) m hm

/-- The slot `alloc` takes, as an id (10_state R24). -/
theorem toNat_nextId {nodes : List Node} (h : nodes.length < nodeMax) :
    (BitVec.ofNat 9 nodes.length).toNat = nodes.length := by
  have : nodes.length < 511 := h
  rw [BitVec.toNat_ofNat]
  omega

theorem getElem?_nextId {nodes : List Node} (nd : Node) (h : nodes.length < nodeMax) :
    (nodes ++ [nd])[(BitVec.ofNat 9 nodes.length).toNat]? = some nd := by
  rw [toNat_nextId h, List.getElem?_concat_length]

/-- The next id is the id of no node of a forest. -/
theorem nextId_not_mem {nodes : List Node} {trees : List (NodeId × CodeTree)}
    (h : ∀ p ∈ trees, Represents nodes p.1 p.2) (hlen : nodes.length < nodeMax) :
    BitVec.ofNat 9 nodes.length ∉ forestIds nodes trees := by
  intro hm
  have := forestIds_lt h _ hm
  rw [toNat_nextId hlen] at this
  omega

/-- A new leaf is a tree apart from the others. -/
theorem Forest.leaf {nodes : List Node} {roots : List NodeId} (a : Sym) (w : Word64) (h : Forest nodes roots)
    (hlen : nodes.length < nodeMax) : Forest (nodes ++ [.leaf a w]) (BitVec.ofNat 9 nodes.length :: roots) := by
  obtain ⟨trees, hroots, hrep, hnodup⟩ := h
  refine ⟨(BitVec.ofNat 9 nodes.length, .leaf a) :: trees, hroots.cons _, ?_, ?_⟩
  · exact List.forall_mem_cons.mpr ⟨⟨w, getElem?_nextId _ hlen⟩, fun p hp => represents_append _ p.2 (hrep p hp)⟩
  · rw [forestIds_cons, forestIds_append _ hrep]
    exact List.nodup_cons.mpr ⟨nextId_not_mem hrep hlen, hnodup⟩

/-- A new Internal node over two roots joins their trees into one. -/
theorem Forest.join {nodes : List Node} {roots : List NodeId} {l r : NodeId} (w : Word64)
    (h : Forest nodes (l :: r :: roots)) (hlen : nodes.length < nodeMax) :
    Forest (nodes ++ [.internal w l r]) (BitVec.ofNat 9 nodes.length :: roots) := by
  obtain ⟨tl, others, hothers, hrep, hnodup⟩ := h.uncons
  obtain ⟨tr, rest, hperm, hrest⟩ := exists_perm_cons_of_root hothers
  have hperm : ((l, tl) :: others).Perm ((l, tl) :: (r, tr) :: rest) := hperm.cons _
  have hrep : ∀ p ∈ (l, tl) :: (r, tr) :: rest, Represents nodes p.1 p.2 := fun p hp => hrep p (hperm.symm.subset hp)
  have hnodup := (forestIds_perm nodes hperm).nodup hnodup
  have hfresh := nextId_not_mem hrep hlen
  obtain ⟨hl, hrep⟩ := List.forall_mem_cons.mp hrep
  obtain ⟨hr, hrep⟩ := List.forall_mem_cons.mp hrep
  have hnode := getElem?_nextId (.internal w l r) hlen
  refine ⟨(BitVec.ofNat 9 nodes.length, .node tl tr) :: rest, hrest.cons _, ?_, ?_⟩
  · exact List.forall_mem_cons.mpr ⟨⟨w, l, r, hnode, represents_append _ tl hl, represents_append _ tr hr⟩,
      fun p hp => represents_append _ p.2 (hrep p hp)⟩
  · rw [forestIds_cons, idsUnder_node tl tr hnode, idsUnder_append _ tl hl, idsUnder_append _ tr hr,
      forestIds_append _ hrep, List.cons_append, List.append_assoc]
    exact List.nodup_cons.mpr ⟨hfresh, hnodup⟩

/-! ### The forest while a tree grows (10_state R24) -/

/-- The pool is within its bound and `ROOT` is `NIL`, which is all that a build or a rebuild that raises leaves. -/
abbrev Unrooted (s : State) : Prop := s.nodes.length ≤ nodeMax ∧ s.root = nil

theorem Unrooted.treeInv {s : State} (h : Unrooted s) : TreeInv s := ⟨h.1, .inl h.2⟩

/-- In a build or a rebuild: these ids are the roots of disjoint trees in the pool, and `ROOT` is `NIL`. -/
abbrev Growing (roots : List NodeId) (s : State) : Prop := Unrooted s ∧ Forest s.nodes roots

/-- `ROOT` may be set to a root of the forest. -/
theorem Growing.treeInv {n : NodeId} {roots : List NodeId} {s t : State} (h : Growing (n :: roots) s)
    (hnodes : t.nodes = s.nodes) (hroot : t.root = n) : TreeInv t := by
  obtain ⟨⟨hlen, -⟩, hforest⟩ := h
  refine ⟨hnodes ▸ hlen, .inr ?_⟩
  rw [hnodes, hroot]
  exact hforest.tree

/-- What `alloc` does to a forest: nothing when it raises; else the new node is at the next id. -/
theorem alloc_growing {roots : List NodeId} {nd : Node} {s : State} (h : Unrooted s)
    (hnew : s.nodes.length < nodeMax → Forest (s.nodes ++ [nd]) (BitVec.ofNat 9 s.nodes.length :: roots)) :
    (alloc nd s).Ends (fun n t => Growing (n :: roots) t ∧ t.q = s.q ∧ t.stk = s.stk) Unrooted := by
  obtain ⟨hlen, hroot⟩ := h
  rcases alloc_cases nd s with ⟨-, e⟩ | ⟨hne, e⟩ <;> rw [e]
  · exact ⟨hlen, hroot⟩
  · have hlt : s.nodes.length < nodeMax := Nat.lt_of_le_of_ne hlen hne
    have hlen' : (s.nodes ++ [nd]).length ≤ nodeMax := by
      rw [List.length_append, List.length_singleton]
      omega
    exact ⟨⟨⟨hlen', hroot⟩, hnew hlt⟩, rfl, rfl⟩

/-! ### The forest in the queue of a build (42_tree_builder R146) -/

/-- A root extracted is held outside the queue; the forest is the same (41_queue R130). -/
theorem qExtract_growing (held : List NodeId) {R : State → Prop} {s : State} (h : Growing (held ++ s.q) s) :
    (qExtract s).Ends (fun n t => Growing (n :: held ++ t.q) t) R := by
  unfold qExtract
  split
  · trivial
  · rename_i n rest hq
    rw [hq] at h
    exact ⟨h.1, h.2.perm List.perm_middle⟩

/-- The node inserted is one entry more of the queue, at some place (41_queue R130). -/
theorem qInsert_ends (n : NodeId) (s : State) :
    (qInsert n s).Ends (fun _ t => ∃ q, (n :: s.q).Perm q ∧ t = { s with q := q }) fun t => t = s := by
  unfold qInsert
  split
  · rfl
  · split
    · trivial
    · split
      · trivial
      · rename_i p _
        refine ⟨_, ?_, rfl⟩
        have := (List.perm_middle (a := n) (l₁ := s.q.take p) (l₂ := s.q.drop p)).symm
        rwa [List.take_append_drop] at this

theorem qInsert_growing {n : NodeId} {s : State} (h : Growing (n :: s.q) s) :
    (qInsert n s).Ends (fun _ t => Growing t.q t) Unrooted := by
  refine (qInsert_ends n s).mono ?_ ?_
  · rintro _ _ ⟨q, hperm, rfl⟩
    exact ⟨h.1, h.2.perm hperm⟩
  · rintro _ rfl
    exact h.1

theorem insertLeaves_growing (l : List Sym) :
    ∀ s, Growing s.q s → (insertLeaves l s).Ends (fun _ t => Growing t.q t) Unrooted := by
  induction l with
  | nil => exact fun _ hs => hs
  | cons a l ih =>
    intro s hs
    unfold insertLeaves
    split
    · exact ih s hs
    · refine Res.Ends.bind (alloc_growing hs.1 fun hlt => Forest.leaf a _ hs.2 hlt) fun n t ⟨ht, hq, _⟩ => ?_
      rw [← hq] at ht
      exact Res.Ends.bind (qInsert_growing ht) fun _ u hu => ih u hu

/-- A combine step takes two roots off the queue and queues the root of their union. -/
theorem combineStep_growing (s : State) (hs : Growing s.q s) :
    (combineStep s).Ends (fun _ t => Growing t.q t) Unrooted := by
  refine Res.Ends.bind (qExtract_growing [] hs) fun a t ht => Res.Ends.bind (qExtract_growing [a] ht) fun b u hu => ?_
  have hpair : Forest u.nodes (a :: b :: u.q) := hu.2.perm (List.Perm.swap a b u.q)
  split
  · split
    · exact hu.1
    · refine Res.Ends.bind (alloc_growing hu.1 fun hlt => Forest.join _ hpair hlt) fun n v ⟨hv, hq, _⟩ => ?_
      rw [← hq] at hv
      exact qInsert_growing hv
  · trivial

theorem combineLoop_growing (f : Nat) :
    ∀ s, Growing s.q s → (combineLoop f s).Ends (fun _ t => Growing t.q t) Unrooted := by
  induction f with
  | zero =>
    intro s hs
    unfold combineLoop
    split
    · trivial
    · exact hs
  | succ f ih =>
    intro s hs
    unfold combineLoop
    split
    · exact Res.Ends.bind (combineStep_growing s hs) fun _ t ht => ih t ht
    · exact hs

theorem buildTree_treeInv {s : State} (hs : TreeInv s) : (buildTree s).All TreeInv := by
  unfold buildTree
  split
  · exact hs
  · have start : Growing [] { s.releaseTree with qcap := queueSlots } := ⟨⟨Nat.zero_le _, rfl⟩, Forest.empty _⟩
    refine Res.Ends.all (Res.Ends.weaken (R := Unrooted) ?_ fun _ h => Unrooted.treeInv h)
    exact Res.Ends.bind (insertLeaves_growing allSyms _ start) fun _ t ht =>
      Res.Ends.bind (combineLoop_growing _ t ht) fun _ u hu =>
        Res.Ends.bind (qExtract_growing [] hu) fun r v hv => hv.treeInv (t := { v with root := r }) rfl rfl

/-! ### The forest on the stack of a rebuild (44_tree_codec R166) -/

theorem push_growing {n : NodeId} {info : Word64} {s : State} (h : Growing (n :: s.stk) s) :
    (push n info s).Ends (fun _ t => Growing t.stk t) Unrooted := by
  rcases push_cases n info s with ⟨-, e⟩ | ⟨-, e⟩ <;> rw [e]
  · exact h.1
  · exact h

theorem leafUnit_growing (i : Nat) (s : State) (hs : Growing s.stk s) :
    (leafUnit i s).Ends (fun _ t => Growing t.stk t) Unrooted := by
  unfold leafUnit
  split
  · exact hs.1
  · split
    · exact hs.1
    · refine Res.Ends.bind (tbufTake_ends (I := fun t => Growing t.stk t) _ hs) fun a t ht => ?_
      refine Res.Ends.bind (alloc_growing ht.1 fun hlt => Forest.leaf a _ ht.2 hlt) fun n u ⟨hu, _, hstk⟩ => ?_
      rw [← hstk] at hu
      exact push_growing hu

theorem internalUnit_growing (i : Nat) (s : State) (hs : Growing s.stk s) :
    (internalUnit i s).Ends (fun _ t => Growing t.stk t) Unrooted := by
  unfold internalUnit
  split
  · rename_i r l rest hstk
    have hpair : Growing (l :: r :: rest) { s with stk := rest } := by
      rw [hstk] at hs
      exact ⟨hs.1, hs.2.perm (List.Perm.swap l r rest)⟩
    refine Res.Ends.bind (alloc_growing hpair.1 fun hlt => Forest.join _ hpair.2 hlt) fun n t ⟨ht, _, hstk⟩ => ?_
    have hstk : t.stk = rest := hstk
    rw [← hstk] at ht
    exact push_growing ht
  · exact hs.1

theorem rebuildLoop_growing (f : Nat) :
    ∀ i s, Growing s.stk s → (rebuildLoop f i s).Ends (fun _ t => Growing t.stk t) Unrooted := by
  induction f with
  | zero => exact fun _ _ hs => hs
  | succ f ih =>
    intro i s hs
    unfold rebuildLoop
    split
    · exact hs
    · refine Res.Ends.bind (tbufTake_ends (I := fun t => Growing t.stk t) i hs) fun b t ht => ?_
      split
      · exact Res.Ends.bind (leafUnit_growing i t ht) fun _ u hu => ih _ u hu
      · split
        · exact Res.Ends.bind (internalUnit_growing i t ht) fun _ u hu => ih _ u hu
        · exact ht.1

theorem rebuildTree_treeInv (s : State) : (rebuildTree s).All TreeInv := by
  have start : Growing [] s.releaseTree := ⟨⟨Nat.zero_le _, rfl⟩, Forest.empty _⟩
  refine Res.Ends.all (Res.Ends.bind ((rebuildLoop_growing _ 0 _ start).weaken fun _ h => h.treeInv)
    fun _ t ht => ?_)
  split
  · rename_i r hstk
    rw [hstk] at ht
    exact ht.treeInv (t := { t with root := r, stk := [] }) rfl rfl
  · exact ht.1.treeInv

/-! ### Every command -/

theorem treeInv_dependsOn : DependsOn [.pool, .root] TreeInv := by
  intro s t _ _ h hs
  have hnodes : t.nodes = s.nodes := h .pool (by decide)
  have hroot : t.root = s.root := h .root (by decide)
  unfold TreeInv at hs ⊢
  rw [hnodes, hroot]
  exact hs

/-- A slot taken outside the tree leaves the tree (10_state R24). -/
theorem alloc_treeInv (nd : Node) {s : State} (hs : TreeInv s) : (alloc nd s).All TreeInv := by
  rcases alloc_cases nd s with ⟨-, e⟩ | ⟨hne, e⟩ <;> rw [e]
  · exact hs
  · obtain ⟨hlen, htree⟩ := hs
    have hlen' : (s.nodes ++ [nd]).length = s.nodes.length + 1 := List.length_append
    refine ⟨by show (s.nodes ++ [nd]).length ≤ nodeMax; omega, htree.imp id ?_⟩
    rintro ⟨t, hrep, hnodup, hsize⟩
    refine ⟨t, represents_append _ t hrep, ?_, by show t.size ≤ (s.nodes ++ [nd]).length; omega⟩
    show (idsUnder (s.nodes ++ [nd]) t s.root).Nodup
    rwa [idsUnder_append _ t hrep]

theorem treeInv_stable : StepStable TreeInv TreeInv where
  rule i s hs _ := by
    refine Res.All.ends ?_
    by_cases hw : ∀ sp ∈ [Space.pool, .root], sp ∉ writes i
    · exact treeInv_dependsOn.ruleOf_all hs hw
    · cases i with
      | sessionReset => exact resetWith_treeInv _ _ _
      | nodeLeaf a w => exact Res.keeps_bind (alloc_treeInv _ hs) fun _ _ ht => ht
      | tbBuild => exact buildTree_treeInv hs
      | treeFree => exact resetWith_treeInv s.params s.env s.host
      | tcRebuild => exact rebuildTree_treeInv s
      | _ => simp [writes] at hw
  raise _ _ _ _ hs := hs
  port _ _ hs := hs
  source _ _ _ hs := hs
  reset _ _ := resetWith_treeInv _ _ _

/-- Settles O16: `ROOT` is only set to a root of the forest a build or a rebuild has grown, and a slot taken leaves the tree. -/
theorem stepKeepsTreeInv : Obligations.StepKeepsTreeInv := fun _ _ => treeInv_stable.step

end Sys2Proof.Machine
end

section
/-! The frame of every command: the sink only grows, only a command of R216's table raises, and everything else a command writes
is in the spaces of 20_memory R60. -/

namespace Sys2Proof.Machine

open Sys2Proof

/-! ### The sink only grows (20_memory R62) -/

/-- The sink begins with these writes. -/
def SinkExtends (base : List (List Byte)) (s : State) : Prop := base <+: s.env.sink

theorem sinkExtends_dependsOn (base : List (List Byte)) : DependsOn [.sink] (SinkExtends base) := by
  intro s t _ _ h hs
  obtain ⟨hsink, -⟩ := h .sink (List.mem_singleton.mpr rfl)
  unfold SinkExtends
  rw [hsink]
  exact hs

section SinkExtends

variable {base : List (List Byte)}

theorem sinkWrite_sinkExtends (bytes : List Byte) {s : State} (hs : SinkExtends base s) :
    (sinkWrite bytes s).All (SinkExtends base) := by
  have grown : base <+: s.env.sink ++ [bytes] := hs.trans (List.prefix_append _ _)
  unfold sinkWrite
  split
  · exact grown
  · exact grown
  · exact hs

theorem srcRead_sinkExtends (n : Nat) (s : State) (hs : SinkExtends base s) : (srcRead n s).All (SinkExtends base) :=
  (sinkExtends_dependsOn base).all_of_kept (srcRead_kept n s) (by decide) hs

theorem readBit_sinkExtends (s : State) (hs : SinkExtends base s) : (readBit s).All (SinkExtends base) :=
  (sinkExtends_dependsOn base).all_of_kept (readBit_kept s) (by decide) hs

theorem flushFull_sinkExtends {s : State} (hs : SinkExtends base s) : (flushFull s).All (SinkExtends base) := by
  unfold flushFull
  split
  · exact Res.keeps_bind (sinkWrite_sinkExtends _ hs) fun _ _ ht => ht
  · exact hs

theorem writeBit_sinkExtends (b : Bool) (s : State) (hs : SinkExtends base s) : (writeBit b s).All (SinkExtends base) := by
  unfold writeBit
  dsimp only
  split
  · exact flushFull_sinkExtends hs
  · trivial

theorem emitSym_sinkExtends (a : Sym) (s : State) (hs : SinkExtends base s) : (emitSym a s).All (SinkExtends base) :=
  Res.keeps_bind (sinkWrite_sinkExtends _ hs) fun _ _ ht => ht

theorem storeTree_sinkExtends {s : State} (hs : SinkExtends base s) : (storeTree s).All (SinkExtends base) := by
  unfold storeTree
  split
  · trivial
  · split
    · exact hs
    · exact Res.keeps_bind (sinkWrite_sinkExtends _ hs) fun _ _ ht => ht

theorem finalize_sinkExtends {s : State} (hs : SinkExtends base s) : (finalize s).All (SinkExtends base) := by
  unfold finalize
  dsimp only
  split
  · exact hs
  · split
    · trivial
    · split
      · exact hs
      · exact Res.keeps_bind (sinkWrite_sinkExtends (s := padTrailing s) _ hs) fun _ _ ht => ht

theorem ruleOf_sinkExtends (i : Instr) {s : State} (hs : SinkExtends base s) : (ruleOf i s).All (SinkExtends base) := by
  by_cases hw : .sink ∈ writes i
  · cases i with
    | tcStore => exact storeTree_sinkExtends hs
    | wrSym a => exact (writeSym_ends (fun b s hs => (writeBit_sinkExtends b s hs).ends) a hs).all
    | wrFinal => exact finalize_sinkExtends hs
    | hdrPut => exact Res.keeps_bind (sinkWrite_sinkExtends _ hs) fun _ _ ht => ht
    | encBody =>
      exact (encodeBody_ends (fun _ h => h) srcRead_sinkExtends (fun b s hs => (writeBit_sinkExtends b s hs).ends) hs).all
    | decSym => exact decSym_all readBit_sinkExtends (fun _ _ h => h) emitSym_sinkExtends hs
    | decBody => exact decodeBody_all readBit_sinkExtends (fun _ _ h => h) emitSym_sinkExtends hs
    | _ => simp [writes] at hw
  · exact (sinkExtends_dependsOn base).ruleOf_all hs (by simpa using hw)

theorem sinkExtends_stable (base : List (List Byte)) : StepStable (SinkExtends base) (SinkExtends base) where
  rule i _ hs _ := (ruleOf_sinkExtends i hs).ends
  raise _ _ _ _ hs := hs
  port _ _ hs := hs
  source _ _ _ hs := hs
  reset _ hs := hs

end SinkExtends

/-! ### Only the commands with an error raise (60_exceptions R216) -/

/-- The piece never raises. -/
def Res.NoRaise {α : Type} (r : Res α) : Prop := r.Ends (fun _ _ => True) fun _ => False

theorem Res.NoRaise.bind {α β : Type} {r : Res α} {k : α → State → Res β} (hr : r.NoRaise) (hk : ∀ v t, (k v t).NoRaise) :
    (r.bind k).NoRaise :=
  Res.Ends.bind hr fun v t _ => hk v t

theorem answerOk_noRaise (v : Word64) (s : State) : (answerOk v s).NoRaise := True.intro

theorem tbufAppend_noRaise (b : Byte) (s : State) : (tbufAppend b s).NoRaise := by
  have put : (tbufPut s.tlen.toNat b s).NoRaise := by
    unfold tbufPut
    split <;> trivial
  exact put.bind fun _ _ => trivial

theorem post_noRaise (depth : Nat) : ∀ n s, (post depth n s).NoRaise := by
  induction depth with
  | zero =>
    intro n s
    unfold post
    split
    · trivial
    · exact (tbufAppend_noRaise _ s).bind fun _ t => tbufAppend_noRaise _ t
    · trivial
  | succ depth ih =>
    intro n s
    unfold post
    split
    · trivial
    · exact (tbufAppend_noRaise _ s).bind fun _ t => tbufAppend_noRaise _ t
    · exact (ih _ s).bind fun _ t => (ih _ t).bind fun _ u => tbufAppend_noRaise _ u

theorem dumpTree_noRaise (s : State) : (dumpTree s).NoRaise := by
  unfold dumpTree
  split
  · trivial
  · exact (post_noRaise _ _ _).bind fun _ _ => trivial

theorem qExtract_noRaise (s : State) : (qExtract s).NoRaise := by
  unfold qExtract
  split <;> trivial

/-- A command whose frame leaves the error record out has a rule that never raises. -/
theorem ruleOf_noRaise {i : Instr} (h : .errors ∉ raises i) (s : State) : (ruleOf i s).NoRaise := by
  cases i with
  | rdreg a | wrreg a v | nodeGet v | nodeWeight v | tbufRd v =>
    simp only [ruleOf]
    split <;> trivial
  | qExtract =>
    simp only [ruleOf]
    split
    · trivial
    · exact (qExtract_noRaise s).bind fun _ _ => trivial
  | tcDump => exact dumpTree_noRaise s
  | nop | sessionReset | qCreate v | ftClr | ftSet a v | ftGet a | ftPad | treeFree | ctLen a | ctWord a k | tbufWr b v =>
    exact answerOk_noRaise _ _
  | _ => exact absurd (List.mem_singleton.mpr rfl) h

theorem errors_mem_raises {i : Instr} {s u : State} {c : Cause} {info : Word64} (h : ruleOf i s = .raised c info u) :
    .errors ∈ raises i := by
  by_contra hn
  have quiet := ruleOf_noRaise hn s
  rw [h] at quiet
  exact quiet

/-! ### The frame of a command (20_memory R60) -/

theorem recordError_kept (s : State) (op : BitVec 8) (c : Cause) (info : Word64) :
    Kept [.errors] s (s.recordError op c info) := by
  refine ⟨rfl, rfl, rfl, fun sp h => ?_⟩
  cases sp <;> simp_all [Unchanged]

/-- A command gives its response, and has written nothing else but its spaces and, if it can raise, the error record. -/
theorem exec_kept {i : Instr} {s t : State} (h : exec i s = .next t) :
    ∃ u st v, Kept (writes i ++ raises i) s u ∧ t = u.respond st v := by
  have rule := ruleOf_kept i s
  rcases exec_cases h with ⟨st, v, rfl⟩ | ⟨-, -, ⟨a, u, hr, rfl⟩ | ⟨c, info, u, hr, rfl⟩⟩
  · exact ⟨s, st, v, Kept.refl _ s, rfl⟩
  · rw [hr] at rule
    exact ⟨u, _, _, Kept.mono (List.subset_append_left _ _) rule, rfl⟩
  · rw [hr] at rule
    have record : [Space.errors] ⊆ writes i ++ raises i :=
      List.cons_subset.mpr ⟨List.mem_append_right _ (errors_mem_raises hr), List.nil_subset _⟩
    exact ⟨u.recordError i.opcode c info, _, _,
      (Kept.mono (List.subset_append_left _ _) rule).trans ((recordError_kept u _ c info).mono record), rfl⟩

theorem respond_unchanged {s u : State} {sp : Space} (h : Unchanged s u sp) (st : Status) (v : Word64) :
    Unchanged s (u.respond st v) sp := by
  cases sp <;> exact h

/-- Settles O12: the rule of a command keeps every space it does not write, only a command that can raise writes the error record,
and every write to the sink is appended. -/
theorem commandsWriteOnlyTheirSpaces : Obligations.CommandsWriteOnlyTheirSpaces := by
  intro i s t h
  obtain ⟨ws, hws⟩ := (sinkExtends_stable s.env.sink).exec (List.prefix_refl _) h
  obtain ⟨u, st, v, ⟨hparams, hhost, hsrc, hspaces⟩, rfl⟩ := exec_kept h
  have hevents : u.host.events = s.host.events := congrArg HostPort.events hhost
  exact ⟨hparams, hsrc, hevents, ⟨ws, hws.symm⟩, fun sp hn => respond_unchanged (hspaces sp hn) st v⟩

end Sys2Proof.Machine
end

section
/-! A stream request that fails ends its command with an IOError (20_memory R63 to R66, 60_exceptions R219), whatever the reads
before it have delivered. -/

namespace Sys2Proof.Machine

open Sys2Proof

/-- What starts with a request that fails raises as the request does. -/
theorem Res.bind_of_raised {α β : Type} {r : Res α} {c : Cause} {info : Word64} {t : State} (h : r = .raised c info t)
    (k : α → State → Res β) : r.bind k = .raised c info t := by
  rw [h, Res.bind_raised]

/-! ### A failed read in the middle of `SrcReadExact` (20_memory R64) -/

/-- The state after a read that failed: the answer is used up, and the source stands where the environment left it (20_memory
R63). -/
def readFailure (s : State) (pos : Nat) (rest : List ReadAnswer) : State :=
  { s with env := { s.env with reads := rest, spos := min pos s.env.src.length } }

/-- A request for `n` bytes that deliveries `ks` have not ended, neither by reaching `n` nor by finding the end of the source. -/
def GoesOn (n left : Nat) (ks : List Nat) : Prop := EachDelivers n left ks ∧ delivered n left ks < n

theorem goesOn_nil {n : Nat} (left : Nat) (hn : 1 ≤ n) : GoesOn n left [] :=
  ⟨.inl rfl, Nat.lt_of_le_of_lt (Nat.min_le_left 0 left) hn⟩

theorem GoesOn.pos {n left : Nat} {ks : List Nat} (h : GoesOn n left ks) : 1 ≤ n := Nat.lt_of_le_of_lt (Nat.zero_le _) h.2

theorem GoesOn.left_pos {n left k : Nat} {ks : List Nat} (h : GoesOn n left (k :: ks)) : 1 ≤ left := by
  rcases h.1 with h | h
  · cases h
  · exact Nat.lt_of_le_of_lt (Nat.zero_le _) h

/-- Asking for less, reads deliver no more. -/
theorem sum_capped_mono {m n : Nat} (h : m ≤ n) (ks : List Nat) :
    (ks.map fun k => min (max 1 k) m).sum ≤ (ks.map fun k => min (max 1 k) n).sum :=
  List.sum_le_sum fun _ _ => by omega

theorem delivered_cons (n left k : Nat) (ks : List Nat) :
    delivered n left (k :: ks) = min (min (max 1 k) n + (ks.map fun k => min (max 1 k) n).sum) left := by
  rw [delivered, List.map_cons, List.sum_cons]

/-- After one delivery the rest of the request still goes on. `EachDelivers` caps every read by the whole request, the loop by
what is left of it, so the reads that follow deliver no more than it counts. -/
theorem GoesOn.tail {n left k : Nat} {ks : List Nat} (h : GoesOn n left (k :: ks)) :
    GoesOn (n - min (min (max 1 k) n) left) (left - min (min (max 1 k) n) left) ks := by
  obtain ⟨heach, hdel⟩ := h
  rw [delivered_cons] at hdel
  have hless : n - min (min (max 1 k) n) left ≤ n := Nat.sub_le _ _
  cases ks with
  | nil =>
    refine goesOn_nil _ ?_
    rw [List.map_nil, List.sum_nil] at hdel
    omega
  | cons k' ks =>
    have hinit := heach.resolve_left (List.cons_ne_nil _ _)
    rw [List.dropLast_cons_of_ne_nil (List.cons_ne_nil _ _), delivered_cons] at hinit
    have hall := sum_capped_mono hless (k' :: ks)
    have hfirst := sum_capped_mono hless (k' :: ks).dropLast
    refine ⟨.inr ?_, ?_⟩
    · rw [delivered]
      omega
    · rw [delivered]
      omega

/-- The state after a read that delivered `m` bytes (20_memory R63). -/
def readDelivery (s : State) (more : List ReadAnswer) (m : Nat) : State :=
  { s with env := { s.env with reads := more, spos := s.env.spos + m } }

theorem srcRest_readDelivery_length (s : State) (more : List ReadAnswer) (m : Nat) :
    (srcRest (readDelivery s more m)).length = (srcRest s).length - m := by
  simp [srcRest, readDelivery, Nat.sub_add_eq]

theorem srcRead_deliver {s : State} {k : Nat} {more : List ReadAnswer} (n : Nat) (h : s.env.reads = .deliver k :: more) :
    ∃ d, d.length = min (min (max 1 k) n) (srcRest s).length ∧ srcRead n s = .ok d (readDelivery s more d.length) := by
  refine ⟨(srcRest s).take (min (max 1 k) n), List.length_take, ?_⟩
  unfold srcRead
  rw [h]
  rfl

/-- Each delivery is at least one byte and leaves a shorter request that goes on, until the failing read is made. -/
theorem srcReadLoop_fail {pos : Nat} {rest : List ReadAnswer} (ks : List Nat) :
    ∀ f n s, n ≤ f → ReadsFailAfter s ks pos rest → GoesOn n (srcRest s).length ks →
      srcReadLoop f n s = .raised .readFailed 0#64 (readFailure s pos rest) := by
  induction ks with
  | nil =>
    intro f n s hf hr hg
    have hn := hg.pos
    obtain ⟨f, rfl⟩ : ∃ m, f = m + 1 := ⟨f - 1, by omega⟩
    rw [srcReadLoop, if_neg (by omega)]
    exact Res.bind_of_raised (srcRead_fail n hr) _
  | cons k ks ih =>
    intro f n s hf hr hg
    have hn := hg.pos
    have hleft := hg.left_pos
    obtain ⟨f, rfl⟩ : ∃ m, f = m + 1 := ⟨f - 1, by omega⟩
    obtain ⟨d, hlen, hd⟩ := srcRead_deliver n hr
    have hne : d ≠ [] := List.ne_nil_of_length_pos (by omega)
    have hnext : GoesOn (n - d.length)
        (srcRest (readDelivery s (ks.map .deliver ++ .fail pos :: rest) d.length)).length ks := by
      rw [srcRest_readDelivery_length, hlen]
      exact hg.tail
    rw [srcReadLoop, if_neg (by omega), hd, Res.bind_ok, if_neg hne]
    exact Res.bind_of_raised (ih f _ _ (by omega) rfl hnext) _

theorem srcReadExact_fail {s : State} {n : Nat} {ks : List Nat} {pos : Nat} {rest : List ReadAnswer}
    (hr : ReadsFailAfter s ks pos rest) (hg : GoesOn n (srcRest s).length ks) :
    srcReadExact n s = .raised .readFailed 0#64 (readFailure s pos rest) :=
  srcReadLoop_fail ks n n s (Nat.le_refl n) hr hg

/-! ### The rules in which a request fails -/

theorem getHeader_fail {s : State} {ks : List Nat} {pos : Nat} {rest : List ReadAnswer} (hr : ReadsFailAfter s ks pos rest)
    (hg : GoesOn 16 (srcRest s).length ks) : getHeader s = .raised .readFailed 0#64 (readFailure s pos rest) :=
  Res.bind_of_raised (srcReadExact_fail hr hg) _

theorem loadTree_fail {s : State} {ks : List Nat} {pos : Nat} {rest : List ReadAnswer} (hr : ReadsFailAfter s ks pos rest)
    (hg : GoesOn s.hTreeSize.toNat (srcRest s).length ks) (hfit : s.hTreeSize.toNat ≤ tbufBytes) :
    loadTree s = .raised .readFailed 0#64 (readFailure s pos rest) := by
  rw [loadTree, if_neg (Nat.not_lt.mpr hfit), srcReadExact_fail hr hg, Res.bind_raised]

theorem storeTree_fail {s : State} {rest : List WriteAnswer} (hw : s.env.writes = .fail :: rest) (hpos : 1 ≤ s.tlen.toNat)
    (hfit : s.tlen.toNat ≤ tbufBytes) :
    storeTree s = .raised .writeFailed 0#64 { s with env := { s.env with writes := rest } } := by
  rw [storeTree, if_neg (Nat.not_lt.mpr hfit), if_neg (Nat.ne_of_gt hpos), sinkWrite_fail _ hw, Res.bind_raised]

theorem encodeBody_fail {s : State} {pos : Nat} {rest : List ReadAnswer} (hr : s.env.reads = .fail pos :: rest)
    (hdone : s.wDone = false) : encodeBody s = .raised .readFailed 0#64 (readFailure s pos rest) := by
  rw [encodeBody, hdone, encodeLoop, srcRead_fail _ hr]
  rfl

theorem srcRewind_fail {s : State} {pos : Nat} {rest : List RewindAnswer} (h : s.env.rewinds = .fail pos :: rest) :
    srcRewind s =
      .raised .rewindFailed 0#64 { s with env := { s.env with rewinds := rest, spos := min pos s.env.src.length } } := by
  unfold srcRewind
  rw [h]

/-- In RUN a command with legal operands whose rule raises ends with the raise (60_exceptions R222). -/
theorem exec_of_raised {i : Instr} {s u : State} {c : Cause} {info : Word64} (hf : s.fault = false)
    (hl : i.wellFormed = true) (h : ruleOf i s = .raised c info u) : exec i s = .next (u.raiseError i.opcode c info) := by
  rw [exec_eq_runCommand, hl, runCommand_runs (.inl hf), h, finish_raised]

/-- Settles O11: each of these commands makes the failing request before it writes anything, and ends with its raise. -/
theorem streamFailuresRaiseIOError : Obligations.StreamFailuresRaiseIOError := by
  refine ⟨fun s pos rest hf hr => ⟨?_, ?_, fun hdone => ?_, fun hpos hfit => ?_, fun heos hcursor => ?_⟩,
    fun s ks pos rest hf hr => ⟨fun hg => ?_, fun hg hfit => ?_⟩, fun s rest hf hw => ⟨?_, fun hpos hfit => ?_⟩,
    fun s pos rest hf hr => ?_⟩
  · exact exec_of_raised (i := .ftScan) hf rfl (Res.bind_of_raised (Res.bind_of_raised (srcRead_fail _ hr) _) _)
  · exact exec_of_raised (i := .hdrGet) hf rfl (getHeader_fail (ks := []) hr (goesOn_nil _ (by decide)))
  · exact exec_of_raised (i := .encBody) hf rfl (encodeBody_fail hr hdone)
  · exact exec_of_raised (i := .tcLoad) hf rfl (loadTree_fail (ks := []) hr (goesOn_nil _ hpos) hfit)
  · exact exec_of_raised (i := .rdBit) hf rfl (Res.bind_of_raised (readBit_refill_fails heos hcursor hr) _)
  · exact exec_of_raised (i := .hdrGet) hf rfl (getHeader_fail hr hg)
  · exact exec_of_raised (i := .tcLoad) hf rfl (loadTree_fail hr hg hfit)
  · exact exec_of_raised (i := .hdrPut) hf rfl (Res.bind_of_raised (sinkWrite_fail _ hw) _)
  · exact exec_of_raised (i := .tcStore) hf rfl (storeTree_fail hw hpos hfit)
  · exact exec_of_raised (i := .srcRewind) hf rfl (Res.bind_of_raised (srcRewind_fail hr) _)

end Sys2Proof.Machine
end

section
/-! The command word (30_encoding R91 to R97): a word decodes exactly to the row whose masked bits it matches, and each row builds
a command that encodes to the row's opcode and to the operands its format uses. -/

namespace Sys2Proof

open Sys2Proof.Laws

/-! ### The masked match (R96) -/

theorem eq_append_iff (cw : BitVec 16) (op a : BitVec 8) : cw = op ++ a ↔ op = opcodeOf cw ∧ operandOf cw = a := by
  constructor
  · rintro rfl
    exact ⟨(opcodeOf_append op a).symm, operandOf_append op a⟩
  · rintro ⟨rfl, rfl⟩
    exact (append_opcodeOf_operandOf cw).symm

/-- The high byte of a word is an opcode over a zero byte exactly when the word has that opcode. -/
theorem and_highByte_eq_iff (cw : BitVec 16) (op : BitVec 8) : cw &&& 0xFF00#16 = op ++ 0#8 ↔ op = opcodeOf cw := by
  have high : cw &&& 0xFF00#16 = opcodeOf cw ++ 0#8 := by
    conv_lhs => rw [← append_opcodeOf_operandOf cw]
    exact append_and_highByte _ _
  rw [high, eq_append_iff, opcodeOf_append, operandOf_append]
  exact and_iff_left rfl

/-- A row matches a word when the opcode is the row's and, in formats N and W, the operand byte is 0. -/
theorem matches_iff (cw : BitVec 16) (row : OpcodeRow) :
    cw &&& row.format.mask = row.opcode ++ 0#8 ↔
      row.opcode = opcodeOf cw ∧ (row.format = .n ∨ row.format = .w → operandOf cw = 0#8) := by
  have full : cw &&& 0xFFFF#16 = row.opcode ++ 0#8 ↔ row.opcode = opcodeOf cw ∧ operandOf cw = 0#8 := by
    rw [and_fullWord, eq_append_iff]
  cases hf : row.format with
  | n | w => simpa [Format.mask] using full
  | a | aw => simpa [Format.mask] using and_highByte_eq_iff cw row.opcode

/-! ### Decoding (R97) -/

/-- The table finds the row of an opcode, which is the only one, since no two rows share an opcode. -/
theorem rowOf_eq_some_iff (op : BitVec 8) (row : OpcodeRow) : rowOf op = some row ↔ row ∈ opcodeRows ∧ row.opcode = op := by
  constructor
  · intro h
    exact ⟨List.mem_of_find?_eq_some h, by simpa using List.find?_some h⟩
  · rintro ⟨hmem, rfl⟩
    cases h : rowOf row.opcode with
    | none => simpa using List.find?_eq_none.mp h row hmem
    | some found =>
      have hop : found.opcode = row.opcode := by simpa using List.find?_some h
      rw [List.inj_on_of_nodup_map opcodeRows_nodup (List.mem_of_find?_eq_some h) hmem hop]

/-- A word decodes to what a row builds exactly when the row matches the word. -/
theorem decode_eq_ok_iff (cw : BitVec 16) (w : Word64) (i : Instr) :
    decode cw w = .ok i ↔
      ∃ row ∈ opcodeRows, cw &&& row.format.mask = row.opcode ++ 0#8 ∧ row.build (operandOf cw) w = i := by
  simp only [matches_iff]
  unfold decode
  constructor
  · intro h
    split at h
    · cases h
    · rename_i row hrow
      obtain ⟨hmem, hop⟩ := (rowOf_eq_some_iff _ _).mp hrow
      split at h
      · cases h
      · rename_i hfield
        exact ⟨row, hmem, ⟨hop, fun hf => not_not.mp fun ha => hfield ⟨hf, ha⟩⟩, Except.ok.inj h⟩
  · rintro ⟨row, hmem, ⟨hop, hfield⟩, rfl⟩
    rw [(rowOf_eq_some_iff _ _).mpr ⟨hmem, hop⟩]
    exact if_neg fun ⟨hf, ha⟩ => ha (hfield hf)

theorem decode_error_of_no_match {cw : BitVec 16} (w : Word64)
    (h : ∀ row ∈ opcodeRows, cw &&& row.format.mask ≠ row.opcode ++ 0#8) : ∃ e, decode cw w = .error e := by
  cases hd : decode cw w with
  | error e => exact ⟨e, rfl⟩
  | ok i =>
    obtain ⟨row, hmem, hmatch, -⟩ := (decode_eq_ok_iff cw w i).mp hd
    exact absurd hmatch (h row hmem)

/-- Settles O2: a word decodes to what its matching row builds, and a word that decodes is matched by a row. -/
theorem decodingIsTheMaskedMatch : Obligations.DecodingIsTheMaskedMatch := fun cw w =>
  ⟨fun row hmem hmatch => (decode_eq_ok_iff cw w _).mpr ⟨row, hmem, hmatch, rfl⟩, decode_error_of_no_match w⟩

/-! ### Encoding (R91, R92) -/

/-- What a row builds encodes to the row's opcode and to the operands that the row's format uses. -/
def OpcodeRow.EncodesBack (row : OpcodeRow) : Prop :=
  ∀ a w, encode (row.build a w) =
    (row.opcode ++ (if row.format = .n ∨ row.format = .w then 0#8 else a), if row.format.usesWdata then w else 0#64)

/-- Read off the table, row by row. -/
theorem opcodeRows_encodeBack : ∀ row ∈ opcodeRows, row.EncodesBack := by
  intro row hmem
  rcases List.mem_append.mp hmem with h | h <;> fin_cases h <;> exact fun _ _ => rfl

/-- What a matching row builds from a word encodes to that word. -/
theorem encode_build_of_matches {cw : BitVec 16} {row : OpcodeRow} (w : Word64) (hmem : row ∈ opcodeRows)
    (hmatch : cw &&& row.format.mask = row.opcode ++ 0#8) :
    encode (row.build (operandOf cw) w) = (cw, if row.format.usesWdata then w else 0#64) := by
  obtain ⟨hop, hfield⟩ := (matches_iff cw row).mp hmatch
  have operand : (if row.format = .n ∨ row.format = .w then 0#8 else operandOf cw) = operandOf cw := by
    split
    · rename_i hf
      exact (hfield hf).symm
    · rfl
  rw [opcodeRows_encodeBack row hmem, operand, hop, append_opcodeOf_operandOf]

/-- The word of every command is matched by a row that builds the command from its operands. -/
theorem tableWord_statement (i : Instr) : TableWord.Statement i := by
  cases i with
  | nop => exact TableWord.nop
  | sessionReset => exact TableWord.sessionReset
  | rdreg a => exact TableWord.rdreg a
  | wrreg a w => exact TableWord.wrreg a w
  | qCreate w => exact TableWord.qCreate w
  | qInsert w => exact TableWord.qInsert w
  | qExtract => exact TableWord.qExtract
  | nodeLeaf a w => exact TableWord.nodeLeaf a w
  | nodeGet w => exact TableWord.nodeGet w
  | nodeWeight w => exact TableWord.nodeWeight w
  | ftClr => exact TableWord.ftClr
  | ftInc a => exact TableWord.ftInc a
  | ftSet a w => exact TableWord.ftSet a w
  | ftGet a => exact TableWord.ftGet a
  | ftScan => exact TableWord.ftScan
  | ftPad => exact TableWord.ftPad
  | tbBuild => exact TableWord.tbBuild
  | treeFree => exact TableWord.treeFree
  | ctGen => exact TableWord.ctGen
  | ctLen a => exact TableWord.ctLen a
  | ctWord a w => exact TableWord.ctWord a w
  | tcDump => exact TableWord.tcDump
  | tcRebuild => exact TableWord.tcRebuild
  | tcLoad => exact TableWord.tcLoad
  | tcStore => exact TableWord.tcStore
  | tbufRd w => exact TableWord.tbufRd w
  | tbufWr b w => exact TableWord.tbufWr b w
  | wrSym a => exact TableWord.wrSym a
  | wrFinal => exact TableWord.wrFinal
  | rdBit => exact TableWord.rdBit
  | hdrPut => exact TableWord.hdrPut
  | hdrGet => exact TableWord.hdrGet
  | srcRewind => exact TableWord.srcRewind
  | encBody => exact TableWord.encBody
  | decSym => exact TableWord.decSym
  | decBody => exact TableWord.decBody

@[simp] theorem decode_encode (i : Instr) : decode (encode i).1 (encode i).2 = .ok i := by
  obtain ⟨row, hmem, -, hmatch, hbuild⟩ := tableWord_statement i
  refine (decode_eq_ok_iff _ _ _).mpr ⟨row, hmem, hmatch, ?_⟩
  rw [operandOf_encode]
  exact hbuild

/-- Settles O1: the row that matches a word builds the command, and every row's command encodes back to the words it is built
from. -/
theorem decodeAndEncodeAgree : Obligations.DecodeAndEncodeAgree := by
  refine ⟨decode_encode, fun cw w i h => ?_⟩
  obtain ⟨row, hmem, hmatch, rfl⟩ := (decode_eq_ok_iff cw w i).mp h
  obtain ⟨hop, -⟩ := (matches_iff cw row).mp hmatch
  exact ⟨row, hmem, hop, encode_build_of_matches w hmem hmatch⟩

/-- Settles O3: nine concrete words, each looked up in the 36 rows of the table. -/
theorem writtenOutWordsDecode : Obligations.WrittenOutWordsDecode := by
  unfold Obligations.WrittenOutWordsDecode
  decide

end Sys2Proof
end

section
/-! One command at the port (30_encoding R90 to R99): it is taken, run or found illegal, and answered once; an answer other than
`OK` carries no data, and a refusal changes no state. -/

namespace Sys2Proof.Machine

open Sys2Proof

/-! ### The step of a command (R99) -/

/-- The state once a command has been taken from the port, with the events `rest` still to come. -/
abbrev State.withEvents (s : State) (rest : List HostEvent) : State := { s with host := { s.host with events := rest } }

theorem popEvent_of_cons {s : State} {e : HostEvent} {rest : List HostEvent} (h : s.host.events = e :: rest) :
    s.popEvent = s.withEvents rest := by
  rw [State.popEvent, h, List.tail_cons]

/-- A word that decodes is run on the state with the command taken. -/
theorem step_of_decode_ok {s : State} {cw : BitVec 16} {w : Word64} {rest : List HostEvent} {i : Instr}
    (h : s.host.events = .command cw w :: rest) (hd : decode cw w = .ok i) : step s = exec i (s.withEvents rest) := by
  rw [step, h, ← popEvent_of_cons h]
  dsimp only
  rw [hd]

/-- A word that does not decode is answered `ILLEGAL` (R97). -/
theorem step_of_decode_error {s : State} {cw : BitVec 16} {w : Word64} {rest : List HostEvent} {e : DecodeError}
    (h : s.host.events = .command cw w :: rest) (hd : decode cw w = .error e) :
    step s = .next ((s.withEvents rest).respond .illegal 0#64) := by
  rw [step, h, ← popEvent_of_cons h]
  dsimp only
  rw [hd]
  rfl

/-- Settles O4: the equation of a step whose word decodes. -/
theorem stepRunsTheDecodedCommand : Obligations.StepRunsTheDecodedCommand := fun _ _ _ _ _ => step_of_decode_ok

/-- A command with an operand out of range, when the FAULT gate lets it pass, is answered `ILLEGAL` (R98, R99). -/
theorem exec_of_illFormed {i : Instr} {s : State} (hl : i.wellFormed = false) (hf : s.fault = false ∨ runsInFault i = true) :
    exec i s = .next (s.respond .illegal 0#64) := by
  rw [exec_eq_runCommand, hl]
  rcases runCommand_cases i.opcode (runsInFault i) false (ruleOf i) s with ⟨hfault, hgate, -⟩ | ⟨-, -, e⟩ | ⟨-, hlegal, -⟩
  · simp [hfault, hgate] at hf
  · exact e
  · cases hlegal

/-- Settles O5: a word with no row does not decode, and an operand out of range is refused before the command's rule. -/
theorem illegalCommandsChangeNothing : Obligations.IllegalCommandsChangeNothing := by
  refine ⟨fun s cw w rest h hno => ?_, fun i s => exec_of_illFormed⟩
  obtain ⟨e, hd⟩ := decode_error_of_no_match w hno
  exact step_of_decode_error h hd

/-! ### What a rule may answer (R94, R95) -/

/-- An answer `a` given with the state `u` to a command that found the state `s`: it carries data only with `OK`, and a refusal
leaves the state as it was. -/
def ProperAnswer (s : State) (a : Response) (u : State) : Prop :=
  (a.status ≠ .ok → a.rdata = 0#64) ∧ (a.status = .fail ∨ a.status = .illegal ∨ a.status = .faulted → u = s)

/-- An answer without data that leaves the state alone is proper, whatever its status. -/
theorem properAnswer_self (s : State) (st : Status) : ProperAnswer s ⟨st, 0#64⟩ s := ⟨fun _ => rfl, fun _ => rfl⟩

theorem properAnswer_ok (s u : State) (v : Word64) : ProperAnswer s ⟨.ok, v⟩ u :=
  ⟨fun h => absurd rfl h, by simp⟩

theorem properAnswer_eos (s u : State) : ProperAnswer s ⟨.eos, 0#64⟩ u := ⟨fun _ => rfl, by simp⟩

/-- The status of a raise is no refusal (60_exceptions R222). -/
theorem properAnswer_raise (s u : State) (k : ErrorKind) : ProperAnswer s ⟨k.status, 0#64⟩ u :=
  ⟨fun _ => rfl, by cases k <;> simp [ErrorKind.status]⟩

/-- A rule that ends well ends in a proper answer. -/
def Res.Proper (s : State) (r : Res Response) : Prop := r.Ends (ProperAnswer s) fun _ => True

theorem answerOk_proper (s : State) (v : Word64) (u : State) : (answerOk v u).Proper s := properAnswer_ok s u v

theorem answerFail_proper (s : State) : (answerFail s).Proper s := properAnswer_self s .fail

theorem answerIllegal_proper (s : State) : (answerIllegal s).Proper s := properAnswer_self s .illegal

/-- However the first piece ends, what follows it decides the answer. -/
theorem Res.proper_bind {α : Type} {s : State} {k : α → State → Res Response} (r : Res α) (hk : ∀ v t, (k v t).Proper s) :
    (r.bind k).Proper s := by
  cases r with
  | ok v t => exact hk v t
  | raised c info t => trivial
  | stuck f => trivial

theorem Res.proper_bind_ok {α : Type} (s : State) (r : Res α) (v : α → State → Word64) (u : α → State → State) :
    (r.bind fun a t => answerOk (v a t) (u a t)).Proper s :=
  Res.proper_bind r fun _ _ => answerOk_proper s _ _

theorem buildTree_proper (s : State) : (buildTree s).Proper s := by
  unfold buildTree
  split
  · exact answerFail_proper s
  · exact Res.proper_bind _ fun _ t => Res.proper_bind _ fun _ u => Res.proper_bind_ok s _ _ _

theorem generateCodes_proper (s : State) : (generateCodes s).Proper s := by
  unfold generateCodes
  split
  · exact answerFail_proper s
  · exact Res.proper_bind_ok s _ _ _

theorem dumpTree_proper (s : State) : (dumpTree s).Proper s := by
  unfold dumpTree
  split
  · exact answerFail_proper s
  · exact Res.proper_bind_ok s _ _ _

theorem rebuildTree_proper (s : State) : (rebuildTree s).Proper s := by
  refine Res.proper_bind _ fun _ t => ?_
  split
  · exact answerOk_proper s _ _
  · trivial

theorem loadTree_proper (s : State) : (loadTree s).Proper s := by
  unfold loadTree
  dsimp only
  split
  · trivial
  · refine Res.proper_bind _ fun d t => ?_
    split
    · trivial
    · exact answerOk_proper s _ _

theorem storeTree_proper (s : State) : (storeTree s).Proper s := by
  unfold storeTree
  split
  · trivial
  · split
    · exact answerOk_proper s _ _
    · exact Res.proper_bind_ok s _ _ _

theorem writeSym_proper (a : Sym) (s : State) : (writeSym a s).Proper s := by
  unfold writeSym
  split
  · exact answerFail_proper s
  · split
    · exact answerFail_proper s
    · exact Res.proper_bind_ok s _ _ _

theorem finalize_proper (s : State) : (finalize s).Proper s := by
  unfold finalize
  dsimp only
  split
  · exact answerFail_proper s
  · split
    · trivial
    · split
      · exact answerOk_proper s _ _
      · exact Res.proper_bind_ok s _ _ _

theorem getHeader_proper (s : State) : (getHeader s).Proper s := by
  refine Res.proper_bind _ fun d t => ?_
  split
  · trivial
  · split
    · trivial
    · exact answerOk_proper s _ _

theorem encodeBody_proper (s : State) : (encodeBody s).Proper s := by
  unfold encodeBody
  split
  · exact answerFail_proper s
  · exact Res.proper_bind_ok s _ _ _

theorem decodeBody_proper (s : State) : (decodeBody s).Proper s := by
  unfold decodeBody
  split
  · exact answerFail_proper s
  · exact Res.proper_bind_ok s _ _ _

/-- Every rule refuses before it has written anything, and gives data with `OK` only. -/
theorem ruleOf_proper (i : Instr) (s : State) : (ruleOf i s).Proper s := by
  cases i with
  | nop | sessionReset | qCreate v | ftClr | ftSet a v | ftGet a | ftPad | treeFree | ctLen a | ctWord a k | tbufWr b v =>
    exact answerOk_proper s _ _
  | rdreg a | wrreg a v =>
    simp only [ruleOf]
    split
    · exact answerOk_proper s _ _
    · exact answerIllegal_proper s
  | nodeGet v | nodeWeight v | tbufRd v =>
    simp only [ruleOf]
    split
    · exact answerFail_proper s
    · exact answerOk_proper s _ _
  | qInsert v | qExtract | decSym =>
    simp only [ruleOf]
    split
    · exact answerFail_proper s
    · exact Res.proper_bind_ok s _ _ _
  | nodeLeaf a w | ftInc a | ftScan | hdrPut | srcRewind => exact Res.proper_bind_ok s _ _ _
  | tbBuild => exact buildTree_proper s
  | ctGen => exact generateCodes_proper s
  | tcDump => exact dumpTree_proper s
  | tcRebuild => exact rebuildTree_proper s
  | tcLoad => exact loadTree_proper s
  | tcStore => exact storeTree_proper s
  | wrSym a => exact writeSym_proper a s
  | wrFinal => exact finalize_proper s
  | rdBit =>
    refine Res.proper_bind _ fun b t => ?_
    cases b with
    | none => exact properAnswer_eos s t
    | some b => exact answerOk_proper s _ _
  | hdrGet => exact getHeader_proper s
  | encBody => exact encodeBody_proper s
  | decBody => exact decodeBody_proper s

/-! ### The one response of a command (R90) -/

/-- `t` is a state that kept the port of `s`, with one response given, and that response is a proper answer. -/
def AnswersOnce (s t : State) : Prop := ∃ a u, t = u.respond a.status a.rdata ∧ u.host = s.host ∧ ProperAnswer s a u

/-- A refusal by the decoder, the FAULT gate or the operand check changes nothing but the port. -/
theorem answersOnce_refusal (s : State) (st : Status) : AnswersOnce s (s.respond st 0#64) :=
  ⟨⟨st, 0#64⟩, s, rfl, rfl, properAnswer_self s st⟩

theorem exec_answersOnce {i : Instr} {s t : State} (h : exec i s = .next t) : AnswersOnce s t := by
  have kept := ruleOf_kept i s
  have proper := ruleOf_proper i s
  rw [exec_eq_runCommand] at h
  rcases runCommand_cases i.opcode (runsInFault i) i.wellFormed (ruleOf i) s with ⟨-, -, e⟩ | ⟨-, -, e⟩ | ⟨-, -, e⟩ <;>
    rw [e] at h
  · cases h
    exact answersOnce_refusal s .faulted
  · cases h
    exact answersOnce_refusal s .illegal
  · rcases finish_eq_next h with ⟨a, u, hr, rfl⟩ | ⟨c, info, u, hr, rfl⟩ <;> rw [hr] at kept proper <;>
      obtain ⟨-, hport, -⟩ := kept
    · exact ⟨a, u, rfl, hport, proper⟩
    · exact ⟨⟨c.kind.status, 0#64⟩, u.recordError i.opcode c info, rfl, hport, properAnswer_raise s _ c.kind⟩

/-- A step that takes a command answers it once, whether the word decodes or not. -/
theorem step_answersOnce {s t : State} {cw : BitVec 16} {w : Word64} {rest : List HostEvent}
    (he : s.host.events = .command cw w :: rest) (h : step s = .next t) : AnswersOnce (s.withEvents rest) t := by
  cases hd : decode cw w with
  | error e =>
    rw [step_of_decode_error he hd] at h
    cases h
    exact answersOnce_refusal _ .illegal
  | ok i =>
    rw [step_of_decode_ok he hd] at h
    exact exec_answersOnce h

/-- Settles O7: the rule's answer, or the refusal before it, is the one response, and each is proper. -/
theorem everyCommandGetsOneResponse : Obligations.EveryCommandGetsOneResponse := by
  intro s t cw w rest he h
  obtain ⟨a, u, rfl, hport, hdata, hrefused⟩ := step_answersOnce he h
  refine ⟨a, ?_, hdata, fun hst => ?_⟩
  · rw [State.respond_host, hport]
  · rw [hrefused hst]
    rfl

end Sys2Proof.Machine
end

section
/-! The row of a command word at its opcode (30_encoding R97), and what a command answers once the FAULT gate has let it pass or
has held it back (R99). -/

namespace Sys2Proof

/-- An opcode's row decodes every operand byte its format allows. -/
theorem decode_append {op a : BitVec 8} {w : Word64} {row : OpcodeRow} {i : Instr} (hrow : rowOf op = some row)
    (ha : row.format = .n ∨ row.format = .w → a = 0#8) (hi : row.build a w = i) : decode (op ++ a) w = .ok i := by
  obtain ⟨hmem, hop⟩ := (rowOf_eq_some_iff op row).mp hrow
  refine (decode_eq_ok_iff _ _ _).mpr ⟨row, hmem, (matches_iff _ _).mpr ?_, ?_⟩
  · rw [opcodeOf_append, operandOf_append]
    exact ⟨hop, ha⟩
  · rw [operandOf_append]
    exact hi

/-- In formats N and W the operand byte must be 0 (R92). -/
theorem decode_append_reserved {op a : BitVec 8} {row : OpcodeRow} (w : Word64) (hrow : rowOf op = some row)
    (hf : row.format = .n ∨ row.format = .w) (ha : a ≠ 0#8) : decode (op ++ a) w = .error .reservedFieldNonZero := by
  rw [decode, opcodeOf_append, hrow, operandOf_append]
  exact if_pos ⟨hf, ha⟩

namespace Machine

/-- A command that may run, with legal operands, ends as its rule does. -/
theorem exec_of_runs {i : Instr} {s : State} (hf : s.fault = false ∨ runsInFault i = true) (hl : i.wellFormed = true) :
    exec i s = finish i.opcode (ruleOf i s) := by
  rw [exec_eq_runCommand, hl]
  exact runCommand_runs hf

/-- The FAULT gate comes before the operand check. -/
theorem exec_of_gated {i : Instr} {s : State} (hf : s.fault = true) (hi : runsInFault i = false) :
    exec i s = .next (s.respond .faulted 0#64) := by
  rw [exec_eq_runCommand, runCommand, hf, hi]
  rfl

end Machine
end Sys2Proof
end

section
/-! The system commands (40_system R120 to R123): the register map is a finite table, looked up by `RDREG` and `WRREG`. -/

namespace Sys2Proof.Machine

open Sys2Proof

/-! ### NOP and SESSION_RESET (R120, R121) -/

/-- The response does not touch the block's state, so an answered session reset is still a reset state. -/
theorem respond_sessionReset (s : State) (st : Status) (v : Word64) :
    s.sessionReset.respond st v =
      State.resetWith s.params s.env { s.host with responses := s.host.responses ++ [⟨st, v⟩] } := rfl

/-- Settles O22: both commands pass the FAULT gate, and what SESSION_RESET answers is a reset state over the same parameters and
streams. -/
theorem nopAndSessionReset : Obligations.NopAndSessionReset := by
  refine ⟨fun w => ?_, fun s => exec_of_runs (.inr rfl) rfl, fun w => ?_, fun w => ?_, fun s => ?_⟩
  · exact decode_append (op := 0x00#8) (a := 0x00#8) rfl (fun _ => rfl) rfl
  · exact decode_append_reserved (op := 0x00#8) (a := 0x01#8) w rfl (.inl rfl) (by decide)
  · exact decode_append (op := 0x01#8) (a := 0x00#8) rfl (fun _ => rfl) rfl
  · refine ⟨s.sessionReset.respond .ok 0#64, exec_of_runs (.inr rfl) rfl, ?_, rfl, rfl, rfl⟩
    rw [respond_sessionReset]
    exact resetWith_values _ _ _

/-! ### The register map (10_state R39, R40) -/

theorem mem_regMap_of_regOfNum {a : BitVec 8} {r : Reg} (h : regOfNum a = some r) : (a, r) ∈ regMap := by
  obtain ⟨⟨n, r'⟩, hfind, rfl⟩ := Option.map_eq_some_iff.mp h
  have hn : n = a := by simpa using List.find?_some hfind
  exact hn ▸ List.mem_of_find?_eq_some hfind

theorem regOfNum_eq_none {a : BitVec 8} (h : ∀ row ∈ regMap, row.1 ≠ a) : regOfNum a = none := by
  cases hr : regOfNum a with
  | none => rfl
  | some r => exact absurd rfl (h (a, r) (mem_regMap_of_regOfNum hr))

/-- The numbers below 0x22 that R39's table leaves out. -/
def regGaps : List (BitVec 8) :=
  [0x06#8, 0x07#8, 0x0B#8, 0x0E#8, 0x0F#8, 0x14#8, 0x15#8, 0x16#8, 0x17#8, 0x1B#8]

theorem regMap_avoids_gaps : ∀ row ∈ regMap, row.1 ∉ regGaps ∧ row.1.toNat < 0x22 := by decide

theorem regOfNum_of_gap {a : BitVec 8} (h : a ∈ regGaps ∨ 0x22 ≤ a.toNat) : regOfNum a = none := by
  refine regOfNum_eq_none fun row hmem hrow => ?_
  obtain ⟨hgap, hlt⟩ := regMap_avoids_gaps row hmem
  rw [hrow] at hgap hlt
  exact h.elim hgap (Nat.not_le_of_lt hlt)

/-! ### RDREG (R122) -/

theorem exec_rdreg {a : BitVec 8} (r : Reg) (s : State) (h : regOfNum a = some r) :
    exec (.rdreg a) s = .next (s.respond .ok (readReg s r)) := by
  have hl : (Instr.rdreg a).wellFormed = true := by rw [Instr.wellFormed, rdregLegal, h]; rfl
  rw [exec_of_runs (.inr rfl) hl, ruleOf, h, finish_answerOk]

theorem exec_rdreg_unmapped {a : BitVec 8} (s : State) (h : regOfNum a = none) :
    exec (.rdreg a) s = .next (s.respond .illegal 0#64) := by
  refine exec_of_illFormed ?_ (.inr rfl)
  rw [Instr.wellFormed, rdregLegal, h]
  rfl

/-- Settles O23: each number of the table is looked up in it, and a number in a gap or beyond the table is not found. -/
theorem rdregReadsTheRegisterMap : Obligations.RdregReadsTheRegisterMap := by
  refine ⟨fun a w => decode_append rfl nofun rfl, fun s => ?_⟩
  exact ⟨exec_rdreg .id s rfl, exec_rdreg .status s rfl, exec_rdreg .errKind s rfl, exec_rdreg .errCause s rfl,
    exec_rdreg .errInfo s rfl, exec_rdreg .errOp s rfl, exec_rdreg .qcap s rfl, exec_rdreg .qsize s rfl,
    exec_rdreg .ssize s rfl, exec_rdreg .nodeNext s rfl, exec_rdreg .root s rfl, exec_rdreg .fileSize s rfl,
    exec_rdreg .hPerm s rfl, exec_rdreg .hTreeSize s rfl, exec_rdreg .tlen s rfl, exec_rdreg .wCursor s rfl,
    exec_rdreg .wTotal s rfl, exec_rdreg .bytesWritten s rfl, exec_rdreg .rCursor s rfl, exec_rdreg .rLen s rfl,
    exec_rdreg .rTotal s rfl, exec_rdreg .bytesRead s rfl, exec_rdreg .emitted s rfl, exec_rdreg .dcur s rfl,
    fun _ ha => exec_rdreg_unmapped s (regOfNum_of_gap ha)⟩

/-! ### WRREG (R123) -/

/-- The registers that R40 lets the host write. -/
def writableRegs : List Reg := [.fileSize, .hPerm, .hTreeSize, .tlen]

theorem mem_writableRegs_of_regAccepts {r : Reg} {v : Word64} (h : regAccepts r v = true) : r ∈ writableRegs := by
  cases r with
  | fileSize | hPerm | hTreeSize | tlen => decide
  | _ => cases h

theorem regMap_writable_range : ∀ row ∈ regMap, row.2 ∈ writableRegs → 0x10 ≤ row.1.toNat ∧ row.1.toNat ≤ 0x13 := by decide

theorem wrregLegal_of_regOfNum {a : BitVec 8} {r : Reg} (v : Word64) (h : regOfNum a = some r) :
    wrregLegal a v = regAccepts r v := by
  rw [wrregLegal, h]

/-- Every writable register has a number from 0x10 to 0x13. -/
theorem wrregLegal_eq_false {a : BitVec 8} (v : Word64) (ha : a.toNat < 0x10 ∨ 0x13 < a.toNat) : wrregLegal a v = false := by
  cases hr : regOfNum a with
  | none => rw [wrregLegal, hr]
  | some r =>
    rw [wrregLegal_of_regOfNum v hr, Bool.eq_false_iff]
    intro hv
    have hrange := regMap_writable_range _ (mem_regMap_of_regOfNum hr) (mem_writableRegs_of_regAccepts hv)
    dsimp only at hrange
    omega

theorem exec_wrreg {a : BitVec 8} (r : Reg) {s : State} {v : Word64} (hf : s.fault = false) (hr : regOfNum a = some r)
    (hv : regAccepts r v = true) : exec (.wrreg a v) s = .next ((writeReg s r v).respond .ok 0#64) := by
  have hl : (Instr.wrreg a v).wellFormed = true := (wrregLegal_of_regOfNum v hr).trans hv
  rw [exec_of_runs (.inl hf) hl, ruleOf, hr, finish_answerOk]

/-- A value beyond a register's range is refused. -/
theorem exec_wrreg_rejected {a : BitVec 8} (r : Reg) {s : State} {v : Word64} (hf : s.fault = false)
    (hr : regOfNum a = some r) (hv : regAccepts r v = false) : exec (.wrreg a v) s = .next (s.respond .illegal 0#64) :=
  exec_of_illFormed ((wrregLegal_of_regOfNum v hr).trans hv) (.inl hf)

/-- Settles O25: the FAULT gate first, then the range of each writable register; every other number is refused. -/
theorem wrregWritesTheWritableRegisters : Obligations.WrregWritesTheWritableRegisters := by
  refine ⟨fun a w => decode_append rfl nofun rfl, fun s v => ⟨fun hf a => exec_of_gated hf rfl, fun hf => ?_⟩⟩
  refine ⟨exec_wrreg .fileSize hf rfl rfl, fun hv => ?_, fun hv => ?_, fun hv => ?_, fun hv => ?_, fun a ha => ?_⟩
  · have hfits : decide (v.toNat ≤ 0xFFFF) = true := decide_eq_true hv
    exact ⟨exec_wrreg .hPerm hf rfl hfits, exec_wrreg .hTreeSize hf rfl hfits⟩
  · exact exec_wrreg .tlen hf rfl (decide_eq_true hv)
  · have hwide : decide (v.toNat ≤ 0xFFFF) = false := decide_eq_false (Nat.not_le_of_lt hv)
    exact ⟨exec_wrreg_rejected .hPerm hf rfl hwide, exec_wrreg_rejected .hTreeSize hf rfl hwide⟩
  · exact exec_wrreg_rejected .tlen hf rfl (decide_eq_false (Nat.not_le_of_lt hv))
  · exact exec_of_illFormed (wrregLegal_eq_false v ha) (.inl hf)

end Sys2Proof.Machine
end

section
/-! The queue stays within its capacity, of allocated nodes and sorted by weight (10_state R27, 41_queue R130, R137): an insertion
goes to the one place the order allows, and a slot taken changes no weight. -/

namespace Sys2Proof.Machine

open Sys2Proof

/-! ### The place of an insertion (41_queue R130) -/

/-- No entry of the list is heavier than `w`. -/
abbrev NoneAbove (s : State) (w : Word64) (l : List NodeId) : Prop := ∀ m ∈ l, ∀ wm, weightOf s m = some wm → wm ≤ w

/-- Every entry of the list is heavier than `w`. -/
abbrev AllAbove (s : State) (w : Word64) (l : List NodeId) : Prop := ∀ m ∈ l, ∀ wm, weightOf s m = some wm → w < wm

/-- The entries are in rising order of weight (10_state R27). -/
abbrev RisingWeights (s : State) (l : List NodeId) : Prop :=
  l.Pairwise fun m n => ∀ wm wn, weightOf s m = some wm → weightOf s n = some wn → wm ≤ wn

theorem insertPos_cons {s : State} {w : Word64} {m : NodeId} {l : List NodeId} {p : Nat}
    (h : insertPos s w (m :: l) = some p) :
    ∃ wm q, weightOf s m = some wm ∧ insertPos s w l = some q ∧ p = if wm ≤ w then q + 1 else q := by
  rw [insertPos] at h
  split at h
  · rename_i wm q hm hq
    exact ⟨wm, q, hm, hq, (Option.some.inj h).symm⟩
  · cases h

/-- Before heavier entries only, the place is the front. -/
theorem insertPos_of_allAbove {s : State} {w : Word64} (l : List NodeId) :
    ∀ p, AllAbove s w l → insertPos s w l = some p → p = 0 := by
  induction l with
  | nil => exact fun p _ h => (Option.some.inj h).symm
  | cons m l ih =>
    intro p habove h
    obtain ⟨wm, q, hm, hq, rfl⟩ := insertPos_cons h
    have hlt : w < wm := habove m List.mem_cons_self wm hm
    rw [if_neg (BitVec.not_le.mpr hlt)]
    exact ih q (fun n hn => habove n (List.mem_cons_of_mem _ hn)) hq

/-- In a sorted queue the place has the entries of lower or equal weight in front of it and the heavier ones behind it: once an
entry is heavier, so are all after it. -/
theorem insertPos_splits {s : State} {w : Word64} (l : List NodeId) :
    ∀ p, RisingWeights s l → insertPos s w l = some p → NoneAbove s w (l.take p) ∧ AllAbove s w (l.drop p) := by
  induction l with
  | nil => exact fun p _ _ => by simp [NoneAbove, AllAbove]
  | cons m l ih =>
    intro p hl h
    obtain ⟨wm, q, hm, hq, rfl⟩ := insertPos_cons h
    obtain ⟨hhead, htail⟩ := List.pairwise_cons.mp hl
    by_cases hle : wm ≤ w
    · obtain ⟨hbefore, hafter⟩ := ih q htail hq
      have hmle : ∀ wm', weightOf s m = some wm' → wm' ≤ w := by
        intro wm' hm'
        cases hm.symm.trans hm'
        exact hle
      rw [if_pos hle, List.take_succ_cons, List.drop_succ_cons]
      exact ⟨List.forall_mem_cons.mpr ⟨hmle, hbefore⟩, hafter⟩
    · have habove : AllAbove s w (m :: l) := by
        have hlt : w < wm := BitVec.not_le.mp hle
        intro n hn wn hwn
        rcases List.mem_cons.mp hn with rfl | hn
        · cases hm.symm.trans hwn
          exact hlt
        · exact Nat.lt_of_lt_of_le hlt (hhead n hn wm wn hm hwn)
      rw [insertPos_of_allAbove _ _ habove h]
      exact ⟨nofun, habove⟩

/-! ### The operations on the queue and the pool -/

/-- `t` is `s` with the node queued behind every entry of lower or equal weight and before every heavier one (41_queue R130). -/
def QueuedInOrder (n : NodeId) (s t : State) : Prop :=
  ∃ w before after, weightOf s n = some w ∧ s.q = before ++ after ∧ NoneAbove s w before ∧ AllAbove s w after
    ∧ t = { s with q := before ++ n :: after }

/-- Everything `q_insert` can do to a sorted queue: it puts the node in its place when there is room, or raises and changes
nothing. -/
theorem qInsert_inOrder (n : NodeId) {s : State} (hs : RisingWeights s s.q) :
    (qInsert n s).Ends (fun _ t => s.q.length ≠ s.qcap.toNat ∧ QueuedInOrder n s t) fun t => t = s := by
  unfold qInsert
  split
  · rfl
  · rename_i hroom
    split
    · trivial
    · rename_i w hw
      split
      · trivial
      · rename_i p hp
        obtain ⟨hbefore, hafter⟩ := insertPos_splits s.q p hs hp
        exact ⟨hroom, w, s.q.take p, s.q.drop p, hw, (List.take_append_drop p s.q).symm, hbefore, hafter, rfl⟩

theorem toNat_lt_of_weightOf {s : State} {n : NodeId} {w : Word64} (h : weightOf s n = some w) :
    n.toNat < s.nodes.length := by
  obtain ⟨nd, hnd, -⟩ := Option.map_eq_some_iff.mp h
  exact (List.getElem?_eq_some_iff.mp hnd).1

theorem QueuedInOrder.queueInv {n : NodeId} {s t : State} (h : QueuedInOrder n s t) (hroom : s.q.length ≠ s.qcap.toNat)
    (hs : QueueInv s) : QueueInv t := by
  obtain ⟨w, before, after, hw, hq, hbefore, hafter, rfl⟩ := h
  obtain ⟨hmin, hmax, hlen, halloc, hsorted⟩ := hs
  rw [hq] at hroom hlen halloc hsorted
  obtain ⟨hsortedB, hsortedA, hcross⟩ := List.pairwise_append.mp hsorted
  rw [List.length_append] at hroom hlen
  have hlen' : (before ++ n :: after).length ≤ s.qcap.toNat := by
    rw [List.length_append, List.length_cons]
    omega
  refine ⟨hmin, hmax, hlen', fun m hm => ?_, List.pairwise_append.mpr
    ⟨hsortedB, List.pairwise_cons.mpr ⟨fun m hm wn wm hwn hwm => ?_, hsortedA⟩, fun k hk m hm wk wm hwk hwm => ?_⟩⟩
  · rcases List.mem_cons.mp (List.perm_middle.subset hm) with rfl | hm
    · exact toNat_lt_of_weightOf hw
    · exact halloc m hm
  · cases hw.symm.trans hwn
    exact BitVec.le_of_lt (hafter m hm wm hwm)
  · rcases List.mem_cons.mp hm with rfl | hm
    · cases hw.symm.trans hwm
      exact hbefore k hk wk hwk
    · exact hcross k hk m hm wk wm hwk hwm

theorem qInsert_queueInv (n : NodeId) {s : State} (hs : QueueInv s) : (qInsert n s).All QueueInv := by
  obtain ⟨-, -, -, -, hsorted⟩ := id hs
  refine Res.Ends.all ((qInsert_inOrder n hsorted).mono ?_ ?_)
  · rintro _ t ⟨hroom, ht⟩
    exact ht.queueInv hroom hs
  · rintro _ rfl
    exact hs

theorem qExtract_queueInv {s : State} (hs : QueueInv s) : (qExtract s).All QueueInv := by
  unfold qExtract
  split
  · trivial
  · rename_i n rest hq
    obtain ⟨hmin, hmax, hlen, halloc, hsorted⟩ := hs
    rw [hq] at hlen halloc hsorted
    exact ⟨hmin, hmax, Nat.le_of_succ_le hlen, fun m hm => halloc m (List.mem_cons_of_mem _ hm), hsorted.of_cons⟩

/-- A slot taken leaves the queued nodes allocated and their weights as they were (10_state R24). -/
theorem alloc_queueInv (nd : Node) {s : State} (hs : QueueInv s) : (alloc nd s).All QueueInv := by
  rcases alloc_cases nd s with ⟨-, e⟩ | ⟨-, e⟩ <;> rw [e]
  · exact hs
  · obtain ⟨hmin, hmax, hlen, halloc, hsorted⟩ := hs
    refine ⟨hmin, hmax, hlen, fun n hn => ?_, hsorted.imp_of_mem fun hm hn h => ?_⟩
    · have := halloc n hn
      simp only [List.length_append]
      omega
    · rw [weightOf_append nd (halloc _ hm), weightOf_append nd (halloc _ hn)]
      exact h

/-! ### Commands that empty the queue -/

/-- The queue is empty, with a capacity in the range of R137. -/
abbrev QueueEmptied (s : State) : Prop := s.q = [] ∧ 1 ≤ s.qcap.toNat ∧ s.qcap.toNat ≤ 256

theorem QueueEmptied.queueInv {s : State} (h : QueueEmptied s) : QueueInv s := by
  obtain ⟨hq, hmin, hmax⟩ := h
  unfold QueueInv
  rw [hq]
  exact ⟨hmin, hmax, Nat.zero_le _, nofun, List.Pairwise.nil⟩

theorem queueEmptied_dependsOn : DependsOn [.queue, .qcap] QueueEmptied := by
  intro s t _ _ h hs
  have hq : t.q = s.q := h .queue (by decide)
  have hqcap : t.qcap = s.qcap := h .qcap (by decide)
  unfold QueueEmptied at hs ⊢
  rw [hq, hqcap]
  exact hs

theorem releaseTree_queueEmptied {s : State} (hs : QueueInv s) : QueueEmptied s.releaseTree := by
  obtain ⟨hmin, hmax, -⟩ := hs
  exact ⟨rfl, hmin, hmax⟩

/-- A rebuild releases the tree and does not touch the queue again (44_tree_codec R166). -/
theorem rebuildTree_queueInv {s : State} (hs : QueueInv s) : (rebuildTree s).All QueueInv := by
  refine Res.all_mono (fun _ h => QueueEmptied.queueInv h) ?_
  refine Res.keeps_bind (queueEmptied_dependsOn.all_of_kept (rebuildLoop_kept _ 0 _) (by decide)
    (releaseTree_queueEmptied hs)) fun _ t ht => ?_
  split <;> exact ht

theorem toNat_capacity {v : Word64} (h : v.toNat ≤ 256) : (v.setWidth 9).toNat = v.toNat := by
  rw [BitVec.toNat_setWidth]
  exact Nat.mod_eq_of_lt (by omega)

theorem capacityLegal_iff (v : Word64) : capacityLegal v = true ↔ 1 ≤ v.toNat ∧ v.toNat ≤ 256 := by
  simp [capacityLegal]

/-! ### The queue of a build (42_tree_builder R146) -/

theorem insertLeaves_queueInv (l : List Sym) : ∀ s, QueueInv s → (insertLeaves l s).All QueueInv := by
  induction l with
  | nil => exact fun _ hs => hs
  | cons a l ih =>
    intro s hs
    unfold insertLeaves
    split
    · exact ih s hs
    · exact Res.keeps_bind (alloc_queueInv _ hs) fun n t ht =>
        Res.keeps_bind (qInsert_queueInv n ht) fun _ u hu => ih u hu

theorem combineStep_queueInv (s : State) (hs : QueueInv s) : (combineStep s).All QueueInv := by
  refine Res.keeps_bind (qExtract_queueInv hs) fun a t ht => Res.keeps_bind (qExtract_queueInv ht) fun b u hu => ?_
  split
  · split
    · exact hu
    · exact Res.keeps_bind (alloc_queueInv _ hu) fun n v hv => qInsert_queueInv n hv
  · trivial

theorem combineLoop_queueInv (f : Nat) : ∀ s, QueueInv s → (combineLoop f s).All QueueInv := by
  induction f with
  | zero =>
    intro s hs
    unfold combineLoop
    split
    · trivial
    · exact hs
  | succ f ih =>
    intro s hs
    unfold combineLoop
    split
    · exact Res.keeps_bind (combineStep_queueInv s hs) fun _ t ht => ih t ht
    · exact hs

theorem buildTree_queueInv {s : State} (hs : QueueInv s) : (buildTree s).All QueueInv := by
  unfold buildTree
  split
  · exact hs
  · have hslots : 1 ≤ queueSlots.toNat ∧ queueSlots.toNat ≤ 256 := by decide
    have start : QueueEmptied { s.releaseTree with qcap := queueSlots } := ⟨rfl, hslots⟩
    exact Res.keeps_bind (insertLeaves_queueInv allSyms _ start.queueInv) fun _ t ht =>
      Res.keeps_bind (combineLoop_queueInv _ t ht) fun _ u hu =>
        Res.keeps_bind (qExtract_queueInv hu) fun r v hv => hv

/-! ### Every command -/

theorem queueInv_dependsOn : DependsOn [.pool, .queue, .qcap] QueueInv := by
  intro s t _ _ h hs
  have hnodes : t.nodes = s.nodes := h .pool (by decide)
  have hq : t.q = s.q := h .queue (by decide)
  have hqcap : t.qcap = s.qcap := h .qcap (by decide)
  unfold QueueInv weightOf nodeAt at hs ⊢
  rw [hnodes, hq, hqcap]
  exact hs

theorem queueInv_stable : StepStable QueueInv QueueInv where
  rule i s hs hl := by
    refine Res.All.ends ?_
    by_cases hw : ∀ sp ∈ [Space.pool, .queue, .qcap], sp ∉ writes i
    · exact queueInv_dependsOn.ruleOf_all hs hw
    · cases i with
      | sessionReset => exact resetWith_queueInv _ _ _
      | qCreate v =>
        have hv := (capacityLegal_iff v).mp hl
        rw [← toNat_capacity hv.2] at hv
        exact QueueEmptied.queueInv (s := { s with qcap := v.setWidth 9, q := [] }) ⟨rfl, hv⟩
      | qInsert v =>
        simp only [ruleOf]
        split
        · exact hs
        · exact Res.keeps_bind (qInsert_queueInv _ hs) fun _ _ ht => ht
      | qExtract =>
        simp only [ruleOf]
        split
        · exact hs
        · exact Res.keeps_bind (qExtract_queueInv hs) fun _ _ ht => ht
      | nodeLeaf a w => exact Res.keeps_bind (alloc_queueInv _ hs) fun _ _ ht => ht
      | tbBuild => exact buildTree_queueInv hs
      | treeFree => exact (releaseTree_queueEmptied hs).queueInv
      | tcRebuild => exact rebuildTree_queueInv hs
      | _ => simp [writes] at hw
  raise _ _ _ _ hs := hs
  port _ _ hs := hs
  source _ _ _ hs := hs
  reset _ _ := resetWith_queueInv _ _ _

/-- Settles O15: an insertion is made with room left and in its place, an extraction keeps the order of the rest, and every other
write of the queue empties it. -/
theorem stepKeepsQueueInv : Obligations.StepKeepsQueueInv := fun _ _ => queueInv_stable.step

end Sys2Proof.Machine
end

section
/-! The queue and node commands (41_queue R131 to R136): each is its rule, whose queue and pool operations are known by their own
lemmas. -/

namespace Sys2Proof.Machine

open Sys2Proof

/-! ### Node id operands (30_encoding R93, R98) -/

theorem toNat_nodeIdOf {v : Word64} (h : v.toNat < 512) : (nodeIdOf v).toNat = v.toNat := by
  rw [nodeIdOf, BitVec.toNat_setWidth]
  exact Nat.mod_eq_of_lt h

/-- A legal node id, as the 64 bits an error records or a command answers, is the operand. -/
theorem setWidth_nodeIdOf {v : Word64} (h : v.toNat < 512) : (nodeIdOf v).setWidth 64 = v := by
  apply BitVec.eq_of_toNat_eq
  rw [BitVec.toNat_setWidth, toNat_nodeIdOf h]
  exact Nat.mod_eq_of_lt v.isLt

theorem nodeAt_nodeIdOf (s : State) {v : Word64} (h : v.toNat < 512) : nodeAt s (nodeIdOf v) = s.nodes[v.toNat]? := by
  rw [nodeAt, toNat_nodeIdOf h]

theorem weightOf_nodeIdOf (s : State) {v : Word64} (h : v.toNat < 512) :
    weightOf s (nodeIdOf v) = s.nodes[v.toNat]?.map Node.weight := by
  rw [weightOf, nodeAt_nodeIdOf s h]

/-! ### Q_CREATE (R131) -/

/-- Settles O26: a legal capacity fits the 9 bits of `QCAP` and is not 0, the size of the new queue; any other is refused. -/
theorem qCreateEmptiesTheQueue : Obligations.QCreateEmptiesTheQueue := by
  refine ⟨fun w => decode_append (op := 0x10#8) (a := 0x00#8) rfl (fun _ => rfl) rfl, fun s v hf => ⟨fun hmin hmax => ?_,
    fun hout => exec_of_illFormed ?_ (.inl hf)⟩⟩
  · refine ⟨exec_of_runs (i := .qCreate v) (.inl hf) ((capacityLegal_iff v).mpr ⟨hmin, hmax⟩), rfl, ?_⟩
    have hcap := toNat_capacity hmax
    exact beq_eq_false_iff_ne.mpr (show 0 ≠ (v.setWidth 9).toNat by omega)
  · rw [Instr.wellFormed, Bool.eq_false_iff, ne_eq, capacityLegal_iff]
    omega

/-! ### Q_INSERT (R132) -/

theorem exec_qInsert {s : State} {v : Word64} (hf : s.fault = false) (hv : v.toNat < 512) :
    exec (.qInsert v) s = finish 0x11#8 (ruleOf (.qInsert v) s) := exec_of_runs (.inl hf) (decide_eq_true hv)

/-- An absent node is refused before the capacity is looked at (60_exceptions R227). -/
theorem qInsert_rule_absent {s : State} {v : Word64} (hv : v.toNat < 512) (h : s.nodes.length ≤ v.toNat) :
    ruleOf (.qInsert v) s = answerFail s := if_pos ((toNat_nodeIdOf hv).symm ▸ h)

theorem qInsert_rule_allocated {s : State} {v : Word64} (hv : v.toNat < 512) (h : v.toNat < s.nodes.length) :
    ruleOf (.qInsert v) s = (qInsert (nodeIdOf v) s).bind fun _ s => answerOk 0#64 s :=
  if_neg (Nat.not_le_of_lt ((toNat_nodeIdOf hv).symm ▸ h))

theorem qInsert_full {s : State} (n : NodeId) (h : s.q.length = s.qcap.toNat) :
    qInsert n s = .raised .queueFull (n.setWidth 64) s := if_pos h

/-- Settles O27: the two tests of the rule in their order, then the place the sorted queue has for the node. -/
theorem qInsertKeepsTheOrder : Obligations.QInsertKeepsTheOrder := by
  refine ⟨fun w => decode_append (op := 0x11#8) (a := 0x00#8) rfl (fun _ => rfl) rfl, fun s v hf hv => ⟨fun habs => ?_,
    fun halloc hfull => ?_, fun halloc hroom hs => ?_⟩⟩
  · rw [exec_qInsert hf hv, qInsert_rule_absent hv habs, finish_answerFail]
  · rw [exec_qInsert hf hv, qInsert_rule_allocated hv halloc, qInsert_full _ hfull, setWidth_nodeIdOf hv]
    rfl
  · obtain ⟨-, -, -, hentries, hsorted⟩ := hs
    obtain ⟨p, -, hok⟩ := qInsert_ok ((toNat_nodeIdOf hv).symm ▸ halloc) hroom hentries
    have horder := qInsert_inOrder (nodeIdOf v) hsorted
    rw [hok] at horder
    obtain ⟨-, w, before, after, hw, hq, hbefore, hafter, ht⟩ := horder
    refine ⟨w, before, after, hw, hq, hbefore, hafter, ?_⟩
    rw [exec_qInsert hf hv, qInsert_rule_allocated hv halloc, hok, ht]
    rfl

/-! ### Q_EXTRACT (R133) -/

/-- Settles O28: the entry taken is the first, which in a sorted queue no other undercuts. -/
theorem qExtractTakesTheLowest : Obligations.QExtractTakesTheLowest := by
  intro s hf
  have hexec : exec .qExtract s = finish 0x12#8 (ruleOf .qExtract s) := exec_of_runs (.inl hf) rfl
  refine ⟨fun hq => ?_, fun n rest hq => ⟨?_, fun hs => ?_⟩⟩
  · have hrule : ruleOf .qExtract s = answerFail s := if_pos (List.length_eq_zero_iff.mpr hq)
    rw [hexec, hrule, finish_answerFail]
  · have hne : s.q.length ≠ 0 := by simp [hq]
    have hrule : ruleOf .qExtract s = (qExtract s).bind fun n s => answerOk (n.setWidth 64) s := if_neg hne
    rw [hexec, hrule, qExtract_cons hq, Res.bind_ok, finish_answerOk]
  · obtain ⟨-, -, -, -, hsorted⟩ := hs
    rw [hq] at hsorted
    obtain ⟨hlowest, -⟩ := List.pairwise_cons.mp hsorted
    exact hlowest

/-! ### The packing of a node (R135) -/

/-- Bits put above others weigh as much more as the others have values. -/
theorem toNat_append_eq {m n : Nat} (x : BitVec m) (y : BitVec n) : (x ++ y).toNat = 2 ^ n * x.toNat + y.toNat := by
  rw [BitVec.toNat_append, ← Nat.shiftLeft_add_eq_or_of_lt y.isLt, Nat.shiftLeft_eq, Nat.mul_comm]

/-- `kind` at bit 0, `sym` from bit 1, `left` from bit 9 and `right` from bit 18. -/
theorem toNat_nodeFields (nd : Node) :
    (nodeFields nd).toNat =
      nd.kindBit.toNat + 2 * nd.symField.toNat + 2 ^ 9 * nd.leftField.toNat + 2 ^ 18 * nd.rightField.toNat := by
  rw [nodeFields, toNat_append_eq, toNat_append_eq, toNat_append_eq]
  omega

theorem nodeFields_word (nd : Node) :
    (nodeFields nd).setWidth 64 =
      BitVec.ofNat 64
        (nd.kindBit.toNat + 2 * nd.symField.toNat + 2 ^ 9 * nd.leftField.toNat + 2 ^ 18 * nd.rightField.toNat) := by
  rw [← BitVec.ofNat_toNat, toNat_nodeFields]

/-- A leaf packs kind 0 and two absent children. -/
theorem nodeFields_leaf_word (a : Sym) (w : Word64) :
    (nodeFields (.leaf a w)).setWidth 64 = BitVec.ofNat 64 (2 * a.toNat + 2 ^ 9 * 0x1FF + 2 ^ 18 * 0x1FF) := by
  rw [nodeFields_word]
  simp [Node.kindBit, Node.symField, Node.leftField, Node.rightField, nil]

/-- An Internal node packs kind 1 and no symbol. -/
theorem nodeFields_internal_word (w : Word64) (l r : NodeId) :
    (nodeFields (.internal w l r)).setWidth 64 = BitVec.ofNat 64 (1 + 2 ^ 9 * l.toNat + 2 ^ 18 * r.toNat) := by
  rw [nodeFields_word]
  simp [Node.kindBit, Node.symField, Node.leftField, Node.rightField]

/-! ### NODE_GET and NODE_WEIGHT (R135, R136) -/

theorem exec_nodeGet {s : State} {v : Word64} (hv : v.toNat < 512) :
    exec (.nodeGet v) s =
      .next (match s.nodes[v.toNat]? with
        | none => s.respond .fail 0#64
        | some nd => s.respond .ok ((nodeFields nd).setWidth 64)) := by
  rw [exec_of_runs (i := .nodeGet v) (.inr rfl) (decide_eq_true hv)]
  simp only [ruleOf, nodeAt_nodeIdOf s hv]
  cases s.nodes[v.toNat]? <;> rfl

theorem exec_nodeWeight {s : State} {v : Word64} (hv : v.toNat < 512) :
    exec (.nodeWeight v) s =
      .next (match s.nodes[v.toNat]? with
        | none => s.respond .fail 0#64
        | some nd => s.respond .ok nd.weight) := by
  rw [exec_of_runs (i := .nodeWeight v) (.inr rfl) (decide_eq_true hv)]
  simp only [ruleOf, weightOf_nodeIdOf s hv]
  cases s.nodes[v.toNat]? <;> rfl

/-! ### NODE_LEAF (R134) -/

theorem setWidth_nextId {nodes : List Node} (h : nodes.length < nodeMax) :
    (BitVec.ofNat 9 nodes.length).setWidth 64 = BitVec.ofNat 64 nodes.length := by
  rw [← BitVec.ofNat_toNat, toNat_nextId h]

theorem exec_nodeLeaf {s : State} (a : Sym) (w : Word64) (hf : s.fault = false) :
    exec (.nodeLeaf a w) s = finish 0x13#8 ((alloc (.leaf a w) s).bind fun n s => answerOk (n.setWidth 64) s) :=
  exec_of_runs (.inl hf) rfl

/-- Settles O29: `alloc` has the two ends of NODE_LEAF, and the reads look the operand up in the pool. -/
theorem nodesAreMadeAndRead : Obligations.NodesAreMadeAndRead := by
  refine ⟨fun a w => decode_append rfl nofun rfl, fun w => decode_append (op := 0x14#8) (a := 0x00#8) rfl (fun _ => rfl) rfl,
    fun w => decode_append (op := 0x15#8) (a := 0x00#8) rfl (fun _ => rfl) rfl, fun s a w hf => ?_,
    fun s v hv => ⟨fun h => ?_, fun a w h => ?_, fun w l r h => ?_⟩⟩
  · rw [exec_nodeLeaf a w hf]
    rcases alloc_cases (.leaf a w) s with ⟨hfull, e⟩ | ⟨hroom, e⟩ <;> rw [e]
    · exact ⟨fun hlt => absurd hfull (Nat.ne_of_lt hlt), fun _ => rfl⟩
    · refine ⟨fun hlt => ?_, fun hfull => absurd hfull hroom⟩
      rw [Res.bind_ok, finish_answerOk, setWidth_nextId hlt]
  · rw [exec_nodeGet hv, exec_nodeWeight hv, h]
    exact ⟨rfl, rfl⟩
  · rw [exec_nodeGet hv, exec_nodeWeight hv, h, ← nodeFields_leaf_word a w]
    exact ⟨rfl, rfl⟩
  · rw [exec_nodeGet hv, exec_nodeWeight hv, h, ← nodeFields_internal_word w l r]
    exact ⟨rfl, rfl⟩

end Sys2Proof.Machine
end

section
/-! The frequency table (42_tree_builder R140 to R145) and the release of a tree (R147): what each command makes of one count,
and how many counts the padding leaves non-zero. -/

namespace Sys2Proof.Machine

open Sys2Proof

/-- What starts with a piece that ends well goes on from there. -/
theorem Res.bind_of_ok {α β : Type} {r : Res α} {v : α} {t : State} (h : r = .ok v t) (k : α → State → Res β) :
    r.bind k = k v t := by
  rw [h, Res.bind_ok]

theorem Res.bind_assoc {α β γ : Type} (r : Res α) (k : α → State → Res β) (l : β → State → Res γ) :
    (r.bind k).bind l = r.bind fun v t => (k v t).bind l := by
  cases r <;> rfl

/-- In RUN a command with legal operands whose rule ends well gives the rule's answer (30_encoding R99). -/
theorem exec_of_ok {i : Instr} {s u : State} {a : Response} (hf : s.fault = false) (hl : i.wellFormed = true)
    (h : ruleOf i s = .ok a u) : exec i s = .next (u.respond a.status a.rdata) := by
  rw [exec_of_runs (.inl hf) hl, h, finish_ok]

/-! ### FT_CLR, FT_SET and FT_GET (R140, R142, R143) -/

/-- Settles O30: each command is one operation on the table, whose reads are the laws of a table by symbol. -/
theorem frequencyTableReadsAndWrites : Obligations.FrequencyTableReadsAndWrites := by
  refine ⟨fun w => decode_append (op := 0x20#8) (a := 0x00#8) rfl (fun _ => rfl) rfl, fun a w => decode_append rfl nofun rfl,
    fun a w => decode_append rfl nofun rfl, fun s a v => ⟨exec_of_runs (i := .ftGet a) (.inr rfl) rfl, fun hf => ⟨?_, ?_⟩⟩⟩
  · exact ⟨_, exec_of_runs (i := .ftClr) (.inl hf) rfl, symGet_replicate _, rfl⟩
  · exact ⟨_, exec_of_runs (i := .ftSet a v) (.inl hf) rfl, symGet_symSet_same _ _ _, fun b => symGet_symSet_other _ _ b _, rfl⟩

/-! ### FT_INC (R141) -/

theorem eq_allOnes_iff (x : Word64) : x = BitVec.allOnes 64 ↔ x.toNat + 1 = 2 ^ 64 := by
  rw [← BitVec.toNat_inj, BitVec.toNat_allOnes]
  omega

theorem toNat_add_ofNat {x : Word64} {k : Nat} (h : x.toNat + k < 2 ^ 64) : (x + BitVec.ofNat 64 k).toNat = x.toNat + k := by
  rw [BitVec.toNat_add, BitVec.toNat_ofNat, Nat.add_mod_mod, Nat.mod_eq_of_lt h]

/-- The state with one occurrence of a symbol more counted. -/
abbrev countedOnce (b : Byte) (s : State) : State :=
  { s with ft := symSet s.ft b (symGet s.ft b + 1#64), fileSize := s.fileSize + 1#64 }

theorem countByte_of_lt {b : Byte} {s : State} (hb : (symGet s.ft b).toNat + 1 < 2 ^ 64)
    (hsize : s.fileSize.toNat + 1 < 2 ^ 64) : countByte b s = .ok () (countedOnce b s) := by
  rcases countByte_cases b s with ⟨hmax, -⟩ | ⟨-, -, e⟩
  · rw [eq_allOnes_iff, eq_allOnes_iff] at hmax
    omega
  · exact e

theorem countByte_of_max {b : Byte} {s : State} (h : (symGet s.ft b).toNat + 1 = 2 ^ 64 ∨ s.fileSize.toNat + 1 = 2 ^ 64) :
    countByte b s = .raised .countOverflow (b.setWidth 64) s := by
  rw [← eq_allOnes_iff, ← eq_allOnes_iff] at h
  exact if_pos h

/-- Settles O31: both counters have room, or one of them stands at its end. -/
theorem ftIncCountsOrOverflows : Obligations.FtIncCountsOrOverflows := by
  refine ⟨fun a w => decode_append rfl nofun rfl, fun s a hf => ⟨fun hb hsize => ?_, fun hmax => ?_⟩⟩
  · refine ⟨(countedOnce a s).respond .ok 0#64, ?_, ?_, fun b hb => symGet_symSet_other _ _ b _ hb, toNat_add_ofNat hsize, rfl⟩
    · exact exec_of_ok (i := .ftInc a) hf rfl (Res.bind_of_ok (countByte_of_lt hb hsize) _)
    · rw [State.respond_ft, symGet_symSet_same]
      exact toNat_add_ofNat hb
  · exact exec_of_raised (i := .ftInc a) hf rfl (Res.bind_of_raised (countByte_of_max hmax) _)

/-! ### FT_PAD (R145) -/

theorem symGet_forceCount (a b : Sym) (s : State) :
    symGet (forceCount a s).ft b = if b = a ∧ symGet s.ft a = 0#64 then 1#64 else symGet s.ft b := by
  unfold forceCount
  split
  · rename_i hzero
    simp [symGet_symSet, hzero]
  · rename_i hcounted
    simp [hcounted]

theorem symGet_padCounts (a : Sym) (s : State) :
    symGet (padCounts s).ft a =
      if (countedSyms s).length < 2 ∧ (a = 0#8 ∨ a = 1#8) ∧ symGet s.ft a = 0#64 then 1#64 else symGet s.ft a := by
  have hlen : nonZeroCounts s = (countedSyms s).length := rfl
  unfold padCounts
  rw [hlen]
  split
  · rename_i hfew
    rw [symGet_forceCount, symGet_forceCount, symGet_forceCount]
    by_cases h0 : a = 0#8
    · subst h0
      simp [hfew]
    · by_cases h1 : a = 1#8
      · subst h1
        simp [hfew]
      · simp [h0, h1]
  · rename_i hmany
    simp [hmany]

theorem padCounts_eq (s : State) : padCounts s = { s with ft := (padCounts s).ft } := by
  unfold padCounts forceCount
  split_ifs <;> rfl

theorem allSyms_eq : allSyms = 0#8 :: 1#8 :: allSyms.drop 2 := rfl

theorem nodup_allSyms : allSyms.Nodup := by
  refine List.Nodup.map_on (fun i hi j hj h => ?_) List.nodup_range
  have hi := List.mem_range.mp hi
  have hj := List.mem_range.mp hj
  simpa [← BitVec.toNat_inj, Nat.mod_eq_of_lt hi, Nat.mod_eq_of_lt hj] using h

/-- How many symbols from 2 on have a non-zero count. -/
def countedFromTwo (s : State) : Nat := (allSyms.drop 2).countP fun a => symGet s.ft a != 0#64

/-- The symbols 0 and 1 are counted apart from the others. -/
theorem countedSyms_length (s : State) :
    (countedSyms s).length =
      countedFromTwo s + (if symGet s.ft 1#8 = 0#64 then 0 else 1) + (if symGet s.ft 0#8 = 0#64 then 0 else 1) := by
  rw [countedSyms, ← List.countP_eq_length_filter, allSyms_eq, List.countP_cons, List.countP_cons]
  simp [countedFromTwo]

theorem countedFromTwo_padCounts (s : State) : countedFromTwo (padCounts s) = countedFromTwo s := by
  have hnodup := nodup_allSyms
  rw [allSyms_eq, List.nodup_cons, List.nodup_cons] at hnodup
  obtain ⟨h0, h1, -⟩ := hnodup
  refine List.countP_congr fun a ha => ?_
  have ne0 : a ≠ 0#8 := fun e => h0 (List.mem_cons_of_mem _ (e ▸ ha))
  have ne1 : a ≠ 1#8 := fun e => h1 (e ▸ ha)
  rw [symGet_padCounts]
  simp [ne0, ne1]

/-- With fewer than two counts the padding leaves both 0 and 1 counted. -/
theorem countedSyms_padCounts_of_few {s : State} (hfew : (countedSyms s).length < 2) :
    (countedSyms (padCounts s)).length = countedFromTwo s + 2 := by
  have forced : ∀ a : Sym, a = 0#8 ∨ a = 1#8 → symGet (padCounts s).ft a ≠ 0#64 := by
    intro a ha
    rw [symGet_padCounts]
    by_cases hzero : symGet s.ft a = 0#64 <;> simp [hfew, ha, hzero]
  rw [countedSyms_length, countedFromTwo_padCounts, if_neg (forced 1#8 (.inr rfl)), if_neg (forced 0#8 (.inl rfl))]

theorem countedSyms_padCounts_length (s : State) :
    (countedSyms (padCounts s)).length =
      if (countedSyms s).length = 1 ∧ symGet s.ft 0#8 = 0#64 ∧ symGet s.ft 1#8 = 0#64 then 3
      else max 2 (countedSyms s).length := by
  by_cases hfew : (countedSyms s).length < 2
  · have hlen := countedSyms_length s
    rw [countedSyms_padCounts_of_few hfew]
    by_cases h0 : symGet s.ft 0#8 = 0#64
    · by_cases h1 : symGet s.ft 1#8 = 0#64
      · simp only [h0, h1, if_true, and_self, and_true] at hlen ⊢
        split <;> omega
      · simp only [h0, h1, if_true, if_false, and_false] at hlen ⊢
        omega
    · simp only [h0, if_false, false_and, and_false] at hlen ⊢
      split at hlen <;> omega
  · have hsame : padCounts s = s := if_neg hfew
    rw [hsame, if_neg (by omega), Nat.max_eq_right (by omega)]

/-- Settles O33: the padding writes at most the counts of 0 and 1, and the other counts stay as many as they were. -/
theorem ftPadEstablishesTwoCounts : Obligations.FtPadEstablishesTwoCounts := by
  refine ⟨fun w => decode_append (op := 0x25#8) (a := 0x00#8) rfl (fun _ => rfl) rfl, fun s hf => ?_⟩
  refine ⟨(padCounts s).respond .ok (BitVec.ofNat 64 (nonZeroCounts (padCounts s))), exec_of_runs (i := .ftPad) (.inl hf) rfl,
    fun a => symGet_padCounts a s, countedSyms_padCounts_length s, ?_⟩
  exact congrArg (fun u : State => u.respond .ok (BitVec.ofNat 64 (nonZeroCounts (padCounts s)))) (padCounts_eq s)

/-! ### TREE_FREE (R147) -/

/-- Settles O38: the flags are read off the released state. -/
theorem treeFreeReleasesThePool : Obligations.TreeFreeReleasesThePool := by
  refine ⟨fun w => decode_append (op := 0x27#8) (a := 0x00#8) rfl (fun _ => rfl) rfl, fun s hf => ?_⟩
  refine ⟨_, exec_of_runs (i := .treeFree) (.inl hf) rfl, rfl, rfl, rfl, fun hcap => ?_, rfl⟩
  exact beq_eq_false_iff_ne.mpr (Nat.ne_of_lt hcap)

end Sys2Proof.Machine
end

section
/-! FT_SCAN (42_tree_builder R144): one round reads a chunk of the source and counts it, and counting is the same however the
bytes are cut into chunks. -/

namespace Sys2Proof.Machine

open Sys2Proof

/-! ### Counting bytes (R144) -/

/-- A frequency table with the occurrences in a sequence of bytes added. -/
def tableCounting (ft : Vector Word64 256) : List Byte → Vector Word64 256
  | [] => ft
  | b :: bytes => tableCounting (symSet ft b (symGet ft b + 1#64)) bytes

theorem tableCounting_append (p q : List Byte) : ∀ ft, tableCounting ft (p ++ q) = tableCounting (tableCounting ft p) q := by
  induction p with
  | nil => exact fun _ => rfl
  | cons b p ih => exact fun ft => ih _

theorem symGet_tableCounting (a : Sym) (bytes : List Byte) :
    ∀ ft, symGet (tableCounting ft bytes) a = symGet ft a + BitVec.ofNat 64 (bytes.count a) := by
  induction bytes with
  | nil => intro ft; simp [tableCounting]
  | cons b bytes ih =>
    intro ft
    rw [tableCounting, ih, symGet_symSet]
    by_cases hab : a = b
    · subst hab
      rw [if_pos rfl, List.count_cons_self, BitVec.add_assoc, BitVec.add_comm 1#64, ← BitVec.ofNat_add]
    · rw [if_neg hab, List.count_cons_of_ne (Ne.symm hab)]

/-- The state with these bytes counted, and the source at a position, with these answers still to come. -/
def scanned (s : State) (bytes : List Byte) (pos : Nat) (reads : List ReadAnswer) : State :=
  { s with
    ft := tableCounting s.ft bytes
    fileSize := s.fileSize + BitVec.ofNat 64 bytes.length
    env := { s.env with spos := pos, reads := reads } }

theorem scanned_nil (s : State) : scanned s [] s.env.spos s.env.reads = s := by simp [scanned, tableCounting]

theorem scanned_scanned (s : State) (p q : List Byte) (pos pos' : Nat) (reads reads' : List ReadAnswer) :
    scanned (scanned s p pos reads) q pos' reads' = scanned s (p ++ q) pos' reads' := by
  simp only [scanned, tableCounting_append, List.length_append, BitVec.ofNat_add, BitVec.add_assoc]

/-- The counts of these bytes, and their number, fit 64 bits on top of what is counted. -/
abbrev CountsFit (s : State) (bytes : List Byte) : Prop :=
  (∀ a, (symGet s.ft a).toNat + bytes.count a < 2 ^ 64) ∧ s.fileSize.toNat + bytes.length < 2 ^ 64

/-- One more byte finds its count, or `FILE_SIZE`, at its end. -/
abbrev CountEnds (s : State) (bytes : List Byte) (b : Byte) : Prop :=
  (symGet s.ft b).toNat + bytes.count b + 1 = 2 ^ 64 ∨ s.fileSize.toNat + bytes.length + 1 = 2 ^ 64

theorem CountsFit.left {s : State} {p q : List Byte} (h : CountsFit s (p ++ q)) : CountsFit s p := by
  obtain ⟨hcount, hsize⟩ := h
  refine ⟨fun a => ?_, ?_⟩
  · have := hcount a
    rw [List.count_append] at this
    omega
  · rw [List.length_append] at hsize
    omega

/-- What is counted adds up. -/
theorem toNat_scanned_count {s : State} {p : List Byte} (pos : Nat) (reads : List ReadAnswer) (h : CountsFit s p) (a : Sym) :
    (symGet (scanned s p pos reads).ft a).toNat = (symGet s.ft a).toNat + p.count a := by
  rw [scanned, symGet_tableCounting]
  exact toNat_add_ofNat (h.1 a)

theorem toNat_scanned_fileSize {s : State} {p : List Byte} (pos : Nat) (reads : List ReadAnswer) (h : CountsFit s p) :
    (scanned s p pos reads).fileSize.toNat = s.fileSize.toNat + p.length := toNat_add_ofNat h.2

theorem CountsFit.right {s : State} {p q : List Byte} (pos : Nat) (reads : List ReadAnswer) (h : CountsFit s (p ++ q)) :
    CountsFit (scanned s p pos reads) q := by
  obtain ⟨hcount, hsize⟩ := id h
  refine ⟨fun a => ?_, ?_⟩
  · rw [toNat_scanned_count pos reads h.left, Nat.add_assoc, ← List.count_append]
    exact hcount a
  · rw [toNat_scanned_fileSize pos reads h.left, Nat.add_assoc, ← List.length_append]
    exact hsize

theorem CountEnds.right {s : State} {p q : List Byte} {b : Byte} (pos : Nat) (reads : List ReadAnswer) (hp : CountsFit s p)
    (h : CountEnds s (p ++ q) b) : CountEnds (scanned s p pos reads) q b := by
  rw [CountEnds, toNat_scanned_count pos reads hp, toNat_scanned_fileSize pos reads hp]
  rw [CountEnds, List.count_append, List.length_append] at h
  omega

theorem countBytes_of_fit (bytes : List Byte) :
    ∀ {s}, CountsFit s bytes → countBytes bytes s = .ok () (scanned s bytes s.env.spos s.env.reads) := by
  induction bytes with
  | nil => intro s _; rw [scanned_nil]; rfl
  | cons b bytes ih =>
    intro s hfit
    have hb : (symGet s.ft b).toNat + 1 < 2 ^ 64 := by
      have := hfit.1 b
      rw [List.count_cons_self] at this
      omega
    have hsize : s.fileSize.toNat + 1 < 2 ^ 64 := by
      have := hfit.2
      rw [List.length_cons] at this
      omega
    have hrest : CountsFit (countedOnce b s) bytes := CountsFit.right (p := [b]) s.env.spos s.env.reads hfit
    rw [countBytes, countByte_of_lt hb hsize, Res.bind_ok, ih hrest]
    exact congrArg (Res.ok ()) (scanned_scanned s [b] bytes s.env.spos _ s.env.reads _)

theorem countBytes_append (p q : List Byte) : ∀ s, countBytes (p ++ q) s = (countBytes p s).bind fun _ t => countBytes q t := by
  induction p with
  | nil => exact fun _ => rfl
  | cons b p ih =>
    intro s
    rw [List.cons_append, countBytes, countBytes, Res.bind_assoc]
    exact congrArg (Res.bind _) (funext fun _ => funext ih)

theorem countBytes_of_end {s : State} {before : List Byte} {b : Byte} (after : List Byte) (hfit : CountsFit s before)
    (hend : CountEnds s before b) :
    countBytes (before ++ b :: after) s =
      .raised .countOverflow (b.setWidth 64) (scanned s before s.env.spos s.env.reads) := by
  have hmax := CountEnds.right (q := []) s.env.spos s.env.reads hfit (by rwa [List.append_nil])
  rw [countBytes_append, countBytes_of_fit before hfit, Res.bind_ok, countBytes]
  exact Res.bind_of_raised (countByte_of_max hmax) _

/-! ### One round (R144) -/

theorem srcRest_length (s : State) : (srcRest s).length = srcLeft s := List.length_drop

/-- After a chunk the rest of the source is what follows the chunk. -/
theorem srcRest_scanned (s : State) (d : List Byte) (reads : List ReadAnswer) :
    srcRest (scanned s d (s.env.spos + d.length) reads) = (srcRest s).drop d.length := by
  simp [srcRest, scanned, List.drop_drop]

/-- A chunk read: the next bytes of the source, at least one while there are any. -/
structure ChunkRead (s : State) (d rest : List Byte) (more : List ReadAnswer) : Prop where
  reads : srcRead s.params.blockBytes s = .ok d (readDelivery s more d.length)
  splits : srcRest s = d ++ rest
  nonempty : srcRest s ≠ [] → d ≠ []

theorem take_ne_nil {α : Type} {l : List α} {m : Nat} (hm : 1 ≤ m) (hl : l ≠ []) : l.take m ≠ [] := by
  simp only [ne_eq, List.take_eq_nil_iff, not_or]
  exact ⟨by omega, hl⟩

/-- When no prepared read fails, a read gives a chunk (20_memory R63). -/
theorem exists_chunkRead {s : State} (hasks : 1 ≤ s.params.blockBytes) (h : ReadsDeliver s) :
    ∃ d rest, ChunkRead s d rest s.env.reads.tail := by
  obtain ⟨m, -, hm, hread⟩ := srcRead_ok s.params.blockBytes h
  exact ⟨_, _, hread, (List.take_append_drop m _).symm, take_ne_nil (hm hasks)⟩

/-- A prepared delivery of up to `k` bytes gives a chunk of that size, or all that is left (20_memory R63). -/
theorem exists_chunkRead_of_deliver {s : State} {k : Nat} {more : List ReadAnswer} (hasks : 1 ≤ s.params.blockBytes)
    (h : s.env.reads = .deliver k :: more) :
    ∃ d rest, ChunkRead s d rest more ∧ d.length = min (min (max 1 k) s.params.blockBytes) (srcRest s).length := by
  refine ⟨_, _, ⟨?_, (List.take_append_drop (min (max 1 k) s.params.blockBytes) _).symm, take_ne_nil (by omega)⟩,
    List.length_take⟩
  unfold srcRead
  rw [h]
  rfl

/-- The state behind a chunk, with the chunk counted. -/
abbrev scannedChunk (s : State) (d : List Byte) (more : List ReadAnswer) : State := scanned s d (s.env.spos + d.length) more

theorem ChunkRead.srcRest_behind {s : State} {d rest : List Byte} {more : List ReadAnswer} (h : ChunkRead s d rest more) :
    srcRest (scannedChunk s d more) = rest := by
  rw [srcRest_scanned, h.splits, List.drop_left]

theorem ChunkRead.length_behind {s : State} {d rest : List Byte} {more : List ReadAnswer} (h : ChunkRead s d rest more) :
    (srcRest s).length - d.length = rest.length := by
  rw [h.splits, List.length_append, Nat.add_sub_cancel_left]

/-- Behind a chunk less of the source is left. -/
theorem ChunkRead.srcLeft_lt {s : State} {d rest : List Byte} {more : List ReadAnswer} (h : ChunkRead s d rest more)
    (hd : d ≠ []) : srcLeft (scannedChunk s d more) < srcLeft s := by
  have hpos := List.length_pos_iff.mpr hd
  rw [← srcRest_length, ← srcRest_length, h.srcRest_behind, h.splits, List.length_append]
  omega

theorem ChunkRead.round_eq {s : State} {d rest : List Byte} {more : List ReadAnswer} (h : ChunkRead s d rest more)
    (hd : d ≠ []) (f n : Nat) :
    scanLoop (f + 1) n s =
      (countBytes d (readDelivery s more d.length)).bind fun _ t => scanLoop f (n + d.length) t := by
  rw [scanLoop, h.reads, Res.bind_ok, if_neg hd]

/-- A round whose chunk can be counted goes on behind the chunk. -/
theorem ChunkRead.round {s : State} {d rest : List Byte} {more : List ReadAnswer} (h : ChunkRead s d rest more)
    (hd : d ≠ []) (hfit : CountsFit s d) (f n : Nat) :
    scanLoop (f + 1) n s = scanLoop f (n + d.length) (scannedChunk s d more) := by
  rw [h.round_eq hd, countBytes_of_fit (s := readDelivery s more d.length) d hfit]
  rfl

/-- A round whose chunk brings a count to its end raises, with what came before it in the chunk counted. -/
theorem ChunkRead.overflow {s : State} {before after rest : List Byte} {b : Byte} {more : List ReadAnswer}
    (h : ChunkRead s (before ++ b :: after) rest more) (hfit : CountsFit s before) (hend : CountEnds s before b) (f n : Nat) :
    scanLoop (f + 1) n s =
      .raised .countOverflow (b.setWidth 64) (scanned s before (s.env.spos + (before ++ b :: after).length) more) := by
  rw [h.round_eq (by simp), countBytes_of_end (s := readDelivery s more _) after hfit hend]
  rfl

/-- A round at the end of the source ends the scan. -/
theorem scanLoop_at_end {s : State} (hasks : 1 ≤ s.params.blockBytes) (h : ReadsDeliver s) (hrest : srcRest s = [])
    (f n : Nat) :
    scanLoop (f + 1) n s = .ok n (scanned s [] s.env.spos s.env.reads.tail) := by
  obtain ⟨d, rest, hchunk⟩ := exists_chunkRead hasks h
  obtain ⟨rfl, -⟩ := List.append_eq_nil_iff.mp (hchunk.splits.symm.trans hrest)
  rw [scanLoop, hchunk.reads, Res.bind_ok, if_pos rfl]
  simp [scanned, tableCounting, readDelivery]

/-! ### The whole scan (R144) -/

/-- However the reads are cut, the scan counts all that is left of the source. -/
theorem scanLoop_counts_all (f : Nat) : ∀ n s, 1 ≤ s.params.blockBytes → ReadsDeliver s → srcLeft s < f →
    CountsFit s (srcRest s) → ∃ reads, scanLoop f n s =
      .ok (n + (srcRest s).length) (scanned s (srcRest s) (s.env.spos + (srcRest s).length) reads) := by
  induction f with
  | zero => exact fun _ _ _ _ hlt => absurd hlt (Nat.not_lt_zero _)
  | succ f ih =>
    intro n s hasks hdel hlt hfit
    by_cases hrest : srcRest s = []
    · rw [scanLoop_at_end hasks hdel hrest, hrest]
      exact ⟨_, rfl⟩
    · obtain ⟨d, rest, hchunk⟩ := exists_chunkRead hasks hdel
      have hd := hchunk.nonempty hrest
      rw [hchunk.splits] at hfit ⊢
      have hless := hchunk.srcLeft_lt hd
      obtain ⟨reads, hloop⟩ := ih (n + d.length) (scannedChunk s d s.env.reads.tail) hasks
        (fun r hr => hdel r (List.mem_of_mem_tail hr)) (by omega) (hchunk.srcRest_behind ▸ hfit.right _ _)
      refine ⟨reads, ?_⟩
      rw [hchunk.round hd hfit.left, hloop, hchunk.srcRest_behind, scanned_scanned, List.length_append, ← Nat.add_assoc,
        ← Nat.add_assoc]
      rfl

/-- The scan raises at the first byte that brings a count to its end, in whichever chunk it comes. -/
theorem scanLoop_stops_at_overflow {b : Byte} {after : List Byte} (f : Nat) : ∀ n s before, 1 ≤ s.params.blockBytes →
    ReadsDeliver s → srcLeft s < f → srcRest s = before ++ b :: after → CountsFit s before → CountEnds s before b →
    ∃ pos reads, s.env.spos + before.length < pos ∧ pos ≤ s.env.spos + (srcRest s).length ∧ scanLoop f n s =
      .raised .countOverflow (b.setWidth 64) (scanned s before pos reads) := by
  induction f with
  | zero => exact fun _ _ _ _ _ hlt => absurd hlt (Nat.not_lt_zero _)
  | succ f ih =>
    intro n s before hasks hdel hlt hrest hfit hend
    obtain ⟨d, rest, hchunk⟩ := exists_chunkRead hasks hdel
    have hd := hchunk.nonempty (by simp [hrest])
    have next : ∀ more, before = d ++ more → rest = more ++ b :: after →
        ∃ pos reads, s.env.spos + before.length < pos ∧ pos ≤ s.env.spos + (srcRest s).length ∧ scanLoop (f + 1) n s =
          .raised .countOverflow (b.setWidth 64) (scanned s before pos reads) := by
      rintro more rfl hmore
      have hless := hchunk.srcLeft_lt hd
      obtain ⟨pos, reads, hlo, hhi, hloop⟩ := ih (n + d.length) (scannedChunk s d s.env.reads.tail) more hasks
        (fun r hr => hdel r (List.mem_of_mem_tail hr)) (by omega) (hchunk.srcRest_behind.trans hmore) (hfit.right _ _)
        (hend.right _ _ hfit.left)
      have hpos : (scannedChunk s d s.env.reads.tail).env.spos = s.env.spos + d.length := rfl
      rw [hchunk.srcRest_behind] at hhi
      rw [hchunk.splits, List.length_append, List.length_append]
      refine ⟨pos, reads, by omega, by omega, ?_⟩
      rw [hchunk.round hd hfit.left, hloop, scanned_scanned]
    rcases List.append_eq_append_iff.mp (hchunk.splits.symm.trans hrest) with ⟨more, hbefore, hmore⟩ | ⟨more, hmore, htail⟩
    · exact next more hbefore hmore
    · cases more with
      | nil => exact next [] (by simpa using hmore.symm) (by simpa using htail.symm)
      | cons b' more =>
        obtain ⟨rfl, -⟩ := List.cons.inj htail
        subst hmore
        refine ⟨_, _, ?_, ?_, hchunk.overflow hfit hend f n⟩
        · rw [List.length_append, List.length_cons]
          omega
        · rw [hchunk.splits, List.length_append (bs := rest)]
          omega

/-! ### A read that fails (20_memory R63) -/

/-- The first of several deliveries that each find a byte, `m` bytes long: what it leaves, and what the others still deliver. -/
theorem eachDelivers_cons {n left k m : Nat} {ks : List Nat} (hm : m = min (min (max 1 k) n) left)
    (h : EachDelivers n left (k :: ks)) :
    1 ≤ left ∧ EachDelivers n (left - m) ks ∧ delivered n left (k :: ks) = m + delivered n (left - m) ks := by
  have hinit := h.resolve_left (List.cons_ne_nil _ _)
  refine ⟨by omega, ?_, ?_⟩
  · cases ks with
    | nil => exact .inl rfl
    | cons k' ks =>
      rw [List.dropLast_cons_of_ne_nil (List.cons_ne_nil _ _), delivered_cons] at hinit
      refine .inr ?_
      rw [delivered]
      omega
  · rw [delivered_cons, delivered]
    omega

/-- The bytes of the source that come before the read that fails (20_memory R63). -/
abbrev bytesBefore (s : State) (ks : List Nat) : List Byte :=
  (srcRest s).take (delivered s.params.blockBytes (srcRest s).length ks)

/-- The bytes before the failing read are the first chunk and those behind it. -/
theorem bytesBefore_cons {s : State} {d rest : List Byte} {more : List ReadAnswer} {k : Nat} {ks : List Nat}
    (h : ChunkRead s d rest more) (hlen : d.length = min (min (max 1 k) s.params.blockBytes) (srcRest s).length)
    (heach : EachDelivers s.params.blockBytes (srcRest s).length (k :: ks)) :
    bytesBefore s (k :: ks) = d ++ bytesBefore (scannedChunk s d more) ks := by
  obtain ⟨-, -, hdel⟩ := eachDelivers_cons hlen heach
  rw [bytesBefore, hdel, h.length_behind, h.splits, List.take_length_add_append, bytesBefore, h.srcRest_behind]
  rfl

/-- The scan counts the chunks delivered and raises at the read that fails. -/
theorem scanLoop_stops_at_failure {pos : Nat} {rest : List ReadAnswer} (ks : List Nat) : ∀ f n s, 1 ≤ s.params.blockBytes →
    srcLeft s < f → ReadsFailAfter s ks pos rest → EachDelivers s.params.blockBytes (srcRest s).length ks →
    CountsFit s (bytesBefore s ks) →
    scanLoop f n s = .raised .readFailed 0#64 (scanned s (bytesBefore s ks) (min pos s.env.src.length) rest) := by
  induction ks with
  | nil =>
    intro f n s _ hlt hr _ _
    obtain ⟨f, rfl⟩ : ∃ m, f = m + 1 := ⟨f - 1, by omega⟩
    rw [scanLoop, bytesBefore, delivered_nil, List.take_zero]
    refine (Res.bind_of_raised (srcRead_fail _ hr) _).trans ?_
    simp [scanned, tableCounting]
  | cons k ks ih =>
    intro f n s hasks hlt hr heach hfit
    obtain ⟨f, rfl⟩ : ∃ m, f = m + 1 := ⟨f - 1, by omega⟩
    obtain ⟨d, behind, hchunk, hlen⟩ :=
      exists_chunkRead_of_deliver (more := ks.map ReadAnswer.deliver ++ .fail pos :: rest) hasks hr
    obtain ⟨hleft, heach', -⟩ := eachDelivers_cons hlen heach
    have hd := hchunk.nonempty (List.length_pos_iff.mp hleft)
    have hless := hchunk.srcLeft_lt hd
    rw [bytesBefore_cons hchunk hlen heach] at hfit ⊢
    rw [hchunk.length_behind, ← hchunk.srcRest_behind] at heach'
    rw [hchunk.round hd hfit.left, ih f _ (scannedChunk s d _) hasks (by omega) rfl heach' (hfit.right _ _), scanned_scanned]
    rfl

/-! ### The command (R144) -/

theorem srcLeft_end {s : State} (h : SourceInv s) : s.env.spos + (srcRest s).length = s.env.src.length := by
  rw [srcRest_length]
  exact Nat.add_sub_of_le h

/-- Settles O32: the scan ends at the end of the source, at the first count that overflows, or at the first read that fails. -/
theorem ftScanCountsTheSource : Obligations.FtScanCountsTheSource := by
  intro s hf hasks hsrc
  have hend := srcLeft_end hsrc
  refine ⟨fun hdel hfit => ?_, fun before b after hdel hrest hfit hmax => ?_, fun ks pos rest hr heach hfit => ?_⟩
  · obtain ⟨reads, hloop⟩ := scanLoop_counts_all (srcLeft s + 1) 0 s hasks hdel (Nat.lt_succ_self _) hfit
    rw [hend, Nat.zero_add] at hloop
    exact ⟨_, exec_of_ok (i := .ftScan) hf rfl (Res.bind_of_ok hloop _), fun a => symGet_tableCounting a _ _, rfl⟩
  · obtain ⟨pos, reads, hlo, hhi, hloop⟩ :=
      scanLoop_stops_at_overflow (srcLeft s + 1) 0 s before hasks hdel (Nat.lt_succ_self _) hrest hfit hmax
    rw [hend] at hhi
    exact ⟨_, exec_of_raised (i := .ftScan) hf rfl (Res.bind_of_raised hloop _), fun a => symGet_tableCounting a _ _, hlo, hhi,
      rfl⟩
  · have hloop := scanLoop_stops_at_failure ks (srcLeft s + 1) 0 s hasks (Nat.lt_succ_self _) hr heach hfit
    exact ⟨_, exec_of_raised (i := .ftScan) hf rfl (Res.bind_of_raised hloop _), fun a => symGet_tableCounting a _ _, rfl⟩

end Sys2Proof.Machine
end

section
/-! The pieces of a build (42_tree_builder R146): a new node takes the next slot and its place in the queue, and a combine step
joins the first two entries. Where a piece reads the pool, the queue and the capacity alone, its lemma speaks of every state
with the same ones. -/

namespace Sys2Proof.Machine

open Sys2Proof

/-! ### A new node is queued at once (41_queue R130) -/

/-- The id of the slot that `alloc` takes next (10_state R24). -/
abbrev nextId (nodes : List Node) : NodeId := BitVec.ofNat 9 nodes.length

/-- The state with another pool and another queue. -/
abbrev State.withPool (s : State) (nodes : List Node) (q : List NodeId) : State := { s with nodes := nodes, q := q }

/-- A new node takes the next slot and is queued. -/
def queueNew (nd : Node) (s : State) : Res Unit := (alloc nd s).bind fun n s => qInsert n s

theorem insertLeaves_cons_of_counted {a : Sym} {s : State} (l : List Sym) (h : symGet s.ft a ≠ 0#64) :
    insertLeaves (a :: l) s = (queueNew (.leaf a (symGet s.ft a)) s).bind fun _ t => insertLeaves l t := by
  rw [insertLeaves, if_neg h, queueNew, Res.bind_assoc]

/-- The place of an insertion is read off the pool. -/
theorem insertPos_congr {s t : State} (h : t.nodes = s.nodes) (w : Word64) (l : List NodeId) :
    insertPos t w l = insertPos s w l := by
  have hw : ∀ n, weightOf t n = weightOf s n := fun n => by simp only [weightOf, nodeAt, h]
  induction l with
  | nil => rfl
  | cons m l ih => simp only [insertPos, hw, ih]

theorem weightOf_nextId {s : State} (nd : Node) (q : List NodeId) (h : s.nodes.length < nodeMax) :
    weightOf (s.withPool (s.nodes ++ [nd]) q) (nextId s.nodes) = some nd.weight := by
  rw [weightOf, nodeAt, getElem?_nextId nd h, Option.map_some]

theorem alloc_ok {s : State} (nd : Node) (h : s.nodes.length < nodeMax) :
    alloc nd s = .ok (nextId s.nodes) (s.withPool (s.nodes ++ [nd]) s.q) := if_neg (Nat.ne_of_lt h)

/-- With room in the queue, a node is put at the place that its weight has. -/
theorem qInsert_at {n : NodeId} {s : State} {w : Word64} {p : Nat} (hroom : s.q.length ≠ s.qcap.toNat)
    (hw : weightOf s n = some w) (hp : insertPos s w s.q = some p) :
    qInsert n s = .ok () (s.withPool s.nodes (s.q.take p ++ n :: s.q.drop p)) := by
  simp [qInsert, hroom, hw, hp]

/-- With room in the pool and in the sorted queue, a new node goes behind every entry of lower or equal weight and before every
heavier one. -/
theorem queueNew_ok (nd : Node) {s : State} {q : List NodeId} {cap : BitVec 9} (hlen : s.nodes.length < nodeMax)
    (hroom : q.length ≠ cap.toNat) (halloc : ∀ m ∈ q, m.toNat < s.nodes.length) (hsorted : RisingWeights s q) :
    ∃ before after, q = before ++ after ∧ NoneAbove s nd.weight before ∧ AllAbove s nd.weight after
      ∧ ∀ u : State, u.nodes = s.nodes → u.q = q → u.qcap = cap →
        queueNew nd u = .ok () (u.withPool (s.nodes ++ [nd]) (before ++ nextId s.nodes :: after)) := by
  have keep : ∀ m ∈ q, weightOf (s.withPool (s.nodes ++ [nd]) q) m = weightOf s m := fun m hm =>
    weightOf_append nd (halloc m hm)
  have hsorted' : RisingWeights (s.withPool (s.nodes ++ [nd]) q) q := hsorted.imp_of_mem fun hm hn h => by
    rwa [keep _ hm, keep _ hn]
  obtain ⟨p, hp, -⟩ := insertPos_some (s.withPool (s.nodes ++ [nd]) q) nd.weight q fun m hm => by
    have := halloc m hm
    simp only [List.length_append]
    omega
  obtain ⟨hbefore, hafter⟩ := insertPos_splits q p hsorted' hp
  refine ⟨q.take p, q.drop p, (List.take_append_drop p q).symm, fun m hm => ?_, fun m hm => ?_, fun u hnodes hq hcap => ?_⟩
  · exact keep m (List.mem_of_mem_take hm) ▸ hbefore m hm
  · exact keep m (List.mem_of_mem_drop hm) ▸ hafter m hm
  · subst hq hcap
    rw [← hnodes] at hlen hp ⊢
    rw [insertPos_congr (s := u.withPool (u.nodes ++ [nd]) u.q) (t := s.withPool (u.nodes ++ [nd]) u.q) rfl] at hp
    rw [queueNew, alloc_ok nd hlen, Res.bind_ok,
      qInsert_at (s := u.withPool (u.nodes ++ [nd]) u.q) hroom (weightOf_nextId nd u.q hlen) hp]

/-! ### A combine step (R146) -/

/-- A combine step takes two entries off the queue and makes a node of them, unless their sum does not fit. -/
theorem combineStep_cons {s : State} {a b : NodeId} {rest : List NodeId} {wa wb : Word64} (hq : s.q = a :: b :: rest)
    (ha : weightOf s a = some wa) (hb : weightOf s b = some wb) :
    combineStep s =
      if 2 ^ 64 ≤ wa.toNat + wb.toNat then .raised .countOverflow 256#64 (s.withPool s.nodes rest)
      else queueNew (.internal (wa + wb) a b) (s.withPool s.nodes rest) := by
  have ha : weightOf (s.withPool s.nodes rest) a = some wa := ha
  have hb : weightOf (s.withPool s.nodes rest) b = some wb := hb
  rw [combineStep, qExtract_cons hq, Res.bind_ok, qExtract_cons (s := { s with q := b :: rest }) rfl, Res.bind_ok]
  dsimp only
  rw [ha, hb]
  rfl

/-- Settles O34: the sorted queue has its two lowest entries in front, and the new node takes its place among the others. -/
theorem combineStepJoinsTheTwoLowest : Obligations.CombineStepJoinsTheTwoLowest := by
  intro s a b rest wa wb hs hlen hq ha hb hfit
  obtain ⟨-, -, hcap, halloc, hsorted⟩ := hs
  rw [hq] at hcap halloc hsorted
  obtain ⟨hfirst, hsorted⟩ := List.pairwise_cons.mp hsorted
  obtain ⟨hsecond, hsorted⟩ := List.pairwise_cons.mp hsorted
  rw [List.length_cons, List.length_cons] at hcap
  have hrest : ∀ m ∈ rest, m.toNat < s.nodes.length := fun m hm => halloc m (by simp [hm])
  refine ⟨fun m hm wm hw => ⟨hfirst b List.mem_cons_self wa wb ha hb, hsecond m hm wb wm hb hw⟩, ?_⟩
  obtain ⟨before, after, hsplit, hbefore, hafter, hnew⟩ :=
    queueNew_ok (.internal (wa + wb) a b) (cap := s.qcap) hlen (by omega) hrest hsorted
  refine ⟨before, after, hsplit, fun m hm wm hw => ?_, fun m hm wm hw => ?_, ?_⟩
  · rw [← BitVec.toNat_add_of_lt hfit]
    exact hbefore m hm wm hw
  · rw [← BitVec.toNat_add_of_lt hfit]
    exact hafter m hm wm hw
  · rw [combineStep_cons hq ha hb, if_neg (Nat.not_le_of_lt hfit), hnew (s.withPool s.nodes rest) rfl rfl rfl]

end Sys2Proof.Machine
end

section
/-! What a build keeps (42_tree_builder R146, R148): the pool holds the leaves and then the joins made so far, each of the two
lowest nodes not yet joined; the queue holds the nodes not yet joined, in the order of extraction; and the trees under them have the
counted symbols at their leaves, and weigh what these are counted. -/

namespace Sys2Proof.Machine

open Sys2Proof

/-! ### Weights, joins and choices in a pool -/

/-- A state with this pool: weights, joins and the order of extraction are read off the pool alone. -/
abbrev poolOf (nodes : List Node) : State := State.reset.withPool nodes []

/-- A weight found is still found when another slot is taken. -/
theorem weightOf_poolOf_append {nodes : List Node} {m : NodeId} {w : Word64} (nd : Node)
    (h : weightOf (poolOf nodes) m = some w) :
    weightOf (poolOf (nodes ++ [nd])) m = some w :=
  (weightOf_append (s := poolOf nodes) nd (toNat_lt_of_weightOf h)).trans h

theorem ExtractedBefore.append {nodes : List Node} {a b : NodeId} (nd : Node) (h : ExtractedBefore (poolOf nodes) a b) :
    ExtractedBefore (poolOf (nodes ++ [nd])) a b := by
  obtain ⟨wa, wb, ha, hb, h⟩ := h
  exact ⟨wa, wb, weightOf_poolOf_append nd ha, weightOf_poolOf_append nd hb, h⟩

/-- Below its id a new node joins nothing. -/
theorem joined_append {nodes : List Node} {k : Nat} {m : NodeId} (nd : Node) (hk : k ≤ nodes.length) :
    Joined (poolOf (nodes ++ [nd])) k m ↔ Joined (poolOf nodes) k m := by
  have hget : ∀ i < k, (nodes ++ [nd])[i]? = nodes[i]? := fun i hi => List.getElem?_append_left (by omega)
  constructor
  · rintro ⟨i, w, l, r, hi, hnode, hm⟩
    exact ⟨i, w, l, r, hi, (hget i hi).symm.trans hnode, hm⟩
  · rintro ⟨i, w, l, r, hi, hnode, hm⟩
    exact ⟨i, w, l, r, hi, (hget i hi).trans hnode, hm⟩

/-- With a new node, what it joins is joined. -/
theorem joined_append_succ {nodes : List Node} {m : NodeId} (nd : Node) :
    Joined (poolOf (nodes ++ [nd])) (nodes.length + 1) m ↔
      Joined (poolOf nodes) nodes.length m ∨ ∃ w l r, nd = .internal w l r ∧ (m = l ∨ m = r) := by
  constructor
  · rintro ⟨i, w, l, r, hi, hnode, hm⟩
    rcases Nat.lt_succ_iff_lt_or_eq.mp hi with hi | rfl
    · exact .inl ((joined_append nd (Nat.le_refl _)).mp ⟨i, w, l, r, hi, hnode, hm⟩)
    · have hnode : (nodes ++ [nd])[nodes.length]? = some (.internal w l r) := hnode
      rw [List.getElem?_concat_length] at hnode
      exact .inr ⟨w, l, r, Option.some.inj hnode, hm⟩
  · rintro (h | ⟨w, l, r, rfl, hm⟩)
    · exact ((joined_append nd (Nat.le_refl _)).mpr h).mono (Nat.le_succ _)
    · exact ⟨nodes.length, w, l, r, Nat.lt_succ_self _, List.getElem?_concat_length, hm⟩

theorem joined_append_leaf {nodes : List Node} {m : NodeId} (a : Sym) (w : Word64) :
    Joined (poolOf (nodes ++ [.leaf a w])) (nodes.length + 1) m ↔ Joined (poolOf nodes) nodes.length m := by
  rw [joined_append_succ]
  simp

theorem joined_append_internal {nodes : List Node} {m : NodeId} (w : Word64) (l r : NodeId) :
    Joined (poolOf (nodes ++ [.internal w l r])) (nodes.length + 1) m ↔
      Joined (poolOf nodes) nodes.length m ∨ m = l ∨ m = r := by
  rw [joined_append_succ]
  simp

theorem TwoLowest.append {nodes : List Node} {n : Nat} {a b : NodeId} (nd : Node) (hn : n ≤ nodes.length)
    (h : TwoLowest (poolOf nodes) n a b) : TwoLowest (poolOf (nodes ++ [nd])) n a b := by
  obtain ⟨ha, hb, hja, hjb, hab, hothers⟩ := h
  refine ⟨ha, hb, ?_, ?_, hab.append nd, fun m hm hjm hma hmb => (hothers m hm ?_ hma hmb).append nd⟩
  · rwa [joined_append nd hn]
  · rwa [joined_append nd hn]
  · rwa [joined_append nd hn] at hjm

/-- A pool with no node from `first` on has no join to speak of. -/
theorem greedyMerges_of_length_le {s : State} {first : Nat} (h : s.nodes.length ≤ first) : GreedyMerges s first := by
  intro n nd hn hnode
  have := (List.getElem?_eq_some_iff.mp hnode).1
  omega

/-- A node that joins the two lowest keeps the choices greedy. -/
theorem GreedyMerges.append {nodes : List Node} {first : Nat} {a b : NodeId} {wa wb : Word64}
    (h : GreedyMerges (poolOf nodes) first) (hlow : TwoLowest (poolOf nodes) nodes.length a b)
    (ha : weightOf (poolOf nodes) a = some wa) (hb : weightOf (poolOf nodes) b = some wb)
    (hfit : wa.toNat + wb.toNat < 2 ^ 64) : GreedyMerges (poolOf (nodes ++ [.internal (wa + wb) a b])) first := by
  intro n nd hn hnode
  have hnode : (nodes ++ [.internal (wa + wb) a b])[n]? = some nd := hnode
  have hlt : n < nodes.length + 1 := by
    have := (List.getElem?_eq_some_iff.mp hnode).1
    rwa [List.length_append] at this
  rcases Nat.lt_succ_iff_lt_or_eq.mp hlt with hlt | rfl
  · rw [List.getElem?_append_left hlt] at hnode
    obtain ⟨w, l, r, wl, wr, rfl, hlr, hl, hr, hw⟩ := h n nd hn hnode
    exact ⟨w, l, r, wl, wr, rfl, hlr.append _ (Nat.le_of_lt hlt), weightOf_poolOf_append _ hl, weightOf_poolOf_append _ hr, hw⟩
  · rw [List.getElem?_concat_length] at hnode
    exact ⟨wa + wb, a, b, wa, wb, (Option.some.inj hnode).symm, hlow.append _ (Nat.le_refl _), weightOf_poolOf_append _ ha,
      weightOf_poolOf_append _ hb, BitVec.toNat_add_of_lt hfit⟩

/-! ### The trees under the queued nodes (10_state R26) -/

/-- The symbols at the leaves of a tree, the leftmost first. -/
def CodeTree.symbols : CodeTree → List Sym
  | .leaf a => [a]
  | .node l r => l.symbols ++ r.symbols

theorem CodeTree.symbols_length (t : CodeTree) : t.symbols.length = t.leaves := by
  induction t with
  | leaf a => rfl
  | node l r ihl ihr => rw [symbols, List.length_append, ihl, ihr, leaves]

/-- The sum of the counts of some symbols, as an unbounded integer. -/
def countSum (ft : Vector Word64 256) (l : List Sym) : Nat := (l.map fun a => (symGet ft a).toNat).sum

theorem countSum_append (ft : Vector Word64 256) (l l' : List Sym) :
    countSum ft (l ++ l') = countSum ft l + countSum ft l' := by
  rw [countSum, List.map_append, List.sum_append]
  rfl

theorem countSum_perm (ft : Vector Word64 256) {l l' : List Sym} (h : l.Perm l') : countSum ft l = countSum ft l' :=
  (h.map _).sum_eq

/-- Symbols that are not counted add nothing. -/
theorem countSum_counted (ft : Vector Word64 256) (l : List Sym) :
    countSum ft (l.filter fun a => symGet ft a != 0#64) = countSum ft l := by
  induction l with
  | nil => rfl
  | cons a l ih =>
    by_cases h : symGet ft a = 0#64
    · rw [List.filter_cons_of_neg (by simp [h]), ih]
      simp [countSum, h]
    · rw [List.filter_cons_of_pos (by simp [h])]
      exact congrArg (_ + ·) ih

/-- The tree under a node, which weighs as much as its symbols are counted. -/
structure Stands (ft : Vector Word64 256) (nodes : List Node) (m : NodeId) (t : CodeTree) : Prop where
  tree : Represents nodes m t
  weight : ∃ w, weightOf (poolOf nodes) m = some w ∧ w.toNat = countSum ft t.symbols

theorem Stands.append {ft : Vector Word64 256} {nodes : List Node} {m : NodeId} {t : CodeTree} (nd : Node)
    (h : Stands ft nodes m t) : Stands ft (nodes ++ [nd]) m t := by
  obtain ⟨htree, w, hw, hsum⟩ := h
  exact ⟨represents_append _ t htree, w, weightOf_poolOf_append nd hw, hsum⟩

theorem Stands.leaf {ft : Vector Word64 256} {nodes : List Node} (a : Sym) (h : nodes.length < nodeMax) :
    Stands ft (nodes ++ [.leaf a (symGet ft a)]) (nextId nodes) (.leaf a) :=
  ⟨⟨_, getElem?_nextId _ h⟩, _, weightOf_nextId (s := poolOf nodes) _ [] h, by simp [CodeTree.symbols, countSum, Node.weight]⟩

theorem Stands.join {ft : Vector Word64 256} {nodes : List Node} {a b : NodeId} {ta tb : CodeTree} {wa wb : Word64}
    (ha : Stands ft nodes a ta) (hb : Stands ft nodes b tb) (hwa : weightOf (poolOf nodes) a = some wa)
    (hwb : weightOf (poolOf nodes) b = some wb) (hfit : wa.toNat + wb.toNat < 2 ^ 64) (h : nodes.length < nodeMax) :
    Stands ft (nodes ++ [.internal (wa + wb) a b]) (nextId nodes) (.node ta tb) := by
  obtain ⟨htreeA, _, hwa', hsumA⟩ := ha
  obtain ⟨htreeB, _, hwb', hsumB⟩ := hb
  cases hwa.symm.trans hwa'
  cases hwb.symm.trans hwb'
  refine ⟨⟨_, a, b, getElem?_nextId _ h, represents_append _ ta htreeA, represents_append _ tb htreeB⟩, _,
    weightOf_nextId (s := poolOf nodes) _ [] h, ?_⟩
  rw [CodeTree.symbols, countSum_append, ← hsumA, ← hsumB]
  exact BitVec.toNat_add_of_lt hfit

/-- Each queued node has its tree, and the trees have these symbols at their leaves. -/
def Grown (ft : Vector Word64 256) (syms : List Sym) (nodes : List Node) (q : List NodeId) : Prop :=
  ∃ tree : NodeId → CodeTree, (∀ m ∈ q, Stands ft nodes m (tree m)) ∧ (q.flatMap fun m => (tree m).symbols).Perm syms

/-- A new node with its tree may be queued at any place. -/
theorem Grown.insert {ft : Vector Word64 256} {syms : List Sym} {nodes : List Node} {before after : List NodeId} {nd : Node}
    {t : CodeTree} (h : Grown ft syms nodes (before ++ after)) (hold : ∀ m ∈ before ++ after, m ≠ nextId nodes)
    (hnew : Stands ft (nodes ++ [nd]) (nextId nodes) t) :
    Grown ft (t.symbols ++ syms) (nodes ++ [nd]) (before ++ nextId nodes :: after) := by
  obtain ⟨tree, hstands, hsyms⟩ := h
  have keep : ∀ m ∈ before ++ after, Function.update tree (nextId nodes) t m = tree m := fun m hm =>
    Function.update_of_ne (hold m hm) _ _
  refine ⟨Function.update tree (nextId nodes) t, fun m hm => ?_, ?_⟩
  · rcases List.mem_cons.mp (List.perm_middle.subset hm) with rfl | hm
    · rw [Function.update_self]
      exact hnew
    · rw [keep m hm]
      exact (hstands m hm).append nd
  · refine (List.perm_middle.flatMap_right _).trans ?_
    rw [List.flatMap_cons, Function.update_self, List.flatMap_congr fun m hm => congrArg CodeTree.symbols (keep m hm)]
    exact hsyms.append_left _

theorem Grown.perm {ft : Vector Word64 256} {syms syms' : List Sym} {nodes : List Node} {q : List NodeId}
    (h : Grown ft syms nodes q) (hp : syms.Perm syms') : Grown ft syms' nodes q := by
  obtain ⟨tree, hstands, hsyms⟩ := h
  exact ⟨tree, hstands, hsyms.trans hp⟩

/-- The first queued node has a tree, apart from those of the others. -/
theorem Grown.uncons {ft : Vector Word64 256} {syms : List Sym} {nodes : List Node} {m : NodeId} {q : List NodeId}
    (h : Grown ft syms nodes (m :: q)) :
    ∃ t syms', Stands ft nodes m t ∧ Grown ft syms' nodes q ∧ (t.symbols ++ syms').Perm syms := by
  obtain ⟨tree, hstands, hsyms⟩ := h
  obtain ⟨hfirst, hstands⟩ := List.forall_mem_cons.mp hstands
  exact ⟨tree m, _, hfirst, ⟨tree, hstands, List.Perm.refl _⟩, hsyms⟩

end Sys2Proof.Machine
end

section
/-! TB_BUILD (42_tree_builder R146, R148): every leaf and every combine step keeps what a build keeps, so a build ends with the
one tree of all counted symbols, or at the sum that does not fit. What it makes is read off the frequency table alone. -/

namespace Sys2Proof.Machine

open Sys2Proof

/-! ### The state of a build -/

/-- A build that has made the leaves of these symbols, and some joins, is at this pool and this queue. -/
structure Building (ft : Vector Word64 256) (syms : List Sym) (nodes : List Node) (q : List NodeId) : Prop where
  few : syms.length ≤ 256
  leaves : nodes.take syms.length = syms.map fun a => .leaf a (symGet ft a)
  greedy : GreedyMerges (poolOf nodes) syms.length
  size : nodes.length + q.length = 2 * syms.length
  queued : ∀ m, m ∈ q ↔ m.toNat < nodes.length ∧ ¬ Joined (poolOf nodes) nodes.length m
  sorted : q.Pairwise (ExtractedBefore (poolOf nodes))
  grown : Grown ft syms nodes q

section

variable {ft : Vector Word64 256} {syms : List Sym} {nodes : List Node} {q : List NodeId}

theorem building_nil (ft : Vector Word64 256) : Building ft [] [] [] where
  few := Nat.zero_le _
  leaves := rfl
  greedy := greedyMerges_of_length_le (Nat.le_refl _)
  size := rfl
  queued m := by simp
  sorted := List.Pairwise.nil
  grown := ⟨fun _ => .leaf 0#8, nofun, List.Perm.refl _⟩

theorem Building.leaves_le (h : Building ft syms nodes q) : syms.length ≤ nodes.length := by
  have := congrArg List.length h.leaves
  rw [List.length_take, List.length_map] at this
  omega

theorem Building.allocated (h : Building ft syms nodes q) {m : NodeId} (hm : m ∈ q) : m.toNat < nodes.length :=
  ((h.queued m).mp hm).1

theorem Building.weight (h : Building ft syms nodes q) {m : NodeId} (hm : m ∈ q) : ∃ w, weightOf (poolOf nodes) m = some w :=
  weightOf_some (s := poolOf nodes) (h.allocated hm)

/-- A node from the first join on joins two nodes below it, and no leaf joins any. -/
theorem Building.joined_lt (h : Building ft syms nodes q) {k : Nat} {m : NodeId} (hm : Joined (poolOf nodes) k m) :
    m.toNat + 1 < k := by
  obtain ⟨i, w, l, r, hi, hnode, hm⟩ := hm
  have hnode : nodes[i]? = some (.internal w l r) := hnode
  by_cases hleaf : i < syms.length
  · have hget : (nodes.take syms.length)[i]? = some (.internal w l r) := by rwa [List.getElem?_take_of_lt hleaf]
    rw [h.leaves, List.getElem?_map] at hget
    obtain ⟨a, -, ha⟩ := Option.map_eq_some_iff.mp hget
    cases ha
  · obtain ⟨_, _, _, _, _, heq, ⟨hl, hr, -⟩, -⟩ := h.greedy i _ (Nat.le_of_not_lt hleaf) hnode
    cases heq
    rcases hm with rfl | rfl <;> omega

theorem Building.nextId_not_joined (h : Building ft syms nodes q) (hlen : nodes.length < nodeMax) :
    ¬ Joined (poolOf nodes) nodes.length (nextId nodes) := by
  intro hj
  have := h.joined_lt hj
  rw [toNat_nextId hlen] at this
  omega

theorem risingWeights_of_extractedBefore {s : State} {l : List NodeId} (h : l.Pairwise (ExtractedBefore s)) :
    RisingWeights s l := by
  refine h.imp fun ⟨wa, wb, ha, hb, hab⟩ wm wn hm hn => ?_
  cases ha.symm.trans hm
  cases hb.symm.trans hn
  rcases hab with hlt | ⟨rfl, -⟩
  · exact BitVec.le_of_lt hlt
  · exact BitVec.le_refl _

/-- In its place by weight, behind those of equal weight, a new node is in the order of extraction: it has the highest id. -/
theorem sorted_insert {before after : List NodeId} {nd : Node} (hlen : nodes.length < nodeMax)
    (hsorted : (before ++ after).Pairwise (ExtractedBefore (poolOf nodes)))
    (halloc : ∀ m ∈ before ++ after, m.toNat < nodes.length) (hbefore : NoneAbove (poolOf nodes) nd.weight before)
    (hafter : AllAbove (poolOf nodes) nd.weight after) :
    (before ++ nextId nodes :: after).Pairwise (ExtractedBefore (poolOf (nodes ++ [nd]))) := by
  have hnew := weightOf_nextId (s := poolOf nodes) nd [] hlen
  have weight : ∀ m ∈ before ++ after, ∃ w, weightOf (poolOf nodes) m = some w := fun m hm =>
    weightOf_some (s := poolOf nodes) (halloc m hm)
  have hsorted := hsorted.imp fun h => ExtractedBefore.append nd h
  obtain ⟨hsortedB, hsortedA, hcross⟩ := List.pairwise_append.mp hsorted
  refine List.pairwise_append.mpr ⟨hsortedB, List.pairwise_cons.mpr ⟨fun m hm => ?_, hsortedA⟩, fun m hm n hn => ?_⟩
  · obtain ⟨w, hw⟩ := weight m (List.mem_append_right _ hm)
    exact ⟨_, w, hnew, weightOf_poolOf_append nd hw, .inl (hafter m hm w hw)⟩
  · rcases List.mem_cons.mp hn with rfl | hn
    · obtain ⟨w, hw⟩ := weight m (List.mem_append_left _ hm)
      have hid : m.toNat < (nextId nodes).toNat := by
        rw [toNat_nextId hlen]
        exact halloc m (List.mem_append_left _ hm)
      refine ⟨w, _, weightOf_poolOf_append nd hw, hnew, ?_⟩
      rcases Nat.lt_or_eq_of_le (hbefore m hm w hw) with hlt | heq
      · exact .inl hlt
      · exact .inr ⟨BitVec.eq_of_toNat_eq heq, hid⟩
    · exact hcross m hm n hn

/-- A new node that is not joined is queued with those that were. -/
theorem queued_insert {before after : List NodeId} {J : NodeId → Prop} (hlen : nodes.length < nodeMax)
    (hold : ∀ m, m ∈ before ++ after ↔ m.toNat < nodes.length ∧ ¬ J m) (hnew : ¬ J (nextId nodes)) (m : NodeId) :
    m ∈ before ++ nextId nodes :: after ↔ m.toNat < nodes.length + 1 ∧ ¬ J m := by
  rw [List.perm_middle.mem_iff, List.mem_cons, hold, Nat.lt_succ_iff_lt_or_eq]
  have hid : m.toNat = nodes.length ↔ m = nextId nodes := by rw [← toNat_nextId hlen, BitVec.toNat_inj]
  rw [hid]
  constructor
  · rintro (rfl | ⟨hm, hj⟩)
    · exact ⟨.inr rfl, hnew⟩
    · exact ⟨.inl hm, hj⟩
  · rintro ⟨hm | hm, hj⟩
    · exact .inr ⟨hm, hj⟩
    · exact .inl hm

theorem ne_nextId {m : NodeId} (hlen : nodes.length < nodeMax) (hm : m.toNat < nodes.length) : m ≠ nextId nodes := by
  rintro rfl
  rw [toNat_nextId hlen] at hm
  omega

/-! ### The leaves (R146) -/

/-- Before the first join, the leaf of a further symbol keeps what a build keeps. -/
theorem Building.addLeaf {before after : List NodeId} {a : Sym} (h : Building ft syms nodes (before ++ after))
    (hleaves : nodes.length = syms.length) (hfew : syms.length < 256)
    (hbefore : NoneAbove (poolOf nodes) (symGet ft a) before) (hafter : AllAbove (poolOf nodes) (symGet ft a) after) :
    Building ft (syms ++ [a]) (nodes ++ [.leaf a (symGet ft a)]) (before ++ nextId nodes :: after) := by
  have hlen : nodes.length < nodeMax := by
    show nodes.length < 511
    omega
  have hall : nodes = syms.map fun a => .leaf a (symGet ft a) := by
    rw [← h.leaves, ← hleaves, List.take_length]
  have hsize := h.size
  refine ⟨?_, ?_, greedyMerges_of_length_le ?_, ?_, fun m => ?_, ?_, ?_⟩
  · simp only [List.length_append, List.length_singleton]
    omega
  · rw [List.map_append, ← hall]
    exact List.take_of_length_le (by simp [hleaves])
  · simp [hleaves]
  · simp only [List.length_append, List.length_cons, List.length_nil] at hsize ⊢
    omega
  · rw [List.length_append, List.length_singleton, joined_append_leaf]
    exact queued_insert hlen h.queued (h.nextId_not_joined hlen) m
  · exact sorted_insert hlen h.sorted (fun _ => h.allocated) hbefore hafter
  · exact (h.grown.insert (fun _ hm => ne_nextId hlen (h.allocated hm)) (Stands.leaf a hlen)).perm List.perm_append_comm

theorem insertLeaves_cons_of_uncounted {a : Sym} {s : State} (l : List Sym) (h : symGet s.ft a = 0#64) :
    insertLeaves (a :: l) s = insertLeaves l s := if_pos h

/-- The leaves of the counted symbols are made and queued, whatever else the state holds. -/
theorem insertLeaves_building (l : List Sym) : ∀ {syms nodes q}, Building ft syms nodes q → nodes.length = syms.length →
    syms.length + l.length ≤ 256 →
    ∃ nodes' q', Building ft (syms ++ l.filter fun a => symGet ft a != 0#64) nodes' q'
      ∧ ∀ u : State, u.ft = ft → u.qcap = queueSlots →
        insertLeaves l (u.withPool nodes q) = .ok () (u.withPool nodes' q') := by
  induction l with
  | nil =>
    intro syms nodes q h _ _
    exact ⟨nodes, q, by rwa [List.filter_nil, List.append_nil], fun _ _ _ => rfl⟩
  | cons a l ih =>
    intro syms nodes q h hleaves hfew
    rw [List.length_cons] at hfew
    by_cases ha : symGet ft a = 0#64
    · obtain ⟨nodes', q', h', hrun⟩ := ih h hleaves (by omega)
      refine ⟨nodes', q', ?_, fun u hft hcap => ?_⟩
      · rwa [List.filter_cons_of_neg (by simp [ha])]
      · rw [insertLeaves_cons_of_uncounted l (hft ▸ ha)]
        exact hrun u hft hcap
    · have hlen : nodes.length < nodeMax := by
        show nodes.length < 511
        omega
      have hroom : q.length ≠ queueSlots.toNat := by
        have := h.size
        show q.length ≠ 256
        omega
      obtain ⟨before, after, rfl, hbefore, hafter, hnew⟩ := queueNew_ok (.leaf a (symGet ft a)) (s := poolOf nodes) hlen hroom
        (fun _ => h.allocated) (risingWeights_of_extractedBefore h.sorted)
      obtain ⟨nodes', q', h', hrun⟩ := ih (h.addLeaf hleaves (by omega) hbefore hafter) (by simp [hleaves])
        (by simp only [List.length_append, List.length_singleton]; omega)
      refine ⟨nodes', q', ?_, fun u hft hcap => ?_⟩
      · rwa [List.filter_cons_of_pos (by simp [ha]), List.append_cons]
      · subst hft
        rw [insertLeaves_cons_of_counted (s := u.withPool nodes _) l ha]
        refine (Res.bind_of_ok (hnew (u.withPool nodes _) rfl rfl hcap) _).trans ?_
        exact hrun u rfl hcap

/-! ### The joins (R146) -/

/-- The first two queued nodes are the two lowest not yet joined. -/
theorem Building.twoLowest {a b : NodeId} {rest : List NodeId} (h : Building ft syms nodes (a :: b :: rest)) :
    TwoLowest (poolOf nodes) nodes.length a b := by
  obtain ⟨hfirst, hsorted⟩ := List.pairwise_cons.mp h.sorted
  obtain ⟨hsecond, -⟩ := List.pairwise_cons.mp hsorted
  obtain ⟨hlta, hja⟩ := (h.queued a).mp (by simp)
  obtain ⟨hltb, hjb⟩ := (h.queued b).mp (by simp)
  refine ⟨hlta, hltb, hja, hjb, hfirst b List.mem_cons_self, fun m hm hjm hma hmb => hsecond m ?_⟩
  simpa [hma, hmb] using (h.queued m).mpr ⟨hm, hjm⟩

/-- Behind the first two, the queue holds the other nodes not yet joined. -/
theorem Building.queued_rest {a b : NodeId} {rest : List NodeId} (h : Building ft syms nodes (a :: b :: rest)) (m : NodeId) :
    m ∈ rest ↔ m.toNat < nodes.length ∧ ¬ (Joined (poolOf nodes) nodes.length m ∨ m = a ∨ m = b) := by
  have hnodup : (a :: b :: rest).Nodup := List.Pairwise.imp (S := (· ≠ ·)) (by
    rintro x y hxy rfl
    exact ExtractedBefore.irrefl hxy) h.sorted
  have hm := h.queued m
  simp only [List.nodup_cons, List.mem_cons, not_or] at hnodup hm ⊢
  obtain ⟨⟨-, ha⟩, hb, -⟩ := hnodup
  constructor
  · intro hrest
    obtain ⟨hlt, hj⟩ := hm.mp (.inr (.inr hrest))
    exact ⟨hlt, hj, fun e => ha (e ▸ hrest), fun e => hb (e ▸ hrest)⟩
  · rintro ⟨hlt, hj, hma, hmb⟩
    exact ((hm.mpr ⟨hlt, hj⟩).resolve_left hma).resolve_left hmb

theorem Building.join_bounds {a b : NodeId} {rest : List NodeId} (h : Building ft syms nodes (a :: b :: rest)) :
    nodes.length < nodeMax ∧ rest.length < 256 := by
  have hfew := h.few
  have hsize := h.size
  have hle := h.leaves_le
  rw [List.length_cons, List.length_cons] at hsize
  refine ⟨?_, by omega⟩
  show nodes.length < 511
  omega

/-- The trees of two queued nodes become one. -/
theorem Grown.join {a b : NodeId} {before after : List NodeId} {wa wb : Word64}
    (h : Grown ft syms nodes (a :: b :: (before ++ after))) (hold : ∀ m ∈ before ++ after, m.toNat < nodes.length)
    (hlen : nodes.length < nodeMax) (ha : weightOf (poolOf nodes) a = some wa) (hb : weightOf (poolOf nodes) b = some wb)
    (hfit : wa.toNat + wb.toNat < 2 ^ 64) :
    Grown ft syms (nodes ++ [.internal (wa + wb) a b]) (before ++ nextId nodes :: after) := by
  obtain ⟨ta, _, hta, h, hpermA⟩ := h.uncons
  obtain ⟨tb, _, htb, h, hpermB⟩ := h.uncons
  refine (h.insert (fun m hm => ne_nextId hlen (hold m hm)) (hta.join htb ha hb hfit hlen)).perm ?_
  rw [CodeTree.symbols, List.append_assoc]
  exact (hpermB.append_left _).trans hpermA

/-- A join keeps what a build keeps. -/
theorem Building.join {a b : NodeId} {before after : List NodeId} {wa wb : Word64}
    (h : Building ft syms nodes (a :: b :: (before ++ after))) (ha : weightOf (poolOf nodes) a = some wa)
    (hb : weightOf (poolOf nodes) b = some wb) (hfit : wa.toNat + wb.toNat < 2 ^ 64)
    (hbefore : NoneAbove (poolOf nodes) (wa + wb) before) (hafter : AllAbove (poolOf nodes) (wa + wb) after) :
    Building ft syms (nodes ++ [.internal (wa + wb) a b]) (before ++ nextId nodes :: after) := by
  obtain ⟨hlen, -⟩ := h.join_bounds
  have hrest : ∀ m ∈ before ++ after, m.toNat < nodes.length := fun m hm => ((h.queued_rest m).mp hm).1
  have hsize := h.size
  refine ⟨h.few, ?_, h.greedy.append h.twoLowest ha hb hfit, ?_, fun m => ?_, ?_, h.grown.join hrest hlen ha hb hfit⟩
  · rw [List.take_append_of_le_length h.leaves_le, h.leaves]
  · simp only [List.length_append, List.length_cons, List.length_nil] at hsize ⊢
    omega
  · rw [List.length_append, List.length_singleton, joined_append_internal]
    refine queued_insert hlen h.queued_rest ?_ m
    rintro (hj | rfl | rfl)
    · exact h.nextId_not_joined hlen hj
    · exact ne_nextId hlen (h.allocated List.mem_cons_self) rfl
    · exact ne_nextId hlen (h.allocated (by simp)) rfl
  · exact sorted_insert hlen (h.sorted.of_cons.of_cons) hrest hbefore hafter

/-- The build is at two lowest nodes whose sum does not fit 64 bits. -/
structure Overflowing (ft : Vector Word64 256) (syms : List Sym) (nodes : List Node) (a b : NodeId) (q : List NodeId) :
    Prop where
  building : Building ft syms nodes (a :: b :: q)
  exceeds : ∃ wa wb, weightOf (poolOf nodes) a = some wa ∧ weightOf (poolOf nodes) b = some wb ∧ 2 ^ 64 ≤ wa.toNat + wb.toNat

/-- A combine step joins the first two nodes or finds that their sum does not fit, whatever else the state holds. -/
theorem combineStep_building {a b : NodeId} {rest : List NodeId} (h : Building ft syms nodes (a :: b :: rest)) :
    (∃ nodes' q', Building ft syms nodes' q' ∧ q'.length = rest.length + 1 ∧ ∀ u : State, u.qcap = queueSlots →
      combineStep (u.withPool nodes (a :: b :: rest)) = .ok () (u.withPool nodes' q'))
    ∨ Overflowing ft syms nodes a b rest ∧ ∀ u : State,
      combineStep (u.withPool nodes (a :: b :: rest)) = .raised .countOverflow 256#64 (u.withPool nodes rest) := by
  obtain ⟨wa, ha⟩ := h.weight List.mem_cons_self
  obtain ⟨wb, hb⟩ := h.weight (m := b) (by simp)
  obtain ⟨hlen, hrest⟩ := h.join_bounds
  by_cases hfit : wa.toNat + wb.toNat < 2 ^ 64
  · obtain ⟨before, after, rfl, hbefore, hafter, hnew⟩ := queueNew_ok (.internal (wa + wb) a b) (s := poolOf nodes)
      (cap := queueSlots) hlen (Nat.ne_of_lt hrest) (fun m hm => ((h.queued_rest m).mp hm).1)
      (risingWeights_of_extractedBefore (h.sorted.of_cons.of_cons))
    refine .inl ⟨_, _, h.join ha hb hfit hbefore hafter, by simp [Nat.add_assoc], fun u hcap => ?_⟩
    rw [combineStep_cons (s := u.withPool nodes _) rfl ha hb, if_neg (Nat.not_le_of_lt hfit)]
    exact hnew (u.withPool nodes _) rfl rfl hcap
  · have hexceeds := Nat.le_of_not_lt hfit
    refine .inr ⟨⟨h, wa, wb, ha, hb, hexceeds⟩, fun u => ?_⟩
    rw [combineStep_cons (s := u.withPool nodes _) rfl ha hb, if_pos hexceeds]

/-- The loop ends with one node queued, or at a sum that does not fit, whatever else the state holds. -/
theorem combineLoop_building (f : Nat) : ∀ {nodes q}, Building ft syms nodes q → q ≠ [] → q.length ≤ f + 1 →
    (∃ nodes' r, Building ft syms nodes' [r] ∧ ∀ u : State, u.qcap = queueSlots →
      combineLoop f (u.withPool nodes q) = .ok () (u.withPool nodes' [r]))
    ∨ ∃ nodes' a b q', Overflowing ft syms nodes' a b q' ∧ ∀ u : State, u.qcap = queueSlots →
      combineLoop f (u.withPool nodes q) = .raised .countOverflow 256#64 (u.withPool nodes' q') := by
  induction f with
  | zero =>
    intro nodes q h hne hlen
    match q with
    | [r] => exact .inl ⟨nodes, r, h, fun _ _ => rfl⟩
  | succ f ih =>
    intro nodes q h hne hlen
    match q with
    | [r] => exact .inl ⟨nodes, r, h, fun _ _ => rfl⟩
    | a :: b :: rest =>
      rw [List.length_cons, List.length_cons] at hlen
      have hloop : ∀ u : State, combineLoop (f + 1) (u.withPool nodes (a :: b :: rest)) =
          (combineStep (u.withPool nodes (a :: b :: rest))).bind fun _ t => combineLoop f t := fun u => if_pos (by simp)
      rcases combineStep_building h with ⟨nodes', q', h', hq', hstep⟩ | ⟨hover, hstep⟩
      · have hne' : q' ≠ [] := List.ne_nil_of_length_pos (by omega)
        rcases ih h' hne' (by omega) with ⟨nodes'', r, h'', hrun⟩ | ⟨nodes'', a', b', q'', hover, hrun⟩
        · refine .inl ⟨nodes'', r, h'', fun u hcap => ?_⟩
          rw [hloop, hstep u hcap, Res.bind_ok, hrun u hcap]
        · refine .inr ⟨nodes'', a', b', q'', hover, fun u hcap => ?_⟩
          rw [hloop, hstep u hcap, Res.bind_ok, hrun u hcap]
      · refine .inr ⟨nodes, a, b, rest, hover, fun u _ => ?_⟩
        rw [hloop, hstep u, Res.bind_raised]

/-! ### What a build ends with (R148) -/

/-- The one node left is the last one made. -/
theorem Building.root_eq {r : NodeId} (h : Building ft syms nodes [r]) :
    r = BitVec.ofNat 9 (2 * syms.length - 2) ∧ nodes.length = 2 * syms.length - 1 := by
  have hsize := h.size
  have hfew := h.few
  rw [List.length_singleton] at hsize
  have hlast : (BitVec.ofNat 9 (2 * syms.length - 2)).toNat = nodes.length - 1 := by
    rw [BitVec.toNat_ofNat, Nat.mod_eq_of_lt (by omega)]
    omega
  have hmem : BitVec.ofNat 9 (2 * syms.length - 2) ∈ [r] := (h.queued _).mpr ⟨by omega, fun hj => by
    have := h.joined_lt hj
    omega⟩
  exact ⟨(List.mem_singleton.mp hmem).symm, by omega⟩

/-- Under the one node left is a tree of all the symbols, which weighs what they are counted. -/
theorem Building.root_tree {r : NodeId} (h : Building ft syms nodes [r]) :
    ∃ t w, Represents nodes r t ∧ t.leaves = syms.length ∧ weightOf (poolOf nodes) r = some w ∧ w.toNat = countSum ft syms := by
  obtain ⟨tree, hstands, hsyms⟩ := h.grown
  rw [List.flatMap_singleton] at hsyms
  obtain ⟨htree, w, hw, hsum⟩ := hstands r List.mem_cons_self
  refine ⟨tree r, w, htree, ?_, hw, hsum.trans (countSum_perm ft hsyms)⟩
  rw [← CodeTree.symbols_length, hsyms.length_eq]

/-- Two nodes left weigh no more than all the symbols are counted. -/
theorem Overflowing.total {a b : NodeId} (h : Overflowing ft syms nodes a b q) : 2 ^ 64 ≤ countSum ft syms := by
  obtain ⟨h, wa, wb, ha, hb, hexceeds⟩ := h
  obtain ⟨ta, _, ⟨-, _, hwa, hsumA⟩, hgrown, hpermA⟩ := h.grown.uncons
  obtain ⟨tb, _, ⟨-, _, hwb, hsumB⟩, -, hpermB⟩ := hgrown.uncons
  cases ha.symm.trans hwa
  cases hb.symm.trans hwb
  rw [← countSum_perm ft hpermA, countSum_append, ← countSum_perm ft hpermB, countSum_append]
  omega

end

/-! ### The command (R146) -/

/-- What a build writes: the pool, the root and the queue; the rest is released. -/
def State.built (s : State) (nodes : List Node) (root : NodeId) (q : List NodeId) : State :=
  { s with nodes := nodes, root := root, q := q, qcap := queueSlots, stk := [], dcur := nil }

/-- A build of two or more counted symbols ends with one tree, or at a sum that does not fit. Which, and what it makes, is the
same for every state with this table. -/
theorem buildTree_cases {s : State} (hmany : 2 ≤ (countedSyms s).length) :
    (∃ nodes r, Building s.ft (countedSyms s) nodes [r]
      ∧ ∀ u : State, u.ft = s.ft → buildTree u = answerOk (r.setWidth 64) (u.built nodes r []))
    ∨ ∃ nodes a b q, Overflowing s.ft (countedSyms s) nodes a b q
      ∧ ∀ u : State, u.ft = s.ft → buildTree u = .raised .countOverflow 256#64 (u.built nodes nil q) := by
  obtain ⟨leaves, q, hleaves, hinsert⟩ :=
    insertLeaves_building (ft := s.ft) allSyms (building_nil s.ft) rfl (by rw [allSyms_length]; decide)
  have hleaves : Building s.ft (countedSyms s) leaves q := hleaves
  have hq : q ≠ [] := by
    rintro rfl
    obtain ⟨tree, -, hperm⟩ := hleaves.grown
    have := hperm.length_eq
    rw [List.flatMap_nil, List.length_nil] at this
    omega
  have hstart : ∀ u : State, u.ft = s.ft → buildTree u =
      (combineLoop q.length ((u.built [] nil []).withPool leaves q)).bind fun _ t =>
        (qExtract t).bind fun r t => answerOk (r.setWidth 64) { t with root := r } := by
    intro u hft
    have hcounts : nonZeroCounts u = (countedSyms s).length := by rw [countedSyms, ← hft]; rfl
    rw [buildTree, if_neg (by omega)]
    exact Res.bind_of_ok (hinsert (u.built [] nil []) hft rfl) _
  rcases combineLoop_building q.length hleaves hq (Nat.le_succ _) with ⟨nodes, r, h, hrun⟩ | ⟨nodes, a, b, q', h, hrun⟩
  · refine .inl ⟨nodes, r, h, fun u hft => ?_⟩
    rw [hstart u hft, hrun _ rfl]
    rfl
  · refine .inr ⟨nodes, a, b, q', h, fun u hft => ?_⟩
    rw [hstart u hft, hrun _ rfl]
    rfl

/-- What the counted symbols are counted is what all are. -/
theorem totalCount_eq (s : State) : totalCount s = countSum s.ft (countedSyms s) := (countSum_counted s.ft allSyms).symm

/-- Settles O35: the total fits, so no sum overflows, and the build ends with the one tree of all counted symbols. -/
theorem tbBuildMakesTheTree : Obligations.TbBuildMakesTheTree := by
  intro s hf hmany htotal
  rw [totalCount_eq] at htotal ⊢
  rcases buildTree_cases hmany with ⟨nodes, r, h, hrun⟩ | ⟨nodes, a, b, q, h, -⟩
  · obtain ⟨hroot, hlen⟩ := h.root_eq
    obtain ⟨tree, w, htree, hleaves, hw, hsum⟩ := h.root_tree
    have hfew := h.few
    subst hroot
    refine ⟨_, tree, exec_of_ok (i := .tbBuild) hf rfl (hrun s rfl), hlen, h.leaves, h.greedy, ?_, htree, hleaves, ?_⟩
    · refine hw.trans (congrArg some ?_)
      rw [← hsum, BitVec.ofNat_toNat, BitVec.setWidth_eq]
    · rw [BitVec.setWidth_ofNat_of_le_of_lt (by decide) (by omega)]
      rfl
  · exact absurd h.total (Nat.not_le_of_lt htotal)

/-- Settles O36: fewer than two counts are refused; else one tree of all counted symbols would weigh their total, so the build
ends at a sum that does not fit. -/
theorem tbBuildRefusesOrOverflows : Obligations.TbBuildRefusesOrOverflows := by
  intro s hf
  refine ⟨fun hfew => exec_of_ok (i := .tbBuild) hf rfl (if_pos hfew), fun hmany htotal => ?_⟩
  rw [totalCount_eq] at htotal
  rcases buildTree_cases hmany with ⟨nodes, r, h, -⟩ | ⟨nodes, a, b, q, h, hrun⟩
  · obtain ⟨-, w, -, -, -, hsum⟩ := h.root_tree
    exact absurd w.isLt (by omega)
  · obtain ⟨h, wa, wb, ha, hb, hexceeds⟩ := h
    refine ⟨_, a, b, wa, wb, exec_of_raised (i := .tbBuild) hf rfl (hrun s rfl), h.leaves, h.greedy, h.size, h.twoLowest, ha,
      hb, hexceeds, fun m => ?_, h.sorted.of_cons.of_cons, rfl⟩
    rw [← not_or, ← not_or]
    exact h.queued_rest m

/-- Settles O37: what a build makes of a table is the same for every state with this table. -/
theorem tbBuildDependsOnTheTableAlone : Obligations.TbBuildDependsOnTheTableAlone := by
  intro s s' t t' hf hf' hmany hft ht ht'
  rcases buildTree_cases hmany with ⟨nodes, r, -, hrun⟩ | ⟨nodes, a, b, q, -, hrun⟩
  · have hs := exec_of_ok (i := .tbBuild) hf rfl (hrun s rfl)
    have hs' := exec_of_ok (i := .tbBuild) hf' rfl (hrun s' hft.symm)
    cases ht.symm.trans hs
    cases ht'.symm.trans hs'
    exact ⟨rfl, rfl, by simp [lastResponse]⟩
  · have hs := exec_of_raised (i := .tbBuild) hf rfl (hrun s rfl)
    have hs' := exec_of_raised (i := .tbBuild) hf' rfl (hrun s' hft.symm)
    cases ht.symm.trans hs
    cases ht'.symm.trans hs'
    exact ⟨rfl, rfl, by simp [lastResponse, State.raiseError]⟩

end Sys2Proof.Machine
end

section
/-! CT_GEN (43_code_table R155 to R159): the walk visits the leaves in the order of their paths, so an entry holds the last path
walked to its symbol. It ends behind the last leaf, or at the first Internal node it has no room below. -/

namespace Sys2Proof.Machine

open Sys2Proof

/-! ### The entry of a path (10_state R29, 30_encoding R102) -/

/-- The bits of a path, the first branch the least significant. -/
def pathWord (c : List Bool) : BitVec 256 := (BitVec.ofBoolListLE c).setWidth 256

/-- The entry `CT_GEN` records at the end of a path. -/
def pathEntry (c : List Bool) : CodeEntry := { valid := true, len := BitVec.ofNat 8 c.length, bits := pathWord c }

/-- The entry is valid and holds this path, with no bit beyond it. -/
abbrev HoldsCode (e : CodeEntry) (c : List Bool) : Prop :=
  e.valid = true ∧ e.len.toNat = c.length ∧ codeBits e = c ∧ ∀ i, c.length ≤ i → e.bits.getLsbD i = false

theorem getLsbD_pathWord (c : List Bool) (i : Nat) : (pathWord c).getLsbD i = (decide (i < 256) && c.getD i false) := by
  rw [pathWord, BitVec.getLsbD_setWidth, BitVec.getLsbD_ofBoolListLE]

/-- A step to the left sets no bit. -/
theorem pathWord_append_false (c : List Bool) : pathWord (c ++ [false]) = pathWord c := by
  refine BitVec.eq_of_getLsbD_eq fun i _ => ?_
  rw [getLsbD_pathWord, getLsbD_pathWord]
  grind

/-- A step to the right sets the bit of its number. -/
theorem pathWord_append_true (c : List Bool) : pathWord (c ++ [true]) = pathWord c ||| BitVec.twoPow 256 c.length := by
  refine BitVec.eq_of_getLsbD_eq fun i _ => ?_
  rw [BitVec.getLsbD_or, BitVec.getLsbD_twoPow, getLsbD_pathWord, getLsbD_pathWord]
  grind

/-- A path of at most 255 branches fits an entry. -/
theorem pathEntry_holdsCode {c : List Bool} (h : c.length ≤ 255) : HoldsCode (pathEntry c) c := by
  have hlen : (pathEntry c).len.toNat = c.length := Nat.mod_eq_of_lt (by omega)
  have hbit : ∀ i, (pathEntry c).bits.getLsbD i = (decide (i < 256) && c.getD i false) := getLsbD_pathWord c
  refine ⟨rfl, hlen, ?_, fun i hi => ?_⟩
  · rw [codeBits, hlen]
    refine List.ext_getElem (by simp) fun i hi _ => ?_
    have hi : i < c.length := by simpa using hi
    rw [List.getElem_map, List.getElem_range, hbit]
    simp [hi, show i < 256 by omega]
  · rw [hbit, List.getD_eq_default _ _ hi, Bool.and_false]

/-! ### The nodes at the ends of paths (00_scope R17) -/

/-- The path leads to a leaf of the symbol. -/
def LeafAt (nodes : List Node) (n : NodeId) (c : List Bool) (a : Sym) : Prop :=
  ∃ m v, follow nodes n c = some m ∧ nodes[m.toNat]? = some (.leaf a v)

/-- The path leads to an Internal node. -/
def InnerAt (nodes : List Node) (n : NodeId) (c : List Bool) : Prop :=
  ∃ m w l r, follow nodes n c = some m ∧ nodes[m.toNat]? = some (.internal w l r)

section
variable {nodes : List Node} {n i j : NodeId} {w : Word64} {a b : Sym} {c d : List Bool}

theorem follow_of_leaf (hn : nodes[n.toNat]? = some (.leaf b w)) (hc : c ≠ []) : follow nodes n c = none := by
  cases c with
  | nil => contradiction
  | cons x c => rw [follow, hn]

theorem leafAt_of_leaf (hn : nodes[n.toNat]? = some (.leaf b w)) : LeafAt nodes n c a ↔ c = [] ∧ a = b := by
  by_cases hc : c = []
  · simp [LeafAt, hc, hn, eq_comm]
  · simp [LeafAt, hc, follow_of_leaf hn hc]

theorem leafAt_nil_of_inner (hn : nodes[n.toNat]? = some (.internal w i j)) : ¬ LeafAt nodes n [] a := by
  simp [LeafAt, hn]

theorem leafAt_cons_of_inner (hn : nodes[n.toNat]? = some (.internal w i j)) (x : Bool) :
    LeafAt nodes n (x :: c) a ↔ LeafAt nodes (if x then j else i) c a := by
  rw [LeafAt, follow_cons x c hn, LeafAt]

theorem innerAt_cons_of_inner (hn : nodes[n.toNat]? = some (.internal w i j)) (x : Bool) :
    InnerAt nodes n (x :: c) ↔ InnerAt nodes (if x then j else i) c := by
  rw [InnerAt, follow_cons x c hn, InnerAt]

/-- No path goes on from a leaf. -/
theorem LeafAt.eq_of_prefix (ha : LeafAt nodes n c a) (hb : LeafAt nodes n d b) (h : c <+: d) : a = b := by
  obtain ⟨e, rfl⟩ := h
  obtain ⟨m, v, hm, ha⟩ := ha
  obtain ⟨k, u, hk, hb⟩ := hb
  rw [follow_append, hm, Option.bind_some] at hk
  obtain ⟨-, rfl⟩ := (leafAt_of_leaf ha).mp ⟨k, u, hk, hb⟩
  rfl

end

/-- An Internal node of a tree is less deep than the tree. -/
theorem InnerAt.length_lt_depth {nodes : List Node} (t : CodeTree) :
    ∀ {n c}, Represents nodes n t → InnerAt nodes n c → c.length < t.depth := by
  induction t with
  | leaf b =>
    intro n c ⟨v, hn⟩ ⟨m, w, l, r, hm, hnode⟩
    by_cases hc : c = []
    · subst hc
      cases hm
      cases hn.symm.trans hnode
    · rw [follow_of_leaf hn hc] at hm
      cases hm
  | node l r ihl ihr =>
    intro n c ⟨w, i, j, hn, hl, hr⟩ h
    rw [CodeTree.depth]
    cases c with
    | nil => exact Nat.succ_pos _
    | cons x c =>
      rw [innerAt_cons_of_inner hn] at h
      refine Nat.succ_lt_succ ?_
      cases x with
      | false => exact lt_max_of_lt_left (ihl hl h)
      | true => exact lt_max_of_lt_right (ihr hr h)

/-! ### The rightmost path to a symbol (R155 corner case (c), R158) -/

/-- A path to the left comes before every path to the right. -/
theorem left_lt_right (c d : List Bool) : false :: c < true :: d := List.cons_lt_cons_iff.mpr (.inl rfl)

theorem not_right_lt_left (c d : List Bool) : ¬ true :: c < false :: d := by simp [List.cons_lt_cons_iff]

/-- The last of the paths with a property, in the order of the walk. -/
abbrev LastPath (P : List Bool → Prop) (c : List Bool) : Prop := P c ∧ ∀ later, c < later → ¬ P later

section
variable {P : List Bool → Prop} {c : List Bool}

/-- Whatever lies on the left, the last path on the right is the last of all. -/
theorem lastPath_cons_true : LastPath P (true :: c) ↔ LastPath (fun d => P (true :: d)) c := by
  refine and_congr_right fun _ => ⟨fun h d hd => h _ (List.cons_lt_cons_self.mpr hd), fun h later hlt => ?_⟩
  match later with
  | [] => exact absurd hlt (List.not_lt_nil _)
  | false :: d => exact absurd hlt (not_right_lt_left c d)
  | true :: d => exact h d (List.cons_lt_cons_self.mp hlt)

/-- A path on the left is the last of all only when there is none on the right. -/
theorem lastPath_cons_false :
    LastPath P (false :: c) ↔ LastPath (fun d => P (false :: d)) c ∧ ∀ d, ¬ P (true :: d) := by
  rw [LastPath, LastPath, and_assoc]
  refine and_congr_right fun _ => ⟨fun h => ⟨fun d hd => ?_, fun d => h _ (left_lt_right c d)⟩, fun h later hlt => ?_⟩
  · exact h _ (List.cons_lt_cons_self.mpr hd)
  obtain ⟨hleft, hright⟩ := h
  match later with
  | [] => exact absurd hlt (List.not_lt_nil _)
  | false :: d => exact hleft d (List.cons_lt_cons_self.mp hlt)
  | true :: d => exact hright d

end

/-- The code of a symbol is the last path to a leaf of it. -/
theorem codeOf_cases {nodes : List Node} (a : Sym) (t : CodeTree) : ∀ {n}, Represents nodes n t →
    (t.codeOf a = none ∧ ∀ c, ¬ LeafAt nodes n c a) ∨ ∃ c, t.codeOf a = some c ∧ LastPath (LeafAt nodes n · a) c := by
  induction t with
  | leaf b =>
    intro n ⟨v, hn⟩
    simp only [LastPath, leafAt_of_leaf hn, CodeTree.codeOf]
    by_cases hab : a = b
    · exact .inr ⟨[], if_pos hab, ⟨rfl, hab⟩, fun later hlt ⟨hnil, _⟩ => absurd (hnil ▸ hlt) (List.not_lt_nil _)⟩
    · exact .inl ⟨if_neg hab, fun c ⟨_, h⟩ => hab h⟩
  | node l r ihl ihr =>
    intro n ⟨w, i, j, hn, hl, hr⟩
    have hroot : ¬ LeafAt nodes n [] a := leafAt_nil_of_inner hn
    have hleft : ∀ c, LeafAt nodes n (false :: c) a ↔ LeafAt nodes i c a := fun c => leafAt_cons_of_inner hn false
    have hright : ∀ c, LeafAt nodes n (true :: c) a ↔ LeafAt nodes j c a := fun c => leafAt_cons_of_inner hn true
    rw [CodeTree.codeOf]
    rcases ihr hr with ⟨hcode, hnone⟩ | ⟨c, hcode, hlast⟩
    · rcases ihl hl with ⟨hcode', hnone'⟩ | ⟨c, hcode', hlast⟩
      · refine .inl ⟨by rw [hcode, hcode']; rfl, fun c => ?_⟩
        match c with
        | [] => exact hroot
        | false :: c => exact fun h => hnone' c ((hleft c).mp h)
        | true :: c => exact fun h => hnone c ((hright c).mp h)
      · refine .inr ⟨false :: c, by rw [hcode, hcode']; rfl, lastPath_cons_false.mpr ?_⟩
        simp only [hleft, hright]
        exact ⟨hlast, hnone⟩
    · refine .inr ⟨true :: c, by rw [hcode], lastPath_cons_true.mpr ?_⟩
      simp only [hright]
      exact hlast

theorem leafAt_of_codeOf {nodes : List Node} {n : NodeId} {t : CodeTree} {a : Sym} {c : List Bool} (ht : Represents nodes n t)
    (h : t.codeOf a = some c) : LeafAt nodes n c a := by
  rcases codeOf_cases a t ht with ⟨hnone, -⟩ | ⟨d, hd, hleaf, -⟩
  · cases hnone.symm.trans h
  · cases hd.symm.trans h
    exact hleaf

/-! ### What a walk records (R155) -/

/-- From one table to the other the leaves on the paths `W`, which go on from the path `p`, were recorded: a symbol has the last
of its paths, which is no longer than `max`, or keeps its entry. -/
structure Recorded (max : Nat) (p : List Bool) (W : List Bool → Sym → Prop) (ct ct' : Vector CodeEntry 256) : Prop where
  last : ∀ {a c}, LastPath (W · a) c → symGet ct' a = pathEntry (p ++ c) ∧ (p ++ c).length ≤ max
  kept : ∀ {a}, (∀ c, ¬ W c a) → symGet ct' a = symGet ct a

theorem recorded_of_none {max : Nat} {p : List Bool} {W : List Bool → Sym → Prop} (ct : Vector CodeEntry 256)
    (h : ∀ c a, ¬ W c a) : Recorded max p W ct ct where
  last hc := absurd hc.1 (h _ _)
  kept _ := rfl

theorem recorded_leaf {max : Nat} {p : List Bool} {W : List Bool → Sym → Prop} {b : Sym} (ct : Vector CodeEntry 256)
    (hp : p.length ≤ max) (h : ∀ c a, W c a ↔ c = [] ∧ a = b) : Recorded max p W ct (symSet ct b (pathEntry p)) where
  last := by
    intro a c ⟨hc, _⟩
    obtain ⟨rfl, rfl⟩ := (h c a).mp hc
    rw [List.append_nil, symGet_symSet_same]
    exact ⟨rfl, hp⟩
  kept hnone := symGet_symSet_other _ _ _ _ fun hab => hnone [] ((h _ _).mpr ⟨rfl, hab⟩)

/-- The leaves on the left are recorded before those on the right, and come before them in the order of paths. -/
theorem Recorded.node {max : Nat} {p : List Bool} {W Wl Wr : List Bool → Sym → Prop} {ct ct' ct'' : Vector CodeEntry 256}
    (hl : Recorded max (p ++ [false]) Wl ct ct') (hr : Recorded max (p ++ [true]) Wr ct' ct'') (hroot : ∀ a, ¬ W [] a)
    (hleft : ∀ c a, W (false :: c) a ↔ Wl c a) (hright : ∀ c a, W (true :: c) a ↔ Wr c a) : Recorded max p W ct ct'' where
  last := by
    intro a c hc
    match c with
    | [] => exact absurd hc.1 (hroot a)
    | false :: c =>
      simp only [lastPath_cons_false, hleft, hright] at hc
      obtain ⟨hlast, hnone⟩ := hc
      rw [hr.kept hnone]
      simpa using hl.last hlast
    | true :: c =>
      simp only [lastPath_cons_true, hright] at hc
      simpa using hr.last hc
  kept := by
    intro a hnone
    rw [hr.kept fun d hd => hnone _ ((hright d a).mpr hd), hl.kept fun d hd => hnone _ ((hleft d a).mpr hd)]

/-! ### The walk (R155) -/

/-- The state with another code table. -/
abbrev State.withCodes (s : State) (ct : Vector CodeEntry 256) : State := { s with ct := ct }

section
variable {s : State} {n i j : NodeId} {w : Word64}

theorem walk_leaf {a : Sym} (room : Nat) (p : List Bool) (hn : s.nodes[n.toNat]? = some (.leaf a w)) :
    walk room n p.length (pathWord p) s = .ok () (s.withCodes (symSet s.ct a (pathEntry p))) := by
  unfold walk
  rw [nodeAt, hn]
  rfl

theorem walk_no_room (p : List Bool) (hn : s.nodes[n.toNat]? = some (.internal w i j)) :
    walk 0 n p.length (pathWord p) s = .raised .codeTooLong (n.setWidth 64) s := by
  unfold walk
  rw [nodeAt, hn]

theorem walk_inner (room : Nat) (p : List Bool) (hn : s.nodes[n.toNat]? = some (.internal w i j)) :
    walk (room + 1) n p.length (pathWord p) s =
      (walk room i (p ++ [false]).length (pathWord (p ++ [false])) s).bind fun _ t =>
        walk room j (p ++ [true]).length (pathWord (p ++ [true])) t := by
  conv_lhs => unfold walk
  rw [nodeAt, hn, pathWord_append_false, pathWord_append_true, List.length_append, List.length_append]
  rfl

end

/-- A walk with room for the whole tree records its leaves. -/
theorem walk_records {max : Nat} (t : CodeTree) : ∀ {room n p s}, Represents s.nodes n t → t.depth ≤ room →
    p.length + room = max →
    ∃ ct, walk room n p.length (pathWord p) s = .ok () (s.withCodes ct) ∧ Recorded max p (LeafAt s.nodes n) s.ct ct := by
  induction t with
  | leaf b =>
    intro room n p s ⟨v, hn⟩ _ hmax
    exact ⟨_, walk_leaf room p hn, recorded_leaf _ (by omega) fun c a => leafAt_of_leaf hn⟩
  | node l r ihl ihr =>
    intro room n p s ⟨w, i, j, hn, hl, hr⟩ hroom hmax
    rw [CodeTree.depth] at hroom
    cases room with
    | zero => exact absurd hroom (Nat.not_succ_le_zero _)
    | succ room =>
      obtain ⟨hfitl, hfitr⟩ := max_le_iff.mp (Nat.le_of_succ_le_succ hroom)
      obtain ⟨ct, hwalkl, hrecl⟩ := ihl (p := p ++ [false]) hl hfitl (by simp; omega)
      obtain ⟨ct', hwalkr, hrecr⟩ := ihr (p := p ++ [true]) (s := s.withCodes ct) hr hfitr (by simp; omega)
      exact ⟨ct', by rw [walk_inner room p hn, hwalkl, Res.bind_ok, hwalkr],
        hrecl.node hrecr (fun a => leafAt_nil_of_inner hn) (fun c a => leafAt_cons_of_inner hn false)
          fun c a => leafAt_cons_of_inner hn true⟩

/-- The path to the first Internal node that the walk meets without room below it. -/
structure FirstTooDeep (nodes : List Node) (n : NodeId) (room : Nat) (path : List Bool) (m : NodeId) : Prop where
  length : path.length = room
  leads : follow nodes n path = some m
  inner : ∃ w l r, nodes[m.toNat]? = some (.internal w l r)
  first : ∀ earlier, earlier.length = room → earlier < path → ¬ InnerAt nodes n earlier

section
variable {nodes : List Node} {n i j m : NodeId} {w : Word64} {room : Nat} {path : List Bool}

theorem firstTooDeep_nil (hn : nodes[n.toNat]? = some (.internal w i j)) : FirstTooDeep nodes n 0 [] n :=
  ⟨rfl, rfl, ⟨w, i, j, hn⟩, fun earlier _ hlt => absurd hlt (List.not_lt_nil earlier)⟩

/-- In the left subtree the node is met before every one of the right subtree. -/
theorem FirstTooDeep.left (h : FirstTooDeep nodes i room path m) (hn : nodes[n.toNat]? = some (.internal w i j)) :
    FirstTooDeep nodes n (room + 1) (false :: path) m where
  length := congrArg (· + 1) h.length
  leads := (follow_cons false path hn).trans h.leads
  inner := h.inner
  first := by
    intro earlier hlen hlt
    match earlier with
    | false :: e =>
      rw [innerAt_cons_of_inner hn]
      exact h.first e (Nat.succ.inj hlen) (List.cons_lt_cons_self.mp hlt)
    | true :: e => exact absurd hlt (not_right_lt_left e path)

/-- In the right subtree the node is the first one when the left subtree holds none at this depth. -/
theorem FirstTooDeep.right (h : FirstTooDeep nodes j room path m) (hn : nodes[n.toNat]? = some (.internal w i j))
    (hleft : ∀ c, c.length = room → ¬ InnerAt nodes i c) : FirstTooDeep nodes n (room + 1) (true :: path) m where
  length := congrArg (· + 1) h.length
  leads := (follow_cons true path hn).trans h.leads
  inner := h.inner
  first := by
    intro earlier hlen hlt
    match earlier with
    | false :: e =>
      rw [innerAt_cons_of_inner hn]
      exact hleft e (Nat.succ.inj hlen)
    | true :: e =>
      rw [innerAt_cons_of_inner hn]
      exact h.first e (Nat.succ.inj hlen) (List.cons_lt_cons_self.mp hlt)

end

/-- A walk without room for the whole tree raises at the first node too deep, with the leaves before it recorded. -/
theorem walk_stops {max : Nat} (t : CodeTree) : ∀ {room n p s}, Represents s.nodes n t → room < t.depth →
    p.length + room = max →
    ∃ ct path m, walk room n p.length (pathWord p) s = .raised .codeTooLong (m.setWidth 64) (s.withCodes ct)
      ∧ FirstTooDeep s.nodes n room path m
      ∧ Recorded max p (fun c a => c < path ∧ LeafAt s.nodes n c a) s.ct ct := by
  induction t with
  | leaf b => exact fun _ hroom => absurd hroom (Nat.not_lt_zero _)
  | node l r ihl ihr =>
    intro room n p s ⟨w, i, j, hn, hl, hr⟩ hroom hmax
    rw [CodeTree.depth] at hroom
    cases room with
    | zero =>
      exact ⟨s.ct, [], n, walk_no_room p hn, firstTooDeep_nil hn,
        recorded_of_none _ fun c a ⟨hlt, _⟩ => List.not_lt_nil c hlt⟩
    | succ room =>
      rcases Nat.lt_or_ge room l.depth with hdeep | hfits
      · obtain ⟨ct, path, m, hwalk, hfirst, hrec⟩ := ihl (p := p ++ [false]) hl hdeep (by simp; omega)
        refine ⟨ct, false :: path, m, by rw [walk_inner room p hn, hwalk, Res.bind_raised], hfirst.left hn,
          hrec.node (recorded_of_none (W := fun _ _ => False) ct fun _ _ => id) (fun a h => leafAt_nil_of_inner hn h.2)
            (fun c a => ?_) fun c a => ?_⟩
        · rw [leafAt_cons_of_inner hn]
          simp
        · simp [not_right_lt_left]
      · obtain ⟨ct, hwalkl, hrecl⟩ := walk_records (max := max) l (p := p ++ [false]) hl hfits (by simp; omega)
        obtain ⟨ct', path, m, hwalk, hfirst, hrec⟩ :=
          ihr (s := s.withCodes ct) (p := p ++ [true]) hr (room := room) (by omega) (by simp; omega)
        have hleft : ∀ c, c.length = room → ¬ InnerAt s.nodes i c := fun c hc h => by
          have := h.length_lt_depth l hl
          omega
        refine ⟨ct', true :: path, m, by rw [walk_inner room p hn, hwalkl, Res.bind_ok, hwalk], hfirst.right hn hleft,
          hrecl.node hrec (fun a h => leafAt_nil_of_inner hn h.2) (fun c a => ?_) fun c a => ?_⟩
        · rw [leafAt_cons_of_inner hn]
          simp [left_lt_right]
        · rw [leafAt_cons_of_inner hn]
          simp

/-! ### CT_GEN (R155) -/

/-- The state in which the walk starts: the table cleared and `CT_DONE` 0. -/
abbrev State.clearedCodes (s : State) : State := { s with ct := Vector.replicate 256 CodeEntry.none, ctDone := false }

theorem generateCodes_of_root {s : State} (hroot : s.root ≠ nil) :
    generateCodes s =
      (walk s.params.maxCodeBits s.root 0 (pathWord []) s.clearedCodes).bind fun _ t =>
        answerOk (BitVec.ofNat 64 (validCodes t)) { t with ctDone := true } := if_neg hroot

/-- From a cleared table, a symbol with paths in `W` gets the last of them. -/
theorem Recorded.entry {max : Nat} {W : List Bool → Sym → Prop} {ct : Vector CodeEntry 256} {a : Sym} {c : List Bool}
    (h : Recorded max [] W (Vector.replicate 256 CodeEntry.none) ct) (hmax : max ≤ 255) (hc : LastPath (W · a) c) :
    HoldsCode (symGet ct a) c := by
  obtain ⟨hentry, hlen⟩ := h.last hc
  rw [List.nil_append] at hentry hlen
  rw [hentry]
  exact pathEntry_holdsCode (Nat.le_trans hlen hmax)

/-- From a cleared table, a symbol without a path in `W` gets no code. -/
theorem Recorded.noEntry {max : Nat} {W : List Bool → Sym → Prop} {ct : Vector CodeEntry 256} {a : Sym}
    (h : Recorded max [] W (Vector.replicate 256 CodeEntry.none) ct) (hnone : ∀ c, ¬ W c a) :
    symGet ct a = CodeEntry.none := (h.kept hnone).trans (symGet_replicate _ a)

/-- Settles O39: the walk has room for the whole tree, and the code of a symbol is the last path to it. -/
theorem ctGenRecordsThePaths : Obligations.CtGenRecordsThePaths := by
  intro s tree hf hroot htree hdepth hmax
  obtain ⟨ct, hwalk, hrec⟩ := walk_records tree (p := []) (s := s.clearedCodes) htree hdepth (Nat.zero_add _)
  have hrun := (generateCodes_of_root hroot).trans (Res.bind_of_ok hwalk _)
  have hsome : ∀ a c, tree.codeOf a = some c → HoldsCode (symGet ct a) c := by
    intro a c hc
    rcases codeOf_cases a tree htree with ⟨hnone, -⟩ | ⟨d, hd, hlast⟩
    · cases hnone.symm.trans hc
    · cases hd.symm.trans hc
      exact hrec.entry hmax hlast
  have hnone : ∀ a, tree.codeOf a = none → symGet ct a = CodeEntry.none := by
    intro a ha
    rcases codeOf_cases a tree htree with ⟨-, hno⟩ | ⟨d, hd, -⟩
    · exact hrec.noEntry hno
    · cases hd.symm.trans ha
  have hvalid : ∀ a, (symGet ct a).valid = (tree.codeOf a).isSome := by
    intro a
    cases ha : tree.codeOf a with
    | none => rw [hnone a ha]; rfl
    | some c => exact (hsome a c ha).1
  refine ⟨_, exec_of_ok (i := .ctGen) hf rfl hrun, hsome, hnone, ?_⟩
  rw [← List.filter_congr fun a _ => hvalid a]
  rfl

/-- Settles O40: the walk ends at the first node it has no room below, with the leaves before it recorded. -/
theorem ctGenRefusesOrFindsACodeTooLong : Obligations.CtGenRefusesOrFindsACodeTooLong := by
  intro s hf
  refine ⟨fun hroot => exec_of_ok (i := .ctGen) hf rfl (if_pos hroot), fun tree hroot htree hdeep => ?_⟩
  obtain ⟨ct, path, m, hwalk, hfirst, hrec⟩ :=
    walk_stops tree (p := []) (s := s.clearedCodes) htree hdeep (Nat.zero_add _)
  have hrun := (generateCodes_of_root hroot).trans (Res.bind_of_raised hwalk _)
  obtain ⟨hlength, hleads, ⟨w, l, r, hinner⟩, hnone⟩ := hfirst
  refine ⟨_, path, m, w, l, r, exec_of_raised (i := .ctGen) hf rfl hrun, hlength, hleads, hinner,
    fun earlier k w' l' r' hlen hlt hk hnode => hnone earlier hlen hlt ⟨k, w', l', r', hk, hnode⟩,
    fun hmax a => ⟨fun c hc hlast => hrec.entry hmax ⟨hc, hlast⟩, hrec.noEntry⟩, rfl, rfl⟩

/-- Settles O41: each valid entry holds the path to a leaf of its symbol, and no path goes on from a leaf. -/
theorem generatedCodesArePrefixFree : Obligations.GeneratedCodesArePrefixFree := by
  intro s t tree hf hroot htree hmax hexec hrun a b hab ha hb hprefix
  rcases Nat.lt_or_ge s.params.maxCodeBits tree.depth with hdeep | hfits
  · obtain ⟨u, path, m, w, l, r, hu, -, -, -, -, -, -, hraised⟩ :=
      (ctGenRefusesOrFindsACodeTooLong s hf).2 tree hroot htree hdeep
    cases hexec.symm.trans hu
    rw [hraised] at hrun
    exact absurd hrun (by simp)
  · obtain ⟨u, hu, hsome, hnone, -⟩ := ctGenRecordsThePaths s tree hf hroot htree hfits hmax
    cases hexec.symm.trans hu
    have hleaf : ∀ {x}, (symGet t.ct x).valid = true → LeafAt s.nodes s.root (codeBits (symGet t.ct x)) x := by
      intro x hx
      cases hcode : tree.codeOf x with
      | none => simp [hnone x hcode] at hx
      | some c =>
        obtain ⟨-, -, hbits, -⟩ := hsome x c hcode
        rw [hbits]
        exact leafAt_of_codeOf htree hcode
    exact hab ((hleaf ha).eq_of_prefix (hleaf hb) hprefix)

end Sys2Proof.Machine
end

section
/-! CT_LEN and CT_WORD (43_code_table R156, R157): what the bits of the two words are, in terms of the entry read. -/

namespace Sys2Proof.Machine

open Sys2Proof

theorem codeLenWord_setWidth (e : CodeEntry) :
    (codeLenWord e).setWidth 64 = BitVec.ofNat 64 ((if e.valid then 256 else 0) + e.len.toNat) := by
  rw [← BitVec.ofNat_toNat, codeLenWord, toNat_append_eq]
  cases e.valid <;> rfl

theorem wordIndex_toNat {k : Word64} (h : k.toNat < 4) : (k.setWidth 2).toNat = k.toNat := by
  rw [BitVec.toNat_setWidth]
  exact Nat.mod_eq_of_lt h

theorem getLsbD_codeWord (e : CodeEntry) (k : Nat) {j : Nat} (hj : j < 64) :
    (codeWord e k).getLsbD j = e.bits.getLsbD (64 * k + j) := by
  simp [codeWord, hj]

/-- Under the table's invariant a word reads 0 at or beyond the length, and of an entry that is not valid. -/
theorem getLsbD_codeWord_of_beyond {s : State} {a : Sym} {k j : Nat} (hs : CodeTableInv s)
    (h : (symGet s.ct a).valid = false ∨ (symGet s.ct a).len.toNat ≤ 64 * k + j) :
    (codeWord (symGet s.ct a) k).getLsbD j = false := by
  obtain ⟨-, hentries⟩ := hs
  obtain ⟨hzero, hbeyond⟩ := hentries a
  by_cases hj : j < 64
  · rw [getLsbD_codeWord _ _ hj]
    rcases h with hinvalid | hlen
    · rw [hzero hinvalid]
      exact BitVec.getLsbD_zero
    · exact hbeyond _ hlen
  · exact BitVec.getLsbD_of_ge _ _ (by omega)

/-- Settles O42: both commands read the entry, in FAULT as in RUN, and a word index of 4 or more is an illegal operand. -/
theorem codeReadsGiveTheEntry : Obligations.CodeReadsGiveTheEntry := by
  refine ⟨fun a w => decode_append rfl nofun rfl, fun a w => decode_append rfl nofun rfl, fun s a => ⟨?_, fun k => ⟨?_, ?_⟩⟩⟩
  · rw [exec_of_runs (i := .ctLen a) (.inr rfl) rfl, ← codeLenWord_setWidth]
    rfl
  · intro hk
    refine ⟨codeWord (symGet s.ct a) k.toNat, ?_, fun j hj => getLsbD_codeWord _ _ hj,
      fun hs j hj => getLsbD_codeWord_of_beyond hs hj⟩
    rw [exec_of_runs (i := .ctWord a k) (.inr rfl) (decide_eq_true hk), ← wordIndex_toNat hk]
    rfl
  · exact fun hk => exec_of_illFormed (i := .ctWord a k) (decide_eq_false (Nat.not_lt_of_le hk)) (.inr rfl)

end Sys2Proof.Machine
end

section
/-! The scan of TC_REBUILD (44_tree_codec R166): each unit grows the trees that stand on the stack, whose nodes are the pool and
whose dumps are the bytes scanned, so the bytes of `TBUF` decide how the scan ends. -/

namespace Sys2Proof.Machine

open Sys2Proof

/-! ### The sizes of trees and of their dumps (R165, 30_encoding R101) -/

theorem CodeTree.leaves_pos (t : CodeTree) : 1 ≤ t.leaves := by
  induction t with
  | leaf a => exact Nat.le_refl 1
  | node l r ihl ihr => rw [leaves]; omega

theorem CodeTree.size_add_one (t : CodeTree) : t.size + 1 = 2 * t.leaves := by
  induction t with
  | leaf a => rfl
  | node l r ihl ihr => rw [size, leaves]; omega

theorem CodeTree.size_pos (t : CodeTree) : 1 ≤ t.size := by
  cases t with
  | leaf a => exact Nat.le_refl 1
  | node l r => exact Nat.le_add_left 1 _

theorem CodeTree.dump_length_add_one (p : Params) (t : CodeTree) : (t.dump p).length + 1 = 3 * t.leaves := by
  induction t with
  | leaf a => rfl
  | node l r ihl ihr =>
    rw [dump, leaves, List.length_append, List.length_append, List.length_singleton]
    omega

/-- The number of leaves of a sequence of trees counts their nodes and the bytes of their dumps. -/
theorem forest_counts (p : Params) (trees : List CodeTree) (base : Nat) :
    (forestNodes trees base).length + trees.length = 2 * (trees.map CodeTree.leaves).sum
      ∧ (trees.flatMap (CodeTree.dump p)).length + trees.length = 3 * (trees.map CodeTree.leaves).sum := by
  rw [forestNodes_length]
  induction trees with
  | nil => exact ⟨rfl, rfl⟩
  | cons t trees ih =>
    obtain ⟨hnodes, hbytes⟩ := ih
    have hsize := t.size_add_one
    have hdump := t.dump_length_add_one p
    simp only [List.map_cons, List.sum_cons, List.length_cons, List.flatMap_cons, List.length_append]
    omega

/-! ### The trees on the stack (R166) -/

/-- The bytes scanned while these trees came to stand on the stack, the top one first. -/
abbrev stackDump (p : Params) (stack : List CodeTree) : List Byte := stack.reverse.flatMap (CodeTree.dump p)

/-- The pool while these trees stand on the stack. -/
abbrev stackPool (stack : List CodeTree) : List Node := forestNodes stack.reverse 0

/-- The stack's entries while these trees stand on it. -/
abbrev stackRoots (stack : List CodeTree) : List NodeId := (forestRoots stack.reverse 0).reverse

/-- The state of a rebuild while these trees stand on the stack. -/
def State.rebuilding (s : State) (stack : List CodeTree) : State :=
  { s.releaseTree with nodes := stackPool stack, stk := stackRoots stack }

theorem stackDump_cons (p : Params) (t : CodeTree) (stack : List CodeTree) :
    stackDump p (t :: stack) = stackDump p stack ++ t.dump p := by
  simp [stackDump]

theorem stackPool_cons (t : CodeTree) (stack : List CodeTree) :
    stackPool (t :: stack) = stackPool stack ++ t.rebuilt (stackPool stack).length := by
  rw [stackPool, List.reverse_cons, forestNodes_append, ← forestNodes_length stack.reverse 0]
  simp [forestNodes]

/-- The id of the root of a tree that is put on top of these. -/
abbrev rootOnTop (t : CodeTree) (stack : List CodeTree) : NodeId := BitVec.ofNat 9 ((stackPool stack).length + t.size - 1)

theorem stackRoots_cons (t : CodeTree) (stack : List CodeTree) :
    stackRoots (t :: stack) = rootOnTop t stack :: stackRoots stack := by
  rw [stackRoots, List.reverse_cons, forestRoots_append, rootOnTop, ← forestNodes_length stack.reverse 0]
  simp [forestRoots]

theorem stackPool_length_cons (t : CodeTree) (stack : List CodeTree) :
    (stackPool (t :: stack)).length = (stackPool stack).length + t.size := by
  rw [stackPool_cons, List.length_append, rebuilt_length]

/-- The pool of a joined tree is that of the two trees and then the node that joins their roots (R171). -/
theorem stackPool_node (l r : CodeTree) (stack : List CodeTree) :
    stackPool (.node l r :: stack) =
      stackPool (r :: l :: stack) ++ [.internal 0#64 (rootOnTop l stack) (rootOnTop r (l :: stack))] := by
  rw [rootOnTop, rootOnTop, stackPool_cons r, stackPool_length_cons, stackPool_cons l, stackPool_cons, CodeTree.rebuilt]
  simp only [List.append_assoc]

/-- The node that joins two trees is at the id behind theirs. -/
theorem rootOnTop_node (l r : CodeTree) (stack : List CodeTree) :
    rootOnTop (.node l r) stack = nextId (stackPool (r :: l :: stack)) := by
  rw [nextId, stackPool_length_cons, stackPool_length_cons, rootOnTop, CodeTree.size]
  congr 1
  omega

@[simp] theorem stackRoots_length (stack : List CodeTree) : (stackRoots stack).length = stack.length := by
  simp [stackRoots]

/-- While a byte of `TBUF` is left to scan, the pool has a free slot (R166 corner case (e)): a tree of `L` leaves has `2L - 1`
nodes and `3L - 1` bytes, so `TBUF` runs out first. -/
theorem stackPool_has_room {p : Params} {stack : List CodeTree} (h : (stackDump p stack).length < tbufBytes) :
    (stackPool stack).length < nodeMax := by
  obtain ⟨hnodes, hbytes⟩ := forest_counts p stack.reverse 0
  rw [stackDump, tbufBytes] at h
  rw [stackPool, nodeMax]
  omega

/-- A node is made in the next slot and put on these entries of the stack. -/
abbrev State.makeOn (s : State) (nd : Node) (ids : List NodeId) : State :=
  { s with nodes := s.nodes ++ [nd], stk := nextId s.nodes :: ids }

theorem rebuilding_makeOn_leaf (s : State) (a : Sym) (stack : List CodeTree) :
    (s.rebuilding stack).makeOn (.leaf a 0#64) (stackRoots stack) = s.rebuilding (.leaf a :: stack) :=
  congrArg₂ (fun nodes stk => { s.releaseTree with nodes := nodes, stk := stk }) (stackPool_cons (.leaf a) stack).symm
    (stackRoots_cons (.leaf a) stack).symm

theorem rebuilding_makeOn_internal (s : State) (l r : CodeTree) (stack : List CodeTree) :
    (s.rebuilding (r :: l :: stack)).makeOn (.internal 0#64 (rootOnTop l stack) (rootOnTop r (l :: stack))) (stackRoots stack) =
      s.rebuilding (.node l r :: stack) :=
  congrArg₂ (fun nodes stk => { s.releaseTree with nodes := nodes, stk := stk }) (stackPool_node l r stack).symm
    ((stackRoots_cons (.node l r) stack).trans (congrArg (· :: stackRoots stack) (rootOnTop_node l r stack))).symm

/-! ### What a unit makes of the trees on the stack (R166) -/

/-- A leaf unit puts a leaf on the stack, while it has room; an internal tag joins the two trees on top. -/
inductive DumpUnit.Grows : DumpUnit → List CodeTree → List CodeTree → Prop
  | leaf {stack : List CodeTree} (a : Sym) (hroom : stack.length < 256) : Grows (.leaf a) stack (.leaf a :: stack)
  | internal (l r : CodeTree) (stack : List CodeTree) : Grows .internal (r :: l :: stack) (.node l r :: stack)

/-- What a sequence of units makes of the trees on the stack. -/
inductive UnitsGrow : List DumpUnit → List CodeTree → List CodeTree → Prop
  | nil (stack : List CodeTree) : UnitsGrow [] stack stack
  | cons {u : DumpUnit} {units : List DumpUnit} {stack mid grown : List CodeTree} (hu : u.Grows stack mid)
      (hunits : UnitsGrow units mid grown) : UnitsGrow (u :: units) stack grown

theorem DumpUnit.exists_grows {u : DumpUnit} {stack : List CodeTree} {d : Nat} (h : u.depth stack.length = some d) :
    ∃ grown, u.Grows stack grown ∧ grown.length = d := by
  cases u with
  | leaf a =>
    obtain ⟨hroom, hd⟩ := Option.ite_none_right_eq_some.mp h
    exact ⟨_, .leaf a hroom, Option.some.inj hd⟩
  | internal =>
    obtain ⟨htwo, hd⟩ := Option.ite_none_right_eq_some.mp h
    match stack, htwo with
    | r :: l :: stack, _ => exact ⟨_, .internal l r stack, Option.some.inj hd⟩

theorem DumpUnit.Grows.depth {u : DumpUnit} {stack grown : List CodeTree} (h : u.Grows stack grown) :
    u.depth stack.length = some grown.length := by
  cases h with
  | leaf a hroom => exact if_pos hroom
  | internal l r stack => simp [DumpUnit.depth]

theorem exists_unitsGrow {units : List DumpUnit} : ∀ {stack : List CodeTree} {d : Nat},
    unitsDepth units stack.length = some d → ∃ grown, UnitsGrow units stack grown ∧ grown.length = d := by
  induction units with
  | nil => exact fun h => ⟨_, .nil _, Option.some.inj h⟩
  | cons u units ih =>
    intro stack d h
    obtain ⟨e, hu, hunits⟩ := Option.bind_eq_some_iff.mp h
    obtain ⟨mid, hmid, rfl⟩ := u.exists_grows hu
    obtain ⟨grown, hgrown, hlen⟩ := ih hunits
    exact ⟨grown, .cons hmid hgrown, hlen⟩

theorem UnitsGrow.depth {units : List DumpUnit} {stack grown : List CodeTree} (h : UnitsGrow units stack grown) :
    unitsDepth units stack.length = some grown.length := by
  induction h with
  | nil stack => rfl
  | cons hu _ ih => exact Option.bind_eq_some_iff.mpr ⟨_, hu.depth, ih⟩

theorem DumpUnit.Grows.length_le {u : DumpUnit} {stack grown : List CodeTree} (h : u.Grows stack grown)
    (hlen : stack.length ≤ 256) : grown.length ≤ 256 := by
  cases h with
  | leaf a hroom => exact hroom
  | internal l r stack => exact Nat.le_of_succ_le hlen

/-- The dumps of the trees on the stack go on with the bytes of the unit. -/
theorem DumpUnit.Grows.stackDump_eq {u : DumpUnit} {stack grown : List CodeTree} (p : Params) (h : u.Grows stack grown) :
    stackDump p grown = stackDump p stack ++ u.bytes p := by
  cases h with
  | leaf a hroom => exact stackDump_cons p _ _
  | internal l r stack => simp only [stackDump_cons, CodeTree.dump, DumpUnit.bytes, List.append_assoc]

/-- A unit makes one node. -/
theorem DumpUnit.Grows.stackPool_length {u : DumpUnit} {stack grown : List CodeTree} (h : u.Grows stack grown) :
    (stackPool grown).length = (stackPool stack).length + 1 := by
  cases h with
  | leaf a hroom => simp [stackPool_cons, CodeTree.rebuilt]
  | internal l r stack =>
    simp only [stackPool_cons, List.length_append, rebuilt_length, CodeTree.size]
    omega

theorem UnitsGrow.stackDump_eq {units : List DumpUnit} {stack grown : List CodeTree} (p : Params)
    (h : UnitsGrow units stack grown) : stackDump p grown = stackDump p stack ++ unitsBytes p units := by
  induction h with
  | nil stack => exact (List.append_nil _).symm
  | cons hu _ ih => rw [ih, hu.stackDump_eq p, List.append_assoc, unitsBytes_cons]

theorem UnitsGrow.stackPool_length {units : List DumpUnit} {stack grown : List CodeTree} (h : UnitsGrow units stack grown) :
    (stackPool grown).length = (stackPool stack).length + units.length := by
  induction h with
  | nil stack => rfl
  | cons hu _ ih => rw [ih, hu.stackPool_length, List.length_cons]; omega

/-! ### The units of a dump (30_encoding R101) -/

theorem DumpUnit.bytes_length_pos (p : Params) (u : DumpUnit) : 1 ≤ (u.bytes p).length := by
  cases u with
  | leaf a => exact Nat.le_succ 1
  | internal => exact Nat.le_refl 1

theorem length_le_unitsBytes_length (p : Params) (units : List DumpUnit) : units.length ≤ (unitsBytes p units).length := by
  induction units with
  | nil => exact Nat.le_refl 0
  | cons u units ih =>
    have := u.bytes_length_pos p
    rw [unitsBytes_cons, List.length_append, List.length_cons]
    omega

/-- The units of the dump of a tree: left, right, self. -/
def CodeTree.units : CodeTree → List DumpUnit
  | .leaf a => [.leaf a]
  | .node l r => l.units ++ r.units ++ [.internal]

theorem CodeTree.unitsBytes_units (p : Params) (t : CodeTree) : unitsBytes p t.units = t.dump p := by
  induction t with
  | leaf a => rfl
  | node l r ihl ihr => rw [units, unitsBytes_append, unitsBytes_append, ihl, ihr]; rfl

theorem UnitsGrow.append {us vs : List DumpUnit} {stack mid grown : List CodeTree} (h : UnitsGrow us stack mid)
    (k : UnitsGrow vs mid grown) : UnitsGrow (us ++ vs) stack grown := by
  induction h with
  | nil stack => exact k
  | cons hu _ ih => exact .cons hu (ih k)

/-- The units of a tree put the tree on the stack, which has room for all of its leaves. -/
theorem CodeTree.units_grow (t : CodeTree) :
    ∀ {stack : List CodeTree}, stack.length + t.leaves ≤ 256 → UnitsGrow t.units stack (t :: stack) := by
  induction t with
  | leaf a => exact fun hroom => .cons (.leaf a hroom) (.nil _)
  | node l r ihl ihr =>
    intro stack hroom
    rw [leaves] at hroom
    have hl := l.leaves_pos
    have hr := r.leaves_pos
    refine ((ihl (by omega)).append (ihr ?_)).append (.cons (.internal l r stack) (.nil _))
    rw [List.length_cons]
    omega

/-! ### The bytes ahead of the scan (R166) -/

/-- These are the bytes of `TBUF` from index `i` up to `TLEN`. -/
def Ahead (s : State) (i : Nat) (bytes : List Byte) : Prop :=
  s.tlen.toNat = i + bytes.length ∧ s.tbuf.slice i bytes.length = bytes

theorem ahead_zero {s : State} {bytes : List Byte} (h : s.tbuf.slice 0 s.tlen.toNat = bytes) : Ahead s 0 bytes := by
  have hlen : s.tlen.toNat = bytes.length := by rw [← h, Memory.slice_length]
  exact ⟨by rw [hlen, Nat.zero_add], by rw [← hlen, h]⟩

theorem Ahead.tail {s : State} {i : Nat} {b : Byte} {bytes : List Byte} (h : Ahead s i (b :: bytes)) :
    Ahead s (i + 1) bytes := by
  obtain ⟨hlen, hslice⟩ := h
  exact ⟨by rw [hlen, List.length_cons]; omega, (List.cons.inj hslice).2⟩

theorem Ahead.read {s : State} {i : Nat} {b : Byte} {bytes : List Byte} (h : Ahead s i (b :: bytes)) : s.tbuf.read i = b :=
  (List.cons.inj h.2).1

theorem Ahead.lt {s : State} {i : Nat} {b : Byte} {bytes : List Byte} (h : Ahead s i (b :: bytes)) : i < s.tlen.toNat := by
  have := h.1
  rw [List.length_cons] at this
  omega

theorem Ahead.append {s : State} {bs bytes : List Byte} :
    ∀ {i : Nat}, Ahead s i (bs ++ bytes) → Ahead s (i + bs.length) bytes := by
  induction bs with
  | nil => exact fun h => h
  | cons b bs ih =>
    intro i h
    rw [List.length_cons, Nat.add_comm bs.length, ← Nat.add_assoc]
    exact ih h.tail

/-! ### One round of the scan (R166) -/

section
variable {s : State} {i : Nat} {rest : List Byte}

/-- A round before `TLEN` looks at the byte there. -/
theorem rebuildLoop_ahead {b : Byte} (f : Nat) (hfit : s.tlen.toNat ≤ tbufBytes) (h : Ahead s i (b :: rest)) :
    rebuildLoop (f + 1) i s =
      if b = s.params.tagLeaf then (leafUnit i s).bind fun _ t => rebuildLoop f (i + 2) t
      else if b = s.params.tagInternal then (internalUnit i s).bind fun _ t => rebuildLoop f (i + 1) t
      else .raised .badTag (BitVec.ofNat 64 i) s := by
  have hlt := h.lt
  rw [rebuildLoop, if_neg (Nat.not_le_of_lt hlt), tbufTake_ok s (Nat.lt_of_lt_of_le hlt hfit), Res.bind_ok, h.read]

/-- A round at a leaf tag handles the leaf unit and goes on behind it. -/
theorem rebuildLoop_leafTag (f : Nat) (hfit : s.tlen.toNat ≤ tbufBytes) (h : Ahead s i (s.params.tagLeaf :: rest)) :
    rebuildLoop (f + 1) i s = (leafUnit i s).bind fun _ t => rebuildLoop f (i + 2) t :=
  (rebuildLoop_ahead f hfit h).trans (if_pos rfl)

/-- A round at an internal tag, where it is not the leaf tag, handles the internal unit and goes on behind it. -/
theorem rebuildLoop_internalTag (f : Nat) (hfit : s.tlen.toNat ≤ tbufBytes) (hne : s.params.tagInternal ≠ s.params.tagLeaf)
    (h : Ahead s i (s.params.tagInternal :: rest)) :
    rebuildLoop (f + 1) i s = (internalUnit i s).bind fun _ t => rebuildLoop f (i + 1) t :=
  (rebuildLoop_ahead f hfit h).trans ((if_neg hne).trans (if_pos rfl))

/-- At `TLEN` the scan is over. -/
theorem rebuildLoop_end (f : Nat) (h : s.tlen.toNat ≤ i) : rebuildLoop f i s = .ok () s := by
  cases f with
  | zero => rfl
  | succ f => exact if_pos h

/-- A leaf unit with its symbol byte and room on the stack takes a slot of the pool. -/
theorem leafUnit_ahead {a : Sym} (hfit : s.tlen.toNat ≤ tbufBytes) (hroom : s.stk.length ≠ stackCap)
    (hpool : s.nodes.length < nodeMax) (h : Ahead s (i + 1) (a :: rest)) :
    leafUnit i s = .ok () (s.makeOn (.leaf a 0#64) s.stk) := by
  have hlt := h.lt
  rw [leafUnit, if_neg (Nat.not_le_of_lt hlt), if_neg hroom, tbufTake_ok s (Nat.lt_of_lt_of_le hlt hfit), Res.bind_ok, h.read,
    alloc_ok _ hpool, Res.bind_ok]
  exact if_neg hroom

/-- An internal unit on two entries takes a slot of the pool for the node over them. -/
theorem internalUnit_of_two {l r : NodeId} {ids : List NodeId} (i : Nat) (hstk : s.stk = r :: l :: ids)
    (hroom : ids.length ≠ stackCap) (hpool : s.nodes.length < nodeMax) :
    internalUnit i s = .ok () (s.makeOn (.internal 0#64 l r) ids) := by
  unfold internalUnit
  rw [hstk]
  dsimp only
  rw [alloc_ok (s := { s with stk := ids }) _ hpool, Res.bind_ok]
  exact if_neg hroom

theorem internalUnit_of_fewer (i : Nat) (h : s.stk.length < 2) :
    internalUnit i s = .raised .stackUnderflow (BitVec.ofNat 64 i) s := by
  unfold internalUnit
  split
  · rename_i hstk
    rw [hstk] at h
    exact absurd h (by simp)
  · rfl

end

/-! ### A sequence of units (R166) -/

/-- The tags tell the internal units apart from the leaf units. -/
abbrev TagsTell (p : Params) (units : List DumpUnit) : Prop := .internal ∈ units → p.tagInternal ≠ p.tagLeaf

section
variable {s : State} {stack grown : List CodeTree} {rest : List Byte}

/-- A round at a unit that does not raise goes on behind it, with the trees grown by the unit. -/
theorem rebuildLoop_unit {u : DumpUnit} (f : Nat) (hu : u.Grows stack grown) (htags : TagsTell s.params [u])
    (hfit : s.tlen.toNat ≤ tbufBytes) (hcap : stack.length ≤ 256)
    (h : Ahead s (stackDump s.params stack).length (u.bytes s.params ++ rest)) :
    rebuildLoop (f + 1) (stackDump s.params stack).length (s.rebuilding stack) =
      rebuildLoop f (stackDump s.params grown).length (s.rebuilding grown) := by
  have hpool : ∀ {b bs}, Ahead s (stackDump s.params stack).length (b :: bs) → (stackPool stack).length < nodeMax := fun h =>
    stackPool_has_room (Nat.lt_of_lt_of_le h.lt hfit)
  rw [hu.stackDump_eq s.params, List.length_append]
  cases hu with
  | leaf a hroom =>
    have hstk : (stackRoots stack).length ≠ stackCap := stackRoots_length stack ▸ Nat.ne_of_lt hroom
    rw [rebuildLoop_leafTag (s := s.rebuilding stack) f hfit h,
      leafUnit_ahead (s := s.rebuilding stack) hfit hstk (hpool h) h.tail, Res.bind_ok]
    exact congrArg (rebuildLoop f _) (rebuilding_makeOn_leaf s a stack)
  | internal l r stack =>
    have hstk : (stackRoots stack).length ≠ stackCap := stackRoots_length stack ▸ Nat.ne_of_lt (Nat.lt_of_succ_lt hcap)
    have htop : (s.rebuilding (r :: l :: stack)).stk = rootOnTop r (l :: stack) :: rootOnTop l stack :: stackRoots stack := by
      rw [State.rebuilding, stackRoots_cons, stackRoots_cons]
    rw [rebuildLoop_internalTag (s := s.rebuilding (r :: l :: stack)) f hfit (htags List.mem_cons_self) h,
      internalUnit_of_two _ htop hstk (hpool h), Res.bind_ok]
    exact congrArg (rebuildLoop f _) (rebuilding_makeOn_internal s l r stack)

/-- The rounds at units that do not raise go on behind them, with the trees grown by the units. -/
theorem rebuildLoop_units {units : List DumpUnit} (f : Nat) (hunits : UnitsGrow units stack grown) :
    TagsTell s.params units → s.tlen.toNat ≤ tbufBytes → stack.length ≤ 256 →
    Ahead s (stackDump s.params stack).length (unitsBytes s.params units ++ rest) →
    rebuildLoop (units.length + f) (stackDump s.params stack).length (s.rebuilding stack) =
      rebuildLoop f (stackDump s.params grown).length (s.rebuilding grown) := by
  induction hunits with
  | nil stack =>
    intro _ _ _ _
    rw [List.length_nil, Nat.zero_add]
  | @cons u units stack mid grown hu _ ih =>
    intro htags hfit hcap h
    rw [unitsBytes_cons, List.append_assoc] at h
    have htags' : TagsTell s.params [u] := fun hm => htags (List.mem_cons.mpr (.inl (List.mem_singleton.mp hm)))
    have hnext : Ahead s (stackDump s.params mid).length (unitsBytes s.params units ++ rest) := by
      rw [hu.stackDump_eq s.params, List.length_append]
      exact h.append
    rw [List.length_cons, Nat.add_right_comm, rebuildLoop_unit (units.length + f) hu htags' hfit hcap h]
    exact ih (fun hm => htags (List.mem_cons_of_mem u hm)) hfit (hu.length_le hcap) hnext

end

/-! ### Where the scan stops (R166) -/

/-- What stops the scan with `d` entries on the stack and these bytes ahead, and the cause it raises. -/
inductive StopsAt (p : Params) (d : Nat) : List Byte → Cause → Prop
  | cutLeaf : StopsAt p d [p.tagLeaf] .cutLeaf
  | stackFull (a : Byte) (more : List Byte) (hd : d = 256) : StopsAt p d (p.tagLeaf :: a :: more) .stackFull
  | stackUnderflow (more : List Byte) (hne : p.tagInternal ≠ p.tagLeaf) (hd : d < 2) :
    StopsAt p d (p.tagInternal :: more) .stackUnderflow
  | badTag (b : Byte) (more : List Byte) (hl : b ≠ p.tagLeaf) (hi : b ≠ p.tagInternal) : StopsAt p d (b :: more) .badTag

theorem rebuildLoop_stops {s : State} {stack : List CodeTree} {i : Nat} {bytes : List Byte} {c : Cause} (f : Nat)
    (hstop : StopsAt s.params stack.length bytes c) (hfit : s.tlen.toNat ≤ tbufBytes) (h : Ahead s i bytes) :
    rebuildLoop (f + 1) i (s.rebuilding stack) = .raised c (BitVec.ofNat 64 i) (s.rebuilding stack) := by
  have hdepth : (s.rebuilding stack).stk.length = stack.length := stackRoots_length stack
  cases hstop with
  | cutLeaf =>
    have hlast : (s.rebuilding stack).tlen.toNat ≤ i + 1 := Nat.le_of_eq h.1
    rw [rebuildLoop_leafTag (s := s.rebuilding stack) f hfit h, leafUnit, if_pos hlast, Res.bind_raised]
  | stackFull a more hd =>
    have hlt : i + 1 < (s.rebuilding stack).tlen.toNat := h.tail.lt
    have hfull : (s.rebuilding stack).stk.length = stackCap := hdepth.trans hd
    rw [rebuildLoop_leafTag (s := s.rebuilding stack) f hfit h, leafUnit, if_neg (Nat.not_le_of_lt hlt),
      if_pos hfull, Res.bind_raised]
  | stackUnderflow more hne hd =>
    rw [rebuildLoop_internalTag (s := s.rebuilding stack) f hfit hne h, internalUnit_of_fewer i (hdepth.trans_lt hd),
      Res.bind_raised]
  | badTag b more hl hi =>
    exact (rebuildLoop_ahead (s := s.rebuilding stack) f hfit h).trans ((if_neg hl).trans (if_neg hi))

/-- The byte ahead stops the scan or begins a unit that does not raise. -/
theorem stopsAt_or_grows (p : Params) {stack : List CodeTree} (hcap : stack.length ≤ 256) (b : Byte) (bytes : List Byte) :
    (∃ c, StopsAt p stack.length (b :: bytes) c)
      ∨ ∃ u grown rest, b :: bytes = u.bytes p ++ rest ∧ u.Grows stack grown ∧ TagsTell p [u] := by
  by_cases hleaf : b = p.tagLeaf
  · subst hleaf
    match bytes with
    | [] => exact .inl ⟨_, .cutLeaf⟩
    | a :: more =>
      rcases Nat.lt_or_eq_of_le hcap with hroom | hfull
      · exact .inr ⟨.leaf a, _, more, rfl, .leaf a hroom, by simp [TagsTell]⟩
      · exact .inl ⟨_, .stackFull a more hfull⟩
  · by_cases hinternal : b = p.tagInternal
    · subst hinternal
      match stack with
      | [] => exact .inl ⟨_, .stackUnderflow bytes hleaf (Nat.zero_lt_two)⟩
      | [t] => exact .inl ⟨_, .stackUnderflow bytes hleaf (Nat.one_lt_two)⟩
      | r :: l :: stack => exact .inr ⟨.internal, _, bytes, rfl, .internal l r stack, fun _ => hleaf⟩
    · exact .inl ⟨_, .badTag b bytes hleaf hinternal⟩

/-- Any bytes are units that do not raise, and then nothing or what stops the scan. -/
theorem exists_units (p : Params) (n : Nat) : ∀ (bytes : List Byte) (stack : List CodeTree), bytes.length ≤ n →
    stack.length ≤ 256 →
    ∃ units grown tail, bytes = unitsBytes p units ++ tail ∧ UnitsGrow units stack grown ∧ TagsTell p units
      ∧ (tail = [] ∨ ∃ c, StopsAt p grown.length tail c) := by
  induction n with
  | zero =>
    intro bytes stack hn _
    exact ⟨[], stack, [], List.eq_nil_of_length_eq_zero (Nat.le_zero.mp hn), .nil stack, nofun, .inl rfl⟩
  | succ n ih =>
    intro bytes stack hn hcap
    match bytes with
    | [] => exact ⟨[], stack, [], rfl, .nil stack, nofun, .inl rfl⟩
    | b :: bytes =>
      rcases stopsAt_or_grows p hcap b bytes with hstop | ⟨u, mid, rest, hbytes, hu, htags⟩
      · exact ⟨[], stack, b :: bytes, rfl, .nil stack, nofun, .inr hstop⟩
      · have hrest : rest.length ≤ n := by
          have hlen := congrArg List.length hbytes
          have hpos := u.bytes_length_pos p
          rw [List.length_append] at hlen
          omega
        obtain ⟨units, grown, tail, rfl, hunits, htags', hend⟩ := ih rest mid hrest (hu.length_le hcap)
        refine ⟨u :: units, grown, tail, ?_, .cons hu hunits, fun hm => ?_, hend⟩
        · rw [hbytes, unitsBytes_cons, List.append_assoc]
        · rcases List.mem_cons.mp hm with hm | hm
          · exact htags (List.mem_singleton.mpr hm)
          · exact htags' hm

end Sys2Proof.Machine
end

section
/-! TC_REBUILD (44_tree_codec R166, R171): what the bytes below `TLEN` are as units decides the answer or the raise, and the units
of a dump give the dumped tree back. -/

namespace Sys2Proof.Machine

open Sys2Proof

/-! ### The bytes of `TBUF` as units (R166) -/

/-- The bytes below `TLEN` are units that let these trees stand on the stack, and then this tail. -/
structure Scan (s : State) (units : List DumpUnit) (stack : List CodeTree) (tail : List Byte) : Prop where
  fits : s.tlen.toNat ≤ tbufBytes
  bytes : s.tbuf.slice 0 s.tlen.toNat = unitsBytes s.params units ++ tail
  grows : UnitsGrow units [] stack
  tags : TagsTell s.params units

/-- Whatever `TBUF` holds, it can be read as units up to the end or to what stops the scan. -/
theorem exists_scan {s : State} (hfit : s.tlen.toNat ≤ tbufBytes) :
    ∃ units stack tail, Scan s units stack tail ∧ (tail = [] ∨ ∃ c, StopsAt s.params stack.length tail c) := by
  obtain ⟨units, stack, tail, hbytes, hgrow, htags, hend⟩ :=
    exists_units s.params _ (s.tbuf.slice 0 s.tlen.toNat) [] (Nat.le_refl _) (Nat.zero_le 256)
  exact ⟨units, stack, tail, ⟨hfit, hbytes, hgrow, htags⟩, hend⟩

/-- Whatever `TBUF` holds, its units leave one tree, or another number of trees, or there is what stops the scan. -/
theorem scan_cases {s : State} (hfit : s.tlen.toNat ≤ tbufBytes) :
    (∃ units tree, Scan s units [tree] []) ∨ (∃ units stack, Scan s units stack [] ∧ stack.length ≠ 1)
      ∨ ∃ units stack tail c, Scan s units stack tail ∧ StopsAt s.params stack.length tail c := by
  obtain ⟨units, stack, tail, hscan, rfl | ⟨c, hstop⟩⟩ := exists_scan hfit
  · by_cases hone : stack.length = 1
    · obtain ⟨tree, rfl⟩ := List.length_eq_one_iff.mp hone
      exact .inl ⟨units, tree, hscan⟩
    · exact .inr (.inl ⟨units, stack, hscan, hone⟩)
  · exact .inr (.inr ⟨units, stack, tail, c, hscan, hstop⟩)

/-- The state after a rebuild that gave this tree. -/
def State.rebuilt (s : State) (tree : CodeTree) : State :=
  { s.releaseTree with nodes := tree.rebuilt 0, root := BitVec.ofNat 9 (tree.size - 1) }

/-- The root is the last node made (R166). -/
theorem rebuilt_root_toNat (s : State) {tree : CodeTree} (h : tree.size ≤ nodeMax) :
    (s.rebuilt tree).root.toNat = tree.size - 1 := by
  rw [nodeMax] at h
  rw [State.rebuilt, BitVec.toNat_ofNat]
  omega

theorem rebuilt_root_setWidth (s : State) {tree : CodeTree} (h : tree.size ≤ nodeMax) :
    (s.rebuilt tree).root.setWidth 64 = BitVec.ofNat 64 (tree.size - 1) := by
  rw [← BitVec.ofNat_toNat, rebuilt_root_toNat s h]

section
variable {s : State} {units : List DumpUnit} {stack : List CodeTree} {tail : List Byte}

theorem Scan.stackDump_eq (h : Scan s units stack tail) : stackDump s.params stack = unitsBytes s.params units :=
  h.grows.stackDump_eq s.params

theorem Scan.ahead (h : Scan s units stack tail) : Ahead s (stackDump s.params stack).length tail := by
  have := (ahead_zero h.bytes).append
  rwa [Nat.zero_add, ← h.stackDump_eq] at this

/-- The units are the dumps of the trees on the stack, and each made one node of their pool. -/
theorem Scan.forest (h : Scan s units stack tail) :
    unitsBytes s.params units = stack.reverse.flatMap (CodeTree.dump s.params) ∧ stack.reverse.length = stack.length
      ∧ (forestNodes stack.reverse 0).length = units.length :=
  ⟨h.stackDump_eq.symm, List.length_reverse, h.grows.stackPool_length.trans (Nat.zero_add _)⟩

/-- The scan comes to the tail with rounds left for it. -/
theorem Scan.loop (h : Scan s units stack tail) :
    ∃ f, tail.length ≤ f ∧ rebuildLoop s.tlen.toNat 0 s.releaseTree =
      rebuildLoop f (stackDump s.params stack).length (s.rebuilding stack) := by
  have hlen : s.tlen.toNat = (unitsBytes s.params units).length + tail.length := by
    rw [← List.length_append, ← h.bytes, Memory.slice_length]
  have hle := length_le_unitsBytes_length s.params units
  have hrounds : s.tlen.toNat = units.length + (s.tlen.toNat - units.length) := by omega
  refine ⟨s.tlen.toNat - units.length, by omega, ?_⟩
  conv_lhs => rw [hrounds]
  exact rebuildLoop_units _ h.grows h.tags h.fits (Nat.zero_le 256) (ahead_zero h.bytes)

/-- Units up to the end leave their trees on the stack. -/
theorem Scan.loop_end (h : Scan s units stack []) :
    rebuildLoop s.tlen.toNat 0 s.releaseTree = .ok () (s.rebuilding stack) := by
  obtain ⟨f, -, hloop⟩ := h.loop
  rw [hloop]
  exact rebuildLoop_end (s := s.rebuilding stack) f (Nat.le_of_eq h.ahead.1)

/-- A tail that stops the scan raises with the index of the unit it begins. -/
theorem Scan.stops {c : Cause} (h : Scan s units stack tail) (hstop : StopsAt s.params stack.length tail c) :
    rebuildTree s = .raised c (BitVec.ofNat 64 (unitsBytes s.params units).length) (s.rebuilding stack) := by
  obtain ⟨f, hf, hloop⟩ := h.loop
  have hpos : 1 ≤ tail.length := by cases hstop <;> exact Nat.le_add_left 1 _
  obtain ⟨f, rfl⟩ : ∃ m, f = m + 1 := ⟨f - 1, by omega⟩
  refine Res.bind_of_raised ?_ _
  rw [hloop, rebuildLoop_stops f hstop h.fits h.ahead, h.stackDump_eq]

/-- Units that leave another number of entries than one raise with that number. -/
theorem Scan.badDepth (h : Scan s units stack []) (hd : stack.length ≠ 1) :
    rebuildTree s = .raised .badDepth (BitVec.ofNat 64 stack.length) (s.rebuilding stack) := by
  refine (Res.bind_of_ok h.loop_end _).trans ?_
  split
  · rename_i hone
    have := congrArg List.length hone
    exact absurd ((stackRoots_length stack).symm.trans this) hd
  · exact congrArg (fun n => Res.raised .badDepth (BitVec.ofNat 64 n) (s.rebuilding stack)) (stackRoots_length stack)

/-- A tree whose dump fits `TBUF` has ids for its nodes. -/
theorem Scan.size_le {tree : CodeTree} (h : Scan s units [tree] []) : tree.size ≤ nodeMax := by
  have hlen : (tree.dump s.params).length = s.tlen.toNat := by
    have := h.ahead.1
    rw [stackDump_cons] at this
    exact this.symm
  have hfit := h.fits
  have hdump := tree.dump_length_add_one s.params
  have hsize := tree.size_add_one
  rw [tbufBytes] at hfit
  rw [nodeMax]
  omega

/-- Units that leave one tree answer with its root, the last node made. -/
theorem Scan.rebuilt {tree : CodeTree} (h : Scan s units [tree] []) :
    rebuildTree s = answerOk (BitVec.ofNat 64 (tree.size - 1)) (s.rebuilt tree) := by
  have hpool : stackPool [tree] = tree.rebuilt 0 := stackPool_cons tree []
  have hroot : rootOnTop tree [] = (s.rebuilt tree).root := congrArg (fun n => BitVec.ofNat 9 (n - 1)) (Nat.zero_add _)
  refine (Res.bind_of_ok h.loop_end _).trans ?_
  rw [State.rebuilding, stackRoots_cons, hroot, hpool, ← rebuilt_root_setWidth s h.size_le]
  rfl

/-- What lies at or beyond `TLEN` is no part of the scan. -/
theorem Scan.congr {m : Memory} (h : Scan s units stack tail) (hm : ∀ i, i < s.tlen.toNat → m.read i = s.tbuf.read i) :
    Scan { s with tbuf := m } units stack tail := by
  refine ⟨h.fits, Eq.trans ?_ h.bytes, h.grows, h.tags⟩
  refine List.ext_getElem (by simp) fun i hi _ => ?_
  rw [Memory.getElem_slice, Memory.getElem_slice, Nat.zero_add]
  exact hm i (by simpa using hi)

end

/-! ### The command (R166, R171) -/

/-- The units of a dump leave the dumped tree alone on the stack. -/
theorem scan_of_dump {s : State} {tree : CodeTree} (htags : s.params.tagLeaf ≠ s.params.tagInternal)
    (hfit : s.tlen.toNat ≤ tbufBytes) (h : s.tbuf.slice 0 s.tlen.toNat = tree.dump s.params) :
    Scan s tree.units [tree] [] := by
  have hleaves : tree.leaves ≤ 256 := by
    have hlen := congrArg List.length h
    have hdump := tree.dump_length_add_one s.params
    rw [Memory.slice_length] at hlen
    rw [tbufBytes] at hfit
    omega
  refine ⟨hfit, ?_, tree.units_grow ?_, fun _ => htags.symm⟩
  · rw [h, tree.unitsBytes_units, List.append_nil]
  · rwa [List.length_nil, Nat.zero_add]

/-- Settles O44: the units of the dump grow the dumped tree on the empty stack. -/
theorem tcRebuildMakesTheDumpedTree : Obligations.TcRebuildMakesTheDumpedTree := fun _ _ hf htags hfit hdump =>
  exec_of_ok (i := .tcRebuild) hf rfl (scan_of_dump htags hfit hdump).rebuilt

/-- Settles O46: both buffers are the same units with the same tail, so both scans end in the same way. -/
theorem tcRebuildReadsOnlyBelowTlen : Obligations.TcRebuildReadsOnlyBelowTlen := by
  intro s m hfit hm
  obtain ⟨t, ht, ht'⟩ : ∃ t, exec .tcRebuild s = .next t
      ∧ exec .tcRebuild { s with tbuf := m } = .next { t with tbuf := m } := by
    rcases Bool.eq_false_or_eq_true s.fault with hf | hf
    · have hf' : ({ s with tbuf := m } : State).fault = true := hf
      exact ⟨_, exec_of_gated (i := .tcRebuild) hf rfl, exec_of_gated (i := .tcRebuild) hf' rfl⟩
    · have hf' : ({ s with tbuf := m } : State).fault = false := hf
      rcases scan_cases hfit with ⟨units, tree, h⟩ | ⟨units, stack, h, hd⟩ | ⟨units, stack, tail, c, h, hstop⟩
      · exact ⟨_, exec_of_ok (i := .tcRebuild) hf rfl h.rebuilt, exec_of_ok (i := .tcRebuild) hf' rfl (h.congr hm).rebuilt⟩
      · exact ⟨_, exec_of_raised (i := .tcRebuild) hf rfl (h.badDepth hd),
          exec_of_raised (i := .tcRebuild) hf' rfl ((h.congr hm).badDepth hd)⟩
      · exact ⟨_, exec_of_raised (i := .tcRebuild) hf rfl (h.stops hstop),
          exec_of_raised (i := .tcRebuild) hf' rfl ((h.congr hm).stops hstop)⟩
  rw [ht, ht']

theorem lastResponse_respond (s : State) (st : Status) (v : Word64) : lastResponse (s.respond st v) = some ⟨st, v⟩ :=
  List.getLast?_concat

/-- The causes a rebuild can raise (60_exceptions R216). -/
def rebuildCauses : List Cause := [.stackUnderflow, .badDepth, .badTag, .cutLeaf, .stackFull]

theorem rebuildCauses_codes : ∀ c ∈ rebuildCauses,
    c.code = 0x14#8 ∨ c.code = 0x15#8 ∨ c.code = 0x16#8 ∨ c.code = 0x17#8 ∨ c.code = 0x22#8 := by decide

theorem StopsAt.mem_rebuildCauses {p : Params} {d : Nat} {bytes : List Byte} {c : Cause} (h : StopsAt p d bytes c) :
    c ∈ rebuildCauses := by
  cases h <;> decide

/-- A rebuild answers with the root of a tree or raises one of its causes. -/
theorem rebuildTree_cases {s : State} (hfit : s.tlen.toNat ≤ tbufBytes) :
    (∃ tree : CodeTree, tree.size ≤ nodeMax ∧ rebuildTree s = answerOk (BitVec.ofNat 64 (tree.size - 1)) (s.rebuilt tree))
      ∨ ∃ c info stack, c ∈ rebuildCauses ∧ rebuildTree s = .raised c info (s.rebuilding stack) := by
  rcases scan_cases hfit with ⟨units, tree, h⟩ | ⟨units, stack, h, hd⟩ | ⟨units, stack, tail, c, h, hstop⟩
  · exact .inl ⟨tree, h.size_le, h.rebuilt⟩
  · exact .inr ⟨_, _, stack, by decide, h.badDepth hd⟩
  · exact .inr ⟨c, _, stack, hstop.mem_rebuildCauses, h.stops hstop⟩

/-- Settles O47: the units below `TLEN` and what follows them decide how the scan ends. -/
theorem tcRebuildNeverExhaustsThePool : Obligations.TcRebuildNeverExhaustsThePool := by
  intro s hf hfit
  refine ⟨?_, fun hne => ⟨fun units d tail hsplit => ?_, ?_⟩⟩
  · rcases rebuildTree_cases hfit with ⟨tree, hsize, h⟩ | ⟨c, info, stack, hc, h⟩
    · refine ⟨_, exec_of_ok (i := .tcRebuild) hf rfl h, fun _ => ⟨?_, rfl, ?_⟩, fun ht => ?_⟩
      · rw [State.respond_root, State.respond_nodes, rebuilt_root_toNat s hsize, Nat.sub_add_cancel tree.size_pos]
        exact (rebuilt_length tree 0).symm
      · rw [lastResponse_respond, State.respond_root, rebuilt_root_setWidth s hsize]
      · exact absurd (hf.symm.trans ht) Bool.false_ne_true
    · exact ⟨_, exec_of_raised (i := .tcRebuild) hf rfl h, fun ht => absurd ht.symm Bool.false_ne_true,
        fun _ => ⟨rfl, rebuildCauses_codes c hc⟩⟩
  · obtain ⟨hbytes, hdepth⟩ := hsplit
    obtain ⟨stack, hgrow, rfl⟩ := exists_unitsGrow (stack := []) hdepth
    have hscan : Scan s units stack tail := ⟨hfit, hbytes, hgrow, fun _ => hne.symm⟩
    refine ⟨?_, ?_, ?_, ?_, ?_, ?_⟩
    · rintro rfl hone
      obtain ⟨tree, rfl⟩ := List.length_eq_one_iff.mp hone
      have hlen : units.length = tree.size := by
        rw [← hscan.grows.stackPool_length.trans (Nat.zero_add _), stackPool_length_cons]
        exact Nat.zero_add _
      refine ⟨_, tree, exec_of_ok (i := .tcRebuild) hf rfl hscan.rebuilt, hscan.forest, ?_⟩
      rw [hlen]
      rfl
    · rintro rfl hd
      exact ⟨_, stack.reverse, exec_of_raised (i := .tcRebuild) hf rfl (hscan.badDepth hd), hscan.forest, rfl⟩
    · rintro rfl
      exact ⟨_, stack.reverse, exec_of_raised (i := .tcRebuild) hf rfl (hscan.stops .cutLeaf), hscan.forest, rfl⟩
    · rintro a more rfl hd
      exact ⟨_, stack.reverse, exec_of_raised (i := .tcRebuild) hf rfl (hscan.stops (.stackFull a more hd)),
        hscan.forest, rfl⟩
    · rintro more rfl hd
      exact ⟨_, stack.reverse, exec_of_raised (i := .tcRebuild) hf rfl (hscan.stops (.stackUnderflow more hne.symm hd)),
        hscan.forest, rfl⟩
    · rintro b more rfl hl hi
      exact ⟨_, stack.reverse, exec_of_raised (i := .tcRebuild) hf rfl (hscan.stops (.badTag b more hl hi)),
        hscan.forest, rfl⟩
  · obtain ⟨units, stack, tail, hscan, hend⟩ := exists_scan hfit
    refine ⟨units, stack.length, tail, ⟨hscan.bytes, hscan.grows.depth⟩, ?_⟩
    rcases hend with rfl | ⟨c, hstop⟩
    · exact .inl rfl
    · cases hstop with
      | cutLeaf => exact .inr (.inl rfl)
      | stackFull a more hd => exact .inr (.inr (.inl ⟨a, more, rfl, hd⟩))
      | stackUnderflow more _ hd => exact .inr (.inr (.inr (.inl ⟨more, rfl, hd⟩)))
      | badTag b more hl hi => exact .inr (.inr (.inr (.inr ⟨b, more, rfl, hl, hi⟩)))

end Sys2Proof.Machine
end

section
/-! TC_DUMP (44_tree_codec R165, R171): the walk appends the dump of each subtree in post-order, and a rebuild of the dump gives
back the shape and the symbols of the tree. -/

namespace Sys2Proof.Machine

open Sys2Proof

/-! ### Appending to `TBUF` (10_state R31) -/

theorem Memory.writeBytes_append (bs cs : List Byte) :
    ∀ (m : Memory) (a : Nat), m.writeBytes a (bs ++ cs) = (m.writeBytes a bs).writeBytes (a + bs.length) cs := by
  induction bs with
  | nil => exact fun _ _ => rfl
  | cons b bs ih =>
    intro m a
    rw [List.cons_append, Memory.writeBytes, ih, Memory.writeBytes, List.length_cons, Nat.add_assoc, Nat.add_comm 1]

/-- The state with more bytes of the tree in `TBUF`. -/
def State.appendTree (s : State) (bytes : List Byte) : State :=
  { s with tbuf := s.tbuf.writeBytes s.tlen.toNat bytes, tlen := BitVec.ofNat 10 (s.tlen.toNat + bytes.length) }

theorem appendTree_tlen {s : State} {bytes : List Byte} (h : s.tlen.toNat + bytes.length ≤ tbufBytes) :
    (s.appendTree bytes).tlen.toNat = s.tlen.toNat + bytes.length := by
  rw [tbufBytes] at h
  rw [State.appendTree, BitVec.toNat_ofNat]
  omega

theorem appendTree_append {s : State} {bs : List Byte} (cs : List Byte) (h : s.tlen.toNat + bs.length ≤ tbufBytes) :
    (s.appendTree bs).appendTree cs = s.appendTree (bs ++ cs) := by
  rw [State.appendTree, appendTree_tlen h, State.appendTree, State.appendTree, Memory.writeBytes_append, List.length_append,
    Nat.add_assoc]

theorem tbufAppend_eq {s : State} (b : Byte) (h : s.tlen.toNat < tbufBytes) :
    tbufAppend b s = .ok () (s.appendTree [b]) := by
  have htlen : s.tlen + 1#10 = BitVec.ofNat 10 (s.tlen.toNat + 1) := by
    rw [BitVec.ofNat_add, BitVec.ofNat_toNat, BitVec.setWidth_eq]
  rw [tbufAppend_ok b h, htlen]
  rfl

/-! ### The walk (R165) -/

section
variable {s : State} {n i j : NodeId} {w : Word64}

theorem post_leaf {a : Sym} (depth : Nat) (hn : s.nodes[n.toNat]? = some (.leaf a w)) :
    post depth n s = (tbufAppend s.params.tagLeaf s).bind fun _ t => tbufAppend a t := by
  unfold post
  rw [nodeAt, hn]

theorem post_internal (depth : Nat) (hn : s.nodes[n.toNat]? = some (.internal w i j)) :
    post (depth + 1) n s =
      (post depth i s).bind fun _ t => (post depth j t).bind fun _ u => tbufAppend u.params.tagInternal u := by
  conv_lhs => unfold post
  rw [nodeAt, hn]

end

/-- A walk deep enough for the tree appends its dump, where `TBUF` has room for it. -/
theorem post_dumps (t : CodeTree) : ∀ {depth n s}, Represents s.nodes n t → t.depth ≤ depth →
    s.tlen.toNat + (t.dump s.params).length ≤ tbufBytes → post depth n s = .ok () (s.appendTree (t.dump s.params)) := by
  induction t with
  | leaf a =>
    intro depth n s ⟨w, hn⟩ _ hroom
    have hroom : s.tlen.toNat + 2 ≤ tbufBytes := hroom
    have hfirst : s.tlen.toNat + [s.params.tagLeaf].length ≤ tbufBytes := Nat.le_of_succ_le hroom
    have hsecond : (s.appendTree [s.params.tagLeaf]).tlen.toNat < tbufBytes := by
      rw [appendTree_tlen hfirst]
      exact hroom
    rw [post_leaf depth hn, tbufAppend_eq _ (Nat.lt_of_succ_le hfirst), Res.bind_ok, tbufAppend_eq a hsecond,
      appendTree_append [a] hfirst]
    rfl
  | node l r ihl ihr =>
    intro depth n s ⟨w, i, j, hn, hl, hr⟩ hdepth hroom
    rw [CodeTree.depth] at hdepth
    rw [CodeTree.dump, List.length_append, List.length_append, List.length_singleton] at hroom
    obtain ⟨depth, rfl⟩ : ∃ m, depth = m + 1 := ⟨depth - 1, by omega⟩
    have hleft : s.tlen.toNat + (l.dump s.params).length ≤ tbufBytes := by omega
    have hboth : s.tlen.toNat + (l.dump s.params ++ r.dump s.params).length ≤ tbufBytes := by
      rw [List.length_append]
      omega
    have hright : (s.appendTree (l.dump s.params)).tlen.toNat + (r.dump s.params).length ≤ tbufBytes := by
      rw [appendTree_tlen hleft]
      omega
    have htag : (s.appendTree (l.dump s.params ++ r.dump s.params)).tlen.toNat < tbufBytes := by
      rw [appendTree_tlen hboth, List.length_append]
      omega
    rw [post_internal depth hn, ihl hl (by omega) hleft, Res.bind_ok,
      ihr (s := s.appendTree (l.dump s.params)) hr (by omega) hright, Res.bind_ok]
    rw [show (s.appendTree (l.dump s.params)).params = s.params from rfl, appendTree_append _ hleft, tbufAppend_eq _ htag,
      appendTree_append _ hboth]
    rfl

theorem CodeTree.depth_lt_leaves (t : CodeTree) : t.depth < t.leaves := by
  induction t with
  | leaf a => exact Nat.zero_lt_one
  | node l r ihl ihr => rw [depth, leaves]; omega

/-- The state after a dump of a tree. -/
abbrev State.dumped (s : State) (tree : CodeTree) : State :=
  ({ s with tlen := 0#10 } : State).appendTree (tree.dump s.params)

/-- The dump of a tree of at most 256 leaves fits `TBUF`. -/
theorem dumpTree_of_root {s : State} {tree : CodeTree} (hroot : s.root ≠ nil) (htree : Represents s.nodes s.root tree)
    (hleaves : tree.leaves ≤ 256) :
    dumpTree s = answerOk ((s.dumped tree).tlen.setWidth 64) (s.dumped tree) := by
  have hdepth : tree.depth ≤ nodeMax := by
    have := tree.depth_lt_leaves
    rw [nodeMax]
    omega
  have hfits : ({ s with tlen := 0#10 } : State).tlen.toNat + (tree.dump s.params).length ≤ tbufBytes := by
    have := tree.dump_length_add_one s.params
    rw [tbufBytes, BitVec.toNat_zero]
    omega
  exact (if_neg hroot).trans (Res.bind_of_ok (post_dumps tree (s := { s with tlen := 0#10 }) htree hdepth hfits) _)

/-- Settles O43: the walk appends the dump to the emptied buffer. -/
theorem tcDumpWritesThePostOrder : Obligations.TcDumpWritesThePostOrder := by
  refine ⟨fun w => decode_append (op := 0x40#8) (a := 0x00#8) rfl (fun _ => rfl) rfl, fun s hf => ⟨fun hroot => ?_, ?_⟩⟩
  · exact exec_of_ok (i := .tcDump) hf rfl (if_pos hroot)
  · intro tree hroot htree hleaves hwf
    have hlen : (tree.dump s.params).length = 3 * tree.leaves - 1 := by
      have := tree.dump_length_add_one s.params
      omega
    have htlen : (s.dumped tree).tlen = BitVec.ofNat 10 (3 * tree.leaves - 1) := by
      rw [← hlen, ← Nat.zero_add (tree.dump s.params).length]
      rfl
    have hword : (s.dumped tree).tlen.setWidth 64 = BitVec.ofNat 64 (3 * tree.leaves - 1) := by
      rw [htlen, ← BitVec.ofNat_toNat, BitVec.toNat_ofNat, Nat.mod_eq_of_lt (by omega)]
    refine ⟨_, exec_of_ok (i := .tcDump) hf rfl (dumpTree_of_root hroot htree hleaves), ?_, fun i hi => ?_, ?_⟩
    · rw [← hlen]
      exact Memory.slice_writeBytes _ 0 hwf
    · exact Memory.read_writeBytes_other _ _ _ _ (.inr (by rw [hlen, BitVec.toNat_zero, Nat.zero_add]; exact hi))
    · rw [hword, ← htlen]
      rfl

/-! ### The round trip (R171) -/

/-- A rebuilt tree stands in its pool under its last node. -/
theorem represents_rebuilt (t : CodeTree) : ∀ {before : List Node}, before.length + t.size ≤ nodeMax →
    Represents (before ++ t.rebuilt before.length) (BitVec.ofNat 9 (before.length + t.size - 1)) t := by
  induction t with
  | leaf a => exact fun h => ⟨0#64, getElem?_nextId _ h⟩
  | node l r ihl ihr =>
    intro before h
    rw [CodeTree.size] at h
    have hleft := ihl (before := before) (by omega)
    have hlen : (before ++ l.rebuilt before.length).length = before.length + l.size := by
      rw [List.length_append, rebuilt_length]
    have hright := ihr (before := before ++ l.rebuilt before.length) (by omega)
    rw [hlen] at hright
    have hpool : before ++ (CodeTree.node l r).rebuilt before.length =
        (before ++ l.rebuilt before.length ++ r.rebuilt (before.length + l.size)) ++
          [.internal 0#64 (BitVec.ofNat 9 (before.length + l.size - 1))
            (BitVec.ofNat 9 (before.length + l.size + r.size - 1))] := by
      rw [CodeTree.rebuilt]
      simp only [List.append_assoc]
    have hlast : before.length + (CodeTree.node l r).size - 1 =
        (before ++ l.rebuilt before.length ++ r.rebuilt (before.length + l.size)).length := by
      rw [List.length_append, hlen, rebuilt_length, CodeTree.size]
      omega
    rw [hpool, hlast]
    refine ⟨0#64, _, _, getElem?_nextId _ ?_, represents_append _ l (represents_append _ l hleft),
      represents_append _ r hright⟩
    rw [List.length_append, hlen, rebuilt_length]
    omega

theorem rebuilt_weight (t : CodeTree) : ∀ (base : Nat), ∀ nd ∈ t.rebuilt base, nd.weight = 0#64 := by
  induction t with
  | leaf a => exact fun _ nd hnd => List.mem_singleton.mp hnd ▸ rfl
  | node l r ihl ihr =>
    intro base nd hnd
    rw [CodeTree.rebuilt, List.mem_append, List.mem_append, List.mem_singleton] at hnd
    rcases hnd with (hnd | hnd) | rfl
    · exact ihl _ nd hnd
    · exact ihr _ nd hnd
    · rfl

/-- Settles O45: the dump fills `TBUF` up to `TLEN`, so the rebuild gives the dumped tree, which stands under its last node. -/
theorem dumpThenRebuildKeepsTheTree : Obligations.DumpThenRebuildKeepsTheTree := by
  intro s tree hf htags hwf hroot htree hleaves
  obtain ⟨t, hdump, hslice, -, ht⟩ := (tcDumpWritesThePostOrder.2 s hf).2 tree hroot htree hleaves hwf
  have htlen : t.tlen.toNat = 3 * tree.leaves - 1 := by
    rw [ht, State.respond_tlen, BitVec.toNat_ofNat]
    omega
  have hparams : t.params = s.params := by rw [ht]; rfl
  have hfault : t.fault = false := by rw [ht]; exact hf
  have hrebuild := tcRebuildMakesTheDumpedTree t tree hfault (by rwa [hparams]) (by omega) (by rw [htlen, hslice, hparams])
  have hsize : ([] : List Node).length + tree.size ≤ nodeMax := by
    have := tree.size_add_one
    rw [List.length_nil, nodeMax]
    omega
  have hnew := represents_rebuilt tree hsize
  rw [List.nil_append, List.length_nil, Nat.zero_add] at hnew
  exact ⟨t, _, hdump, hrebuild, hnew, rebuilt_weight tree 0, rebuilt_length tree 0, hfault⟩

end Sys2Proof.Machine
end

section
/-! TC_LOAD, TC_STORE, TBUF_RD and TBUF_WR (44_tree_codec R167 to R170): the buffer filled from the source, written to the sink,
and read and written byte by byte. -/

namespace Sys2Proof.Machine

open Sys2Proof

/-! ### Enough bytes before a read fails (20_memory R63, R64) -/

/-- Reads that deliver `m` bytes under one cap deliver them under the cap `m`. -/
theorem le_sum_capped {m n : Nat} {ks : List Nat} (h : m ≤ (ks.map fun k => min (max 1 k) n).sum) :
    m ≤ (ks.map fun k => min (max 1 k) m).sum := by
  have key : min m (ks.map fun k => min (max 1 k) n).sum ≤ (ks.map fun k => min (max 1 k) m).sum := by
    clear h
    induction ks with
    | nil => exact Nat.min_le_right _ _
    | cons k ks ih =>
      rw [List.map_cons, List.map_cons, List.sum_cons, List.sum_cons]
      omega
  rwa [Nat.min_eq_left h] at key

/-- A prepared delivery of up to `k` bytes gives that many of those asked for, or all that is left (20_memory R63). -/
theorem srcRead_eq_of_deliver {s : State} {k : Nat} {more : List ReadAnswer} (n : Nat) (h : s.env.reads = .deliver k :: more) :
    srcRead n s = .ok ((srcRest s).take (min (max 1 k) n))
      (readDelivery s more ((srcRest s).take (min (max 1 k) n)).length) := by
  unfold srcRead
  rw [h]
  rfl

theorem srcReadLoop_zero (f : Nat) (s : State) : srcReadLoop f 0 s = .ok [] s := by
  cases f with
  | zero => rfl
  | succ f => exact if_pos rfl

theorem srcRest_readDelivery (s : State) (more : List ReadAnswer) (m : Nat) :
    srcRest (readDelivery s more m) = (srcRest s).drop m := List.drop_drop.symm

theorem readDelivery_readDelivery (s : State) (more reads : List ReadAnswer) (m k : Nat) :
    readDelivery (readDelivery s more m) reads k = readDelivery s reads (m + k) := by
  simp only [readDelivery, Nat.add_assoc]

/-- Each delivery leaves a shorter request, for which the later deliveries are still enough. -/
theorem srcReadLoop_gives {pos : Nat} {rest : List ReadAnswer} (ks : List Nat) : ∀ {f n s}, n ≤ f →
    ReadsFailAfter s ks pos rest → n ≤ delivered n (srcRest s).length ks →
    ∃ reads, srcReadLoop f n s = .ok ((srcRest s).take n) (readDelivery s reads n) := by
  induction ks with
  | nil =>
    intro f n s _ _ hgive
    rw [delivered_nil, Nat.le_zero] at hgive
    subst hgive
    exact ⟨s.env.reads, srcReadLoop_zero f s⟩
  | cons k ks ih =>
    intro f n s hf hr hgive
    rcases Nat.eq_zero_or_pos n with rfl | hn
    · exact ⟨s.env.reads, srcReadLoop_zero f s⟩
    obtain ⟨f, rfl⟩ : ∃ m, f = m + 1 := ⟨f - 1, by omega⟩
    rw [delivered_cons] at hgive
    obtain ⟨m, hm⟩ : ∃ m, m = min (max 1 k) n := ⟨_, rfl⟩
    have hread := srcRead_eq_of_deliver (more := ks.map .deliver ++ .fail pos :: rest) n hr
    rw [← hm] at hgive hread
    have hlen : ((srcRest s).take m).length = m := List.length_take_of_le (by omega)
    have hne : (srcRest s).take m ≠ [] := List.ne_nil_of_length_pos (by omega)
    have hmore := le_sum_capped (m := n - m) (n := n) (ks := ks) (by omega)
    rw [hlen] at hread
    obtain ⟨reads, hloop⟩ := ih (f := f) (n := n - m) (s := readDelivery s (ks.map .deliver ++ .fail pos :: rest) m)
      (by omega) rfl (by rw [delivered, srcRest_readDelivery, List.length_drop]; omega)
    refine ⟨reads, ?_⟩
    rw [srcReadLoop, if_neg (Nat.ne_of_gt hn), hread, Res.bind_ok, if_neg hne, hlen, hloop, Res.bind_ok, srcRest_readDelivery,
      ← List.take_add, readDelivery_readDelivery, Nat.add_sub_cancel' (by omega)]

/-- When the next `n` bytes come before any read fails, `SrcReadExact(n)` gives them. -/
theorem srcReadExact_gives {s : State} {n : Nat} (h : ReadsGive s n) (hleft : n ≤ (srcRest s).length) :
    ∃ reads, srcReadExact n s = .ok ((srcRest s).take n) (readDelivery s reads n) := by
  rcases h with hdel | ⟨ks, pos, rest, hfail, hgive⟩
  · obtain ⟨reads, -, hread⟩ := srcReadExact_ok n hdel
    rw [List.length_take_of_le hleft] at hread
    exact ⟨reads, hread⟩
  · exact srcReadLoop_gives ks (Nat.le_refl n) hfail hgive

/-! ### TC_LOAD (R167) -/

/-- The bytes read go to the start of `TBUF`, whether they are all or not. -/
theorem loadTree_of_read {s : State} {d : List Byte} {reads : List ReadAnswer} {m : Nat} (hfit : s.hTreeSize.toNat ≤ tbufBytes)
    (hread : srcReadExact s.hTreeSize.toNat s = .ok d (readDelivery s reads m)) :
    loadTree s =
      if d.length < s.hTreeSize.toNat then
        .raised .shortTree (BitVec.ofNat 64 d.length) { readDelivery s reads m with tbuf := s.tbuf.writeBytes 0 d }
      else
        answerOk (s.hTreeSize.setWidth 64)
          { readDelivery s reads m with tbuf := s.tbuf.writeBytes 0 d, tlen := s.hTreeSize.setWidth 10 } := by
  rw [loadTree, if_neg (Nat.not_lt.mpr hfit), hread, Res.bind_ok, BitVec.ofNat_toNat, BitVec.ofNat_toNat]
  rfl

/-- Settles O48: the size is checked first; then the bytes read fill the buffer, and too few of them raise. -/
theorem tcLoadReadsTheTree : Obligations.TcLoadReadsTheTree := by
  refine fun s hf => ⟨fun hbig => ?_, fun hzero => ?_, fun hfit hwf => ⟨fun hgive hleft => ?_, fun hdel hshort => ?_⟩⟩
  · have hbig : tbufBytes < s.hTreeSize.toNat := hbig
    have hload : loadTree s = .raised .treeTooLarge (s.hTreeSize.setWidth 64) s := by
      rw [loadTree, if_pos hbig, BitVec.ofNat_toNat]
    exact exec_of_raised (i := .tcLoad) hf rfl hload
  · have hsize : s.hTreeSize = 0#16 := BitVec.eq_of_toNat_eq hzero
    have hread : srcReadExact s.hTreeSize.toNat s = .ok [] (readDelivery s s.env.reads 0) := by
      rw [hzero]
      rfl
    have hload := (loadTree_of_read (hzero ▸ Nat.zero_le _) hread).trans (if_neg (hzero ▸ Nat.lt_irrefl 0))
    rw [hsize] at hload
    exact exec_of_ok (i := .tcLoad) hf rfl hload
  · obtain ⟨reads, hread⟩ := srcReadExact_gives hgive hleft
    have hlen := List.length_take_of_le hleft
    have hslice := Memory.slice_writeBytes ((srcRest s).take s.hTreeSize.toNat) 0 hwf
    have hload := loadTree_of_read hfit hread
    rw [hlen] at hslice
    rw [hlen, if_neg (Nat.lt_irrefl _)] at hload
    refine ⟨_, exec_of_ok (i := .tcLoad) hf rfl hload, hslice, fun i hi => ?_, rfl⟩
    exact Memory.read_writeBytes_other _ _ _ _ (.inr (by rw [hlen, Nat.zero_add]; exact hi))
  · obtain ⟨reads, -, hread⟩ := srcReadExact_ok s.hTreeSize.toNat hdel
    rw [List.take_of_length_le (Nat.le_of_lt hshort)] at hread
    have hload := loadTree_of_read hfit hread
    rw [if_pos hshort] at hload
    refine ⟨_, exec_of_raised (i := .tcLoad) hf rfl hload, Memory.slice_writeBytes _ 0 hwf, fun i hi => ?_, rfl⟩
    exact Memory.read_writeBytes_other _ _ _ _ (.inr (by rw [Nat.zero_add]; exact hi))

/-! ### TC_STORE (R168) -/

theorem storeTree_of_accepted {s : State} (hw : WritesAccepted s) (hpos : 1 ≤ s.tlen.toNat)
    (hfit : s.tlen.toNat ≤ tbufBytes) :
    storeTree s = answerOk (s.tlen.setWidth 64)
      { s with env := { s.env with
          sink := s.env.sink ++ [s.tbuf.slice 0 s.tlen.toNat], writes := s.env.writes.tail } } := by
  rw [storeTree, if_neg (Nat.not_lt.mpr hfit), if_neg (Nat.ne_of_gt hpos), sinkWrite_ok _ hw, Res.bind_ok]

/-- Settles O49: with bytes to store the rule makes its one write, which is taken. -/
theorem tcStoreWritesTheTree : Obligations.TcStoreWritesTheTree := by
  refine fun s hf => ⟨fun hzero => ?_, fun hpos hfit hw => ?_⟩
  · have hstore : storeTree s = answerOk 0#64 s := by
      rw [storeTree, hzero, if_neg (Nat.not_lt_zero _), if_pos rfl]
    exact exec_of_ok (i := .tcStore) hf rfl hstore
  · exact exec_of_ok (i := .tcStore) hf rfl (storeTree_of_accepted hw hpos hfit)

/-! ### TBUF_RD and TBUF_WR (R169, R170) -/

/-- Settles O50: an index above 766 is an illegal operand; else the read looks at `TLEN` and the write is one write of memory. -/
theorem tbufReadsAndWritesOneByte : Obligations.TbufReadsAndWritesOneByte := by
  refine ⟨fun w => decode_append (op := 0x44#8) (a := 0x00#8) rfl (fun _ => rfl) rfl, fun a w => decode_append rfl nofun rfl,
    fun s b v => ⟨fun hbig => ?_, fun hfit hbeyond => ?_, fun hfit hbelow => ?_,
      fun hf => ⟨fun hbig => ?_, fun hfit hwf => ?_⟩⟩⟩
  · exact exec_of_illFormed (i := .tbufRd v) (decide_eq_false (Nat.not_le_of_lt hbig)) (.inr rfl)
  · rw [exec_of_runs (i := .tbufRd v) (.inr rfl) (decide_eq_true hfit)]
    exact congrArg (finish 0x44#8) (if_pos hbeyond)
  · rw [exec_of_runs (i := .tbufRd v) (.inr rfl) (decide_eq_true hfit)]
    exact congrArg (finish 0x44#8) (if_neg (Nat.not_le_of_lt hbelow))
  · exact exec_of_illFormed (i := .tbufWr b v) (decide_eq_false (Nat.not_le_of_lt hbig)) (.inl hf)
  · exact ⟨_, exec_of_runs (i := .tbufWr b v) (.inl hf) (decide_eq_true hfit), Memory.read_write_same _ _ _ hwf,
      fun i hi => Memory.read_write_other _ _ _ _ hi, rfl⟩

end Sys2Proof.Machine
end

section
/-! The bits of a byte array (20_memory R67): what placing one bit does to the others, and the bits of a slice. -/

namespace Sys2Proof.Machine

open Sys2Proof

/-- Setting bit `k` of a byte sets that bit and no other (45_bit_channel R180). -/
theorem getLsbD_setBit (b : Byte) (v : Bool) {k j : Nat} (hk : k < 8) (hj : j < 8) :
    (setBit b k v).getLsbD j = if j = k then v else b.getLsbD j := by
  by_cases hjk : j = k
  · subst hjk
    cases v <;> simp [setBit, hj]
  · cases v <;> simp [setBit, hj, hjk]

/-- The low `r` bits of a byte are kept and the others are cleared (45_bit_channel R182). -/
theorem getLsbD_lowBits (b : Byte) (r j : Nat) : (lowBits b r).getLsbD j = (b.getLsbD j && decide (j < r)) := by
  by_cases hj : j < 8
  · rw [lowBits, BitVec.getLsbD_and, BitVec.getLsbD_ofNat, Nat.testBit_two_pow_sub_one, decide_eq_true hj, Bool.true_and]
  · rw [BitVec.getLsbD_of_ge _ _ (Nat.le_of_not_lt hj), BitVec.getLsbD_of_ge _ _ (Nat.le_of_not_lt hj), Bool.false_and]

/-- A byte array with its bit `k` set or cleared. -/
def Memory.placeBit (m : Memory) (k : Nat) (b : Bool) : Memory := m.write (k / 8) (setBit (m.read (k / 8)) (k % 8) b)

theorem Memory.placeBit_wf {m : Memory} (k : Nat) (b : Bool) (h : m.wf) : (m.placeBit k b).wf := Memory.write_wf _ _ h

theorem Memory.read_placeBit_other (m : Memory) {k i : Nat} (b : Bool) (h : i ≠ k / 8) :
    (m.placeBit k b).read i = m.read i := Memory.read_write_other _ _ _ _ h

theorem memBit_placeBit {m : Memory} (k j : Nat) (b : Bool) (h : m.wf) :
    memBit (m.placeBit k b) j = if j = k then b else memBit m j := by
  unfold memBit
  by_cases hbyte : j / 8 = k / 8
  · have hbit : j % 8 = k % 8 ↔ j = k := by omega
    rw [hbyte, Memory.placeBit, Memory.read_write_same _ _ _ h,
      getLsbD_setBit _ _ (Nat.mod_lt _ (by decide)) (Nat.mod_lt _ (by decide))]
    simp only [hbit]
  · rw [m.read_placeBit_other b hbyte, if_neg fun hjk => hbyte (congrArg (· / 8) hjk)]

/-- The bits `[a, a+n)` of a byte array. -/
def bitRange (m : Memory) (a n : Nat) : List Bool := (List.range n).map fun k => memBit m (a + k)

@[simp] theorem bitRange_length (m : Memory) (a n : Nat) : (bitRange m a n).length = n := by simp [bitRange]

@[simp] theorem bitRange_zero (m : Memory) (a : Nat) : bitRange m a 0 = [] := rfl

theorem bitRange_add (m : Memory) (a n k : Nat) : bitRange m a (n + k) = bitRange m a n ++ bitRange m (a + n) k := by
  simp only [bitRange, List.range_add, List.map_append, List.map_map, Function.comp_def, Nat.add_assoc]

theorem bitRange_one (m : Memory) (a : Nat) : bitRange m a 1 = [memBit m a] := rfl

theorem bitRange_congr {m m' : Memory} {a n : Nat} (h : ∀ k, a ≤ k → k < a + n → memBit m k = memBit m' k) :
    bitRange m a n = bitRange m' a n :=
  List.map_congr_left fun k hk => h (a + k) (Nat.le_add_right a k) (Nat.add_lt_add_left (List.mem_range.mp hk) a)

/-- One byte is its eight bits. -/
theorem byteBits_read (m : Memory) (i : Nat) : byteBits (m.read i) = bitRange m (8 * i) 8 := by
  refine List.map_congr_left fun k hk => ?_
  have hk := List.mem_range.mp hk
  rw [memBit, show (8 * i + k) / 8 = i by omega, show (8 * i + k) % 8 = k by omega]

theorem bytesBits_slice (m : Memory) (n : Nat) : ∀ i, bytesBits (m.slice i n) = bitRange m (8 * i) (8 * n) := by
  induction n with
  | zero => exact fun _ => rfl
  | succ n ih =>
    intro i
    have hcons : bytesBits (m.slice i (n + 1)) = byteBits (m.read i) ++ bytesBits (m.slice (i + 1) n) := List.flatMap_cons
    rw [hcons, byteBits_read, ih, Nat.mul_succ, Nat.mul_succ, Nat.add_comm (8 * n), bitRange_add]

theorem bytesBits_append (bs cs : List Byte) : bytesBits (bs ++ cs) = bytesBits bs ++ bytesBits cs := List.flatMap_append

theorem bytesBits_length (bs : List Byte) : (bytesBits bs).length = 8 * bs.length := by
  induction bs with
  | nil => rfl
  | cons b bs ih =>
    have hcons : bytesBits (b :: bs) = byteBits b ++ bytesBits bs := List.flatMap_cons
    have hbyte : (byteBits b).length = 8 := by simp [byteBits]
    rw [hcons, List.length_append, hbyte, ih, List.length_cons]
    omega

theorem pendingBits_eq (s : State) : pendingBits s = bitRange s.wbuf 0 s.wCursor := by
  simp only [pendingBits, bitRange, Nat.zero_add]

theorem pendingBits_length (s : State) : (pendingBits s).length = s.wCursor := by simp [pendingBits]

theorem blockLeft_eq (s : State) : blockLeft s = bitRange s.rbuf s.rCursor (8 * s.rLen - s.rCursor) := rfl

/-- The bits up to and with one just placed. -/
theorem bitRange_placeBit {m : Memory} (k : Nat) (b : Bool) (h : m.wf) :
    bitRange (m.placeBit k b) 0 (k + 1) = bitRange m 0 k ++ [b] := by
  rw [bitRange_add, Nat.zero_add, bitRange_one, memBit_placeBit k k b h, if_pos rfl]
  congr 1
  refine bitRange_congr fun j _ hj => ?_
  rw [memBit_placeBit k j b h, if_neg (by omega)]

end Sys2Proof.Machine
end

section
/-! The bit writer (45_bit_channel R180): what a run of bits leaves, whether every flush it comes to is taken or one fails. -/

namespace Sys2Proof.Machine

open Sys2Proof

/-! ### What has been written -/

/-- From `s` to `t` these bits were written, these blocks flushed and nothing else done, but that the source may have been read
and prepared answers used up: what was pending and the bits are the blocks and what is pending then. -/
structure Wrote (s : State) (bits : List Bool) (blocks : List (List Byte)) (t : State) : Prop where
  whole : ∀ b ∈ blocks, b.length = s.params.blockBytes
  splits : pendingBits s ++ bits = bytesBits blocks.flatten ++ pendingBits t
  beyond : ∀ i, s.params.blockBytes ≤ i → t.wbuf.read i = s.wbuf.read i
  around : blocks = [] → ∀ i, i < s.wCursor / 8 ∨ ceil8 t.wCursor ≤ i → t.wbuf.read i = s.wbuf.read i
  wf : t.wbuf.wf
  state : t = { s with
    wbuf := t.wbuf
    wCursor := t.wCursor
    wTotal := s.wTotal + BitVec.ofNat 64 bits.length
    env := { s.env with
      spos := t.env.spos, reads := t.env.reads, sink := s.env.sink ++ blocks, writes := t.env.writes } }

theorem Wrote.params {s t : State} {bits : List Bool} {blocks : List (List Byte)} (h : Wrote s bits blocks t) :
    t.params = s.params := by rw [h.state]

theorem Wrote.ct {s t : State} {bits : List Bool} {blocks : List (List Byte)} (h : Wrote s bits blocks t) : t.ct = s.ct := by
  rw [h.state]

theorem Wrote.src {s t : State} {bits : List Bool} {blocks : List (List Byte)} (h : Wrote s bits blocks t) :
    t.env.src = s.env.src := by rw [h.state]

/-- What only reads the source writes nothing. -/
theorem wrote_nothing {s : State} (spos : Nat) (reads : List ReadAnswer) (h : s.wbuf.wf) :
    Wrote s [] [] { s with env := { s.env with spos := spos, reads := reads } } where
  whole _ hb := absurd hb List.not_mem_nil
  splits := List.append_nil _
  beyond _ _ := rfl
  around _ _ _ := rfl
  wf := h
  state := by simp

theorem flatten_length_of_whole {blocks : List (List Byte)} {n : Nat} (h : ∀ b ∈ blocks, b.length = n) :
    blocks.flatten.length = blocks.length * n := by
  rw [List.length_flatten, List.map_congr_left h, List.map_const', List.sum_replicate, smul_eq_mul]

/-- The bits of the blocks flushed and of what is pending then are counted. -/
theorem Wrote.cursor {s t : State} {bits : List Bool} {blocks : List (List Byte)} (h : Wrote s bits blocks t) :
    s.wCursor + bits.length = blocks.length * s.params.blockBits + t.wCursor := by
  have hlen := congrArg List.length h.splits
  rw [List.length_append, List.length_append, bytesBits_length, flatten_length_of_whole h.whole, pendingBits_length,
    pendingBits_length] at hlen
  rw [hlen, Params.blockBits, Nat.mul_left_comm]

theorem Wrote.trans {s t u : State} {bits more : List Bool} {blocks others : List (List Byte)} (h : Wrote s bits blocks t)
    (k : Wrote t more others u) : Wrote s (bits ++ more) (blocks ++ others) u where
  whole b hb := by
    rcases List.mem_append.mp hb with hb | hb
    · exact h.whole b hb
    · rw [← h.params]
      exact k.whole b hb
  splits := by
    rw [← List.append_assoc, h.splits, List.append_assoc, k.splits, List.flatten_append, bytesBits_append, List.append_assoc]
  beyond i hi := (k.beyond i (h.params ▸ hi)).trans (h.beyond i hi)
  around hnone i hi := by
    obtain ⟨rfl, rfl⟩ := List.append_eq_nil_iff.mp hnone
    have hbits := h.cursor
    have hmore := k.cursor
    rw [List.length_nil, Nat.zero_mul] at hbits hmore
    unfold ceil8 at hi
    refine (k.around rfl i ?_).trans (h.around rfl i ?_)
    · unfold ceil8
      omega
    · unfold ceil8
      omega
  wf := k.wf
  state := by
    have hu := k.state
    rw [h.state] at hu
    simpa [BitVec.ofNat_add, BitVec.add_assoc] using hu

/-- The state with one bit more placed and counted (R180). -/
abbrev bitPlaced (b : Bool) (s : State) : State :=
  { s with wbuf := s.wbuf.placeBit s.wCursor b, wCursor := s.wCursor + 1, wTotal := s.wTotal + 1#64 }

/-- A bit placed in the block, which is not flushed. -/
theorem wrote_bit {s : State} (b : Bool) (writes : List WriteAnswer) (h : s.wbuf.wf) (hc : s.wCursor < s.params.blockBits) :
    Wrote s [b] [] { bitPlaced b s with env := { s.env with writes := writes } } where
  whole _ hb := absurd hb List.not_mem_nil
  splits := by
    rw [pendingBits_eq, pendingBits_eq]
    exact (bitRange_placeBit _ b h).symm
  beyond i hi := by
    have hb : s.params.blockBits = 8 * s.params.blockBytes := rfl
    exact Memory.read_placeBit_other _ b (by omega)
  around _ i hi := by
    have hi : i < s.wCursor / 8 ∨ (s.wCursor + 1 + 7) / 8 ≤ i := hi
    exact Memory.read_placeBit_other _ b (by omega)
  wf := Memory.placeBit_wf _ _ h
  state := by simp

/-- A bit that fills the block, which is flushed. -/
theorem wrote_last_bit {s : State} (b : Bool) (writes : List WriteAnswer) (h : s.wbuf.wf)
    (hc : s.wCursor + 1 = s.params.blockBits) :
    Wrote s [b] [(bitPlaced b s).wbuf.slice 0 s.params.blockBytes] { bitPlaced b s with
      wCursor := 0
      env := { s.env with
        sink := s.env.sink ++ [(bitPlaced b s).wbuf.slice 0 s.params.blockBytes], writes := writes } } where
  whole block hb := by rw [List.mem_singleton.mp hb, Memory.slice_length]
  splits := by
    have hb : 8 * s.params.blockBytes = s.wCursor + 1 := hc.symm
    rw [List.flatten_singleton, bytesBits_slice, hb, bitRange_placeBit _ b h, pendingBits_eq, pendingBits_eq, bitRange_zero,
      List.append_nil]
  beyond i hi := by
    have hb : s.params.blockBits = 8 * s.params.blockBytes := rfl
    exact Memory.read_placeBit_other _ b (by omega)
  around hnone := absurd hnone (List.cons_ne_nil _ _)
  wf := Memory.placeBit_wf _ _ h
  state := by simp

/-! ### Bits written while every flush is taken (R180) -/

/-- The flushes that `n` more bits come to are taken. -/
abbrev FlushesTaken (s : State) (n : Nat) : Prop :=
  WriteAnswer.fail ∉ s.env.writes.take ((s.wCursor + n) / s.params.blockBits)

theorem flushesTaken_of_accepted {s : State} (n : Nat) (h : WritesAccepted s) : FlushesTaken s n :=
  fun hw => h (List.mem_of_mem_take hw)

/-- A write whose prepared answer, if there is one, is not a failure is one more entry of the sink (20_memory R66). -/
theorem sinkWrite_taken {s : State} (bytes : List Byte) (h : WriteAnswer.fail ∉ s.env.writes.take 1) :
    sinkWrite bytes s =
      .ok () { s with env := { s.env with sink := s.env.sink ++ [bytes], writes := s.env.writes.tail } } := by
  unfold sinkWrite
  split
  · rename_i hw; simp [sinkAccept, hw]
  · rename_i rest hw; simp [sinkAccept, hw]
  · rename_i rest hw; exact absurd (by simp [hw]) h

/-- The bit that fills the block, when its flush is taken (R180). -/
theorem writeBit_fills {s : State} (b : Bool) (h : s.wCursor + 1 = s.params.blockBits)
    (hw : WriteAnswer.fail ∉ s.env.writes.take 1) :
    writeBit b s = .ok () { bitPlaced b s with
      wCursor := 0
      env := { s.env with
        sink := s.env.sink ++ [(bitPlaced b s).wbuf.slice 0 s.params.blockBytes], writes := s.env.writes.tail } } := by
  have hb : s.params.blockBits = 8 * s.params.blockBytes := rfl
  rw [writeBit, if_pos (by omega), flushFull, if_pos h]
  exact Res.bind_of_ok (sinkWrite_taken (s := bitPlaced b s) _ hw) _

/-- Written bits, with the answers to the flushes used up, and no cursor left at the end of the block. -/
structure WroteInside (s : State) (bits : List Bool) (blocks : List (List Byte)) (t : State) : Prop extends
    Wrote s bits blocks t where
  inside : t.wCursor < t.params.blockBits
  writes : t.env.writes = s.env.writes.drop blocks.length

theorem WroteInside.trans {s t u : State} {bits more : List Bool} {blocks others : List (List Byte)}
    (h : WroteInside s bits blocks t) (k : WroteInside t more others u) :
    WroteInside s (bits ++ more) (blocks ++ others) u where
  toWrote := h.toWrote.trans k.toWrote
  inside := k.inside
  writes := by rw [k.writes, h.writes, List.drop_drop, List.length_append]

theorem writeBit_writes {s : State} (b : Bool) (hwf : s.wbuf.wf) (hc : s.wCursor < s.params.blockBits)
    (hw : FlushesTaken s 1) : ∃ t blocks, writeBit b s = .ok () t ∧ WroteInside s [b] blocks t := by
  rcases Nat.lt_or_eq_of_le (Nat.succ_le_of_lt hc) with hless | hlast
  · exact ⟨_, [], writeBit_inside b hless, wrote_bit b s.env.writes hwf hc, hless, rfl⟩
  · have hlast : s.wCursor + 1 = s.params.blockBits := hlast
    have hpos : 0 < s.params.blockBits := Nat.lt_of_le_of_lt (Nat.zero_le _) hc
    rw [FlushesTaken, hlast, Nat.div_self hpos] at hw
    exact ⟨_, _, writeBit_fills b hlast hw, wrote_last_bit b _ hwf hlast, hpos, List.drop_one.symm⟩

/-- The flushes left to come, once some bits are written. -/
theorem WroteInside.flushesTaken {s t : State} {bits : List Bool} {blocks : List (List Byte)} {n : Nat}
    (h : WroteInside s bits blocks t) (hw : FlushesTaken s (bits.length + n)) : FlushesTaken t n := by
  have hpos : 0 < s.params.blockBits := h.params ▸ Nat.lt_of_le_of_lt (Nat.zero_le _) h.inside
  have hcount : (s.wCursor + (bits.length + n)) / s.params.blockBits
      = blocks.length + (t.wCursor + n) / s.params.blockBits := by
    rw [← Nat.add_assoc, h.cursor, Nat.add_assoc, Nat.add_comm, Nat.add_mul_div_right _ _ hpos, Nat.add_comm]
  rw [FlushesTaken, hcount] at hw
  rw [FlushesTaken, h.writes, h.params, List.take_drop]
  exact fun hfail => hw (List.mem_of_mem_drop hfail)

theorem FlushesTaken.mono {s : State} {m n : Nat} (h : FlushesTaken s n) (hle : m ≤ n) : FlushesTaken s m :=
  fun hfail => h ((List.take_subset_take_left _ (Nat.div_le_div_right (Nat.add_le_add_left hle _))) hfail)

theorem writeBits_writes (bits : List Bool) : ∀ {s : State}, s.wbuf.wf → s.wCursor < s.params.blockBits →
    FlushesTaken s bits.length → ∃ t blocks, writeBits bits s = .ok () t ∧ WroteInside s bits blocks t := by
  induction bits with
  | nil => exact fun {s} hwf hc _ => ⟨s, [], rfl, wrote_nothing s.env.spos s.env.reads hwf, hc, rfl⟩
  | cons b bits ih =>
    intro s hwf hc hw
    rw [List.length_cons, Nat.add_comm] at hw
    obtain ⟨t, blocks, hbit, ht⟩ := writeBit_writes b hwf hc (hw.mono (Nat.le_add_right 1 _))
    obtain ⟨u, others, hrest, hu⟩ := ih ht.wf ht.inside (ht.flushesTaken hw)
    exact ⟨u, _, (Res.bind_of_ok hbit _).trans hrest, ht.trans hu⟩

theorem Res.All.of_ok {α : Type} {R : State → Prop} {r : Res α} {v : α} {t : State} (h : r.All R)
    (hr : r = .ok v t) : R t := by
  rwa [hr] at h

theorem Res.All.of_raised {α : Type} {R : State → Prop} {r : Res α} {c : Cause} {info : Word64} {t : State} (h : r.All R)
    (hr : r = .raised c info t) : R t := by
  rwa [hr] at h

/-- Writing bits makes no request to the source. -/
theorem writeBits_source {bits : List Bool} {s : State} :
    (writeBits bits s).All fun t => t.env.spos = s.env.spos ∧ t.env.reads = s.env.reads :=
  Res.all_mono (fun t ht => by
    obtain ⟨-, -, -, hkept⟩ := ht
    obtain ⟨hspos, hreads, -⟩ := hkept .source (by decide)
    exact ⟨hspos, hreads⟩) (writeBits_kept bits s)

/-! ### WR_SYM (R181) -/

theorem codeBits_length (e : CodeEntry) : (codeBits e).length = e.len.toNat := by simp [codeBits]

theorem writeSym_refuses {s : State} {a : Sym} (h : s.wDone = true ∨ (symGet s.ct a).valid = false) :
    writeSym a s = answerFail s := by
  rcases h with h | h
  · exact if_pos h
  · rw [writeSym, h]
    exact ite_self _

theorem writeSym_of_code {s : State} {a : Sym} (hdone : s.wDone = false) (hcode : (symGet s.ct a).valid = true) :
    writeSym a s =
      (writeBits (codeBits (symGet s.ct a)) s).bind fun _ t => answerOk ((symGet s.ct a).len.setWidth 64) t := by
  rw [writeSym, hdone, hcode]
  rfl

/-- Settles O51: a refusal changes nothing; else the bits of the code are written, every flush they come to being taken. -/
theorem wrSymAppendsTheCode : Obligations.WrSymAppendsTheCode := by
  refine fun s a hf => ⟨fun hno => exec_of_ok (i := .wrSym a) hf rfl (writeSym_refuses hno), ?_⟩
  intro hdone hcode hcursors hwf hw
  obtain ⟨-, -, -, hinside, -⟩ := hcursors
  rw [← codeBits_length] at hw
  obtain ⟨t, blocks, hrun, h⟩ := writeBits_writes _ hwf (hinside hf) hw
  obtain ⟨hspos, hreads⟩ := writeBits_source.of_ok hrun
  have hstate := h.state
  rw [hspos, hreads, h.writes, codeBits_length, BitVec.ofNat_toNat] at hstate
  exact ⟨_, blocks, exec_of_ok (i := .wrSym a) hf rfl ((writeSym_of_code hdone hcode).trans (Res.bind_of_ok hrun _)), h.whole,
    h.splits, h.params ▸ h.inside, h.around, congrArg (fun u => State.respond u .ok _) hstate⟩

end Sys2Proof.Machine
end

section
/-! WR_FINAL (45_bit_channel R182): padding the last byte clears the bits behind the pending ones and touches no other byte. -/

namespace Sys2Proof.Machine

open Sys2Proof

/-! ### The padding (R182) -/

theorem padTrailing_wbuf_of_whole {s : State} (h : s.wCursor % 8 = 0) : (padTrailing s).wbuf = s.wbuf := if_pos h

theorem padTrailing_wbuf_of_part {s : State} (h : s.wCursor % 8 ≠ 0) :
    (padTrailing s).wbuf =
      s.wbuf.write (s.wCursor / 8) (lowBits (s.wbuf.read (s.wCursor / 8)) (s.wCursor % 8)) := by
  have hlast : ceil8 s.wCursor - 1 = s.wCursor / 8 := by
    unfold ceil8
    omega
  rw [← hlast]
  exact if_neg h

/-- A byte that is not in part occupied is not written. -/
theorem read_padTrailing_other {s : State} {i : Nat} (h : s.wCursor % 8 = 0 ∨ i ≠ s.wCursor / 8) :
    (padTrailing s).wbuf.read i = s.wbuf.read i := by
  by_cases hwhole : s.wCursor % 8 = 0
  · rw [padTrailing_wbuf_of_whole hwhole]
  · rw [padTrailing_wbuf_of_part hwhole, Memory.read_write_other _ _ _ _ (h.resolve_left hwhole)]

/-- In the bytes occupied the padding keeps the pending bits and clears the others. -/
theorem memBit_padTrailing {s : State} {k : Nat} (hwf : s.wbuf.wf) (hk : k < 8 * ceil8 s.wCursor) :
    memBit (padTrailing s).wbuf k = (memBit s.wbuf k && decide (k < s.wCursor)) := by
  unfold ceil8 at hk
  by_cases hpart : s.wCursor % 8 ≠ 0 ∧ k / 8 = s.wCursor / 8
  · obtain ⟨hrest, hbyte⟩ := hpart
    have hbits : k % 8 < s.wCursor % 8 ↔ k < s.wCursor := by omega
    rw [memBit, memBit, padTrailing_wbuf_of_part hrest, hbyte, Memory.read_write_same _ _ _ hwf, getLsbD_lowBits]
    simp only [hbits]
  · have hpending : k < s.wCursor := by omega
    rw [memBit, read_padTrailing_other (by omega), decide_eq_true hpending, Bool.and_true, memBit]

theorem pendingBits_padTrailing {s : State} (hwf : s.wbuf.wf) : pendingBits (padTrailing s) = pendingBits s := by
  rw [pendingBits_eq, pendingBits_eq]
  refine bitRange_congr fun k _ hk => ?_
  have hk : k < s.wCursor := by rwa [Nat.zero_add] at hk
  rw [memBit_padTrailing hwf (by unfold ceil8; omega), decide_eq_true hk, Bool.and_true]

/-- The bytes written are the pending bits, filled with zero bits. -/
theorem bytesBits_padded {s : State} (hwf : s.wbuf.wf) :
    bytesBits ((padTrailing s).wbuf.slice 0 (ceil8 s.wCursor))
      = pendingBits s ++ List.replicate (8 * ceil8 s.wCursor - s.wCursor) false := by
  have hceil : s.wCursor ≤ 8 * ceil8 s.wCursor := by
    unfold ceil8
    omega
  have hzeros : bitRange (padTrailing s).wbuf (0 + s.wCursor) (8 * ceil8 s.wCursor - s.wCursor)
      = List.replicate (8 * ceil8 s.wCursor - s.wCursor) false := by
    refine List.eq_replicate_iff.mpr ⟨bitRange_length _ _ _, fun b hb => ?_⟩
    obtain ⟨k, hk, rfl⟩ := List.mem_map.mp hb
    have hk := List.mem_range.mp hk
    rw [memBit_padTrailing hwf (by omega), decide_eq_false (by omega), Bool.and_false]
  rw [bytesBits_slice, Nat.mul_zero, ← Nat.add_sub_cancel' hceil, bitRange_add, Nat.add_sub_cancel' hceil, hzeros,
    ← pendingBits_padTrailing hwf, pendingBits_eq]
  rfl

/-! ### The rule (R182) -/

theorem finalize_of_done {s : State} (h : s.wDone = true) : finalize s = answerFail s := if_pos h

theorem finalize_of_none_pending {s : State} (hdone : s.wDone = false) (h : s.wCursor = 0) :
    finalize s = answerOk 0#64 { s with wDone := true } := by
  have hceil : ceil8 s.wCursor = 0 := by rw [h]; rfl
  have hpad : { padTrailing s with wCursor := 0 } = { s with wDone := true } := by
    unfold padTrailing
    rw [h]
    rfl
  rw [finalize, hdone, if_neg Bool.false_ne_true, hceil, if_neg (Nat.not_lt_zero _), if_pos rfl, hpad]

/-- With bits pending there is one write, of the occupied bytes. -/
theorem finalize_of_pending {s : State} (hdone : s.wDone = false) (hpos : 0 < s.wCursor)
    (hfit : s.wCursor ≤ s.params.blockBits) :
    finalize s =
      (sinkWrite ((padTrailing s).wbuf.slice 0 (ceil8 s.wCursor)) (padTrailing s)).bind fun _ t =>
        answerOk (countWord (ceil8 s.wCursor)) { t with wCursor := 0 } := by
  have hb : s.params.blockBits = 8 * s.params.blockBytes := rfl
  have hbytes : ¬ s.params.blockBytes < ceil8 s.wCursor := by
    unfold ceil8
    omega
  have hsome : ceil8 s.wCursor ≠ 0 := by
    unfold ceil8
    omega
  rw [finalize, hdone, if_neg Bool.false_ne_true, if_neg hbytes, if_neg hsome]

/-- Settles O52: with nothing pending nothing is padded and no write is made; else the occupied bytes are one write. -/
theorem wrFinalFlushesThePendingBits : Obligations.WrFinalFlushesThePendingBits := by
  refine fun s hf => ⟨fun hdone => exec_of_ok (i := .wrFinal) hf rfl (finalize_of_done hdone), ?_⟩
  intro hdone hcursors hwf hw
  obtain ⟨-, -, hfit, -⟩ := hcursors
  rcases Nat.eq_zero_or_pos s.wCursor with hzero | hpos
  · have hceil : ceil8 s.wCursor = 0 := by rw [hzero]; rfl
    have hcount : countWord 0 = 0#64 := if_pos (by decide)
    refine ⟨_, [], exec_of_ok (i := .wrFinal) hf rfl (finalize_of_none_pending hdone hzero), hceil.symm, ?_,
      fun _ _ => rfl, ?_⟩
    · rw [hceil, hzero, pendingBits, hzero]
      rfl
    · rw [if_pos hzero, hceil, hcount, ← hzero]
      rfl
  · have hrun := (finalize_of_pending hdone hpos hfit).trans (Res.bind_of_ok (sinkWrite_ok (s := padTrailing s) _ hw) _)
    refine ⟨_, _, exec_of_ok (i := .wrFinal) hf rfl hrun, Memory.slice_length _ _ _, bytesBits_padded hwf,
      fun i hi => read_padTrailing_other hi, ?_⟩
    rw [if_neg (Nat.ne_of_gt hpos)]
    rfl

end Sys2Proof.Machine
end

section
/-! RD_BIT (45_bit_channel R183, R184): the next bit is taken from the block, which is filled from the source when none is
left. -/

namespace Sys2Proof.Machine

open Sys2Proof

/-! ### The bits to come (10_state R34, R42) -/

theorem bytesBits_eq_nil {bs : List Byte} (h : bytesBits bs = []) : bs = [] := by
  have hlen := congrArg List.length h
  rw [bytesBits_length, List.length_nil] at hlen
  exact List.length_eq_zero_iff.mp (by omega)

/-- The state with one bit more of the block returned and counted (R184). -/
abbrev bitTaken (s : State) : State := { s with rCursor := s.rCursor + 1, rTotal := s.rTotal + 1#64 }

theorem blockLeft_cons {s : State} (h : s.rCursor < 8 * s.rLen) :
    blockLeft s = memBit s.rbuf s.rCursor :: blockLeft (bitTaken s) := by
  rw [blockLeft_eq, blockLeft_eq, show 8 * s.rLen - s.rCursor = 1 + (8 * s.rLen - (s.rCursor + 1)) by omega, bitRange_add,
    bitRange_one]
  rfl

theorem blockLeft_of_end {s : State} (h : s.rCursor = 8 * s.rLen) : blockLeft s = [] := by
  rw [blockLeft_eq, h, Nat.sub_self, bitRange_zero]

/-- The block filled with these bytes of the source. -/
def refilled (s : State) (d : List Byte) : State :=
  { s with rbuf := s.rbuf.writeBytes 0 d, rLen := d.length, rCursor := 0 }

theorem blockLeft_refilled {s : State} (d : List Byte) (hwf : s.rbuf.wf) : blockLeft (refilled s d) = bytesBits d := by
  have hslice := bytesBits_slice (s.rbuf.writeBytes 0 d) d.length 0
  rw [Memory.slice_writeBytes d 0 hwf] at hslice
  exact hslice.symm

/-- Filling the block at its end moves bits of the source into it. -/
theorem unreadBits_refilled {s : State} {d rest : List Byte} {more : List ReadAnswer} (hwf : s.rbuf.wf)
    (hend : s.rCursor = 8 * s.rLen) (h : ChunkRead s d rest more) :
    unreadBits (refilled (readDelivery s more d.length) d) = unreadBits s := by
  have hbehind : srcRest (readDelivery s more d.length) = rest := by rw [srcRest_readDelivery, h.splits, List.drop_left]
  have hleft : unreadBits (refilled (readDelivery s more d.length) d) = bytesBits d ++ bytesBits rest :=
    congrArg₂ (· ++ ·) (blockLeft_refilled (s := readDelivery s more d.length) d hwf) (congrArg bytesBits hbehind)
  rw [hleft, unreadBits, blockLeft_of_end hend, List.nil_append, ← bytesBits_append]
  exact congrArg bytesBits h.splits.symm

/-! ### The next bit (R184) -/

/-- While a bit of the block is left, it is the next of all. -/
theorem takeBit_gives {s : State} {b : Bool} {rest : List Bool} (hfit : s.rLen ≤ s.params.blockBytes)
    (h : s.rCursor < 8 * s.rLen) (hunread : unreadBits s = b :: rest) :
    takeBit s = .ok (some b) (bitTaken s) ∧ unreadBits (bitTaken s) = rest := by
  rw [unreadBits, blockLeft_cons h] at hunread
  obtain ⟨rfl, hrest⟩ := List.cons.inj hunread
  exact ⟨takeBit_ok (by omega), hrest⟩

/-- At the end of the block a chunk of the source fills it, and its first bit is taken. -/
theorem readBit_of_chunk {s : State} {d rest : List Byte} {more : List ReadAnswer} (heos : s.rEos = false)
    (hend : s.rCursor = 8 * s.rLen) (h : ChunkRead s d rest more) (hd : d ≠ []) :
    readBit s = takeBit (refilled (readDelivery s more d.length) d) := by
  rw [readBit, heos, if_neg Bool.false_ne_true, if_pos hend, h.reads, Res.bind_ok, if_neg hd]
  rfl

theorem ChunkRead.length_le {s : State} {d rest : List Byte} {more : List ReadAnswer} (h : ChunkRead s d rest more) :
    d.length ≤ s.params.blockBytes := by
  have hlen := srcRead_length s.params.blockBytes s
  rwa [h.reads] at hlen

theorem readBit_at_end {s : State} (heos : s.rEos = false) (hend : s.rCursor = 8 * s.rLen) (hasks : 1 ≤ s.params.blockBytes)
    (hdel : ReadsDeliver s) (hrest : srcRest s = []) :
    readBit s = .ok none
      { s with rLen := 0, rCursor := 0, rEos := true, env := { s.env with reads := s.env.reads.tail } } := by
  obtain ⟨d, rest, h⟩ := exists_chunkRead hasks hdel
  obtain ⟨rfl, -⟩ := List.append_eq_nil_iff.mp (h.splits.symm.trans hrest)
  rw [readBit, heos, if_neg Bool.false_ne_true, if_pos hend, h.reads, Res.bind_ok]
  rfl

/-! ### RD_BIT (R183) -/

theorem setWidth_ofBool (b : Bool) : (BitVec.ofBool b).setWidth 64 = if b then 1#64 else 0#64 := by cases b <;> rfl

theorem exec_rdBit_of_bit {s t : State} {b : Bool} (hf : s.fault = false) (h : readBit s = .ok (some b) t) :
    exec .rdBit s = .next (t.respond .ok (if b then 1#64 else 0#64)) := by
  rw [← setWidth_ofBool]
  exact exec_of_ok (i := .rdBit) hf rfl (Res.bind_of_ok h _)

theorem exec_rdBit_of_eos {s t : State} (hf : s.fault = false) (h : readBit s = .ok none t) :
    exec .rdBit s = .next (t.respond .eos 0#64) := exec_of_ok (i := .rdBit) hf rfl (Res.bind_of_ok h _)

/-- Settles O53: the cursor decides whether the bit is one of the block or the first of a chunk that fills it. -/
theorem rdBitReturnsTheNextBit : Obligations.RdBitReturnsTheNextBit := by
  refine fun s hf => ⟨fun heos => exec_rdBit_of_eos hf (readBit_eos heos), fun heos hcursors hleft => ?_,
    fun heos hcursors hwf hdel => ⟨fun hnone => ?_, fun b rest hunread => ?_⟩⟩
  all_goals obtain ⟨⟨hasks, -⟩, -, -, -, hfit, hcursor, -⟩ := hcursors
  · exact exec_rdBit_of_bit hf ((readBit_inside heos (Nat.ne_of_lt hleft)).trans (takeBit_ok (by omega)))
  · obtain ⟨hblock, hsrc⟩ := List.append_eq_nil_iff.mp hnone
    have hend : s.rCursor = 8 * s.rLen := by
      have hlen := congrArg List.length hblock
      rw [blockLeft_eq, bitRange_length, List.length_nil] at hlen
      omega
    exact exec_rdBit_of_eos hf (readBit_at_end heos hend hasks hdel (bytesBits_eq_nil hsrc))
  · rcases Nat.lt_or_eq_of_le hcursor with hleft | hend
    · obtain ⟨htake, hrest⟩ := takeBit_gives hfit hleft hunread
      exact ⟨_, exec_rdBit_of_bit hf ((readBit_inside heos (Nat.ne_of_lt hleft)).trans htake), hrest, fun _ => ⟨rfl, rfl⟩,
        fun hend => absurd hend (Nat.ne_of_lt hleft), rfl⟩
    · obtain ⟨d, behind, h⟩ := exists_chunkRead hasks hdel
      have hsource : srcRest s ≠ [] := fun hnil => by
        rw [unreadBits, blockLeft_of_end hend, List.nil_append] at hunread
        exact List.cons_ne_nil _ _ (hunread.symm.trans (congrArg bytesBits hnil))
      have hd := h.nonempty hsource
      have hpos := List.length_pos_iff.mpr hd
      rw [← unreadBits_refilled hwf hend h] at hunread
      obtain ⟨htake, hrest⟩ := takeBit_gives h.length_le (Nat.mul_pos (by decide) hpos) hunread
      refine ⟨_, exec_rdBit_of_bit hf ((readBit_of_chunk heos hend h hd).trans htake), hrest,
        fun hleft => absurd hend (Nat.ne_of_lt hleft), fun _ i hi => ?_, rfl⟩
      exact Memory.read_writeBytes_other _ _ _ _ (.inr (by rw [Nat.zero_add]; exact hi))

end Sys2Proof.Machine
end

section
/-! A flush that fails (45_bit_channel R180): the bits up to the one that fills the block are written, and no more. -/

namespace Sys2Proof.Machine

open Sys2Proof

/-! ### The flushes before the one that fails -/

/-- Short of the end of block `k + 1`, no flush is the one that fails. -/
theorem flushesTaken_of_failAfter {s : State} {k n : Nat} {more : List WriteAnswer} (hw : WritesFailAfter s k more)
    (h : s.wCursor + n < (k + 1) * s.params.blockBits) : FlushesTaken s n := by
  have hpos : 0 < s.params.blockBits := Nat.pos_of_ne_zero fun hzero => by simp [hzero] at h
  have hle : (s.wCursor + n) / s.params.blockBits ≤ k := Nat.le_of_lt_succ ((Nat.div_lt_iff_lt_mul hpos).mpr h)
  intro hfail
  rw [hw, List.take_append_of_le_length (by simpa using hle)] at hfail
  exact WriteAnswer.noConfusion (List.eq_of_mem_replicate (List.mem_of_mem_take hfail))

/-- Once some bits are written, the flushes already made are no longer to come. -/
theorem WroteInside.failAfter {s t : State} {bits : List Bool} {blocks : List (List Byte)} {k : Nat}
    {more : List WriteAnswer} (h : WroteInside s bits blocks t) (hw : WritesFailAfter s k more)
    (hless : s.wCursor + bits.length < (k + 1) * s.params.blockBits) :
    ∃ j, k = blocks.length + j ∧ WritesFailAfter t j more := by
  have hle : blocks.length ≤ k := by
    rw [h.cursor] at hless
    exact Nat.le_of_lt_succ (Nat.lt_of_mul_lt_mul_right (Nat.lt_of_le_of_lt (Nat.le_add_right _ _) hless))
  obtain ⟨j, rfl⟩ := Nat.exists_eq_add_of_le hle
  refine ⟨j, rfl, ?_⟩
  rw [WritesFailAfter, h.writes, hw, List.replicate_add, List.append_assoc, List.drop_left' (List.length_replicate ..)]

/-- The bits up to the end of block `k + 1` were written, counted from the last flush before `s`; that block's flush failed. -/
structure FlushFailed (s : State) (bits : List Bool) (k : Nat) (more : List WriteAnswer) (blocks : List (List Byte))
    (t : State) : Prop extends Wrote s (bits.take ((k + 1) * s.params.blockBits - s.wCursor)) blocks t where
  count : blocks.length = k
  full : t.wCursor = s.params.blockBits
  writes : t.env.writes = more

/-- A flush that fails behind bits already written. -/
theorem FlushFailed.after {s t u : State} {bits rest : List Bool} {blocks others : List (List Byte)} {j k : Nat}
    {more : List WriteAnswer} (hu : FlushFailed t rest j more others u) (h : WroteInside s bits blocks t)
    (hk : k = blocks.length + j) : FlushFailed s (bits ++ rest) k more (blocks ++ others) u where
  toWrote := by
    have hbits := h.cursor
    have hinside := h.params ▸ h.inside
    have hblocks : (k + 1) * s.params.blockBits = blocks.length * s.params.blockBits + (j + 1) * s.params.blockBits := by
      rw [hk, Nat.add_assoc, Nat.add_mul]
    have hone : s.params.blockBits ≤ (j + 1) * s.params.blockBits := Nat.le_mul_of_pos_left _ (Nat.succ_pos j)
    have hplaced : (bits ++ rest).take ((k + 1) * s.params.blockBits - s.wCursor)
        = bits ++ rest.take ((j + 1) * t.params.blockBits - t.wCursor) := by
      rw [List.take_append, List.take_of_length_le (by omega), h.params]
      congr 2
      omega
    rw [hplaced]
    exact h.toWrote.trans hu.toWrote
  count := by rw [List.length_append, hu.count, hk]
  full := by rw [hu.full, h.params]
  writes := hu.writes

/-- When a prepared write fails, bits that reach the end of its block are written up to there. -/
theorem writeBits_flush_fails {more : List WriteAnswer} (bits : List Bool) : ∀ {s : State} {k : Nat}, s.wbuf.wf →
    s.wCursor < s.params.blockBits → WritesFailAfter s k more →
    (k + 1) * s.params.blockBits ≤ s.wCursor + bits.length →
    ∃ t blocks, writeBits bits s = .raised .writeFailed 0#64 t ∧ FlushFailed s bits k more blocks t := by
  induction bits with
  | nil =>
    intro s k _ hc _ hmany
    have hone : s.params.blockBits ≤ (k + 1) * s.params.blockBits := Nat.le_mul_of_pos_left _ (Nat.succ_pos k)
    rw [List.length_nil] at hmany
    omega
  | cons b bits ih =>
    intro s k hwf hc hw hmany
    rw [List.length_cons] at hmany
    by_cases hless : s.wCursor + 1 < (k + 1) * s.params.blockBits
    · obtain ⟨t, blocks, hbit, ht⟩ := writeBit_writes b hwf hc (flushesTaken_of_failAfter hw hless)
      obtain ⟨j, hk, hwt⟩ := ht.failAfter hw hless
      have hcursor := ht.cursor
      have hreach : (j + 1) * t.params.blockBits ≤ t.wCursor + bits.length := by
        rw [hk, Nat.add_assoc, Nat.add_mul] at hmany
        rw [List.length_singleton] at hcursor
        rw [ht.params]
        omega
      obtain ⟨u, others, hrest, hu⟩ := ih ht.wf ht.inside hwt hreach
      exact ⟨u, _, (Res.bind_of_ok hbit _).trans hrest, hu.after ht hk⟩
    · have hk : k = 0 := by
        have : (k + 1) * s.params.blockBits ≤ 1 * s.params.blockBits := by omega
        have := Nat.le_of_mul_le_mul_right this (by omega)
        omega
      subst hk
      rw [Nat.zero_add, Nat.one_mul] at hless
      have hlast : s.wCursor + 1 = s.params.blockBits := by omega
      have hwrote := wrote_bit b more hwf hc
      refine ⟨_, [], Res.bind_of_raised (writeBit_flush_fails b hlast hw) _, ?_, rfl, rfl, rfl⟩
      rw [Nat.zero_add, Nat.one_mul, ← hlast, Nat.add_sub_cancel_left, List.take_succ_cons, List.take_zero]
      exact hwrote

end Sys2Proof.Machine
end

section
/-! ENC_BODY (46_framing R198): the loop encodes the source chunk by chunk, so a flush, a byte or a read that fails finds
everything before it written, however the reads are cut; and the writer commands that fail. -/

namespace Sys2Proof.Machine

open Sys2Proof

/-! ### The bytes of a chunk (R198) -/

/-- The codes of bytes, one after the other. -/
def codesOf (ct : Vector CodeEntry 256) (bytes : List Byte) : List Bool := bytes.flatMap fun b => codeBits (symGet ct b)

theorem codesOf_append (ct : Vector CodeEntry 256) (p q : List Byte) : codesOf ct (p ++ q) = codesOf ct p ++ codesOf ct q :=
  List.flatMap_append

theorem codesOf_cons (ct : Vector CodeEntry 256) (b : Byte) (q : List Byte) :
    codesOf ct (b :: q) = codeBits (symGet ct b) ++ codesOf ct q := List.flatMap_cons

theorem codesOf_singleton (ct : Vector CodeEntry 256) (b : Byte) : codesOf ct [b] = codeBits (symGet ct b) :=
  List.append_nil _

/-- Each of the bytes has a code. -/
abbrev Coded (ct : Vector CodeEntry 256) (bytes : List Byte) : Prop := ∀ c ∈ bytes, (symGet ct c).valid = true

theorem encodeBytes_cons {s : State} {b : Byte} (rest : List Byte) (h : (symGet s.ct b).valid = true) :
    encodeBytes (b :: rest) s = (writeBits (codeBits (symGet s.ct b)) s).bind fun _ t => encodeBytes rest t := by
  rw [encodeBytes, h]
  rfl

theorem encodeBytes_noCode {s : State} {b : Byte} (rest : List Byte) (h : (symGet s.ct b).valid = false) :
    encodeBytes (b :: rest) s = .raised .noCode (b.setWidth 64) s := by
  rw [encodeBytes, h]
  rfl

theorem encodeBytes_append (p q : List Byte) :
    ∀ s, encodeBytes (p ++ q) s = (encodeBytes p s).bind fun _ t => encodeBytes q t := by
  induction p with
  | nil => exact fun _ => rfl
  | cons b p ih =>
    intro s
    cases hcode : (symGet s.ct b).valid with
    | false => rw [List.cons_append, encodeBytes_noCode _ hcode, encodeBytes_noCode _ hcode, Res.bind_raised]
    | true =>
      rw [List.cons_append, encodeBytes_cons _ hcode, encodeBytes_cons _ hcode, Res.bind_assoc]
      simp only [ih]

/-- What it takes to encode bytes to their end: a block that is not full, a code for each, no flush on the way that fails. -/
structure CanEncode (s : State) (bytes : List Byte) : Prop where
  wf : s.wbuf.wf
  inside : s.wCursor < s.params.blockBits
  coded : Coded s.ct bytes
  flushes : FlushesTaken s (codesOf s.ct bytes).length

theorem CanEncode.left {s : State} {p q : List Byte} (h : CanEncode s (p ++ q)) : CanEncode s p where
  wf := h.wf
  inside := h.inside
  coded c hc := h.coded c (List.mem_append_left q hc)
  flushes := h.flushes.mono (by rw [codesOf_append, List.length_append]; exact Nat.le_add_right _ _)

theorem CanEncode.right {s t : State} {p q : List Byte} {blocks : List (List Byte)} (h : CanEncode s (p ++ q))
    (ht : WroteInside s (codesOf s.ct p) blocks t) : CanEncode t q where
  wf := ht.wf
  inside := ht.inside
  coded c hc := by
    rw [ht.ct]
    exact h.coded c (List.mem_append_right p hc)
  flushes := by
    have hall := h.flushes
    rw [codesOf_append, List.length_append] at hall
    rw [ht.ct]
    exact ht.flushesTaken hall

/-- Bytes that can be encoded are written as their codes, with no request to the source. -/
theorem encodeBytes_writes (bytes : List Byte) : ∀ {s : State}, CanEncode s bytes →
    ∃ t blocks, encodeBytes bytes s = .ok () t ∧ WroteInside s (codesOf s.ct bytes) blocks t
      ∧ t.env.spos = s.env.spos ∧ t.env.reads = s.env.reads := by
  induction bytes with
  | nil => exact fun {s} h => ⟨s, [], rfl, ⟨wrote_nothing s.env.spos s.env.reads h.wf, h.inside, rfl⟩, rfl, rfl⟩
  | cons b bytes ih =>
    intro s h
    have hb : CanEncode s [b] := CanEncode.left (q := bytes) h
    have hbits := hb.flushes
    rw [codesOf_singleton] at hbits
    obtain ⟨t, blocks, hrun, ht⟩ := writeBits_writes _ h.wf h.inside hbits
    obtain ⟨hspos, hreads⟩ := writeBits_source.of_ok hrun
    have hrest : CanEncode t bytes := CanEncode.right (p := [b]) h (codesOf_singleton _ b ▸ ht)
    obtain ⟨u, others, hencode, hu, huspos, hureads⟩ := ih hrest
    refine ⟨u, blocks ++ others, ?_, ?_, huspos.trans hspos, hureads.trans hreads⟩
    · exact (encodeBytes_cons bytes (h.coded b List.mem_cons_self)).trans ((Res.bind_of_ok hrun _).trans hencode)
    · rw [ht.ct] at hu
      exact ht.trans hu

/-! ### One round (R198) -/

theorem wroteInside_readDelivery {s : State} (more : List ReadAnswer) (m : Nat) (hwf : s.wbuf.wf)
    (hc : s.wCursor < s.params.blockBits) : WroteInside s [] [] (readDelivery s more m) :=
  ⟨wrote_nothing _ _ hwf, hc, rfl⟩

/-- Bytes encoded once a chunk has been read. -/
theorem encodeBytes_after_read {s : State} {bytes : List Byte} (more : List ReadAnswer) (m : Nat) (h : CanEncode s bytes) :
    ∃ t blocks, encodeBytes bytes (readDelivery s more m) = .ok () t ∧ WroteInside s (codesOf s.ct bytes) blocks t
      ∧ t.env.spos = s.env.spos + m ∧ t.env.reads = more := by
  obtain ⟨t, blocks, hrun, ht, hsource⟩ :=
    encodeBytes_writes (s := readDelivery s more m) bytes ⟨h.wf, h.inside, h.coded, h.flushes⟩
  exact ⟨t, blocks, hrun, (wroteInside_readDelivery more m h.wf h.inside).trans ht, hsource⟩

/-- A round encodes its chunk and goes on. -/
theorem ChunkRead.encodeLoop_eq {s : State} {d rest : List Byte} {more : List ReadAnswer} (h : ChunkRead s d rest more)
    (hd : d ≠ []) (f n : Nat) :
    encodeLoop (f + 1) n s =
      (encodeBytes d (readDelivery s more d.length)).bind fun _ t => encodeLoop f (n + d.length) t := by
  rw [encodeLoop, h.reads, Res.bind_ok, if_neg hd]

/-- What is left of the source once a chunk has been read, whatever else was done. -/
theorem ChunkRead.srcRest_of_spos {s t : State} {d rest : List Byte} {more : List ReadAnswer} (h : ChunkRead s d rest more)
    (hsrc : t.env.src = s.env.src) (hspos : t.env.spos = s.env.spos + d.length) : srcRest t = rest := by
  rw [srcRest, hsrc, hspos, ← List.drop_drop]
  exact (congrArg (List.drop d.length) h.splits).trans List.drop_left

/-! ### The byte a run comes to (R198) -/

/-- The loop comes to the byte `b` with everything before it written, and goes on with that byte in the chunk read last. -/
def ComesTo (f n : Nat) (s : State) (before : List Byte) (b : Byte) : Prop :=
  ∃ t blocks more k, encodeLoop f n s = (encodeBytes (b :: more) t).bind k ∧ WroteInside s (codesOf s.ct before) blocks t
    ∧ s.env.spos + before.length < t.env.spos ∧ t.env.spos ≤ s.env.spos + (srcRest s).length

/-- The byte is in the first chunk. -/
theorem comesTo_in_chunk {s : State} {before behind rest : List Byte} {b : Byte} {more : List ReadAnswer}
    (h : ChunkRead s (before ++ b :: behind) rest more) (hcan : CanEncode s before) (f n : Nat) :
    ComesTo (f + 1) n s before b := by
  obtain ⟨t, blocks, hrun, ht, hspos, -⟩ := encodeBytes_after_read more (before ++ b :: behind).length hcan
  refine ⟨t, blocks, behind, fun _ u => encodeLoop f (n + (before ++ b :: behind).length) u, ?_, ht, ?_, ?_⟩
  · rw [h.encodeLoop_eq (by simp), encodeBytes_append, hrun, Res.bind_ok]
  · rw [hspos, List.length_append, List.length_cons]
    omega
  · rw [hspos, h.splits, List.length_append (bs := rest)]
    omega

/-- However the reads are cut, the loop comes to each byte of the source before which it can encode. -/
theorem encodeLoop_comesTo {b : Byte} {after : List Byte} (f : Nat) : ∀ n s before, 1 ≤ s.params.blockBytes →
    ReadsDeliver s → srcLeft s < f → srcRest s = before ++ b :: after → CanEncode s before →
    ComesTo f n s before b := by
  induction f with
  | zero => exact fun _ _ _ _ _ hlt => absurd hlt (Nat.not_lt_zero _)
  | succ f ih =>
    intro n s before hasks hdel hlt hrest hcan
    obtain ⟨d, rest, hchunk⟩ := exists_chunkRead hasks hdel
    have hd := hchunk.nonempty (by simp [hrest])
    have hpos := List.length_pos_iff.mpr hd
    have hlen : (srcRest s).length = d.length + rest.length := by rw [hchunk.splits, List.length_append]
    have next : ∀ behind, before = d ++ behind → rest = behind ++ b :: after → ComesTo (f + 1) n s before b := by
      rintro behind rfl hbehind
      obtain ⟨t, blocks, hrun, ht, hspos, hreads⟩ := encodeBytes_after_read s.env.reads.tail d.length hcan.left
      have htrest := hchunk.srcRest_of_spos ht.src hspos
      have hless : srcLeft t < f := by
        rw [← srcRest_length, htrest]
        rw [← srcRest_length] at hlt
        omega
      obtain ⟨u, others, more, k, hloop, hu, hlo, hhi⟩ := ih (n + d.length) t behind (ht.params ▸ hasks)
        (fun r hr => hdel r (List.mem_of_mem_tail (hreads ▸ hr))) hless (htrest.trans hbehind) (hcan.right ht)
      refine ⟨u, blocks ++ others, more, k, ?_, ?_, ?_, ?_⟩
      · rw [hchunk.encodeLoop_eq hd, hrun, Res.bind_ok, hloop]
      · rw [codesOf_append]
        exact ht.trans (ht.ct ▸ hu)
      · rw [List.length_append]
        omega
      · rw [htrest] at hhi
        omega
    rcases List.append_eq_append_iff.mp (hchunk.splits.symm.trans hrest) with
      ⟨behind, hbefore, hbehind⟩ | ⟨behind, rfl, htail⟩
    · exact next behind hbefore hbehind
    · cases behind with
      | nil => exact next [] (by simp) (by simpa using htail.symm)
      | cons b' behind =>
        obtain ⟨rfl, -⟩ := List.cons.inj htail
        exact comesTo_in_chunk hchunk hcan f n

/-! ### A read that fails (20_memory R63) -/

/-- The loop encodes the chunks delivered and raises at the read that fails. -/
theorem encodeLoop_stops_at_failure {pos : Nat} {rest : List ReadAnswer} (ks : List Nat) : ∀ f n s,
    1 ≤ s.params.blockBytes → srcLeft s < f → ReadsFailAfter s ks pos rest →
    EachDelivers s.params.blockBytes (srcRest s).length ks → CanEncode s (bytesBefore s ks) →
    ∃ t blocks, encodeLoop f n s = .raised .readFailed 0#64 t ∧ WroteInside s (codesOf s.ct (bytesBefore s ks)) blocks t
      ∧ t.env.spos = min pos s.env.src.length ∧ t.env.reads = rest := by
  induction ks with
  | nil =>
    intro f n s _ hlt hr _ hcan
    obtain ⟨f, rfl⟩ : ∃ m, f = m + 1 := ⟨f - 1, by omega⟩
    have hnone : bytesBefore s [] = [] := by rw [bytesBefore, delivered_nil, List.take_zero]
    refine ⟨_, [], Res.bind_of_raised (srcRead_fail _ hr) _, ?_, rfl, rfl⟩
    rw [hnone]
    exact ⟨wrote_nothing _ _ hcan.wf, hcan.inside, rfl⟩
  | cons k ks ih =>
    intro f n s hasks hlt hr heach hcan
    obtain ⟨f, rfl⟩ : ∃ m, f = m + 1 := ⟨f - 1, by omega⟩
    obtain ⟨d, behind, hchunk, hlen⟩ :=
      exists_chunkRead_of_deliver (more := ks.map ReadAnswer.deliver ++ .fail pos :: rest) hasks hr
    obtain ⟨hleft, heach', -⟩ := eachDelivers_cons hlen heach
    have hd := hchunk.nonempty (List.length_pos_iff.mp hleft)
    have hpos := List.length_pos_iff.mpr hd
    rw [bytesBefore_cons hchunk hlen heach] at hcan ⊢
    obtain ⟨t, blocks, hrun, ht, hspos, hreads⟩ :=
      encodeBytes_after_read (ks.map ReadAnswer.deliver ++ .fail pos :: rest) d.length hcan.left
    have htrest := hchunk.srcRest_of_spos ht.src hspos
    have hsame : bytesBefore (scannedChunk s d (ks.map .deliver ++ .fail pos :: rest)) ks = bytesBefore t ks := by
      rw [bytesBefore, bytesBefore, hchunk.srcRest_behind, htrest, ht.params]
      rfl
    have hless : srcLeft t < f := by
      rw [← srcRest_length, htrest, ← hchunk.length_behind]
      rw [← srcRest_length] at hlt
      omega
    rw [hchunk.length_behind, ← htrest, ← ht.params] at heach'
    rw [hsame] at hcan ⊢
    obtain ⟨u, others, hloop, hu, huspos, hureads⟩ :=
      ih f (n + d.length) t (ht.params ▸ hasks) hless hreads heach' (hcan.right ht)
    refine ⟨u, blocks ++ others, ?_, ?_, ht.src ▸ huspos, hureads⟩
    · rw [hchunk.encodeLoop_eq hd, hrun, Res.bind_ok, hloop]
    · rw [codesOf_append]
      exact ht.trans (ht.ct ▸ hu)

/-! ### The commands (R181, R182, R198) -/

theorem encodeBody_of_raised {s t : State} {c : Cause} {info : Word64} (hdone : s.wDone = false)
    (h : encodeLoop (srcLeft s + 1) 0 s = .raised c info t) : encodeBody s = .raised c info t := by
  rw [encodeBody, hdone]
  exact Res.bind_of_raised h _

/-- A flush that fails in the code of the byte come to. -/
theorem encodeBody_flush_fails {s : State} {before after : List Byte} {b : Byte} {k : Nat} {more : List WriteAnswer}
    (hdone : s.wDone = false) (hasks : 1 ≤ s.params.blockBytes) (hdel : ReadsDeliver s)
    (hrest : srcRest s = before ++ b :: after) (hcan : CanEncode s before) (hcode : (symGet s.ct b).valid = true)
    (hw : WritesFailAfter s k more) (hless : s.wCursor + (codesOf s.ct before).length < (k + 1) * s.params.blockBits)
    (hmany : (k + 1) * s.params.blockBits ≤ s.wCursor + (codesOf s.ct (before ++ [b])).length) :
    ∃ t blocks, encodeBody s = .raised .writeFailed 0#64 t ∧ FlushFailed s (codesOf s.ct (before ++ [b])) k more blocks t
      ∧ s.env.spos + before.length < t.env.spos ∧ t.env.spos ≤ s.env.spos + (srcRest s).length := by
  obtain ⟨t, blocks, behind, go, hloop, ht, hlo, hhi⟩ :=
    encodeLoop_comesTo (srcLeft s + 1) 0 s before hasks hdel (Nat.lt_succ_self _) hrest hcan
  obtain ⟨j, hk, hwt⟩ := ht.failAfter hw hless
  rw [codesOf_append, codesOf_singleton] at hmany ⊢
  have hreach : (j + 1) * t.params.blockBits ≤ t.wCursor + (codeBits (symGet s.ct b)).length := by
    have hcursor := ht.cursor
    rw [hk, Nat.add_assoc, Nat.add_mul, List.length_append] at hmany
    rw [ht.params]
    omega
  obtain ⟨u, others, hrun, hu⟩ := writeBits_flush_fails _ ht.wf ht.inside hwt hreach
  obtain ⟨hspos, -⟩ := writeBits_source.of_raised hrun
  rw [← ht.ct] at hcode hrun
  refine ⟨u, blocks ++ others, encodeBody_of_raised hdone ?_, hu.after ht hk, hspos ▸ hlo, hspos ▸ hhi⟩
  rw [hloop, encodeBytes_cons behind hcode, hrun, Res.bind_raised, Res.bind_raised]

/-- The byte come to has no code. -/
theorem encodeBody_noCode {s : State} {before after : List Byte} {b : Byte} (hdone : s.wDone = false)
    (hasks : 1 ≤ s.params.blockBytes) (hdel : ReadsDeliver s) (hrest : srcRest s = before ++ b :: after)
    (hcan : CanEncode s before) (hcode : (symGet s.ct b).valid = false) :
    ∃ t blocks, encodeBody s = .raised .noCode (b.setWidth 64) t ∧ WroteInside s (codesOf s.ct before) blocks t
      ∧ s.env.spos + before.length < t.env.spos ∧ t.env.spos ≤ s.env.spos + (srcRest s).length := by
  obtain ⟨t, blocks, behind, go, hloop, ht, hsource⟩ :=
    encodeLoop_comesTo (srcLeft s + 1) 0 s before hasks hdel (Nat.lt_succ_self _) hrest hcan
  refine ⟨t, blocks, encodeBody_of_raised hdone ?_, ht, hsource⟩
  rw [hloop, encodeBytes_noCode behind (ht.ct ▸ hcode), Res.bind_raised]

theorem finalize_fails {s : State} {more : List WriteAnswer} (hdone : s.wDone = false) (hpos : 0 < s.wCursor)
    (hfit : s.wCursor ≤ s.params.blockBits) (hw : s.env.writes = .fail :: more) :
    finalize s =
      .raised .writeFailed 0#64 { padTrailing s with env := { s.env with writes := more } } :=
  (finalize_of_pending hdone hpos hfit).trans (Res.bind_of_raised (sinkWrite_fail (s := padTrailing s) _ hw) _)

/-- Settles O59: each failing command is its rule's raise, behind everything the rule wrote before. -/
theorem writerFailuresKeepWhatWasWritten : Obligations.WriterFailuresKeepWhatWasWritten := by
  intro s hf hdone hcursors hwf codes written readPast flushFails
  obtain ⟨⟨hasks, -⟩, -, hfit, hinside, -, -, -, hsrc⟩ := hcursors
  have hinside := hinside hf
  have hend := srcLeft_end hsrc
  have hwritten : ∀ {bits blocks t op c info}, Wrote s bits blocks t → written (t.raiseError op c info) bits blocks :=
    fun h => ⟨h.whole, h.splits, h.beyond, h.around⟩
  refine ⟨fun a k more hcode hw hmany => ?_, fun before b after k more hrest hcoded hdel hw hless hmany => ?_,
    fun ks pos rest hr heach => (?_ : WritesAccepted s → Coded s.ct (bytesBefore s ks) → _),
    fun before b after hrest hcoded hcode hdel hw => ?_, fun hzero => ?_, fun more hpos hw => ?_⟩
  · rw [← codeBits_length] at hmany
    obtain ⟨t, blocks, hrun, h⟩ := writeBits_flush_fails _ hwf hinside hw hmany
    have hsource := writeBits_source.of_raised hrun
    have hstate := h.state
    rw [h.full, h.writes] at hstate
    exact ⟨_, blocks,
      exec_of_raised (i := .wrSym a) hf rfl ((writeSym_of_code hdone hcode).trans (Res.bind_of_raised hrun _)), h.count,
      hwritten h.toWrote, hsource, congrArg (fun u => State.raiseError u 0x50#8 .writeFailed 0#64) hstate⟩
  · have hcan : CanEncode s before :=
      ⟨hwf, hinside, fun c hc => hcoded c (List.mem_cons_of_mem b hc), flushesTaken_of_failAfter hw hless⟩
    obtain ⟨t, blocks, hrun, h, hlo, hhi⟩ :=
      encodeBody_flush_fails hdone hasks hdel hrest hcan (hcoded b List.mem_cons_self) hw hless hmany
    have hstate := h.state
    rw [h.full, h.writes] at hstate
    exact ⟨_, blocks, exec_of_raised (i := .encBody) hf rfl hrun, h.count, hwritten h.toWrote,
      ⟨hlo, hend ▸ hhi⟩, congrArg (fun u => State.raiseError u 0x63#8 .writeFailed 0#64) hstate⟩
  · intro hw hcoded
    have hcan : CanEncode s (bytesBefore s ks) := ⟨hwf, hinside, hcoded, flushesTaken_of_accepted _ hw⟩
    obtain ⟨t, blocks, hloop, h, hspos, hreads⟩ :=
      encodeLoop_stops_at_failure ks (srcLeft s + 1) 0 s hasks (Nat.lt_succ_self _) hr heach hcan
    have hstate := h.state
    rw [hspos, hreads, h.writes] at hstate
    exact ⟨_, blocks, exec_of_raised (i := .encBody) hf rfl (encodeBody_of_raised hdone hloop),
      hwritten h.toWrote, h.params ▸ h.inside, congrArg (fun u => State.raiseError u 0x63#8 .readFailed 0#64) hstate⟩
  · have hcan : CanEncode s before := ⟨hwf, hinside, hcoded, flushesTaken_of_accepted _ hw⟩
    obtain ⟨t, blocks, hrun, h, hlo, hhi⟩ := encodeBody_noCode hdone hasks hdel hrest hcan hcode
    have hstate := h.state
    rw [h.writes] at hstate
    exact ⟨_, blocks, exec_of_raised (i := .encBody) hf rfl hrun, hwritten h.toWrote,
      h.params ▸ h.inside, ⟨hlo, hend ▸ hhi⟩,
      congrArg (fun u => State.raiseError u 0x63#8 .noCode (b.setWidth 64)) hstate⟩
  · exact exec_of_ok (i := .wrFinal) hf rfl (finalize_of_none_pending hdone hzero)
  · refine ⟨_, exec_of_raised (i := .wrFinal) hf rfl (finalize_fails hdone hpos hfit hw), pendingBits_padTrailing hwf,
      fun k hk hkbytes => ?_, fun i hi => read_padTrailing_other hi, rfl⟩
    exact (memBit_padTrailing hwf hkbytes).trans (by rw [decide_eq_false (Nat.not_lt.mpr hk), Bool.and_false])

end Sys2Proof.Machine
end

section
/-! HDR_PUT, HDR_GET and SRC_REWIND (46_framing R195 to R197): the little-endian fields of the header, put together and taken
apart. -/

namespace Sys2Proof.Machine

open Sys2Proof

/-! ### Little-endian fields (20_memory R68) -/

/-- The bytes of a word from byte `k` on are its slices of eight bits. -/
theorem leBytes_toNat_div {w : Nat} (x : BitVec w) (n : Nat) : ∀ k,
    leBytes n (x.toNat / 2 ^ (8 * k)) = (List.range n).map fun i => x.extractLsb' (8 * (k + i)) 8 := by
  induction n with
  | zero => exact fun _ => rfl
  | succ n ih =>
    intro k
    have hnext : x.toNat / 2 ^ (8 * k) / 256 = x.toNat / 2 ^ (8 * (k + 1)) := by
      rw [Nat.div_div_eq_div_mul, show 8 * (k + 1) = 8 * k + 8 from rfl, Nat.pow_add]
    have hfirst : BitVec.ofNat 8 (x.toNat / 2 ^ (8 * k)) = x.extractLsb' (8 * k) 8 := by
      rw [BitVec.extractLsb', Nat.shiftRight_eq_div_pow]
    rw [leBytes, hfirst, hnext, ih, List.range_succ_eq_map, List.map_cons, List.map_map]
    simp only [Function.comp_def, Nat.succ_eq_add_one, Nat.add_zero, Nat.add_assoc, Nat.add_comm 1]

theorem leBytes_toNat {w : Nat} (x : BitVec w) (n : Nat) :
    leBytes n x.toNat = (List.range n).map fun i => x.extractLsb' (8 * i) 8 := by
  simpa using leBytes_toNat_div x n 0

/-- A byte put below a word is the first of its little-endian bytes. -/
theorem toNat_append_byte {w : Nat} (x : BitVec w) (b : Byte) : (x ++ b).toNat = b.toNat + 256 * x.toNat := by
  rw [BitVec.toNat_append, Nat.shiftLeft_eq, Nat.mul_comm, ← Nat.two_pow_add_eq_or_of_lt b.isLt, Nat.add_comm]

theorem leNat_two (a b : Byte) : leNat [a, b] = (b ++ a).toNat := by
  rw [toNat_append_byte]
  rfl

theorem leNat_four (a b c d : Byte) : leNat [a, b, c, d] = (d ++ c ++ b ++ a).toNat := by
  simp only [toNat_append_byte]
  rfl

theorem leNat_eight (a b c d e f g h : Byte) :
    leNat [a, b, c, d, e, f, g, h] = (h ++ g ++ f ++ e ++ d ++ c ++ b ++ a).toNat := by
  simp only [toNat_append_byte]
  rfl

theorem ofNat_toNat_self {w : Nat} (x : BitVec w) : BitVec.ofNat w x.toNat = x := by
  rw [BitVec.ofNat_toNat, BitVec.setWidth_eq]

/-! ### HDR_PUT and SRC_REWIND (R195, R197) -/

/-- A rewind that no prepared answer refuses goes back to the first byte (20_memory R65). -/
theorem srcRewind_ok {s : State} (h : ∀ pos, RewindAnswer.fail pos ∉ s.env.rewinds) :
    srcRewind s = .ok () { s with env := { s.env with spos := 0, rewinds := s.env.rewinds.tail } } := by
  unfold srcRewind
  split
  · rename_i hr; simp [hr]
  · rename_i rest hr; simp [hr]
  · rename_i pos rest hr; exact absurd (by simp [hr]) (h pos)

theorem headerBytes_eq (s : State) :
    headerBytes s =
      (List.range 4).map (fun i => s.params.magic.extractLsb' (8 * i) 8)
        ++ (List.range 2).map (fun i => s.hPerm.extractLsb' (8 * i) 8)
        ++ (List.range 2).map (fun i => (s.tlen.setWidth 16).extractLsb' (8 * i) 8)
        ++ (List.range 8).map fun i => s.fileSize.extractLsb' (8 * i) 8 := by
  have htlen : s.tlen.toNat = (s.tlen.setWidth 16).toNat := (BitVec.toNat_setWidth_of_le (by decide)).symm
  rw [headerBytes, htlen, leBytes_toNat, leBytes_toNat, leBytes_toNat, leBytes_toNat]

/-- Settles O54: the rewind and the one write are taken, and the bytes written are the slices of the four fields. -/
theorem hdrPutWritesTheHeaderAndSrcRewindGoesBack : Obligations.HdrPutWritesTheHeaderAndSrcRewindGoesBack := by
  refine ⟨fun s hf hr => exec_of_ok (i := .srcRewind) hf rfl (Res.bind_of_ok (srcRewind_ok hr) _), fun s hf hw => ?_⟩
  have hrun := exec_of_ok (i := .hdrPut) hf rfl (Res.bind_of_ok (sinkWrite_ok (headerBytes s) hw) _)
  rw [headerBytes_eq] at hrun
  exact hrun

/-! ### HDR_GET (R196) -/

/-- The header taken apart, once the bytes of its four fields are read; the registers are written only behind the magic. -/
theorem getHeader_of_fields {s t : State} {magic perm tree size : List Byte}
    (hread : srcReadExact 16 s = .ok (magic ++ (perm ++ (tree ++ size))) t) (hmagic : magic.length = 4)
    (hperm : perm.length = 2) (htree : tree.length = 2) (hsize : size.length = 8) :
    getHeader s =
      if leNat magic ≠ t.params.magic.toNat then .raised .badMagic (BitVec.ofNat 64 (leNat magic)) t
      else
        answerOk 0#64
          { t with
            hPerm := BitVec.ofNat 16 (leNat perm)
            hTreeSize := BitVec.ofNat 16 (leNat tree)
            fileSize := BitVec.ofNat 64 (leNat size) } := by
  have hlen : (magic ++ (perm ++ (tree ++ size))).length = 16 := by simp [hmagic, hperm, htree, hsize]
  simp [getHeader, hread, hlen, headerField, hmagic, hperm, htree, hsize, List.drop_append, List.drop_eq_nil_of_le,
    List.take_of_length_le]

theorem getHeader_of_short {s t : State} {d : List Byte} (hread : srcReadExact 16 s = .ok d t) (hlen : d.length < 16) :
    getHeader s = .raised .shortHeader (BitVec.ofNat 64 d.length) t := by
  rw [getHeader, hread, Res.bind_ok, if_pos hlen]

/-- Settles O55: sixteen bytes read are taken apart field by field; fewer raise before the magic is looked at. -/
theorem hdrGetTakesTheHeaderApart : Obligations.HdrGetTakesTheHeaderApart := by
  refine fun s hf => ⟨fun hgive b0 b1 b2 b3 b4 b5 b6 b7 b8 b9 b10 b11 b12 b13 b14 b15 more hrest => ?_,
    fun hdel hshort => ?_⟩
  · intro found
    obtain ⟨reads, hread⟩ := srcReadExact_gives hgive (by simp [hrest])
    rw [hrest] at hread
    have hget := getHeader_of_fields (magic := [b0, b1, b2, b3]) (perm := [b4, b5]) (tree := [b6, b7])
      (size := [b8, b9, b10, b11, b12, b13, b14, b15]) hread rfl rfl rfl rfl
    rw [leNat_four, leNat_two, leNat_two, leNat_eight] at hget
    refine ⟨fun hmagic => ?_, fun hmagic => ?_⟩
    · have hget := hget.trans (if_neg (not_not_intro (congrArg BitVec.toNat hmagic)))
      rw [ofNat_toNat_self, ofNat_toNat_self, ofNat_toNat_self] at hget
      exact ⟨_, exec_of_ok (i := .hdrGet) hf rfl hget, rfl⟩
    · have hget := hget.trans (if_pos fun h => hmagic (BitVec.eq_of_toNat_eq h))
      rw [BitVec.ofNat_toNat] at hget
      exact ⟨_, exec_of_raised (i := .hdrGet) hf rfl hget, rfl⟩
  · obtain ⟨reads, -, hread⟩ := srcReadExact_ok 16 hdel
    rw [List.take_of_length_le (Nat.le_of_lt hshort)] at hread
    exact ⟨_, exec_of_raised (i := .hdrGet) hf rfl (getHeader_of_short hread hshort), rfl⟩

end Sys2Proof.Machine
end

section
/-! ENC_BODY to the end of the source (46_framing R198): however the reads are cut, the codes of all bytes are written. -/

namespace Sys2Proof.Machine

open Sys2Proof

/-- A round at the end of the source ends the loop. -/
theorem encodeLoop_at_end {s : State} (hasks : 1 ≤ s.params.blockBytes) (hdel : ReadsDeliver s) (hrest : srcRest s = [])
    (f n : Nat) : encodeLoop (f + 1) n s = .ok n (readDelivery s s.env.reads.tail 0) := by
  obtain ⟨d, rest, hchunk⟩ := exists_chunkRead hasks hdel
  obtain ⟨rfl, -⟩ := List.append_eq_nil_iff.mp (hchunk.splits.symm.trans hrest)
  rw [encodeLoop, hchunk.reads, Res.bind_ok, if_pos rfl, List.length_nil]

/-- The loop encodes everything left of the source. -/
theorem encodeLoop_encodes_all (f : Nat) : ∀ n s, 1 ≤ s.params.blockBytes → ReadsDeliver s → srcLeft s < f →
    CanEncode s (srcRest s) →
    ∃ t blocks, encodeLoop f n s = .ok (n + (srcRest s).length) t ∧ WroteInside s (codesOf s.ct (srcRest s)) blocks t
      ∧ t.env.spos = s.env.spos + (srcRest s).length := by
  induction f with
  | zero => exact fun _ _ _ _ hlt => absurd hlt (Nat.not_lt_zero _)
  | succ f ih =>
    intro n s hasks hdel hlt hcan
    by_cases hrest : srcRest s = []
    · rw [hrest]
      exact ⟨_, [], encodeLoop_at_end hasks hdel hrest f n, wroteInside_readDelivery _ _ hcan.wf hcan.inside, rfl⟩
    · obtain ⟨d, rest, hchunk⟩ := exists_chunkRead hasks hdel
      have hd := hchunk.nonempty hrest
      have hpos := List.length_pos_iff.mpr hd
      rw [hchunk.splits] at hcan ⊢
      obtain ⟨t, blocks, hrun, ht, hspos, hreads⟩ := encodeBytes_after_read s.env.reads.tail d.length hcan.left
      have htrest := hchunk.srcRest_of_spos ht.src hspos
      have hless : srcLeft t < f := by
        rw [← srcRest_length, hchunk.splits, List.length_append] at hlt
        rw [← srcRest_length, htrest]
        omega
      obtain ⟨u, others, hloop, hu, huspos⟩ := ih (n + d.length) t (ht.params ▸ hasks)
        (fun r hr => hdel r (List.mem_of_mem_tail (hreads ▸ hr))) hless (htrest.symm ▸ hcan.right ht)
      rw [htrest] at hloop hu huspos
      refine ⟨u, blocks ++ others, ?_, ?_, ?_⟩
      · rw [hchunk.encodeLoop_eq hd, hrun, Res.bind_ok, hloop, List.length_append, Nat.add_assoc]
      · rw [codesOf_append]
        exact ht.trans (ht.ct ▸ hu)
      · rw [huspos, hspos, List.length_append, Nat.add_assoc]

/-- Settles O56: the loop comes to the end of the source, or to the first byte with no code. -/
theorem encBodyAppendsEveryCode : Obligations.EncBodyAppendsEveryCode := by
  refine fun s hf => ⟨fun hdone => exec_of_ok (i := .encBody) hf rfl (if_pos hdone), ?_⟩
  intro hdone hcursors hwf hsrc hdel hw
  obtain ⟨⟨hasks, -⟩, -, -, hinside, -⟩ := hcursors
  refine ⟨fun hcoded => ?_, fun before b after hrest hcoded hcode => ?_⟩
  · obtain ⟨t, blocks, hloop, h, hspos⟩ := encodeLoop_encodes_all (srcLeft s + 1) 0 s hasks hdel (Nat.lt_succ_self _)
      ⟨hwf, hinside hf, hcoded, flushesTaken_of_accepted _ hw⟩
    have hrun : encodeBody s = answerOk (countWord (srcRest s).length) t := by
      rw [encodeBody, hdone, if_neg Bool.false_ne_true, hloop, Nat.zero_add, Res.bind_ok]
    have hstate := h.state
    rw [hspos, srcLeft_end hsrc, h.writes] at hstate
    exact ⟨_, blocks, exec_of_ok (i := .encBody) hf rfl hrun, h.whole, h.splits, h.around,
      congrArg (fun u => State.respond u .ok _) hstate⟩
  · obtain ⟨t, -, hrun, -⟩ := encodeBody_noCode hdone hasks hdel hrest
      ⟨hwf, hinside hf, hcoded, flushesTaken_of_accepted _ hw⟩ hcode
    exact ⟨_, exec_of_raised (i := .encBody) hf rfl hrun, rfl, rfl, rfl, rfl, rfl, List.getLast?_concat⟩

end Sys2Proof.Machine
end

section
/-! The chunks that the coming reads bring (20_memory R63), up to the end of the source or a read that fails, and the next bit
over them (45_bit_channel R184). -/

namespace Sys2Proof.Machine

open Sys2Proof

/-! ### Chunks to come (20_memory R63) -/

/-- Two states whose sources answer alike. -/
structure SameSource (s t : State) : Prop where
  params : t.params = s.params
  src : t.env.src = s.env.src
  spos : t.env.spos = s.env.spos
  reads : t.env.reads = s.env.reads

theorem SameSource.srcRest {s t : State} (h : SameSource s t) : srcRest t = srcRest s := by
  rw [Machine.srcRest, Machine.srcRest, h.src, h.spos]

theorem SameSource.readDelivery {s t : State} (h : SameSource s t) (more : List ReadAnswer) (m : Nat) :
    SameSource (readDelivery s more m) (readDelivery t more m) :=
  ⟨h.params, h.src, congrArg (· + m) h.spos, rfl⟩

/-- With no answer prepared the ideal source gives what is asked for, or all that is left (20_memory R63). -/
theorem srcRead_eq_of_nil {s : State} (n : Nat) (h : s.env.reads = []) :
    srcRead n s = .ok ((srcRest s).take n) (readDelivery s [] ((srcRest s).take n).length) := by
  have hcap : min (max 1 n) n = n := by omega
  unfold srcRead
  rw [h]
  show srcDeliver n n s = _
  rw [srcDeliver_eq, hcap, ← h]
  rfl

theorem readDelivery_inj {s : State} {more more' : List ReadAnswer} {m m' : Nat}
    (h : readDelivery s more m = readDelivery s more' m') : more = more' ∧ m = m' :=
  ⟨congrArg (fun u => u.env.reads) h, Nat.add_left_cancel (congrArg (fun u => u.env.spos) h)⟩

/-- A read asks nothing of a state but its source. -/
theorem SameSource.srcRead {s t : State} {n m : Nat} {d : List Byte} {more : List ReadAnswer} (h : SameSource s t)
    (hread : srcRead n s = .ok d (Machine.readDelivery s more m)) : srcRead n t = .ok d (Machine.readDelivery t more m) := by
  cases hr : s.env.reads with
  | nil =>
    rw [srcRead_eq_of_nil n hr] at hread
    obtain ⟨rfl, hstate⟩ := Res.ok.inj hread
    obtain ⟨rfl, rfl⟩ := readDelivery_inj hstate
    rw [srcRead_eq_of_nil n (h.reads.trans hr), h.srcRest]
  | cons r rest =>
    cases r with
    | deliver k =>
      rw [srcRead_eq_of_deliver n hr] at hread
      obtain ⟨rfl, hstate⟩ := Res.ok.inj hread
      obtain ⟨rfl, rfl⟩ := readDelivery_inj hstate
      rw [srcRead_eq_of_deliver n (h.reads.trans hr), h.srcRest]
    | fail p =>
      rw [srcRead_fail n hr] at hread
      cases hread

theorem ChunkRead.congr {s t : State} {d rest : List Byte} {more : List ReadAnswer} (h : ChunkRead s d rest more)
    (k : SameSource s t) : ChunkRead t d rest more where
  reads := by
    rw [k.params]
    exact k.srcRead h.reads
  splits := by rw [k.srcRest, h.splits]
  nonempty hne := h.nonempty (by rwa [k.srcRest] at hne)

/-- The next reads bring these chunks, none of them empty, and leave the source at `pos` with the answers `reads` to come. -/
def Brings (pos : Nat) (reads : List ReadAnswer) : List (List Byte) → State → Prop
  | [], s => s.env.spos = pos ∧ s.env.reads = reads
  | d :: ds, s => ∃ rest more, ChunkRead s d rest more ∧ d ≠ [] ∧ Brings pos reads ds (readDelivery s more d.length)

section

variable {pos : Nat} {reads : List ReadAnswer}

theorem Brings.congr {ds : List (List Byte)} : ∀ {s t}, Brings pos reads ds s → SameSource s t → Brings pos reads ds t := by
  induction ds with
  | nil => exact fun ⟨hpos, hreads⟩ k => ⟨k.spos.trans hpos, k.reads.trans hreads⟩
  | cons d ds ih =>
    exact fun ⟨rest, more, h, hd, hds⟩ k => ⟨rest, more, h.congr k, hd, ih hds (k.readDelivery more d.length)⟩

/-- The chunks are the next bytes of the source. -/
theorem Brings.srcRest {ds : List (List Byte)} : ∀ {s}, Brings pos reads ds s →
    srcRest s = ds.flatten ++ s.env.src.drop pos := by
  induction ds with
  | nil =>
    rintro s ⟨rfl, -⟩
    rfl
  | cons d ds ih =>
    rintro s ⟨rest, more, h, -, hds⟩
    have hrest := ih hds
    rw [srcRest_readDelivery, h.splits, List.drop_left] at hrest
    rw [h.splits, List.flatten_cons, List.append_assoc, hrest]
    rfl

theorem Brings.eq_nil {ds : List (List Byte)} {s : State} (h : Brings pos reads ds s) (hnil : ds.flatten = []) : ds = [] := by
  cases ds with
  | nil => rfl
  | cons d ds =>
    obtain ⟨-, -, -, hd, -⟩ := h
    exact absurd (List.append_eq_nil_iff.mp hnil).1 hd

end

/-- When no prepared read fails, reads bring all that is left of the source. -/
theorem exists_brings_all (n : Nat) : ∀ {s}, (srcRest s).length = n → 1 ≤ s.params.blockBytes → ReadsDeliver s →
    ∃ reads ds, Brings (s.env.spos + n) reads ds s ∧ ds.flatten = srcRest s ∧ ∀ r ∈ reads, ∀ pos, r ≠ .fail pos := by
  induction n using Nat.strongRecOn with
  | ind n ih =>
    intro s hn hasks hdel
    by_cases hrest : srcRest s = []
    · rw [hrest, List.length_nil] at hn
      exact ⟨s.env.reads, [], ⟨by omega, rfl⟩, hrest.symm, hdel⟩
    · obtain ⟨d, rest, h⟩ := exists_chunkRead hasks hdel
      have hd := h.nonempty hrest
      have hpos := List.length_pos_iff.mpr hd
      have hlen := h.length_behind
      have hbehind : srcRest (readDelivery s s.env.reads.tail d.length) = rest := h.srcRest_behind
      rw [h.splits, List.length_append] at hn
      obtain ⟨reads, ds, hds, hflat, hreads⟩ := ih rest.length (by omega)
        (s := readDelivery s s.env.reads.tail d.length) (congrArg List.length hbehind) hasks
        (fun r hr => hdel r (List.mem_of_mem_tail hr))
      refine ⟨reads, d :: ds, ⟨rest, _, h, hd, ?_⟩, ?_, hreads⟩
      · rw [← hn, ← Nat.add_assoc]
        exact hds
      · rw [List.flatten_cons, hflat, hbehind, h.splits]

/-- The first of several deliveries, `m` bytes long, and what the others still deliver. -/
theorem delivered_behind {n left k m : Nat} (ks : List Nat) (hm : m = min (min (max 1 k) n) left) :
    delivered n left (k :: ks) = m + delivered n (left - m) ks := by
  rw [delivered_cons, delivered]
  omega

/-- Reads bring a chunk for each delivery before the one that fails. -/
theorem exists_brings_before_failure {pos : Nat} {rest : List ReadAnswer} (ks : List Nat) : ∀ {s},
    1 ≤ s.params.blockBytes → ReadsFailAfter s ks pos rest → EachDelivers s.params.blockBytes (srcRest s).length ks →
    ∃ stop ds, Brings stop (.fail pos :: rest) ds s ∧ ds.flatten = bytesBefore s ks ∧ ds.length = ks.length
      ∧ ds.dropLast.flatten.length = delivered s.params.blockBytes (srcRest s).length ks.dropLast := by
  induction ks with
  | nil =>
    intro s _ hr _
    exact ⟨s.env.spos, [], ⟨rfl, hr⟩, by rw [bytesBefore, delivered_nil, List.take_zero]; rfl, rfl, (delivered_nil _ _).symm⟩
  | cons k ks ih =>
    intro s hasks hr heach
    obtain ⟨d, behind, h, hlen⟩ :=
      exists_chunkRead_of_deliver (more := ks.map ReadAnswer.deliver ++ .fail pos :: rest) hasks hr
    obtain ⟨hleft, heach', -⟩ := eachDelivers_cons hlen heach
    have hd := h.nonempty (List.length_pos_iff.mp hleft)
    have hbehind : srcRest (readDelivery s (ks.map .deliver ++ .fail pos :: rest) d.length) = behind := h.srcRest_behind
    rw [h.length_behind, ← hbehind] at heach'
    obtain ⟨stop, ds, hds, hflat, hcount, hlast⟩ :=
      ih (s := readDelivery s (ks.map .deliver ++ .fail pos :: rest) d.length) hasks rfl heach'
    refine ⟨stop, d :: ds, ⟨behind, _, h, hd, hds⟩, ?_, congrArg (· + 1) hcount, ?_⟩
    · rw [List.flatten_cons, hflat, bytesBefore_cons h hlen heach]
      rfl
    · cases ks with
      | nil =>
        rw [List.length_eq_zero_iff.mp hcount]
        exact (delivered_nil _ _).symm
      | cons k' ks =>
        have hne : ds ≠ [] := List.ne_nil_of_length_pos (by rw [hcount]; exact Nat.succ_pos _)
        rw [List.dropLast_cons_of_ne_nil hne, List.dropLast_cons_of_ne_nil (List.cons_ne_nil _ _), List.flatten_cons,
          List.length_append, hlast, delivered_behind _ hlen, h.length_behind, hbehind]
        rfl

/-! ### The reader over the chunks to come (10_state R34) -/

/-- The reader can go on: it is not at end-of-stream, its cursors are in range, and the next reads bring these chunks. -/
structure Ready (pos : Nat) (reads : List ReadAnswer) (ds : List (List Byte)) (s : State) : Prop where
  running : s.rEos = false
  wf : ds ≠ [] → s.rbuf.wf
  fits : s.rLen ≤ s.params.blockBytes
  cursor : s.rCursor ≤ 8 * s.rLen
  brings : Brings pos reads ds s

/-- The bits left of the block, then those of the chunks to come. -/
def ahead (s : State) (ds : List (List Byte)) : List Bool := blockLeft s ++ bytesBits ds.flatten

/-- Neither `RBUF` was filled nor the source asked. -/
structure SameBlock (s t : State) : Prop where
  rbuf : t.rbuf = s.rbuf
  rLen : t.rLen = s.rLen
  spos : t.env.spos = s.env.spos
  reads : t.env.reads = s.env.reads

/-- The block holds the last of the chunks `ds` that come before `es`. -/
def HoldsLast (t : State) (ds es : List (List Byte)) : Prop :=
  ∃ before d, ds = before ++ d :: es ∧ t.rLen = d.length ∧ t.rbuf.slice 0 d.length = d

/-- From `s` with the chunks `ds` to come to `t` with `es` to come, these bits were read and these symbols written, and nothing
else done but that the walk moved: the block is filled only when its own bits are used up. -/
structure Decoded (pos : Nat) (reads : List ReadAnswer) (s : State) (ds : List (List Byte)) (bits : List Bool)
    (out : List Sym) (t : State) (es : List (List Byte)) : Prop where
  ready : Ready pos reads es t
  splits : ahead s ds = bits ++ ahead t es
  block : (es = ds ∧ SameBlock s t) ∨ (HoldsLast t ds es ∧ (blockLeft s).length < bits.length)
  beyond : ∀ i, s.params.blockBytes ≤ i → t.rbuf.read i = s.rbuf.read i
  state : t = { s with
    rbuf := t.rbuf
    rLen := t.rLen
    rCursor := t.rCursor
    rTotal := s.rTotal + BitVec.ofNat 64 bits.length
    dcur := t.dcur
    emitted := s.emitted + BitVec.ofNat 64 out.length
    env := { s.env with
      spos := t.env.spos
      sink := s.env.sink ++ out.map fun a => [a]
      reads := t.env.reads
      writes := s.env.writes.drop out.length } }

section

variable {pos : Nat} {reads : List ReadAnswer} {s t u : State} {ds es fs : List (List Byte)} {bits more : List Bool}
  {out others : List Sym}

theorem blockLeft_length (s : State) : (blockLeft s).length = 8 * s.rLen - s.rCursor := by rw [blockLeft_eq, bitRange_length]

theorem Ready.block_end (h : Ready pos reads ds s) (hnone : blockLeft s = []) : s.rCursor = 8 * s.rLen := by
  have hlen := congrArg List.length hnone
  rw [blockLeft_length, List.length_nil] at hlen
  have := h.cursor
  omega

/-- What is ahead is among the bits that bound the loops of the decoder. -/
theorem Ready.ahead_le (h : Ready pos reads ds s) : (ahead s ds).length ≤ bitsLeft s := by
  have hlen := congrArg List.length h.brings.srcRest
  rw [srcRest_length, List.length_append] at hlen
  rw [ahead, List.length_append, blockLeft_length, bytesBits_length, bitsLeft]
  omega

/-- When the chunks reach the end of the source, what is ahead is all that is unread. -/
theorem Ready.ahead_eq (h : Ready pos reads ds s) (hend : s.env.src.length ≤ pos) : ahead s ds = unreadBits s := by
  have hrest := h.brings.srcRest
  rw [List.drop_eq_nil_of_le hend, List.append_nil] at hrest
  rw [ahead, ← hrest]
  rfl

theorem Ready.none_ahead (h : Ready pos reads ds s) (hnone : ahead s ds = []) : ds = [] ∧ blockLeft s = [] := by
  obtain ⟨hblock, hbytes⟩ := List.append_eq_nil_iff.mp hnone
  exact ⟨h.brings.eq_nil (bytesBits_eq_nil hbytes), hblock⟩

theorem Decoded.nodes (h : Decoded pos reads s ds bits out t es) : t.nodes = s.nodes := by rw [h.state]

theorem Decoded.root (h : Decoded pos reads s ds bits out t es) : t.root = s.root := by rw [h.state]

theorem Decoded.src (h : Decoded pos reads s ds bits out t es) : t.env.src = s.env.src := by rw [h.state]

theorem Decoded.writes (h : Decoded pos reads s ds bits out t es) : t.env.writes = s.env.writes.drop out.length := by
  rw [h.state]

theorem Decoded.emitted (h : Decoded pos reads s ds bits out t es) :
    t.emitted = s.emitted + BitVec.ofNat 64 out.length := by rw [h.state]

theorem Decoded.fileSize (h : Decoded pos reads s ds bits out t es) : t.fileSize = s.fileSize := by rw [h.state]

theorem SameBlock.trans (h : SameBlock s t) (k : SameBlock t u) : SameBlock s u :=
  ⟨k.rbuf.trans h.rbuf, k.rLen.trans h.rLen, k.spos.trans h.spos, k.reads.trans h.reads⟩

theorem HoldsLast.after (h : HoldsLast t ds es) (k : HoldsLast u es fs) : HoldsLast u ds fs := by
  obtain ⟨first, c, rfl, -⟩ := h
  obtain ⟨before, d, rfl, hlast⟩ := k
  exact ⟨first ++ c :: before, d, by simp, hlast⟩

theorem HoldsLast.of_sameBlock (h : HoldsLast t ds es) (k : SameBlock t u) : HoldsLast u ds es := by
  obtain ⟨before, d, hds, hlen, hslice⟩ := h
  exact ⟨before, d, hds, k.rLen.trans hlen, by rw [k.rbuf, hslice]⟩

theorem Decoded.trans (h : Decoded pos reads s ds bits out t es) (k : Decoded pos reads t es more others u fs) :
    Decoded pos reads s ds (bits ++ more) (out ++ others) u fs where
  ready := k.ready
  splits := by rw [h.splits, k.splits, List.append_assoc]
  block := by
    rw [List.length_append]
    rcases h.block with ⟨rfl, hsame⟩ | ⟨hlast, hlong⟩
    · have hlen : (blockLeft s).length = bits.length + (blockLeft t).length := by
        have hlen := congrArg List.length h.splits
        simp only [ahead, List.length_append] at hlen
        omega
      rcases k.block with ⟨rfl, ksame⟩ | ⟨klast, klong⟩
      · exact .inl ⟨rfl, hsame.trans ksame⟩
      · exact .inr ⟨klast, by omega⟩
    · refine .inr ⟨?_, by omega⟩
      rcases k.block with ⟨rfl, ksame⟩ | ⟨klast, -⟩
      · exact hlast.of_sameBlock ksame
      · exact hlast.after klast
  beyond i hi := by
    have hp : t.params = s.params := by rw [h.state]
    exact (k.beyond i (hp ▸ hi)).trans (h.beyond i hi)
  state := by
    have hu := k.state
    rw [h.state] at hu
    simpa [BitVec.ofNat_add, BitVec.add_assoc] using hu

/-- While no more bits were read than the block held, it was not filled and the source not asked. -/
theorem Decoded.inside (h : Decoded pos reads s ds bits out t es) (hfew : bits.length ≤ (blockLeft s).length) :
    es = ds ∧ SameBlock s t := h.block.resolve_right fun ⟨_, hmany⟩ => absurd hmany (Nat.not_lt.mpr hfew)

/-- The walk moved and these symbols were written; the reader was left alone. -/
theorem Ready.decoded (h : Ready pos reads ds s) (n : NodeId) (out : List Sym) :
    Decoded pos reads s ds [] out
      { s with
        dcur := n
        emitted := s.emitted + BitVec.ofNat 64 out.length
        env := { s.env with
          sink := s.env.sink ++ out.map fun a => [a], writes := s.env.writes.drop out.length } } ds where
  ready := ⟨h.running, h.wf, h.fits, h.cursor, h.brings.congr ⟨rfl, rfl, rfl, rfl⟩⟩
  splits := rfl
  block := .inl ⟨rfl, rfl, rfl, rfl, rfl⟩
  beyond _ _ := rfl
  state := by simp

theorem Ready.moved (h : Ready pos reads ds s) (n : NodeId) : Decoded pos reads s ds [] [] { s with dcur := n } ds := by
  simpa using h.decoded n []

/-! ### The next bit (45_bit_channel R184) -/

/-- A bit of the block. -/
theorem Ready.bit_of_block (h : Ready pos reads ds s) (hleft : s.rCursor < 8 * s.rLen) :
    readBit s = .ok (some (memBit s.rbuf s.rCursor)) (bitTaken s)
      ∧ Decoded pos reads s ds [memBit s.rbuf s.rCursor] [] (bitTaken s) ds where
  left := by
    have hfits := h.fits
    rw [readBit_inside h.running (Nat.ne_of_lt hleft), takeBit_ok (by omega)]
  right :=
    { ready := ⟨h.running, h.wf, h.fits, hleft, h.brings.congr ⟨rfl, rfl, rfl, rfl⟩⟩
      splits := by
        rw [ahead, blockLeft_cons hleft]
        rfl
      block := .inl ⟨rfl, rfl, rfl, rfl, rfl⟩
      beyond := fun _ _ => rfl
      state := by simp }

/-- The first bit of a chunk that fills the block. -/
theorem Ready.bit_of_chunk {d : List Byte} (h : Ready pos reads (d :: ds) s) (hend : s.rCursor = 8 * s.rLen) :
    ∃ b t, readBit s = .ok (some b) t ∧ Decoded pos reads s (d :: ds) [b] [] t ds ∧ t.dcur = s.dcur := by
  obtain ⟨rest, more, hchunk, hd, hds⟩ := h.brings
  have hwf := h.wf (List.cons_ne_nil _ _)
  have hpos : 0 < 8 * d.length := Nat.mul_pos (by decide) (List.length_pos_iff.mpr hd)
  have hready : Ready pos reads ds (refilled (readDelivery s more d.length) d) :=
    ⟨h.running, fun _ => Memory.writeBytes_wf d 0 hwf, hchunk.length_le, Nat.zero_le _, hds.congr ⟨rfl, rfl, rfl, rfl⟩⟩
  obtain ⟨hbit, htaken⟩ := hready.bit_of_block hpos
  rw [readBit_inside hready.running (Nat.ne_of_lt hpos)] at hbit
  refine ⟨_, _, (readBit_of_chunk h.running hend hchunk hd).trans hbit, ?_, rfl⟩
  exact
    { ready := htaken.ready
      splits := by
        rw [← htaken.splits, ahead, blockLeft_of_end hend, ahead, blockLeft_refilled (s := readDelivery s more d.length) d hwf,
          List.flatten_cons, bytesBits_append, List.nil_append]
      block := .inr ⟨⟨[], d, rfl, rfl, Memory.slice_writeBytes d 0 hwf⟩, by rw [blockLeft_of_end hend]; exact Nat.zero_lt_one⟩
      beyond := fun i hi => Memory.read_writeBytes_other d _ 0 i
        (.inr (by rw [Nat.zero_add]; exact hchunk.length_le.trans hi))
      state := by simp [refilled, readDelivery] }

/-- The next bit is the first of those ahead. -/
theorem Ready.bit {b : Bool} {rest : List Bool} (h : Ready pos reads ds s) (hbits : ahead s ds = b :: rest) :
    ∃ t es, readBit s = .ok (some b) t ∧ Decoded pos reads s ds [b] [] t es ∧ ahead t es = rest ∧ t.dcur = s.dcur := by
  have of_some : ∀ {c t es}, readBit s = .ok (some c) t → Decoded pos reads s ds [c] [] t es → t.dcur = s.dcur →
      ∃ t es, readBit s = .ok (some b) t ∧ Decoded pos reads s ds [b] [] t es ∧ ahead t es = rest ∧ t.dcur = s.dcur := by
    intro c t es hread ht hdcur
    obtain ⟨rfl, hrest⟩ := List.cons.inj (ht.splits.symm.trans hbits)
    exact ⟨t, es, hread, ht, hrest, hdcur⟩
  rcases Nat.lt_or_eq_of_le h.cursor with hleft | hend
  · obtain ⟨hread, ht⟩ := h.bit_of_block hleft
    exact of_some hread ht rfl
  · cases ds with
    | nil =>
      rw [ahead, blockLeft_of_end hend] at hbits
      cases hbits
    | cons d ds =>
      obtain ⟨c, t, hread, ht, hdcur⟩ := h.bit_of_chunk hend
      exact of_some hread ht hdcur

end

end Sys2Proof.Machine
end

section
/-! The decode walk (46_framing R199, R203): it follows the bits ahead from the root to a leaf, or until they run out. -/

namespace Sys2Proof.Machine

open Sys2Proof

/-- From `s` these bits were read and the walk followed them, with no symbol written. -/
structure Walked (pos : Nat) (reads : List ReadAnswer) (s : State) (ds : List (List Byte)) (path : List Bool) (t : State)
    (es : List (List Byte)) : Prop extends Decoded pos reads s ds path [] t es where
  leads : follow s.nodes s.dcur path = some t.dcur

section

variable {pos : Nat} {reads : List ReadAnswer} {s t u : State} {ds es fs : List (List Byte)} {path more rest : List Bool}
  {l r : CodeTree} {a : Sym}

theorem Walked.trans (h : Walked pos reads s ds path t es) (k : Walked pos reads t es more u fs) :
    Walked pos reads s ds (path ++ more) u fs where
  toDecoded := h.toDecoded.trans k.toDecoded
  leads := by
    have hmore := k.leads
    rw [h.nodes] at hmore
    rw [follow_append, h.leads, Option.bind_some, hmore]

/-! ### One move -/

theorem decodeWalk_to_leaf {b : Bool} {nd : Node} {w : Word64} (f : Nat) (hread : readBit s = .ok (some b) t)
    (hnode : nodeAt t t.dcur = some nd) (hchild : nodeAt t (nd.child b) = some (.leaf a w)) :
    decodeWalk (f + 1) s = emitSym a { t with dcur := nd.child b } := by
  have hchild : nodeAt { t with dcur := nd.child b } (nd.child b) = some (.leaf a w) := hchild
  simp only [decodeWalk, hread, Res.bind_ok, hnode, hchild]

theorem decodeWalk_to_internal {b : Bool} {nd : Node} {w : Word64} {i j : NodeId} (f : Nat)
    (hread : readBit s = .ok (some b) t) (hnode : nodeAt t t.dcur = some nd)
    (hchild : nodeAt t (nd.child b) = some (.internal w i j)) :
    decodeWalk (f + 1) s = decodeWalk f { t with dcur := nd.child b } := by
  have hchild : nodeAt { t with dcur := nd.child b } (nd.child b) = some (.internal w i j) := hchild
  simp only [decodeWalk, hread, Res.bind_ok, hnode, hchild]

/-- The child on the side of a bit stands for the subtree on that side. -/
theorem represents_child {nodes : List Node} {n : NodeId} (h : Represents nodes n (.node l r)) (b : Bool) :
    ∃ nd, nodes[n.toNat]? = some nd ∧ Represents nodes (nd.child b) (if b then r else l)
      ∧ follow nodes n [b] = some (nd.child b) := by
  obtain ⟨w, i, j, hn, hl, hr⟩ := h
  refine ⟨_, hn, ?_, follow_cons b [] hn⟩
  cases b
  · exact hl
  · exact hr

/-- One bit ahead is one move: at a leaf its symbol is written, else the walk goes on. -/
theorem Ready.move {b : Bool} (h : Ready pos reads ds s) (htree : Represents s.nodes s.dcur (.node l r))
    (hbits : ahead s ds = b :: rest) :
    ∃ t es, Walked pos reads s ds [b] t es ∧ ahead t es = rest ∧ Represents t.nodes t.dcur (if b then r else l)
      ∧ (∀ f a w, nodeAt t t.dcur = some (.leaf a w) → decodeWalk (f + 1) s = emitSym a t)
      ∧ ∀ f w i j, nodeAt t t.dcur = some (.internal w i j) → decodeWalk (f + 1) s = decodeWalk f t := by
  obtain ⟨t, es, hread, ht, hrest, hdcur⟩ := h.bit hbits
  obtain ⟨nd, hnode, hchild, hleads⟩ := represents_child htree b
  rw [← ht.nodes] at hchild
  rw [← ht.nodes, ← hdcur] at hnode
  exact ⟨{ t with dcur := nd.child b }, es, ⟨ht.trans (ht.ready.moved _), hleads⟩, hrest, hchild,
    fun f _ _ => decodeWalk_to_leaf (t := t) f hread hnode,
    fun f _ _ _ => decodeWalk_to_internal (t := t) f hread hnode⟩

/-! ### The whole walk -/

/-- Over bits that decode to a symbol the walk comes to a leaf of that symbol. -/
theorem decodeWalk_lands (f : Nat) : ∀ {l r s ds}, Ready pos reads ds s → Represents s.nodes s.dcur (.node l r) →
    (CodeTree.node l r).decode (ahead s ds) = some (a, rest) → (ahead s ds).length ≤ f →
    ∃ path t es w, path ≠ [] ∧ decodeWalk f s = emitSym a t ∧ Walked pos reads s ds path t es ∧ ahead t es = rest
      ∧ nodeAt t t.dcur = some (.leaf a w) := by
  induction f with
  | zero =>
    intro l r s ds _ _ hdecode hf
    rw [List.length_eq_zero_iff.mp (Nat.le_zero.mp hf)] at hdecode
    cases hdecode
  | succ f ih =>
    intro l r s ds h htree hdecode hf
    cases hbits : ahead s ds with
    | nil =>
      rw [hbits] at hdecode
      cases hdecode
    | cons b behind =>
      rw [hbits] at hdecode hf
      obtain ⟨t, es, ht, hahead, hchild, hleaf, hinternal⟩ := h.move htree hbits
      have hdecode : (if b then r else l).decode behind = some (a, rest) := by cases b <;> exact hdecode
      cases hside : (if b then r else l) with
      | leaf c =>
        rw [hside] at hdecode hchild
        obtain ⟨rfl, rfl⟩ := Prod.mk.inj (Option.some.inj hdecode)
        obtain ⟨w, hnode⟩ := hchild
        exact ⟨[b], t, es, w, List.cons_ne_nil _ _, hleaf f c w hnode, ht, hahead, hnode⟩
      | node l' r' =>
        rw [hside] at hdecode hchild
        obtain ⟨w, i, j, hnode, -⟩ := id hchild
        rw [← hahead] at hdecode
        obtain ⟨path, u, fs, w', -, hwalk, hu, hrest, hland⟩ :=
          ih ht.ready hchild hdecode (by rw [hahead]; exact Nat.le_of_succ_le_succ hf)
        exact ⟨[b] ++ path, u, fs, w', List.cons_ne_nil _ _, (hinternal f w i j hnode).trans hwalk, ht.trans hu, hrest, hland⟩

/-- Over bits that decode to no symbol the walk uses them all up, and asks for one more. -/
theorem decodeWalk_runs_out (f : Nat) : ∀ {l r s ds}, Ready pos reads ds s → Represents s.nodes s.dcur (.node l r) →
    (CodeTree.node l r).decode (ahead s ds) = none → (ahead s ds).length < f →
    ∃ t g, decodeWalk f s = decodeWalk (g + 1) t ∧ Walked pos reads s ds (ahead s ds) t [] ∧ blockLeft t = [] := by
  induction f with
  | zero => exact fun _ _ _ hf => absurd hf (Nat.not_lt_zero _)
  | succ f ih =>
    intro l r s ds h htree hdecode hf
    cases hbits : ahead s ds with
    | nil =>
      obtain ⟨rfl, hblock⟩ := h.none_ahead hbits
      exact ⟨s, f, rfl, ⟨h.moved s.dcur, rfl⟩, hblock⟩
    | cons b behind =>
      rw [hbits] at hdecode hf
      obtain ⟨t, es, ht, hahead, hchild, -, hinternal⟩ := h.move htree hbits
      have hdecode : (if b then r else l).decode behind = none := by cases b <;> exact hdecode
      cases hside : (if b then r else l) with
      | leaf c =>
        rw [hside] at hdecode
        cases hdecode
      | node l' r' =>
        rw [hside] at hdecode hchild
        obtain ⟨w, i, j, hnode, -⟩ := id hchild
        rw [← hahead] at hdecode
        obtain ⟨u, g, hwalk, hu, hblock⟩ :=
          ih ht.ready hchild hdecode (by rw [hahead]; exact Nat.lt_of_succ_lt_succ hf)
        rw [hahead] at hu
        exact ⟨u, g, (hinternal f w i j hnode).trans hwalk, ht.trans hu, hblock⟩

/-! ### One symbol (R199) -/

theorem decodeOne_eq_walk (htree : Represents s.nodes s.root (.node l r)) :
    decodeOne s = decodeWalk (bitsLeft s + 1) { s with dcur := s.root } := by
  obtain ⟨w, i, j, hroot, -⟩ := htree
  have hroot : nodeAt s s.root = some (.internal w i j) := hroot
  rw [decodeOne, hroot]

theorem decodeOne_of_leaf (htree : Represents s.nodes s.root (.leaf a)) : decodeOne s = .raised .leafRoot 0#64 s := by
  obtain ⟨w, hroot⟩ := htree
  have hroot : nodeAt s s.root = some (.leaf a w) := hroot
  rw [decodeOne, hroot]

/-- From the root the bits ahead lead to a leaf. -/
theorem decodeOne_lands (h : Ready pos reads ds s) (htree : Represents s.nodes s.root (.node l r))
    (hdecode : (CodeTree.node l r).decode (ahead s ds) = some (a, rest)) :
    ∃ path t es w, path ≠ [] ∧ decodeOne s = emitSym a t ∧ Decoded pos reads s ds path [] t es ∧ ahead t es = rest
      ∧ follow s.nodes s.root path = some t.dcur ∧ nodeAt t t.dcur = some (.leaf a w) := by
  have hmoved := h.moved s.root
  obtain ⟨path, t, es, w, hne, hwalk, ht, hrest, hland⟩ := decodeWalk_lands (bitsLeft s + 1) hmoved.ready htree hdecode
    (h.ahead_le.trans (Nat.le_succ _))
  exact ⟨path, t, es, w, hne, (decodeOne_eq_walk htree).trans hwalk, hmoved.trans ht.toDecoded, hrest, ht.leads, hland⟩

/-- From the root the bits ahead run out inside the tree. -/
theorem decodeOne_runs_out (h : Ready pos reads ds s) (htree : Represents s.nodes s.root (.node l r))
    (hdecode : (CodeTree.node l r).decode (ahead s ds) = none) :
    ∃ t g, decodeOne s = decodeWalk (g + 1) t ∧ Decoded pos reads s ds (ahead s ds) [] t [] ∧ blockLeft t = []
      ∧ follow s.nodes s.root (ahead s ds) = some t.dcur := by
  have hmoved := h.moved s.root
  obtain ⟨t, g, hwalk, ht, hblock⟩ := decodeWalk_runs_out (bitsLeft s + 1) hmoved.ready htree hdecode
    (Nat.lt_succ_of_le h.ahead_le)
  exact ⟨t, g, (decodeOne_eq_walk htree).trans hwalk, hmoved.trans ht.toDecoded, hblock, ht.leads⟩

theorem decodeWalk_of_eos (f : Nat) (h : readBit s = .ok none t) :
    decodeWalk (f + 1) s = .raised .truncatedBody t.emitted t := by
  simp only [decodeWalk, h, Res.bind_ok]

theorem decodeWalk_of_raised {c : Cause} {info : Word64} (f : Nat) (h : readBit s = .raised c info t) :
    decodeWalk (f + 1) s = .raised c info t := by
  simp only [decodeWalk, h, Res.bind_raised]

/-- After end-of-stream the walk stops at the root. -/
theorem decodeOne_of_eos (htree : Represents s.nodes s.root (.node l r)) (heos : s.rEos = true) :
    decodeOne s = .raised .truncatedBody s.emitted { s with dcur := s.root } :=
  (decodeOne_eq_walk htree).trans (decodeWalk_of_eos _ (readBit_eos (s := { s with dcur := s.root }) heos))

/-- The state once the bits have run out at the end of the source (45_bit_channel R184). -/
def atEnd (s : State) : State :=
  { s with rLen := 0, rCursor := 0, rEos := true, env := { s.env with reads := s.env.reads.tail } }

/-- Bits that run out at the end of the source are a truncated body. -/
theorem decodeOne_truncated (h : Ready pos reads ds s) (htree : Represents s.nodes s.root (.node l r))
    (hdecode : (CodeTree.node l r).decode (ahead s ds) = none) (hasks : 1 ≤ s.params.blockBytes)
    (hend : s.env.src.length ≤ pos) (hreads : ∀ r ∈ reads, ∀ p, r ≠ .fail p) :
    ∃ t, decodeOne s = .raised .truncatedBody t.emitted (atEnd t) ∧ Decoded pos reads s ds (ahead s ds) [] t []
      ∧ t.env.spos = pos ∧ follow s.nodes s.root (ahead s ds) = some t.dcur := by
  obtain ⟨t, g, hwalk, ht, hblock, hleads⟩ := decodeOne_runs_out h htree hdecode
  obtain ⟨hpos, hans⟩ := ht.ready.brings
  have hp : t.params = s.params := by rw [ht.state]
  have hrest : srcRest t = [] := List.drop_eq_nil_of_le (by rw [ht.src, hpos]; exact hend)
  have hread := readBit_at_end ht.ready.running (ht.ready.block_end hblock) (hp ▸ hasks)
    (fun r hr => hreads r (hans ▸ hr)) hrest
  exact ⟨t, hwalk.trans (decodeWalk_of_eos g hread), ht, hpos, hleads⟩

/-- Bits that run out at a read that fails. -/
theorem decodeOne_refill_fails {p : Nat} {left : List ReadAnswer} (h : Ready pos (.fail p :: left) ds s)
    (htree : Represents s.nodes s.root (.node l r)) (hdecode : (CodeTree.node l r).decode (ahead s ds) = none) :
    ∃ t, decodeOne s = .raised .readFailed 0#64 (readFailure t p left)
      ∧ Decoded pos (.fail p :: left) s ds (ahead s ds) [] t [] ∧ t.rCursor = 8 * t.rLen
      ∧ follow s.nodes s.root (ahead s ds) = some t.dcur := by
  obtain ⟨t, g, hwalk, ht, hblock, hleads⟩ := decodeOne_runs_out h htree hdecode
  obtain ⟨-, hans⟩ := ht.ready.brings
  have hend := ht.ready.block_end hblock
  exact ⟨t, hwalk.trans (decodeWalk_of_raised g (readBit_refill_fails ht.ready.running hend hans)), ht, hend, hleads⟩

/-- The symbol come to is written and counted, and the walk is at the root again. -/
theorem decodeOne_writes (h : Ready pos reads ds s) (htree : Represents s.nodes s.root (.node l r))
    (hdecode : (CodeTree.node l r).decode (ahead s ds) = some (a, rest)) (hw : WriteAnswer.fail ∉ s.env.writes.take 1) :
    ∃ path t es, path ≠ [] ∧ decodeOne s = .ok a t ∧ Decoded pos reads s ds path [a] t es ∧ ahead t es = rest
      ∧ t.dcur = s.root := by
  obtain ⟨path, t, es, w, hne, hone, ht, hrest, -⟩ := decodeOne_lands h htree hdecode
  have htaken : WriteAnswer.fail ∉ t.env.writes.take 1 := by rwa [ht.writes]
  have hemit := Res.bind_of_ok (sinkWrite_taken [a] htaken) fun _ u =>
    Res.ok a { u with dcur := u.root, emitted := u.emitted + 1#64 }
  have hwritten := ht.trans (ht.ready.decoded t.root [a])
  rw [List.append_nil, List.nil_append, List.length_singleton, List.drop_one] at hwritten
  exact ⟨path, _, es, hne, hone.trans hemit, hwritten, hrest, ht.root⟩

/-- The state with these answers to the coming writes. -/
abbrev withWrites (s : State) (left : List WriteAnswer) : State := { s with env := { s.env with writes := left } }

/-- The symbol come to is not counted when its write fails, and the walk stays on its leaf. -/
theorem decodeOne_write_fails {left : List WriteAnswer} (h : Ready pos reads ds s)
    (htree : Represents s.nodes s.root (.node l r)) (hdecode : (CodeTree.node l r).decode (ahead s ds) = some (a, rest))
    (hw : s.env.writes = .fail :: left) :
    ∃ path t es w, decodeOne s = .raised .writeFailed 0#64 (withWrites t left)
      ∧ Decoded pos reads s ds path [] t es ∧ ahead t es = rest ∧ follow s.nodes s.root path = some t.dcur
      ∧ nodeAt t t.dcur = some (.leaf a w) := by
  obtain ⟨path, t, es, w, -, hone, ht, hrest, hleads, hland⟩ := decodeOne_lands h htree hdecode
  exact ⟨path, t, es, w, hone.trans (emitSym_fails a (ht.writes.trans hw)), ht, hrest, hleads, hland⟩

end

end Sys2Proof.Machine
end

section
/-! DEC_SYM and DEC_BODY (46_framing R199, R200): symbol after symbol is decoded and written, as long as the bits last and no
request fails. -/

namespace Sys2Proof.Machine

open Sys2Proof

/-! ### Several symbols (R200) -/

/-- Several walks are one and then the others. -/
theorem decodeMany_succ {t : CodeTree} {k : Nat} {bits last : List Bool} {out : List Sym}
    (h : t.decodeMany (k + 1) bits = some (out, last)) :
    ∃ a mid others, t.decode bits = some (a, mid) ∧ t.decodeMany k mid = some (others, last) ∧ out = a :: others := by
  rw [CodeTree.decodeMany] at h
  split at h
  · cases h
  · rename_i a mid hfirst
    split at h
    · cases h
    · rename_i others left hothers
      cases h
      exact ⟨a, mid, others, hfirst, hothers, rfl⟩

theorem decodeMany_length {t : CodeTree} (k : Nat) : ∀ {bits last : List Bool} {out : List Sym},
    t.decodeMany k bits = some (out, last) → out.length = k := by
  induction k with
  | zero =>
    intro bits last out h
    cases h
    rfl
  | succ k ih =>
    intro bits last out h
    obtain ⟨a, mid, others, -, hothers, rfl⟩ := decodeMany_succ h
    rw [List.length_cons, ih hothers]

section

variable {pos : Nat} {reads : List ReadAnswer} {s t u : State} {ds es : List (List Byte)} {bits path rest last : List Bool}
  {out : List Sym} {l r : CodeTree} {a : Sym} {k : Nat}

theorem Decoded.tree {T : CodeTree} (h : Decoded pos reads s ds bits out t es) (htree : Represents s.nodes s.root T) :
    Represents t.nodes t.root T := by rwa [h.nodes, h.root]

theorem decodeLoop_done (f n : Nat) (h : s.fileSize.toNat ≤ s.emitted.toNat) : decodeLoop f n s = .ok n s := by
  have hnone : ¬ s.emitted < s.fileSize := Nat.not_lt.mpr h
  cases f <;> exact if_neg hnone

theorem decodeLoop_of_owed (f n : Nat) (h : s.emitted.toNat < s.fileSize.toNat) :
    decodeLoop (f + 1) n s = (decodeOne s).bind fun _ t => decodeLoop f (n + 1) t := if_pos h

/-- Symbols ahead that are owed are decoded and written, one round of the loop and at least one bit for each. -/
theorem decodeLoop_writes (k : Nat) : ∀ {s ds out last}, Ready pos reads ds s → Represents s.nodes s.root (.node l r) →
    (CodeTree.node l r).decodeMany k (ahead s ds) = some (out, last) → WriteAnswer.fail ∉ s.env.writes.take k →
    s.emitted.toNat + k ≤ s.fileSize.toNat →
    ∃ path t es, Decoded pos reads s ds path out t es ∧ ahead t es = last ∧ k ≤ path.length
      ∧ t.dcur = (if k = 0 then s.dcur else s.root) ∧ ∀ f n, decodeLoop (f + k) n s = decodeLoop f (n + k) t := by
  induction k with
  | zero =>
    intro s ds out last h _ hmany _ _
    cases hmany
    exact ⟨[], s, ds, h.moved s.dcur, rfl, Nat.le_refl 0, rfl, fun _ _ => rfl⟩
  | succ k ih =>
    intro s ds out last h htree hmany hw hfit
    obtain ⟨a, mid, others, hfirst, hothers, rfl⟩ := decodeMany_succ hmany
    obtain ⟨path, t, es, hne, hone, ht, rfl, hdcur⟩ := decodeOne_writes h htree hfirst
      fun hfail => hw (List.take_subset_take_left _ (by omega) hfail)
    have hcount : t.emitted.toNat = s.emitted.toNat + 1 := by
      rw [ht.emitted]
      exact toNat_add_ofNat (k := 1) (by have := s.fileSize.isLt; omega)
    have hwt : WriteAnswer.fail ∉ t.env.writes.take k := by
      rw [ht.writes, List.length_singleton, List.take_drop, Nat.add_comm]
      exact fun hfail => hw (List.mem_of_mem_drop hfail)
    obtain ⟨path', u, fs, hu, hlast, hlong, hroot, hloop⟩ :=
      ih ht.ready (ht.tree htree) hothers hwt (by rw [hcount, ht.fileSize]; omega)
    have hpos := List.length_pos_iff.mpr hne
    refine ⟨path ++ path', u, fs, ht.trans hu, hlast, by rw [List.length_append]; omega, ?_, fun f n => ?_⟩
    · rw [hroot, hdcur, ht.root, ite_self, if_neg (Nat.succ_ne_zero k)]
    · rw [← Nat.add_assoc, decodeLoop_of_owed _ _ (by omega), hone, Res.bind_ok, hloop, Nat.add_assoc, Nat.add_comm 1]

/-! ### The rules (R199, R200) -/

theorem decSym_of_tree (hroot : s.root ≠ nil) :
    ruleOf .decSym s = (decodeOne s).bind fun a t => answerOk (a.setWidth 64) t := if_neg hroot

theorem decodeBody_of_tree (hroot : s.root ≠ nil) :
    decodeBody s = (decodeLoop (bitsLeft s + 1) 0 s).bind fun n t => answerOk (BitVec.ofNat 64 n) t := if_neg hroot

theorem decodeBody_of_raised {c : Cause} {info : Word64} (hroot : s.root ≠ nil)
    (howed : s.emitted.toNat < s.fileSize.toNat) (h : decodeOne s = .raised c info t) :
    decodeBody s = .raised c info t := by
  rw [decodeBody_of_tree hroot, decodeLoop_of_owed _ _ howed, h, Res.bind_raised, Res.bind_raised]

/-- `DEC_BODY` writes the symbols ahead that are owed; then it ends, or raises as the next symbol does. -/
theorem decodeBody_goes_on (h : Ready pos reads ds s) (hroot : s.root ≠ nil)
    (htree : Represents s.nodes s.root (.node l r)) (hmany : (CodeTree.node l r).decodeMany k (ahead s ds) = some (out, last))
    (hw : WriteAnswer.fail ∉ s.env.writes.take k) (hfit : s.emitted.toNat + k ≤ s.fileSize.toNat) :
    ∃ path t es, Decoded pos reads s ds path out t es ∧ ahead t es = last
      ∧ t.dcur = (if k = 0 then s.dcur else s.root)
      ∧ (s.emitted.toNat + k = s.fileSize.toNat → decodeBody s = answerOk (BitVec.ofNat 64 k) t)
      ∧ ∀ c info u, s.emitted.toNat + k < s.fileSize.toNat → decodeOne t = .raised c info u →
          decodeBody s = .raised c info u := by
  obtain ⟨path, t, es, ht, hlast, hlong, hdcur, hloop⟩ := decodeLoop_writes k h htree hmany hw hfit
  have hcount : t.emitted.toNat = s.emitted.toNat + k := by
    rw [ht.emitted, decodeMany_length k hmany]
    exact toNat_add_ofNat (by have := s.fileSize.isLt; omega)
  have hbound : k ≤ bitsLeft s := by
    have hlen := congrArg List.length ht.splits
    have hahead := h.ahead_le
    rw [List.length_append] at hlen
    omega
  have hbody : decodeBody s = (decodeLoop (bitsLeft s - k + 1) k t).bind fun n t => answerOk (BitVec.ofNat 64 n) t := by
    rw [decodeBody_of_tree hroot, show bitsLeft s + 1 = bitsLeft s - k + 1 + k by omega, hloop, Nat.zero_add]
  refine ⟨path, t, es, ht, hlast, hdcur, fun hdone => ?_, fun c info u howed hone => ?_⟩
  · rw [hbody, decodeLoop_done _ _ (by rw [ht.fileSize]; omega), Res.bind_ok]
  · rw [hbody, decodeLoop_of_owed _ _ (by rw [ht.fileSize]; omega), hone, Res.bind_raised, Res.bind_raised]

/-! ### The states reached -/

/-- With no chunk to come only the bits of the block are read. -/
theorem ready_over_block (hcursors : CursorInv s) (heos : s.rEos = false) : Ready s.env.spos s.env.reads [] s := by
  obtain ⟨-, -, -, -, hfits, hcursor, -⟩ := hcursors
  exact ⟨heos, fun hne => absurd rfl hne, hfits, hcursor, rfl, rfl⟩

/-- When no prepared read fails, all that is unread is ahead. -/
theorem exists_ready_over_source (hcursors : CursorInv s) (heos : s.rEos = false) (hwf : s.rbuf.wf) (hdel : ReadsDeliver s) :
    ∃ reads ds, Ready s.env.src.length reads ds s ∧ ahead s ds = unreadBits s ∧ ∀ r ∈ reads, ∀ p, r ≠ .fail p := by
  obtain ⟨⟨hasks, -⟩, -, -, -, hfits, hcursor, -, hsrc⟩ := hcursors
  obtain ⟨reads, ds, hbrings, -, hreads⟩ := exists_brings_all _ rfl hasks hdel
  rw [srcLeft_end hsrc] at hbrings
  have hready : Ready s.env.src.length reads ds s := ⟨heos, fun _ => hwf, hfits, hcursor, hbrings⟩
  exact ⟨reads, ds, hready, hready.ahead_eq (Nat.le_refl _), hreads⟩

theorem ahead_nil (s : State) : ahead s [] = blockLeft s := List.append_nil _

/-- The bits read are those ahead before and no longer after. -/
theorem Decoded.count (h : Decoded pos reads s ds bits out t es) :
    bits.length = (ahead s ds).length - (ahead t es).length := by
  rw [h.splits, List.length_append, Nat.add_sub_cancel]

theorem Decoded.unread (h : Decoded s.env.src.length reads s ds bits out t es) : ahead t es = unreadBits t :=
  h.ready.ahead_eq (Nat.le_of_eq (congrArg List.length h.src))

/-- While the block holds the bits, there is no request to the source. -/
theorem Decoded.block_kept (h : Decoded pos reads s ds bits out t es) (hfew : bits.length ≤ 8 * s.rLen - s.rCursor) :
    t.rbuf = s.rbuf ∧ t.env.spos = s.env.spos := by
  obtain ⟨-, hsame⟩ := h.inside (by rwa [blockLeft_length])
  exact ⟨hsame.rbuf, hsame.spos⟩

/-- What is read over the block alone moves its cursor and no more of the reader. -/
theorem Decoded.state_of_block (h : Decoded pos reads s [] bits out t es) (hcursor : s.rCursor ≤ 8 * s.rLen) :
    es = [] ∧ t = { s with
      rCursor := s.rCursor + bits.length
      rTotal := s.rTotal + BitVec.ofNat 64 bits.length
      dcur := t.dcur
      emitted := s.emitted + BitVec.ofNat 64 out.length
      env := { s.env with
        sink := s.env.sink ++ out.map fun a => [a], writes := s.env.writes.drop out.length } } := by
  have hlen := congrArg List.length h.splits
  obtain ⟨rfl, hsame⟩ := h.inside (by rw [← ahead_nil, hlen, List.length_append]; exact Nat.le_add_right _ _)
  have hmoved : t.rCursor = s.rCursor + bits.length := by
    have hbound := h.ready.cursor
    rw [ahead_nil, ahead_nil, List.length_append, blockLeft_length, blockLeft_length, hsame.rLen] at hlen
    rw [hsame.rLen] at hbound
    omega
  have hstate := h.state
  rw [hsame.rbuf, hsame.rLen, hsame.spos, hsame.reads, hmoved] at hstate
  exact ⟨rfl, hstate⟩

/-- The state once the bits have run out at the end of the source. -/
theorem Decoded.atEnd_eq (h : Decoded pos reads s ds bits out t es) (hspos : t.env.spos = s.env.src.length) :
    atEnd t = { s with
      rbuf := t.rbuf
      rLen := 0
      rCursor := 0
      rTotal := s.rTotal + BitVec.ofNat 64 bits.length
      rEos := true
      dcur := t.dcur
      emitted := s.emitted + BitVec.ofNat 64 out.length
      env := { s.env with
        spos := s.env.src.length
        sink := s.env.sink ++ out.map fun a => [a]
        reads := t.env.reads.tail
        writes := s.env.writes.drop out.length } } := by
  have hstate := congrArg atEnd h.state
  rw [hspos] at hstate
  exact hstate

end

end Sys2Proof.Machine
end

section
/-! DEC_SYM and DEC_BODY while requests succeed (46_framing R199, R200, R203): over the block alone, over the whole source, and
when the bits run out. -/

namespace Sys2Proof.Machine

open Sys2Proof

section

variable {s t : State} {a : Sym} {c : Cause} {info : Word64}

theorem exec_decSym_of_ok (hf : s.fault = false) (hroot : s.root ≠ nil) (h : decodeOne s = .ok a t) :
    exec .decSym s = .next (t.respond .ok (a.setWidth 64)) :=
  exec_of_ok (i := .decSym) hf rfl ((decSym_of_tree hroot).trans (Res.bind_of_ok h _))

theorem exec_decSym_of_raised (hf : s.fault = false) (hroot : s.root ≠ nil) (h : decodeOne s = .raised c info t) :
    exec .decSym s = .next (t.raiseError 0x64#8 c info) :=
  exec_of_raised (i := .decSym) hf rfl ((decSym_of_tree hroot).trans (Res.bind_of_raised h _))

theorem exec_decBody_of_raised (hf : s.fault = false) (h : decodeBody s = .raised c info t) :
    exec .decBody s = .next (t.raiseError 0x65#8 c info) := exec_of_raised (i := .decBody) hf rfl h

end

/-- Settles O57: the walk lands on a leaf of the symbol that the bits ahead decode to, or uses them all up. -/
theorem decSymDecodesOneSymbol : Obligations.DecSymDecodesOneSymbol := by
  refine fun s hf => ⟨fun hnone => exec_of_ok (i := .decSym) hf rfl (if_pos hnone),
    fun a hroot htree => exec_decSym_of_raised hf hroot (decodeOne_of_leaf htree),
    fun l r hroot htree heos => exec_decSym_of_raised hf hroot (decodeOne_of_eos htree heos),
    fun l r a rest hroot htree hcursors heos hw hdecode => ?_, fun l r hroot htree hcursors heos hwf hdel => ?_⟩
  · obtain ⟨-, -, -, -, -, hcursor, -⟩ := id hcursors
    rw [← ahead_nil] at hdecode
    obtain ⟨path, t, es, -, hone, ht, hrest, hdcur⟩ := decodeOne_writes (ready_over_block hcursors heos) htree hdecode
      fun hfail => hw (List.mem_of_mem_take hfail)
    obtain ⟨rfl, hstate⟩ := ht.state_of_block hcursor
    have hcount := ht.count
    rw [hrest, ahead_nil] at hcount
    rw [hdcur, hcount, List.length_singleton, List.drop_one] at hstate
    exact (exec_decSym_of_ok hf hroot hone).trans (congrArg (fun u => Host.Outcome.next (State.respond u .ok _)) hstate)
  · obtain ⟨reads, ds, hready, hahead, hreads⟩ := exists_ready_over_source hcursors heos hwf hdel
    obtain ⟨⟨hasks, -⟩, -⟩ := hcursors
    rw [← hahead]
    refine ⟨fun hw a rest hdecode => ?_, fun hdecode => ?_⟩
    · obtain ⟨path, t, es, -, hone, ht, hrest, hdcur⟩ := decodeOne_writes hready htree hdecode
        fun hfail => hw (List.mem_of_mem_take hfail)
      have hcount := ht.count
      have hstate := ht.state
      rw [hrest] at hcount
      rw [hdcur, hcount, List.length_singleton, List.drop_one] at hstate
      refine ⟨_, exec_decSym_of_ok hf hroot hone, ht.unread.symm.trans hrest,
        fun hfew => ht.block_kept (hcount ▸ hfew), ht.beyond, congrArg (fun u => State.respond u .ok _) hstate⟩
    · obtain ⟨t, hone, ht, hspos, hleads⟩ := decodeOne_truncated hready htree hdecode hasks (Nat.le_refl _) hreads
      have hstate := ht.atEnd_eq hspos
      rw [ht.emitted] at hone
      simp only [List.length_nil, List.map_nil, List.append_nil, List.drop_zero, BitVec.add_zero] at hstate hone
      exact ⟨_, exec_decSym_of_raised hf hroot hone, hleads, ht.beyond,
        congrArg (fun u => State.raiseError u 0x64#8 .truncatedBody s.emitted) hstate⟩

/-- What is owed, once it is counted, is `FILE_SIZE`. -/
theorem emitted_add_owed {x y : Word64} (h : x.toNat ≤ y.toNat) : x + BitVec.ofNat 64 (y.toNat - x.toNat) = y := by
  refine BitVec.eq_of_toNat_eq ?_
  have hy := y.isLt
  rw [toNat_add_ofNat (by omega)]
  omega

/-- Settles O58: the symbols ahead are decoded and written until none is owed, or until the bits run out in one more walk. -/
theorem decBodyDecodesWhatIsOwed : Obligations.DecBodyDecodesWhatIsOwed := by
  refine fun s hf => ⟨fun hnone => exec_of_ok (i := .decBody) hf rfl (if_pos hnone), fun hroot hdone => ?_,
    fun a hroot htree howed => exec_decBody_of_raised hf (decodeBody_of_raised hroot howed (decodeOne_of_leaf htree)),
    fun l r hroot htree howed heos =>
      exec_decBody_of_raised hf (decodeBody_of_raised hroot howed (decodeOne_of_eos htree heos)),
    fun l r out rest hroot htree hcursors heos hw howed hmany => ?_,
    fun l r hroot htree hcursors heos hwf hdel hw howed => ?_⟩
  · exact exec_of_ok (i := .decBody) hf rfl
      ((decodeBody_of_tree hroot).trans (Res.bind_of_ok (decodeLoop_done _ 0 hdone) _))
  · obtain ⟨-, -, -, -, -, hcursor, -⟩ := id hcursors
    rw [← ahead_nil] at hmany
    obtain ⟨path, t, es, ht, hrest, hdcur, hdone, -⟩ := decodeBody_goes_on (ready_over_block hcursors heos) hroot htree hmany
      (fun hfail => hw (List.mem_of_mem_take hfail)) (by omega)
    obtain ⟨rfl, hstate⟩ := ht.state_of_block hcursor
    have hcount := ht.count
    rw [hrest, ahead_nil] at hcount
    rw [if_neg (by omega)] at hdcur
    have hemitted : s.emitted + BitVec.ofNat 64 out.length = s.fileSize := by
      rw [decodeMany_length _ hmany, emitted_add_owed (Nat.le_of_lt howed)]
    rw [hdcur, hcount, hemitted] at hstate
    exact (exec_of_ok (i := .decBody) hf rfl (hdone (by omega))).trans
      (congrArg (fun u => Host.Outcome.next (State.respond u .ok _)) hstate)
  · obtain ⟨reads, ds, hready, hahead, hreads⟩ := exists_ready_over_source hcursors heos hwf hdel
    obtain ⟨⟨hasks, -⟩, -⟩ := hcursors
    rw [← hahead]
    refine ⟨fun out rest hmany => ?_, fun k out rest hk hmany hdecode => ?_⟩
    · obtain ⟨path, t, es, ht, hrest, hdcur, hdone, -⟩ := decodeBody_goes_on hready hroot htree hmany
        (fun hfail => hw (List.mem_of_mem_take hfail)) (by omega)
      have hcount := ht.count
      have hstate := ht.state
      have hemitted : s.emitted + BitVec.ofNat 64 out.length = s.fileSize := by
        rw [decodeMany_length _ hmany, emitted_add_owed (Nat.le_of_lt howed)]
      rw [hrest] at hcount
      rw [if_neg (by omega)] at hdcur
      rw [hdcur, hcount, hemitted] at hstate
      refine ⟨_, exec_of_ok (i := .decBody) hf rfl (hdone (by omega)), ht.unread.symm.trans hrest,
        fun hfew => ht.block_kept (hcount ▸ hfew), ht.beyond, congrArg (fun u => State.respond u .ok _) hstate⟩
    · obtain ⟨path, t, es, ht, rfl, -, -, hraise⟩ := decodeBody_goes_on hready hroot htree hmany
        (fun hfail => hw (List.mem_of_mem_take hfail)) (by omega)
      have hlen := decodeMany_length _ hmany
      have hp : t.params = s.params := by rw [ht.state]
      obtain ⟨u, hone, hu, hspos, hleads⟩ := decodeOne_truncated ht.ready (ht.tree htree) hdecode (hp ▸ hasks)
        (Nat.le_of_eq (congrArg List.length ht.src)) hreads
      have hall := ht.trans hu
      have hstate := hall.atEnd_eq hspos
      rw [← ht.splits, List.append_nil, hlen] at hstate
      rw [hall.emitted, List.append_nil, hlen] at hone
      rw [ht.nodes, ht.root] at hleads
      exact ⟨_, exec_decBody_of_raised hf (hraise _ _ _ (by omega) hone), hleads, hall.beyond,
        congrArg (fun u => State.raiseError u 0x65#8 .truncatedBody (s.emitted + BitVec.ofNat 64 k)) hstate⟩

end Sys2Proof.Machine
end

section
/-! DEC_SYM and DEC_BODY when a request fails (46_framing R199, R200): the symbols before are written and counted, and the walk
stays where it is. -/

namespace Sys2Proof.Machine

open Sys2Proof

section

variable {pos p : Nat} {reads left : List ReadAnswer} {s t : State} {ds es : List (List Byte)} {bits : List Bool}
  {out : List Sym}

/-! ### A refill that fails (45_bit_channel R184) -/

/-- The reader before a read that fails has the bytes of the deliveries ahead, chunk by chunk. -/
theorem exists_ready_before_failure {ks : List Nat} (hcursors : CursorInv s) (heos : s.rEos = false) (hwf : s.rbuf.wf)
    (hr : ReadsFailAfter s ks p left) (heach : EachDelivers s.params.blockBytes (srcRest s).length ks) :
    ∃ stop ds, Ready stop (.fail p :: left) ds s ∧ ahead s ds = blockLeft s ++ bytesBits (bytesBefore s ks)
      ∧ ds.flatten = bytesBefore s ks ∧ ds.length = ks.length
      ∧ ds.dropLast.flatten.length = delivered s.params.blockBytes (srcRest s).length ks.dropLast := by
  obtain ⟨⟨hasks, -⟩, -, -, -, hfits, hcursor, -⟩ := hcursors
  obtain ⟨stop, ds, hbrings, hflat, hchunks⟩ := exists_brings_before_failure ks hasks hr heach
  exact ⟨stop, ds, ⟨heos, fun _ => hwf, hfits, hcursor, hbrings⟩, by rw [ahead, hflat], hflat, hchunks⟩

/-- The block before the failing read is that of the delivery before it, or untouched when there was none. -/
theorem Decoded.block_of_deliveries {ks : List Nat} {got : List Byte} {m : Nat} (h : Decoded pos reads s ds bits out t [])
    (hflat : ds.flatten = got) (hcount : ds.length = ks.length) (hlast : ds.dropLast.flatten.length = m) :
    if ks = [] then t.rbuf = s.rbuf ∧ t.rLen = s.rLen
    else t.rLen = got.length - m ∧ t.rbuf.slice 0 t.rLen = got.drop (got.length - t.rLen) := by
  rcases h.block with ⟨rfl, hsame⟩ | ⟨⟨before, d, rfl, hlen, hslice⟩, -⟩
  · rw [if_pos (List.length_eq_zero_iff.mp hcount.symm)]
    exact ⟨hsame.rbuf, hsame.rLen⟩
  · have hne : ks ≠ [] := fun hnil => by simp [hnil] at hcount
    rw [List.dropLast_concat] at hlast
    rw [List.flatten_append, List.flatten_singleton] at hflat
    rw [if_neg hne, hlen, ← hflat, ← hlast, List.length_append, Nat.add_sub_cancel_left, Nat.add_sub_cancel, List.drop_left]
    exact ⟨rfl, hslice⟩

/-- The state once a refill has failed. -/
theorem Decoded.readFailure_eq (h : Decoded pos reads s ds bits out t es) (hend : t.rCursor = 8 * t.rLen) (p : Nat)
    (left : List ReadAnswer) :
    readFailure t p left = { s with
      rbuf := t.rbuf
      rLen := t.rLen
      rCursor := 8 * t.rLen
      rTotal := s.rTotal + BitVec.ofNat 64 bits.length
      dcur := t.dcur
      emitted := s.emitted + BitVec.ofNat 64 out.length
      env := { s.env with
        spos := min p s.env.src.length
        sink := s.env.sink ++ out.map fun a => [a]
        reads := left
        writes := s.env.writes.drop out.length } } := by
  have hstate := congrArg (fun u => readFailure u p left) h.state
  rw [hend] at hstate
  exact hstate

/-! ### A symbol write that fails (R199) -/

/-- The state once a symbol's write has failed. -/
theorem Decoded.withWrites_eq (h : Decoded pos reads s ds bits out t es) (left : List WriteAnswer) :
    withWrites t left = { s with
      rbuf := t.rbuf
      rLen := t.rLen
      rCursor := t.rCursor
      rTotal := s.rTotal + BitVec.ofNat 64 bits.length
      dcur := t.dcur
      emitted := s.emitted + BitVec.ofNat 64 out.length
      env := { s.env with
        spos := t.env.spos
        sink := s.env.sink ++ out.map fun a => [a]
        reads := t.env.reads
        writes := left } } := congrArg (fun u => withWrites u left) h.state

/-- Before the write that fails, writes are taken. -/
theorem writesTaken_of_failAfter {k : Nat} {more : List WriteAnswer} (hw : WritesFailAfter s k more) :
    WriteAnswer.fail ∉ s.env.writes.take k := by
  rw [hw, List.take_left' (List.length_replicate ..)]
  exact fun hfail => WriteAnswer.noConfusion (List.eq_of_mem_replicate hfail)

end

/-- Settles O60: a walk that comes to a failing request is behind the symbols before it, which it leaves written and counted. -/
theorem decoderFailuresKeepTheWalk : Obligations.DecoderFailuresKeepTheWalk := by
  intro s l r hf hroot htree hcursors heos hwf tree owed
  refine ⟨fun ks pos rest hr heach hw => ?_, fun k more hw hdel => ?_⟩
  · intro got bits refillFails
    obtain ⟨stop, ds, hready, hahead, hflat, hcount, hlast⟩ := exists_ready_before_failure hcursors heos hwf hr heach
    have fails : ∀ {i op out last t}, exec i s = .next ((readFailure t pos rest).raiseError op .readFailed 0#64) →
        Decoded stop (.fail pos :: rest) s ds bits out t [] → t.rCursor = 8 * t.rLen →
        follow s.nodes s.root last = some t.dcur → refillFails i op out last := by
      intro i op out last t hexec ht hend hleads
      rw [ht.readFailure_eq hend] at hexec
      exact ⟨_, hexec, hleads, ht.block_of_deliveries hflat hcount hlast, ht.beyond, rfl⟩
    have hbits : ahead s ds = bits := hahead
    refine ⟨fun hdecode => ?_, fun k out last hk hmany hdecode => ?_⟩
    · obtain ⟨t, hone, ht, hend, hleads⟩ := decodeOne_refill_fails hready htree (hbits ▸ hdecode)
      rw [hbits] at ht hleads
      exact fails (exec_decSym_of_raised hf hroot hone) ht hend hleads
    · rw [← hbits] at hmany
      obtain ⟨path, t, es, ht, rfl, -, -, hraise⟩ := decodeBody_goes_on hready hroot htree hmany
        (fun hfail => hw (List.mem_of_mem_take hfail)) (by omega)
      obtain ⟨u, hone, hu, hend, hleads⟩ := decodeOne_refill_fails ht.ready (ht.tree htree) hdecode
      have hall := ht.trans hu
      rw [← ht.splits, hbits, List.append_nil] at hall
      rw [ht.nodes, ht.root] at hleads
      exact fails (exec_decBody_of_raised hf (hraise _ _ _ (by omega) hone)) hall hend hleads
  · intro writeFails
    obtain ⟨reads, ds, hready, hahead, -⟩ := exists_ready_over_source hcursors heos hwf hdel
    have fails : ∀ {i op out path t es last a w rest},
        exec i s = .next ((withWrites t more).raiseError op .writeFailed 0#64) →
        Decoded s.env.src.length reads s ds path out t es → ahead t es = rest →
        follow s.nodes s.root (last.take (last.length - rest.length)) = some t.dcur →
        nodeAt t t.dcur = some (.leaf a w) → writeFails i op out last a rest := by
      intro i op out path t es last a w rest hexec ht hrest hleads hland
      have hcount := ht.count
      rw [hrest, hahead] at hcount
      have hunread : unreadBits (withWrites t more) = rest := ht.unread.symm.trans hrest
      rw [ht.withWrites_eq more, hcount] at hexec hunread
      rw [nodeAt, ht.nodes] at hland
      exact ⟨_, w, hexec, hunread, hleads, hland, fun hfew => ht.block_kept (hcount ▸ hfew), ht.beyond, rfl⟩
    have behind : ∀ {path rest : List Bool}, (path ++ rest).take ((path ++ rest).length - rest.length) = path :=
      List.take_left' (by rw [List.length_append, Nat.add_sub_cancel])
    rw [← hahead]
    refine ⟨fun a rest hk hdecode => ?_, fun out last a rest hk hmany hdecode => ?_⟩
    · subst hk
      obtain ⟨path, t, es, w, hone, ht, rfl, hleads, hland⟩ := decodeOne_write_fails hready htree hdecode hw
      refine fails (exec_decSym_of_raised hf hroot hone) ht rfl ?_ hland
      rw [ht.splits, behind, hleads]
    · obtain ⟨path, t, es, ht, rfl, -, -, hraise⟩ := decodeBody_goes_on hready hroot htree hmany
        (writesTaken_of_failAfter hw) (by omega)
      have hwt : t.env.writes = .fail :: more := by
        rw [ht.writes, decodeMany_length k hmany, hw, List.drop_left' (List.length_replicate ..)]
      obtain ⟨path', u, fs, w, hone, hu, rfl, hleads, hland⟩ := decodeOne_write_fails ht.ready (ht.tree htree) hdecode hwt
      have hall := ht.trans hu
      rw [List.append_nil] at hall
      rw [ht.nodes, ht.root] at hleads
      refine fails (exec_decBody_of_raised hf (hraise _ _ _ (by omega) hone)) hall rfl ?_ hland
      rw [hu.splits, behind, hleads]

end Sys2Proof.Machine
end

section
/-! Raising and the FAULT state (60_exceptions R215, R216, R222 to R225): the statuses with which a rule may end, the one way into
FAULT, the nine commands that run in it, and the two resets that leave it. -/

namespace Sys2Proof.Machine

open Sys2Proof

/-! ### The statuses of a rule that ends well (R215) -/

/-- The statuses that are neither a raise nor the refusal of the FAULT gate. -/
def plainStatuses : List Status := [.ok, .fail, .eos, .illegal]

/-- A rule that ends well answers one of the plain statuses. -/
def Res.Plain (r : Res Response) : Prop := r.Ends (fun a _ => a.status ∈ plainStatuses) fun _ => True

theorem answerOk_plain (v : Word64) (s : State) : (answerOk v s).Plain := List.mem_cons_self

theorem answerFail_plain (s : State) : (answerFail s).Plain := List.mem_cons_of_mem _ List.mem_cons_self

theorem answerEos_plain (s : State) : (Res.ok ⟨.eos, 0#64⟩ s).Plain := by
  show Status.eos ∈ plainStatuses
  decide

theorem answerIllegal_plain (s : State) : (answerIllegal s).Plain := by
  show Status.illegal ∈ plainStatuses
  decide

theorem raised_plain (c : Cause) (info : Word64) (s : State) : (Res.raised (α := Response) c info s).Plain := trivial

theorem stuck_plain (f : Fault) : (Res.stuck (α := Response) f).Plain := trivial

theorem Res.plain_ite {c : Prop} [Decidable c] {r r' : Res Response} (h : r.Plain) (h' : r'.Plain) :
    (if c then r else r').Plain := by
  split
  · exact h
  · exact h'

theorem Res.plain_bind {α : Type} {k : α → State → Res Response} (r : Res α) (hk : ∀ v t, (k v t).Plain) :
    (r.bind k).Plain := by
  cases r with
  | ok v t => exact hk v t
  | raised c info t => exact raised_plain c info t
  | stuck f => exact stuck_plain f

theorem Res.plain_bind_ok {α : Type} (r : Res α) (v : α → State → Word64) (u : α → State → State) :
    (r.bind fun a t => answerOk (v a t) (u a t)).Plain :=
  Res.plain_bind r fun _ _ => answerOk_plain _ _

theorem rebuildTree_plain (s : State) : (rebuildTree s).Plain := by
  refine Res.plain_bind _ fun _ t => ?_
  split
  · exact answerOk_plain _ _
  · exact raised_plain _ _ _

/-- No rule answers `FAULTED` or the status of a raise. -/
theorem ruleOf_plain (i : Instr) (s : State) : (ruleOf i s).Plain := by
  cases i with
  | nop | sessionReset | qCreate v | ftClr | ftSet a v | ftGet a | ftPad | treeFree | ctLen a | ctWord a k | tbufWr b v =>
    exact answerOk_plain _ _
  | rdreg a | wrreg a v =>
    simp only [ruleOf]
    split
    · exact answerOk_plain _ _
    · exact answerIllegal_plain s
  | nodeGet v | nodeWeight v =>
    simp only [ruleOf]
    split
    · exact answerFail_plain s
    · exact answerOk_plain _ _
  | tbufRd v => exact Res.plain_ite (answerFail_plain s) (answerOk_plain _ _)
  | nodeLeaf a w | ftInc a | ftScan | hdrPut | srcRewind => exact Res.plain_bind_ok _ _ _
  | qInsert v | qExtract | ctGen | tcDump | encBody | decSym | decBody =>
    exact Res.plain_ite (answerFail_plain s) (Res.plain_bind_ok _ _ _)
  | tbBuild =>
    exact Res.plain_ite (answerFail_plain s)
      (Res.plain_bind _ fun _ _ => Res.plain_bind _ fun _ _ => Res.plain_bind_ok _ _ _)
  | tcRebuild => exact rebuildTree_plain s
  | tcLoad =>
    exact Res.plain_ite (raised_plain _ _ s)
      (Res.plain_bind _ fun _ _ => Res.plain_ite (raised_plain _ _ _) (answerOk_plain _ _))
  | tcStore =>
    exact Res.plain_ite (stuck_plain _) (Res.plain_ite (answerOk_plain _ _) (Res.plain_bind_ok _ _ _))
  | wrSym a =>
    exact Res.plain_ite (answerFail_plain s) (Res.plain_ite (answerFail_plain s) (Res.plain_bind_ok _ _ _))
  | wrFinal =>
    exact Res.plain_ite (answerFail_plain s)
      (Res.plain_ite (stuck_plain _) (Res.plain_ite (answerOk_plain _ _) (Res.plain_bind_ok _ _ _)))
  | rdBit =>
    refine Res.plain_bind _ fun b t => ?_
    cases b with
    | none => exact answerEos_plain t
    | some b => exact answerOk_plain _ _
  | hdrGet =>
    exact Res.plain_bind _ fun _ _ =>
      Res.plain_ite (raised_plain _ _ _) (Res.plain_ite (raised_plain _ _ _) (answerOk_plain _ _))

/-! ### The one way into FAULT (R222) -/

/-- SESSION_RESET alone writes the error record other than by raising. -/
theorem errors_not_mem_writes {i : Instr} (h : i ≠ .sessionReset) : .errors ∉ writes i := by
  cases i with
  | sessionReset => exact absurd rfl h
  | _ => simp [writes]

/-- In RUN a rule that ends well leaves FAULT clear, and the error record alone unless it is SESSION_RESET's. -/
theorem ruleOf_endsInRun (i : Instr) {s : State} (hf : s.fault = false) :
    (ruleOf i s).Ends (fun a u => a.status ∈ plainStatuses ∧ u.fault = false ∧ (i ≠ .sessionReset → Unchanged s u .errors))
      fun _ => True := by
  by_cases hi : i = .sessionReset
  · subst hi
    exact ⟨List.mem_cons_self, rfl, absurd rfl⟩
  · refine (Res.Ends.and_all (ruleOf_plain i s) (ruleOf_kept i s)).mono (fun a u h => ?_) fun _ _ => trivial
    obtain ⟨hplain, -, -, -, hkept⟩ := h
    have herrors : Unchanged s u .errors := hkept .errors (errors_not_mem_writes hi)
    exact ⟨hplain, herrors.1.trans hf, fun _ => herrors⟩

/-- What a command given in RUN can do: it ends outside FAULT with a plain status, or raises. -/
theorem exec_cases_of_run {i : Instr} {s t : State} (hf : s.fault = false) (h : exec i s = .next t) :
    (∃ (a : Response) (u : State), t = u.respond a.status a.rdata ∧ a.status ∈ plainStatuses ∧ u.fault = false
      ∧ (i ≠ .sessionReset → Unchanged s u .errors))
    ∨ ∃ (c : Cause) (info : Word64) (u : State), t = u.raiseError i.opcode c info := by
  by_cases hl : i.wellFormed = true
  · have hrule := ruleOf_endsInRun i hf
    rw [exec_of_runs (.inl hf) hl] at h
    rcases finish_eq_next h with ⟨a, u, hr, rfl⟩ | ⟨c, info, u, hr, rfl⟩
    · rw [hr] at hrule
      exact .inl ⟨a, u, rfl, hrule⟩
    · exact .inr ⟨c, info, u, rfl⟩
  · rw [exec_of_illFormed (Bool.eq_false_of_not_eq_true hl) (.inl hf)] at h
    cases h
    exact .inl ⟨⟨.illegal, 0#64⟩, s, rfl, by decide, hf, fun _ => Unchanged.refl s .errors⟩

/-- Settles O8: a command given in RUN sets FAULT exactly when it raises. -/
theorem raisingRecordsTheError : Obligations.RaisingRecordsTheError := by
  intro i s t hf h
  rcases exec_cases_of_run hf h with ⟨a, u, rfl, hplain, hu, hrecord⟩ | ⟨c, info, u, rfl⟩
  · refine ⟨fun hfault => absurd (hu.symm.trans hfault) Bool.false_ne_true, fun _ => ⟨⟨a, ?_, ?_⟩, fun hi => ?_⟩⟩
    · exact lastResponse_respond u a.status a.rdata
    · simpa [plainStatuses] using hplain
    · exact respond_unchanged (hrecord hi) _ _
  · exact ⟨fun _ => ⟨c, rfl, rfl, rfl, lastResponse_respond _ _ _⟩, fun hrun => absurd hrun.symm Bool.false_ne_true⟩

/-! ### The nine commands that run in FAULT (R223) -/

/-- The nine are the read-only commands and SESSION_RESET. -/
theorem isReadOnly_of_runsInFault {i : Instr} (h : runsInFault i = true) (hi : i ≠ .sessionReset) : isReadOnly i = true := by
  cases i with
  | sessionReset => exact absurd rfl hi
  | _ => exact h

theorem runsInFault_of_isReadOnly {i : Instr} (h : isReadOnly i = true) : runsInFault i = true := by
  cases i with
  | sessionReset => rfl
  | _ => exact h

/-- What a read-only command answers when its operands are legal; any other command is answered like `NOP` here. -/
def queryAnswer (s : State) : Instr → Response
  | .rdreg a =>
    match regOfNum a with
    | some r => ⟨.ok, readReg s r⟩
    | none => ⟨.illegal, 0#64⟩
  | .nodeGet v =>
    match nodeAt s (nodeIdOf v) with
    | none => ⟨.fail, 0#64⟩
    | some nd => ⟨.ok, (nodeFields nd).setWidth 64⟩
  | .nodeWeight v =>
    match weightOf s (nodeIdOf v) with
    | none => ⟨.fail, 0#64⟩
    | some w => ⟨.ok, w⟩
  | .ftGet a => ⟨.ok, symGet s.ft a⟩
  | .ctLen a => ⟨.ok, (codeLenWord (symGet s.ct a)).setWidth 64⟩
  | .ctWord a k => ⟨.ok, codeWord (symGet s.ct a) (k.setWidth 2).toNat⟩
  | .tbufRd v => if s.tlen.toNat ≤ v.toNat then ⟨.fail, 0#64⟩ else ⟨.ok, (s.tbuf.read v.toNat).setWidth 64⟩
  | _ => ⟨.ok, 0#64⟩

theorem ruleOf_readOnly {i : Instr} (h : isReadOnly i = true) (s : State) : ruleOf i s = .ok (queryAnswer s i) s := by
  cases i with
  | nop | ftGet a | ctLen a | ctWord a k => rfl
  | rdreg a =>
    simp only [ruleOf, queryAnswer]
    cases regOfNum a <;> rfl
  | nodeGet v =>
    simp only [ruleOf, queryAnswer]
    cases nodeAt s (nodeIdOf v) <;> rfl
  | nodeWeight v =>
    simp only [ruleOf, queryAnswer]
    cases weightOf s (nodeIdOf v) <;> rfl
  | tbufRd v =>
    simp only [ruleOf, queryAnswer]
    split <;> rfl
  | _ => exact absurd h Bool.false_ne_true

/-- A read-only command changes nothing but the port, whatever the state. -/
theorem exec_readOnly {i : Instr} (h : isReadOnly i = true) (hl : i.wellFormed = true) (s : State) :
    exec i s = .next (s.respond (queryAnswer s i).status (queryAnswer s i).rdata) := by
  rw [exec_of_runs (.inr (runsInFault_of_isReadOnly h)) hl, ruleOf_readOnly h, finish_ok]

/-- The state with the FAULT bit set to `b`. -/
abbrev State.withFault (s : State) (b : Bool) : State := { s with fault := b }

theorem regMap_status : ∀ row ∈ regMap, row.2 = .status → row.1 = 0x01#8 := by decide

/-- STATUS is the one register that shows the FAULT bit (10_state R37). -/
theorem readReg_withFault {r : Reg} (hr : r ≠ .status) (s : State) (b : Bool) : readReg (s.withFault b) r = readReg s r := by
  cases r with
  | status => exact absurd rfl hr
  | _ => rfl

/-- Apart from `RDREG STATUS` a read-only command gives the same answer whatever the FAULT bit. -/
theorem queryAnswer_withFault {i : Instr} (hi : i ≠ .rdreg 0x01#8) (s : State) (b : Bool) :
    queryAnswer (s.withFault b) i = queryAnswer s i := by
  cases i with
  | rdreg a =>
    simp only [queryAnswer]
    cases hr : regOfNum a with
    | none => rfl
    | some r =>
      have hstatus : r ≠ .status := fun e =>
        hi (congrArg Instr.rdreg (regMap_status (a, r) (mem_regMap_of_regOfNum hr) e))
      exact congrArg (Response.mk .ok) (readReg_withFault hstatus s b)
  | _ => rfl

/-- A read-only command answers one plain response in every state that differs in the FAULT bit alone, unless it shows that
bit, and changes nothing but the port. -/
theorem exists_readOnly_answer {i : Instr} (h : isReadOnly i = true) (s : State) :
    ∃ a : Response, a.status ∈ plainStatuses ∧ exec i s = .next (s.respond a.status a.rdata)
      ∧ (i ≠ .rdreg 0x01#8 → ∀ b, exec i (s.withFault b) = .next ((s.withFault b).respond a.status a.rdata)) := by
  by_cases hl : i.wellFormed = true
  · have hplain := ruleOf_plain i s
    rw [ruleOf_readOnly h] at hplain
    refine ⟨queryAnswer s i, hplain, exec_readOnly h hl s, fun hi b => ?_⟩
    rw [exec_readOnly h hl, queryAnswer_withFault hi]
  · have hill := fun u => exec_of_illFormed (s := u) (Bool.eq_false_of_not_eq_true hl) (.inr (runsInFault_of_isReadOnly h))
    exact ⟨⟨.illegal, 0#64⟩, by decide, hill s, fun _ b => hill _⟩

theorem exec_sessionReset (s : State) : exec .sessionReset s = .next (s.sessionReset.respond .ok 0#64) :=
  exec_of_runs (.inr rfl) rfl

/-- Settles O9: the gate holds back the others; the read-only commands answer from pieces of state that hold no FAULT bit. -/
theorem faultStateAllowsNineCommands : Obligations.FaultStateAllowsNineCommands := by
  refine ⟨fun i s => exec_of_gated, fun i s hruns => ?_, fun i s hruns hi => ?_, fun i s hruns hi hstatus => ?_⟩
  · by_cases hi : i = .sessionReset
    · subst hi
      exact ⟨_, _, exec_sessionReset s, lastResponse_respond _ _ _, by decide⟩
    · obtain ⟨a, hplain, hexec, -⟩ := exists_readOnly_answer (isReadOnly_of_runsInFault hruns hi) s
      refine ⟨_, a, hexec, lastResponse_respond _ _ _, fun hfaulted => ?_⟩
      rw [hfaulted] at hplain
      exact absurd hplain (by decide)
  · obtain ⟨a, -, hexec, -⟩ := exists_readOnly_answer (isReadOnly_of_runsInFault hruns hi) s
    exact ⟨_, _, hexec⟩
  · obtain ⟨a, -, -, hsame⟩ := exists_readOnly_answer (isReadOnly_of_runsInFault hruns hi) s
    exact ⟨_, _, hsame hstatus⟩

/-! ### The two resets that leave FAULT (R224, R225) -/

/-- In FAULT every command but SESSION_RESET changes nothing but the port. -/
theorem exec_in_fault {i : Instr} {s : State} (hf : s.fault = true) (hi : i ≠ .sessionReset) :
    ∃ st v, exec i s = .next (s.respond st v) := by
  cases hruns : runsInFault i with
  | false => exact ⟨_, _, exec_of_gated hf hruns⟩
  | true =>
    obtain ⟨a, -, hexec, -⟩ := exists_readOnly_answer (isReadOnly_of_runsInFault hruns hi) s
    exact ⟨_, _, hexec⟩

/-- SESSION_RESET has one command word. -/
theorem eq_of_decode_sessionReset {cw : BitVec 16} {w : Word64} (h : decode cw w = .ok .sessionReset) : cw = 0x0100#16 := by
  obtain ⟨row, -, -, hencode⟩ := decodeAndEncodeAgree.2 cw w _ h
  exact (congrArg Prod.fst hencode).symm

/-- A step from FAULT is a reset, or leaves the FAULT bit and the error record as they were. -/
theorem step_in_fault {s t : State} (hf : s.fault = true) (h : step s = .next t) :
    (t.fault = false
      ∧ ((∃ rest, s.host.events = .hardReset :: rest) ∨ ∃ w rest, s.host.events = .command 0x0100#16 w :: rest))
    ∨ Unchanged s t .errors := by
  match he : s.host.events with
  | [] =>
    rw [step, he] at h
    cases h
    exact .inr (Unchanged.refl s .errors)
  | .hardReset :: rest =>
    rw [step, he] at h
    cases h
    exact .inl ⟨rfl, .inl ⟨rest, rfl⟩⟩
  | .sourceChange content pos :: rest =>
    rw [step, he] at h
    cases h
    exact .inr (Unchanged.refl s .errors)
  | .command cw w :: rest =>
    cases hd : decode cw w with
    | error e =>
      rw [step_of_decode_error he hd] at h
      cases h
      exact .inr (Unchanged.refl s .errors)
    | ok i =>
      rw [step_of_decode_ok he hd] at h
      by_cases hi : i = .sessionReset
      · subst hi
        rw [exec_sessionReset] at h
        cases h
        rw [eq_of_decode_sessionReset hd]
        exact .inl ⟨rfl, .inr ⟨w, rest, rfl⟩⟩
      · obtain ⟨st, v, hexec⟩ := exec_in_fault (s := s.withEvents rest) hf hi
        rw [hexec] at h
        cases h
        exact .inr (Unchanged.refl s .errors)

/-- Settles O10: a step that is no reset leaves the record alone, and a reset leaves FAULT. -/
theorem faultLastsUntilAReset : Obligations.FaultLastsUntilAReset := by
  intro s t hf h
  rcases step_in_fault hf h with ⟨hrun, hreset⟩ | hkept
  · exact ⟨fun _ => hreset, fun hfault => absurd (hrun.symm.trans hfault) Bool.false_ne_true⟩
  · refine ⟨fun hrun => ?_, fun _ => hkept⟩
    exact absurd (hrun.symm.trans (hkept.1.trans hf)) Bool.false_ne_true

end Sys2Proof.Machine
end

section
/-! From a state that meets the invariants no step stops (60_exceptions R215, 70_reset_and_hazards R260, 20_memory R76): every
node followed is allocated, every index is inside its array, and every loop takes bytes or bits that are still there. -/

namespace Sys2Proof.Machine

open Sys2Proof

/-! ### Pieces of a command that do not stop -/

/-- A piece that does not stop, and leaves a value and a state with `Q` when it ends well. -/
def Res.Runs {α : Type} (Q : α → State → Prop) : Res α → Prop
  | .ok v t => Q v t
  | .raised _ _ _ => True
  | .stuck _ => False

/-- A piece that ends well or raises. -/
abbrev Res.Completes {α : Type} (r : Res α) : Prop := r.Runs fun _ _ => True

theorem Res.Runs.mono {α : Type} {Q Q' : α → State → Prop} {r : Res α} (h : r.Runs Q) (hQ : ∀ v t, Q v t → Q' v t) :
    r.Runs Q' := by
  cases r with
  | ok v t => exact hQ v t h
  | raised c info t => trivial
  | stuck f => exact h

theorem Res.Runs.bind {α β : Type} {Q : α → State → Prop} {Q' : β → State → Prop} {r : Res α} {k : α → State → Res β}
    (h : r.Runs Q) (hk : ∀ v t, Q v t → (k v t).Runs Q') : (r.bind k).Runs Q' := by
  cases r with
  | ok v t => exact hk v t h
  | raised c info t => trivial
  | stuck f => exact h

/-- A piece after which the command answers. -/
theorem Res.Runs.answerOk {α : Type} {Q : α → State → Prop} {r : Res α} (h : r.Runs Q) (v : α → State → Word64)
    (u : α → State → State) : (r.bind fun a t => answerOk (v a t) (u a t)).Completes :=
  h.bind fun _ _ _ => trivial

/-- What is known of the states a piece leaves adds to what it runs to. -/
theorem Res.Runs.and_ends {α : Type} {Q Q' : α → State → Prop} {R : State → Prop} {r : Res α} (h : r.Runs Q)
    (h' : r.Ends Q' R) : r.Runs fun v t => Q v t ∧ Q' v t := by
  cases r with
  | ok v t => exact ⟨h, h'⟩
  | raised c info t => trivial
  | stuck f => exact h

theorem Res.Runs.and_all {α : Type} {Q : α → State → Prop} {I : State → Prop} {r : Res α} (h : r.Runs Q) (hI : r.All I) :
    r.Runs fun v t => Q v t ∧ I t := h.and_ends hI.ends

theorem Res.Runs.of_ok {α : Type} {Q : α → State → Prop} {r : Res α} {v : α} {t : State} (h : r = .ok v t) (hQ : Q v t) :
    r.Runs Q := by
  rw [h]
  exact hQ

theorem Res.Runs.of_raised {α : Type} {Q : α → State → Prop} {r : Res α} {c : Cause} {info : Word64} {t : State}
    (h : r = .raised c info t) : r.Runs Q := by
  rw [h]
  trivial

/-- A command whose rule does not stop gives a next state. -/
theorem Res.Completes.finish {r : Res Response} (h : r.Completes) (op : BitVec 8) : ∃ t, finish op r = .next t := by
  cases r with
  | ok a u => exact ⟨_, finish_ok op a u⟩
  | raised c info u => exact ⟨_, finish_raised op c info u⟩
  | stuck f => exact h.elim

/-! ### Nodes and queue -/

theorem alloc_completes (nd : Node) (s : State) : (alloc nd s).Completes := by
  rcases alloc_cases nd s with ⟨-, h⟩ | ⟨-, h⟩
  · exact .of_raised h
  · exact .of_ok h trivial

/-- Every entry of the queue is allocated, so its weight is there to compare. -/
theorem qInsert_completes {n : NodeId} {s : State} (hs : QueueInv s) (hn : n.toNat < s.nodes.length) :
    (qInsert n s).Completes := by
  obtain ⟨-, -, -, hq, -⟩ := hs
  by_cases hroom : s.q.length = s.qcap.toNat
  · exact .of_raised (qInsert_full n hroom)
  · obtain ⟨p, -, h⟩ := qInsert_ok hn hroom hq
    exact .of_ok h trivial

theorem qExtract_completes {s : State} (h : s.q.length ≠ 0) : (qExtract s).Completes := by
  obtain ⟨n, rest, hq⟩ := List.exists_cons_of_ne_nil (List.ne_nil_of_length_pos (Nat.pos_of_ne_zero h))
  exact .of_ok (qExtract_cons hq) trivial

/-! ### Streams -/

/-- The bytes a read delivers are the ones the source loses. -/
theorem srcRead_runs (n : Nat) (s : State) : (srcRead n s).Runs fun d t => srcLeft t + d.length = srcLeft s := by
  have taken : ∀ k, s.env.src.length - (s.env.spos + ((s.env.src.drop s.env.spos).take k).length)
      + ((s.env.src.drop s.env.spos).take k).length = s.env.src.length - s.env.spos := fun k => by
    rw [List.length_take, List.length_drop]
    omega
  unfold srcRead srcDeliver
  split
  · exact taken _
  · exact taken _
  · trivial

theorem srcReadLoop_completes (f : Nat) : ∀ n s, (srcReadLoop f n s).Completes := by
  induction f with
  | zero => exact fun _ _ => trivial
  | succ f ih =>
    intro n s
    unfold srcReadLoop
    split
    · trivial
    · refine (srcRead_runs n s).bind fun d t _ => ?_
      split
      · trivial
      · exact (ih _ t).bind fun _ _ _ => trivial

theorem srcReadExact_completes (n : Nat) (s : State) : (srcReadExact n s).Completes := srcReadLoop_completes n n s

theorem srcRewind_completes (s : State) : (srcRewind s).Completes := by
  unfold srcRewind
  split <;> trivial

theorem sinkWrite_completes (bytes : List Byte) (s : State) : (sinkWrite bytes s).Completes := by
  unfold sinkWrite
  split <;> trivial

theorem srcLeft_dependsOn (n : Nat) : DependsOn [.source] fun s => srcLeft s = n := by
  intro s t _ hsrc h hs
  obtain ⟨hspos, -⟩ := h .source (by decide)
  rw [srcLeft, hsrc, hspos]
  exact hs

/-! ### FT_SCAN (42 R144) -/

theorem countByte_completes (b : Byte) (s : State) : (countByte b s).Completes := by
  rcases countByte_cases b s with ⟨-, h⟩ | ⟨-, -, h⟩
  · exact .of_raised h
  · exact .of_ok h trivial

theorem countBytes_completes (bs : List Byte) : ∀ s, (countBytes bs s).Completes := by
  induction bs with
  | nil => exact fun _ => trivial
  | cons b bs ih => exact fun s => (countByte_completes b s).bind fun _ t _ => ih t

/-- Every round takes a byte of the source, so more rounds than bytes suffice. -/
theorem scanLoop_completes (f : Nat) : ∀ n s, srcLeft s < f → (scanLoop f n s).Completes := by
  induction f with
  | zero => exact fun _ _ hf => absurd hf (Nat.not_lt_zero _)
  | succ f ih =>
    intro n s hf
    refine (srcRead_runs _ s).bind fun d t hd => ?_
    split
    · trivial
    · rename_i hne
      have hpos : 0 < d.length := List.length_pos_iff.mpr hne
      have hcounted := (srcLeft_dependsOn (srcLeft t)).all_of_kept (countBytes_kept d t) (by decide) rfl
      exact ((countBytes_completes d t).and_all hcounted).bind fun _ u ⟨_, hu⟩ => ih _ u (by omega)

/-! ### Trees -/

theorem buildTree_completes (s : State) : (buildTree s).Completes := by
  by_cases hmany : 2 ≤ (countedSyms s).length
  · rcases buildTree_cases hmany with ⟨nodes, r, -, h⟩ | ⟨nodes, a, b, q, -, h⟩
    · exact .of_ok (h s rfl) trivial
    · exact .of_raised (h s rfl)
  · exact .of_ok (if_pos (Nat.lt_of_not_le hmany)) trivial

/-- The tree under `ROOT`, of no more nodes than the pool has slots. -/
theorem TreeInv.tree {s : State} (hs : TreeInv s) (hroot : s.root ≠ nil) :
    ∃ t, Represents s.nodes s.root t ∧ t.size ≤ nodeMax := by
  obtain ⟨hlen, hnil | ⟨t, ht, -, hsize⟩⟩ := hs
  · exact absurd hnil hroot
  · exact ⟨t, ht, hsize.trans hlen⟩

/-- A walk of a tree comes to its leaves, or to a node with no room below it. -/
theorem walk_completes {s : State} {n : NodeId} {t : CodeTree} (room : Nat) (h : Represents s.nodes n t) :
    (walk room n 0 0#256 s).Completes := by
  rcases Nat.lt_or_ge room t.depth with hdeep | hfits
  · obtain ⟨ct, path, m, hwalk, -⟩ := walk_stops (max := room) (p := []) t h hdeep (Nat.zero_add room)
    exact .of_raised hwalk
  · obtain ⟨ct, hwalk, -⟩ := walk_records (max := room) (p := []) t h hfits (Nat.zero_add room)
    exact .of_ok hwalk trivial

theorem generateCodes_completes {s : State} (hs : TreeInv s) : (generateCodes s).Completes := by
  unfold generateCodes
  split
  · trivial
  · rename_i hroot
    obtain ⟨t, ht, -⟩ := hs.tree hroot
    exact (walk_completes (s := s.clearedCodes) _ ht).answerOk _ _

theorem dumpTree_completes {s : State} (hs : TreeInv s) : (dumpTree s).Completes := by
  by_cases hroot : s.root = nil
  · exact .of_ok (if_pos hroot) trivial
  · obtain ⟨t, ht, hsize⟩ := hs.tree hroot
    have hleaves : t.leaves ≤ 256 := by
      have := t.size_add_one
      rw [nodeMax] at hsize
      omega
    exact .of_ok (dumpTree_of_root hroot ht hleaves) trivial

theorem rebuildTree_completes {s : State} (hs : TlenInv s) : (rebuildTree s).Completes := by
  rcases rebuildTree_cases hs with ⟨tree, -, h⟩ | ⟨c, info, stack, -, h⟩
  · exact .of_ok h trivial
  · exact .of_raised h

theorem loadTree_completes (s : State) : (loadTree s).Completes := by
  unfold loadTree
  dsimp only
  split
  · trivial
  · refine (srcReadExact_completes _ s).bind fun d t _ => ?_
    split <;> trivial

theorem storeTree_completes {s : State} (hs : TlenInv s) : (storeTree s).Completes := by
  unfold storeTree
  split
  · rename_i hlong
    exact absurd hs (Nat.not_le_of_lt hlong)
  · split
    · trivial
    · exact (sinkWrite_completes _ s).answerOk _ _

/-! ### The writer (45 R180 to R182, 46 R198) -/

/-- The writer between two bits of a command: its cursor is inside the block, and `n` bytes of the source are still to be
encoded. -/
abbrev Encoding (n : Nat) (s : State) : Prop := WriterInv s ∧ s.fault = false ∧ srcLeft s = n

theorem faultClear_dependsOn : DependsOn [.errors] fun s => s.fault = false := by
  intro s t _ _ h hs
  obtain ⟨hfault, -⟩ := h .errors (by decide)
  exact hfault.trans hs

/-- The bit goes inside the block, and the cursor is inside a block again. -/
theorem writeBit_runs (b : Bool) {n : Nat} {s : State} (hs : Encoding n s) : (writeBit b s).Runs fun _ => Encoding n := by
  obtain ⟨hwriter, hfault, hleft⟩ := hs
  have completes : (writeBit b s).Completes := by
    have hcursor : s.wCursor < 8 * s.params.blockBytes := hwriter.2 hfault
    have hi : s.wCursor / 8 < s.params.blockBytes := by omega
    unfold writeBit flushFull
    dsimp only
    rw [if_pos hi]
    split
    · exact (sinkWrite_completes _ _).bind fun _ _ _ => trivial
    · trivial
  have running := faultClear_dependsOn.all_of_kept (writeBit_kept b s) (by decide) hfault
  have unread := (srcLeft_dependsOn n).all_of_kept (writeBit_kept b s) (by decide) hleft
  exact ((completes.and_ends (writeBit_writerInv b s hwriter)).and_all (running.and unread)).mono
    fun _ _ ⟨⟨_, hwt⟩, ht⟩ => ⟨hwt, ht⟩

theorem writeBits_runs (bs : List Bool) {n : Nat} : ∀ {s}, Encoding n s → (writeBits bs s).Runs fun _ => Encoding n := by
  induction bs with
  | nil => exact fun hs => hs
  | cons b bs ih => exact fun hs => (writeBit_runs b hs).bind fun _ _ ht => ih ht

theorem writeSym_completes (a : Sym) {n : Nat} {s : State} (hs : Encoding n s) : (writeSym a s).Completes := by
  unfold writeSym
  split
  · trivial
  · split
    · trivial
    · exact (writeBits_runs _ hs).answerOk _ _

/-- The pending bits fill no more than the block. -/
theorem finalize_completes {s : State} (hs : WriterInv s) : (finalize s).Completes := by
  obtain ⟨⟨-, hcursor⟩, -⟩ := hs
  have hbits : s.params.blockBits = 8 * s.params.blockBytes := rfl
  have hfits : ceil8 s.wCursor ≤ s.params.blockBytes := by
    rw [ceil8]
    omega
  unfold finalize
  dsimp only
  split
  · trivial
  · rw [if_neg (Nat.not_lt_of_le hfits)]
    split
    · trivial
    · exact (sinkWrite_completes _ _).answerOk _ _

theorem encodeBytes_runs (bs : List Byte) {n : Nat} :
    ∀ {s}, Encoding n s → (encodeBytes bs s).Runs fun _ => Encoding n := by
  induction bs with
  | nil => exact fun hs => hs
  | cons b bs ih =>
    intro s hs
    unfold encodeBytes
    split
    · trivial
    · exact (writeBits_runs _ hs).bind fun _ _ ht => ih ht

/-- Every round takes a byte of the source, so more rounds than bytes suffice. -/
theorem encodeLoop_completes (f : Nat) : ∀ {n} cnt s, Encoding n s → n < f → (encodeLoop f cnt s).Completes := by
  induction f with
  | zero => exact fun _ _ _ hf => absurd hf (Nat.not_lt_zero _)
  | succ f ih =>
    intro n cnt s ⟨hwriter, hfault, hleft⟩ hf
    have written := writerInv_dependsOn.all_of_kept (srcRead_kept s.params.blockBytes s) (by decide) hwriter
    have running := faultClear_dependsOn.all_of_kept (srcRead_kept s.params.blockBytes s) (by decide) hfault
    refine ((srcRead_runs _ s).and_all (written.and running)).bind fun d t ⟨hd, hwt, hft⟩ => ?_
    split
    · trivial
    · rename_i hne
      have hpos : 0 < d.length := List.length_pos_iff.mpr hne
      exact (encodeBytes_runs d (n := srcLeft t) ⟨hwt, hft, rfl⟩).bind fun _ u hu => ih _ u hu (by omega)

theorem encodeBody_completes {s : State} (hs : Encoding (srcLeft s) s) : (encodeBody s).Completes := by
  unfold encodeBody
  split
  · trivial
  · exact (encodeLoop_completes _ 0 s hs (Nat.lt_succ_self _)).answerOk _ _

/-! ### The reader and the decoder (45 R184, 46 R199, R200) -/

theorem bitsLeft_dependsOn (n : Nat) : DependsOn [.reader, .source] fun s => bitsLeft s = n := by
  intro s t _ hsrc h hs
  obtain ⟨hlen, hcursor, -⟩ := h .reader (by decide)
  obtain ⟨hspos, -⟩ := h .source (by decide)
  rw [bitsLeft, srcLeft, hlen, hcursor, hsrc, hspos]
  exact hs

/-- A bit of the block is one bit fewer to come. -/
theorem takeBit_runs {s : State} (hlen : s.rLen ≤ s.params.blockBytes) (hcursor : s.rCursor < 8 * s.rLen) :
    (takeBit s).Runs fun _ t => bitsLeft t < bitsLeft s := by
  refine .of_ok (takeBit_ok (by omega)) ?_
  show 8 * srcLeft s + (8 * s.rLen - (s.rCursor + 1)) < 8 * srcLeft s + (8 * s.rLen - s.rCursor)
  omega

/-- A bit read, from the block or from the next one, is one bit fewer to come. -/
theorem readBit_runs {s : State} (hs : ReaderInv s) :
    (readBit s).Runs fun b t => b ≠ none → bitsLeft t < bitsLeft s := by
  obtain ⟨hlen, hcursor, -⟩ := hs
  unfold readBit
  split
  · exact fun h => absurd rfl h
  · split
    · rename_i hend
      refine (((srcRead_runs _ s).and_ends (srcRead_length _ s)).and_all (srcRead_kept _ s)).bind
        fun d t ⟨⟨hd, hshort⟩, hparams, _⟩ => ?_
      dsimp only
      split
      · exact fun h => absurd rfl h
      · rename_i hne
        have hpos : 0 < d.length := List.length_pos_iff.mpr hne
        rw [← hparams] at hshort
        refine (takeBit_runs (s := { t with rbuf := t.rbuf.writeBytes 0 d, rLen := d.length, rCursor := 0 }) hshort
          (Nat.mul_pos (by decide) hpos)).mono fun _ u hu _ => Nat.lt_of_lt_of_le hu ?_
        show 8 * srcLeft t + (8 * d.length - 0) ≤ 8 * srcLeft s + (8 * s.rLen - s.rCursor)
        omega
    · rename_i hne
      exact (takeBit_runs hlen (Nat.lt_of_le_of_ne hcursor hne)).mono fun _ _ h _ => h

theorem rdBit_completes {s : State} (hs : ReaderInv s) : (ruleOf .rdBit s).Completes := by
  refine (readBit_runs hs).bind fun b t _ => ?_
  cases b <;> trivial

theorem emitSym_runs (a : Sym) (s : State) : (emitSym a s).Runs fun _ t => bitsLeft t = bitsLeft s := by
  have completes : (emitSym a s).Completes := (sinkWrite_completes [a] s).bind fun _ _ _ => trivial
  have unread := (bitsLeft_dependsOn (bitsLeft s)).all_of_kept (emitSym_kept a s) (by decide) rfl
  exact (completes.and_all unread).mono fun _ _ ⟨_, h⟩ => h

/-- The decoder on its walk: it stands at an Internal node of a strict tree, with fewer than `n` bits still to come. -/
abbrev Walking (l r : CodeTree) (n : Nat) (s : State) : Prop :=
  ReaderInv s ∧ Represents s.nodes s.dcur (.node l r) ∧ bitsLeft s < n

/-- Every move takes a bit and goes down the tree, so the walk ends at a leaf or where the bits do. -/
theorem decodeWalk_runs (f : Nat) : ∀ {l r s}, Walking l r f s → (decodeWalk f s).Runs fun _ t => bitsLeft t < bitsLeft s := by
  induction f with
  | zero => exact fun h => absurd h.2.2 (Nat.not_lt_zero _)
  | succ f ih =>
    intro l r s ⟨hreader, htree, hf⟩
    unfold decodeWalk
    refine (((readBit_runs hreader).and_all (readBit_readerInv s hreader)).and_all (readBit_kept s)).bind
      fun b t ⟨⟨hfewer, hrt⟩, hkept⟩ => ?_
    obtain ⟨-, -, -, hspaces⟩ := hkept
    have hnodes : t.nodes = s.nodes := hspaces .pool (by decide)
    have hdcur : t.dcur = s.dcur := hspaces .dcur (by decide)
    cases b with
    | none => trivial
    | some b =>
      have hfewer := hfewer (Option.some_ne_none b)
      obtain ⟨nd, hnode, hchild, -⟩ := represents_child htree b
      rw [← hnodes] at hnode hchild
      rw [← hdcur] at hnode
      have hnode : nodeAt t t.dcur = some nd := hnode
      dsimp only
      rw [hnode]
      dsimp only
      match hsub : (if b then r else l), hchild with
      | .leaf a, ⟨w, hleaf⟩ =>
        have hleaf : nodeAt { t with dcur := nd.child b } (nd.child b) = some (.leaf a w) := hleaf
        rw [hleaf]
        exact (emitSym_runs a { t with dcur := nd.child b }).mono fun _ u hu => hu.trans_lt hfewer
      | .node l' r', hchild =>
        obtain ⟨w, i, j, hinner, -⟩ := id hchild
        have hinner : nodeAt { t with dcur := nd.child b } (nd.child b) = some (.internal w i j) := hinner
        rw [hinner]
        have hwalking : Walking l' r' f { t with dcur := nd.child b } :=
          ⟨hrt, hchild, Nat.lt_of_lt_of_le hfewer (Nat.le_of_lt_succ hf)⟩
        exact (ih hwalking).mono fun _ u hu => Nat.lt_trans hu hfewer

/-- A symbol takes a bit at least. -/
theorem decodeOne_runs {s : State} {t : CodeTree} (hs : ReaderInv s) (ht : Represents s.nodes s.root t) :
    (decodeOne s).Runs fun _ u => bitsLeft u < bitsLeft s := by
  cases t with
  | leaf a => exact .of_raised (decodeOne_of_leaf ht)
  | node l r =>
    rw [decodeOne_eq_walk ht]
    exact decodeWalk_runs _ (s := { s with dcur := s.root }) ⟨hs, ht, Nat.lt_succ_self _⟩

/-- Every round takes a bit, so more rounds than bits suffice. -/
theorem decodeLoop_completes (f : Nat) : ∀ {t} cnt s, ReaderInv s → Represents s.nodes s.root t → bitsLeft s < f →
    (decodeLoop f cnt s).Completes := by
  induction f with
  | zero => exact fun _ _ _ _ hf => absurd hf (Nat.not_lt_zero _)
  | succ f ih =>
    intro t cnt s hs ht hf
    have reader := decodeOne_all readBit_readerInv (fun _ _ h => h)
      (fun a s h => readerInv_dependsOn.all_of_kept (emitSym_kept a s) (by decide) h) hs
    unfold decodeLoop
    split
    · refine (((decodeOne_runs hs ht).and_all reader).and_all (decodeOne_kept s)).bind
        fun a u ⟨⟨hfewer, hru⟩, hkept⟩ => ?_
      obtain ⟨-, -, -, hspaces⟩ := hkept
      have hnodes : u.nodes = s.nodes := hspaces .pool (by decide)
      have hroot : u.root = s.root := hspaces .root (by decide)
      rw [← hnodes, ← hroot] at ht
      exact ih _ u hru ht (by omega)
    · trivial

theorem decSym_completes {s : State} (hs : ReaderInv s) (htree : TreeInv s) : (ruleOf .decSym s).Completes := by
  simp only [ruleOf]
  split
  · trivial
  · rename_i hroot
    obtain ⟨t, ht, -⟩ := htree.tree hroot
    exact (decodeOne_runs hs ht).answerOk _ _

theorem decodeBody_completes {s : State} (hs : ReaderInv s) (htree : TreeInv s) : (decodeBody s).Completes := by
  unfold decodeBody
  split
  · trivial
  · rename_i hroot
    obtain ⟨t, ht, -⟩ := htree.tree hroot
    exact (decodeLoop_completes _ 0 s hs ht (Nat.lt_succ_self _)).answerOk _ _

/-! ### Every command, and every step -/

/-- The rule of a command that may run does not stop in a state that meets the invariants. -/
theorem ruleOf_completes {i : Instr} {s : State} (hs : SafeInv s) (hf : s.fault = false ∨ runsInFault i = true) :
    (ruleOf i s).Completes := by
  obtain ⟨hcursors, hqueue, htree⟩ := hs
  obtain ⟨htlen, hwriter, hreader, -⟩ := (cursorInv_iff s).mp hcursors
  have encoding : runsInFault i = false → Encoding (srcLeft s) s := fun hi =>
    ⟨hwriter, hf.resolve_right (by rw [hi]; exact Bool.false_ne_true), rfl⟩
  cases i with
  | nop | sessionReset | qCreate v | ftClr | ftSet a v | ftGet a | ftPad | treeFree | ctLen a | ctWord a k | tbufWr b v =>
    trivial
  | rdreg a | wrreg a v | nodeGet v | nodeWeight v | tbufRd v =>
    simp only [ruleOf]
    split <;> trivial
  | qInsert v =>
    simp only [ruleOf]
    split
    · trivial
    · rename_i habsent
      exact (qInsert_completes hqueue (Nat.lt_of_not_le habsent)).answerOk _ _
  | qExtract =>
    simp only [ruleOf]
    split
    · trivial
    · rename_i hq
      exact (qExtract_completes hq).answerOk _ _
  | nodeLeaf a w => exact (alloc_completes _ s).answerOk _ _
  | ftInc a => exact (countByte_completes a s).answerOk _ _
  | ftScan => exact (scanLoop_completes _ 0 s (Nat.lt_succ_self _)).answerOk _ _
  | tbBuild => exact buildTree_completes s
  | ctGen => exact generateCodes_completes htree
  | tcDump => exact dumpTree_completes htree
  | tcRebuild => exact rebuildTree_completes htlen
  | tcLoad => exact loadTree_completes s
  | tcStore => exact storeTree_completes htlen
  | wrSym a => exact writeSym_completes a (encoding rfl)
  | wrFinal => exact finalize_completes hwriter
  | rdBit => exact rdBit_completes hreader
  | hdrPut => exact (sinkWrite_completes _ s).answerOk _ _
  | hdrGet =>
    refine (srcReadExact_completes 16 s).bind fun d t _ => ?_
    split
    · trivial
    · split <;> trivial
  | srcRewind => exact (srcRewind_completes s).answerOk _ _
  | encBody => exact encodeBody_completes (encoding rfl)
  | decSym => exact decSym_completes hreader htree
  | decBody => exact decodeBody_completes hreader htree

theorem exec_next {s : State} (hs : SafeInv s) (i : Instr) : ∃ t, exec i s = .next t := by
  rw [exec_eq_runCommand]
  rcases runCommand_cases i.opcode (runsInFault i) i.wellFormed (ruleOf i) s with ⟨-, -, e⟩ | ⟨-, -, e⟩ | ⟨hf, -, e⟩ <;> rw [e]
  · exact ⟨_, rfl⟩
  · exact ⟨_, rfl⟩
  · exact (ruleOf_completes hs hf).finish i.opcode

/-- The invariants speak of nothing at the port. -/
theorem SafeInv.popEvent {s : State} (hs : SafeInv s) : SafeInv s.popEvent := hs

/-- Settles O21: no rule stops in a state that meets the invariants, and the other events always give a state. -/
theorem safeStatesNeverStop : Obligations.SafeStatesNeverStop := by
  intro s hs
  unfold step
  split
  · exact ⟨_, rfl⟩
  · split
    · exact exec_next hs.popEvent _
    · exact ⟨_, rfl⟩
  · exact ⟨_, rfl⟩
  · exact ⟨_, rfl⟩

end Sys2Proof.Machine
end

section
/-! The events that are not commands (70_reset_and_hazards R245, R246, R257, R262): a hardware reset makes what a session reset
makes, a change of the source moves nothing else, and an idle port leaves the block as it is. -/

namespace Sys2Proof.Machine

open Sys2Proof

/-- The reset state over the same parameters and streams (R245, R246), with the event taken. -/
theorem step_of_hardReset {s : State} {rest : List HostEvent} (h : s.host.events = .hardReset :: rest) :
    step s = .next (State.resetWith s.params s.env { s.host with events := rest }) := by
  rw [step, h, popEvent_of_cons h]
  rfl

/-- Only the source moves (R257; what it becomes is log entry 11). -/
theorem step_of_sourceChange {s : State} {content : List Byte} {pos : Nat} {rest : List HostEvent}
    (h : s.host.events = .sourceChange content pos :: rest) :
    step s = .next ((s.withEvents rest).changeSource content pos) := by
  rw [step, h, popEvent_of_cons h]

/-- With no event the block holds its state (60_exceptions R236, log entry 5). -/
theorem step_of_idle {s : State} (h : s.host.events = []) : step s = .next s := by
  rw [step, h]

/-- Settles O6: each event has its equation, and a hardware reset ends in a reset state, whose values are those of R44. -/
theorem stepOnOtherEvents : Obligations.StepOnOtherEvents := by
  refine ⟨fun s rest h => ?_, fun s content pos rest h => step_of_sourceChange h, fun s h => step_of_idle h⟩
  exact ⟨_, step_of_hardReset h, resetWith_values _ _ _, rfl, rfl, rfl⟩

end Sys2Proof.Machine
end
